-- ==== Sys2Proof/Word.lean ====
section
/-! DEFINITION. The word types of the model. -/
namespace Sys2Proof

/-- A byte of memory, of the ACEIOBUF or of serialized content (00_scope.md R15). -/
abbrev Byte := BitVec 8

/-- A general register, `pc` or CSR value: `XLEN` bits, held zero-extended in 64 bits (10_state.md R30). -/
abbrev Word := BitVec 64

/-- An instruction word (30_encoding.md R130). -/
abbrev InstrWord := BitVec 32

/-- A 5-bit register or CR field of an instruction word (30_encoding.md R131). -/
abbrev Reg := BitVec 5

/-- A 12-bit immediate before sign extension (30_encoding.md R135, R136). -/
abbrev Imm12 := BitVec 12

/-- A CSR number (40_csr_access.md R170). -/
abbrev CsrAddr := BitVec 12

end Sys2Proof
end

