-- ==== Sys2Proof/Syntax/Csr.lean ====
section
/-! DEFINITION. The CSR instructions of the host that reach the ACE CSRs. They are no rows of
opcode_table.json (but for `ace.error`, a row of its own), so they are a type beside `Instr`. -/
namespace Sys2Proof

/-- What a CSR instruction does with the old value (40_csr_access.md R170). -/
inductive CsrOp where
  /-- Write the source. -/
  | write
  /-- Set the bits of the source. -/
  | setBits
  /-- Clear the bits of the source. -/
  | clearBits
  deriving DecidableEq, Repr

/-- One of the six Zicsr instructions (40_csr_access.md R170): `imm` tells `src` is a 5-bit immediate
and not a general register. -/
structure CsrInstr where
  op : CsrOp
  imm : Bool
  rd : Reg
  src : Reg
  csr : CsrAddr
  deriving DecidableEq, Repr

end Sys2Proof
end

