-- ==== Sys2Proof/Config.lean ====
section
/-! DEFINITION. What an implementation fixes (00_scope.md R11) and the free values the spec leaves open. -/
namespace Sys2Proof

/-! ### Encoding parameters -/

/-- The encoding parameters the source does not print (10_state.md R54, 30_encoding.md R147).
`acestart` is not among them: it is at the number of `vstart`, `0x008`. -/
structure EncParams where
  /-- `ACE_INPUT_F3`. -/
  inputF3 : BitVec 3
  csrError : CsrAddr
  csrMarchid : CsrAddr
  csrIobuflen : CsrAddr
  csrIobuftop : CsrAddr
  csrSequence : CsrAddr
  csrActivecr : CsrAddr
  csrHtrapmask : CsrAddr
  csrHtrapvector : CsrAddr
  deriving DecidableEq, Repr

/-- The CSR number of `acestart`, which is `vstart` (10_state.md R54). -/
def csrStart : CsrAddr := 0x008

/-! ### Algorithms -/

/-- A block cipher an algorithm is instantiated with (00_scope.md R22). -/
inductive Cipher where
  | aes128
  | aes192
  | aes256
  | sm4
  /-- A cipher outside the spec: its identity, block size and key size in bits. -/
  | custom (id b k : Nat)
  deriving DecidableEq, Repr, Inhabited

/-- The block size `b` of a cipher in bits (00_scope.md R19). -/
def Cipher.blockBits : Cipher → Nat
  | .custom _ b _ => b
  | _ => 128

/-- The key size `k` of a cipher in bits (00_scope.md R19). -/
def Cipher.keyBits : Cipher → Nat
  | .aes128 => 128
  | .aes192 => 192
  | .aes256 => 256
  | .sm4 => 128
  | .custom _ _ k => k

/-- The multiplication of a universal hash (45_alg_aead.md R361, R376). `poly` is the field polynomial
without its leading term. -/
inductive FieldMul where
  /-- `Galoismul`: multiplication modulo the polynomial. -/
  | galois (poly : Nat)
  /-- `Montmul`: the product times `x^-b`. -/
  | mont (poly : Nat)
  deriving DecidableEq, Repr, Inhabited

/-- The variants of Ascon-AEAD128 (47_alg_ascon.md R460, R475, R478). -/
inductive AsconAead where
  | plain
  | setNonce
  | nonceMask
  deriving DecidableEq, Repr, Inhabited

/-- The Ascon hashes (47_alg_ascon.md R482, R488, R489). -/
inductive AsconHash where
  | hash256
  | xof128
  | cxof128
  deriving DecidableEq, Repr, Inhabited

/-- The elliptic curves (48_alg_ecc.md R500). -/
inductive Curve where
  | p256
  | p384
  | p521
  deriving DecidableEq, Repr, Inhabited

/-- An instance of the generic hash, MAC and XOF template: its parameters and the optional fields it
has (46_alg_hash_mac.md R430, R431). Sizes are in bits. -/
structure HashDef where
  /-- Which primitive the opaque functions stand for. -/
  id : Nat
  b : Nat
  t : Nat
  n : Nat
  /-- `some k` for a keyed function (a MAC). -/
  key : Option Nat
  xof : Bool
  /-- The initial value of `state`, the same for every key. DESIGN CHOICE, log 26. -/
  iv : Nat
  useLastLen : Bool
  useBlockBase : Bool
  useCumulLen : Bool
  useBlock : Bool
  /-- The store operation `put` is the instance's own and not a copy into `block`. -/
  ownPut : Bool
  deriving DecidableEq, Repr, Inhabited

/-- The Internal State of the generic template (46_alg_hash_mac.md R431). -/
structure HashIst where
  key : Nat
  state : Nat
  lastBlockLen : Nat
  blockBase : Nat
  cumulLen : Nat
  block : Nat
  deriving DecidableEq, Repr, Inhabited

/-- The four functions an instance of the template supplies (46_alg_hash_mac.md R432). -/
inductive HashFn where
  | absorb
  | absorbLastBlock
  | finalize
  | update
  deriving DecidableEq, Repr, Inhabited

/-- An algorithm definition with its parameters (files 44 to 48). -/
inductive AlgDef where
  /-- ECB (44_alg_block_modes.md R326). -/
  | ecb (c : Cipher)
  /-- The keystream family (44_alg_block_modes.md R331): IV size, counter size, the X modes, and for the
  LFSR modes which step function. -/
  | keystream (c : Cipher) (n j : Nat) (x : Bool) (lfsr : Option Nat)
  /-- XEX and XTS (44_alg_block_modes.md R335): `update_mask` is the product with `mult` modulo `poly`. -/
  | xex (c : Cipher) (twoKeys : Bool) (mult poly : Nat)
  /-- A generic tweakable block cipher (44_alg_block_modes.md R339). -/
  | tbc (id b k t : Nat)
  /-- GCM, and GCM with set IV (45_alg_aead.md R360, R370): counter size and field polynomial. -/
  | gcm (c : Cipher) (ctr : Nat) (setIV : Bool) (poly : Nat)
  /-- GCM-SIV (45_alg_aead.md R375). -/
  | gcmSiv (c : Cipher) (shortTag : Bool) (mul : FieldMul)
  /-- OCB (45_alg_aead.md R390). -/
  | ocb (c : Cipher)
  /-- CMAC (46_alg_hash_mac.md R420). -/
  | cmac (c : Cipher)
  /-- The generic template (46_alg_hash_mac.md R430). -/
  | hash (h : HashDef)
  /-- The SHA-3 family (46_alg_hash_mac.md R445): rate, output size, XOF, domain suffix and its length. -/
  | sha3 (b t : Nat) (xof : Bool) (suffix suffixLen : Nat)
  /-- Ascon-AEAD128 (47_alg_ascon.md R460). -/
  | asconAead (v : AsconAead)
  /-- The Ascon hashes (47_alg_ascon.md R482). -/
  | asconHash (v : AsconHash)
  /-- Elliptic curves (48_alg_ecc.md R500). -/
  | ecc (c : Curve)
  deriving DecidableEq, Repr, Inhabited

/-- One entry of `AlgTable` with what `Supported` says about it (00_scope.md R11). -/
structure AlgEntry where
  /-- The _Algorithm_ value. -/
  alg : BitVec 11
  /-- The _AlgorithmPolicy_ value when that field extends the identifier, `none` when it does not. -/
  ap : Option (BitVec 2)
  /-- _AlgorithmPolicy_ holds permission bits, so `ace.restrict` may change it (41_cr_management.md R220). -/
  permBits : Bool
  /-- The supported combinations of _AlgorithmPolicy_, _SCProtection_ and _KeyType_. -/
  combos : List (BitVec 2 × BitVec 2 × Bool)
  algDef : AlgDef
  deriving DecidableEq, Repr

/-! ### The environment -/

/-- The host's privilege modes (10_state.md R32). -/
inductive Mode where
  | user
  | supervisor
  | machine
  deriving DecidableEq, Repr

/-- What the host's translation and protection may depend on: the mode, whether the H extension is enabled, and the
virtualisation bit (60_exceptions.md R533, R550, R558). -/
structure Privilege where
  mode : Mode
  hEnabled : Bool
  virt : Bool
  deriving DecidableEq, Repr

/-- A range of addresses at which the host's translation or protection stops an access
(60_exceptions.md R533). -/
structure MemRegion where
  base : Nat
  size : Nat
  onRead : Bool
  onWrite : Bool
  /-- Who is stopped. -/
  levels : List Privilege
  /-- A page fault, else an access fault. -/
  page : Bool
  deriving DecidableEq, Repr

/-- The parameters of an implementation (00_scope.md R11). -/
structure Config where
  /-- `XLEN` is 64, else 32. -/
  xlen64 : Bool
  hasV : Bool
  hasIobuf : Bool
  numCR : Nat
  crfCapacity : Nat
  /-- `CR_cost` where it is not the fixed content size: _Algorithm_, _SCProtection_, _KeyType_, cost. -/
  crCosts : List (BitVec 11 × BitVec 2 × Bool × Nat)
  iobufMax : Nat
  iobufInCrf : Bool
  /-- `IOBUF_cost(n)` is `iobufCostBase + iobufCostPerByte * n` where `iobufCosts` has no entry `n`. -/
  iobufCostBase : Nat
  iobufCostPerByte : Nat
  iobufCosts : List (Nat × Nat)
  algTable : List AlgEntry
  /-- `ACEMARCHID`. -/
  archId : Word
  hasSystemImport : Bool
  enc : EncParams
  vlen : Nat
  /-- Where `mem_ok` is not `ok`. -/
  memFaults : List MemRegion
  /-- CSR numbers the host has besides the ACE CSRs. -/
  hostCsrs : List CsrAddr
  deriving DecidableEq, Repr

/-- `XLEN` (00_scope.md R11). -/
def Config.xlen (c : Config) : Nat := if c.xlen64 then 64 else 32

/-! ### Free values

Each is a constant without a body, so nothing can be proved about what it answers. -/

/-- The random stream `ace_rng`: draw `i` as a natural number (48_alg_ecc.md R505, R507). Log 29. -/
opaque Config.rng : Nat → Nat

/-- Bits of a vector register that the tail policy decides: tick, register (10_state.md R36). Log 10. -/
opaque Config.vectorTail : Nat → Nat → Nat

/-- Bits read from a register group past `v31`: tick (10_state.md R36). Log 10. -/
opaque Config.vectorBeyond : Nat → Nat

/-- Encryption by a custom cipher: identity, key, block (00_scope.md R22). Log 20. -/
opaque Config.customEnc : Nat → Nat → Nat → Nat

/-- Decryption by a custom cipher: identity, key, block (00_scope.md R22). Log 20. -/
opaque Config.customDec : Nat → Nat → Nat → Nat

/-- `tbc_enc`: identity, key, tweak, block (44_alg_block_modes.md R339). Log 20. -/
opaque Config.tbcEnc : Nat → Nat → Nat → Nat → Nat

/-- `tbc_dec`: identity, key, tweak, block (44_alg_block_modes.md R339). Log 20. -/
opaque Config.tbcDec : Nat → Nat → Nat → Nat → Nat

/-- The LFSR step of `tick_ctr`: identity, counter (44_alg_block_modes.md R331). Log 21. -/
opaque Config.lfsrTick : Nat → Nat → Nat

/-- The constant of `double` for a block size the source does not list (45_alg_aead.md R391). Log 23. -/
opaque Config.doubleConst : Nat → Nat

/-- A function of a generic hash: identity, which one, Internal State, to the Internal State
(46_alg_hash_mac.md R432). Log 26. -/
opaque Config.hashFn : Nat → HashFn → HashIst → HashIst

/-- The digest `finalize` makes: identity, Internal State (46_alg_hash_mac.md R432, R434). Log 26. -/
opaque Config.hashDigest : Nat → HashIst → Nat

/-- The own store operation `put` of a generic hash: identity, Internal State, position, amount, bits, to the Internal
State (46_alg_hash_mac.md R432). Log 26. -/
opaque Config.hashPut : Nat → HashIst → Nat → Nat → Nat → HashIst

/-- An ECDSA result the spec does not state: which value, operands (48_alg_ecc.md R507). Logs 28, 29. -/
opaque Config.eccUnstated : Nat → List Nat → Nat

/-- What `system_import` answers: a context in the architected serialization or an ACE error
(41_cr_management.md R211). -/
inductive SystemContext where
  /-- ACE error `code + 1`: the codes are 1 to 10 (60_exceptions.md R534). -/
  | error (code : Fin 10)
  | context (mh : BitVec 64) (content : List Byte)
  deriving DecidableEq, Repr, Inhabited

/-- `system_import(memory, EA)`: how many bytes it reads, and its answer (41_cr_management.md R211). Log 16. -/
opaque Config.systemImport : List (Nat × Byte) → Word → Nat × SystemContext

/-! ### The reference configuration (95_test_vectors.md section 2). Log 5. -/

/-- The encoding parameters of T0. -/
def EncParams.t0 : EncParams :=
  { inputF3 := 6, csrError := 0x800, csrMarchid := 0xcc0, csrIobuflen := 0x801, csrIobuftop := 0x802,
    csrSequence := 0x803, csrActivecr := 0x804, csrHtrapmask := 0x805, csrHtrapvector := 0x806 }

/-- An entry of the reference `AlgTable`: unprotected, with every _AlgorithmPolicy_ and both key types. -/
def AlgEntry.plain (alg : BitVec 11) (permBits : Bool) (d : AlgDef) : AlgEntry :=
  { alg := alg, ap := none, permBits := permBits, algDef := d,
    combos := [0, 1, 2, 3].flatMap fun ap => [(ap, 0, false), (ap, 0, true)] }

/-- The reference `AlgTable` (44_alg_block_modes.md R321). -/
def AlgEntry.referenceTable : List AlgEntry :=
  [ .plain 0x600 true (.ecb .aes128),
    .plain 0x601 true (.ecb .aes256),
    .plain 0x602 false (.keystream .aes128 96 32 false none),
    .plain 0x603 false (.keystream .aes128 128 128 true none),
    .plain 0x604 true (.xex .aes128 true 2 0x87),
    .plain 0x605 true (.xex .aes128 false 2 0x87),
    .plain 0x606 true (.gcm .aes128 32 false 0x87),
    .plain 0x607 true (.gcm .aes128 32 true 0x87),
    .plain 0x608 true (.gcmSiv .aes128 false (.mont 0xc2000000000000000000000000000001)),
    .plain 0x609 true (.gcmSiv .aes256 false (.mont 0xc2000000000000000000000000000001)),
    .plain 0x60a true (.ocb .aes128) ] ++
  [ .plain 0x60b false (.cmac .aes128),
    .plain 0x60c false (.sha3 1088 256 false 2 2),
    .plain 0x60e true (.asconAead .plain),
    .plain 0x60f true (.asconAead .setNonce),
    .plain 0x610 true (.asconAead .nonceMask),
    .plain 0x611 false (.asconHash .hash256),
    .plain 0x612 false (.asconHash .xof128),
    .plain 0x613 false (.asconHash .cxof128),
    .plain 0x614 true (.ecc .p256) ]

/-- The test configuration T0 of 95_test_vectors.md, with vector registers present or not. -/
def Config.t0 (hasV : Bool) : Config :=
  { xlen64 := true, hasV := hasV, hasIobuf := true, numCR := 32, crfCapacity := 1024, crCosts := [],
    iobufMax := 256, iobufInCrf := false, iobufCostBase := 0, iobufCostPerByte := 1, iobufCosts := [],
    algTable := AlgEntry.referenceTable, archId := 0xace, hasSystemImport := false, enc := EncParams.t0,
    vlen := 128, memFaults := [], hostCsrs := [] }

/-- The configuration of `State.reset`: T0 with vector registers, so that every Form is present.
DESIGN CHOICE (log 5), unsafe: the spec leaves every parameter open. -/
def Config.reference : Config := Config.t0 true

end Sys2Proof
end

