-- ==== Sys2Proof/Syntax.lean ====
section
/-! DEFINITION. The instructions of opcode_table.json, one constructor per row. -/
namespace Sys2Proof

/-- The ACE instructions. A suffix `K` means a CR named directly, `X` one whose number is in a general
register; in `clone` the first letter is the destination and the second the source. Operands keep the
names the mnemonics use (30_encoding.md R157). -/
inductive Instr where
  /-- `ace.prov Kd, %offset(Xs)` (R140). -/
  | provK (kd : Reg) (off : Imm12) (xs : Reg)
  /-- `ace.prov K(Xd), %offset(Xs)` (R140). -/
  | provX (xd : Reg) (off : Imm12) (xs : Reg)
  /-- `ace.clear Kd` (R141). -/
  | clearK (kd : Reg)
  /-- `ace.clear K(Xd)` (R141); the word with `Xd = X0` is `ace.reset`. -/
  | clearX (xd : Reg)
  /-- `ace.reset` (R141). -/
  | aceReset
  /-- `ace.export %offset(Xd), Ks` (R142). -/
  | exportK (off : Imm12) (xd : Reg) (ks : Reg)
  /-- `ace.export %offset(Xd), K(Xs)` (R142). -/
  | exportX (off : Imm12) (xd : Reg) (xs : Reg)
  /-- `ace.import Kd, %offset(Xn)` (R143). -/
  | importK (kd : Reg) (off : Imm12) (xn : Reg)
  /-- `ace.import.S Kd, %offset(Xn)` (R143). -/
  | importSK (kd : Reg) (off : Imm12) (xn : Reg)
  /-- `ace.import K(Xd), %offset(Xn)` (R143). -/
  | importX (xd : Reg) (off : Imm12) (xn : Reg)
  /-- `ace.import.S K(Xd), %offset(Xn)` (R143). -/
  | importSX (xd : Reg) (off : Imm12) (xn : Reg)
  /-- `ace.input %offset(Xs), Xl` (R147). -/
  | input (off : Imm12) (xs : Reg) (xl : Reg)
  /-- `ace.output %offset(Xd), Xl` (R148). -/
  | output (off : Imm12) (xd : Reg) (xl : Reg)
  /-- `ace.exec Vd, Kn, Vs` (Form A, R144). -/
  | execAK (vd : Reg) (kn : Reg) (vs : Reg)
  /-- `ace.exec Kn, Vs` (Form B, R144). -/
  | execBK (kn : Reg) (vs : Reg)
  /-- `ace.exec Vd, Kn` (Form C, R144). -/
  | execCK (vd : Reg) (kn : Reg)
  /-- `ace.exec Kn` (Form D, R144). -/
  | execDK (kn : Reg)
  /-- `ace.exec Vd, K(Xn), Vs` (Form A, R144). -/
  | execAX (vd : Reg) (xn : Reg) (vs : Reg)
  /-- `ace.exec K(Xn), Vs` (Form B, R144). -/
  | execBX (xn : Reg) (vs : Reg)
  /-- `ace.exec Vd, K(Xn)` (Form C, R144). -/
  | execCX (vd : Reg) (xn : Reg)
  /-- `ace.exec K(Xn)` (Form D, R144). -/
  | execDX (xn : Reg)
  /-- `ace.state Kd, #immed7` (Form A, R145). -/
  | stateA (kd : Reg) (imm : BitVec 7)
  /-- `ace.state Kd, #immed7, Xs` (Form B, R145). -/
  | stateB (kd : Reg) (imm : BitVec 7) (xs : Reg)
  /-- `ace.state Kd, #immed7, Vs` (Form C, R145). -/
  | stateC (kd : Reg) (imm : BitVec 7) (vs : Reg)
  /-- `ace.error Xd` (R146). -/
  | aceError (xd : Reg)
  /-- `ace.size Xd, Ks` (Form A direct, R149). -/
  | sizeK (xd : Reg) (ks : Reg)
  /-- `ace.size Xd, K(Xs)` (Form A indirect, R149). -/
  | sizeX (xd : Reg) (xs : Reg)
  /-- `ace.size Xd, Xs` (Form B, R149). -/
  | sizeHeader (xd : Reg) (xs : Reg)
  /-- `ace.size.internal Xd, Xs` (Form C, R149). -/
  | sizeInternal (xd : Reg) (xs : Reg)
  /-- `ace.size.iobuf Xd, Xs` (Form D, R149). -/
  | sizeIobuf (xd : Reg) (xs : Reg)
  /-- `ace.avail Xd, Xs`: the same word as Form B of `ace.size` (R149, 41_cr_management.md R218). -/
  | avail (xd : Reg) (xs : Reg)
  /-- `ace.restrict Kd, Xs1` (R150). -/
  | restrictK (kd : Reg) (xs1 : Reg)
  /-- `ace.restrict K(Xd), Xs1` (R150). -/
  | restrictX (xd : Reg) (xs1 : Reg)
  /-- `ace.clone Kd, Ks` (R151). -/
  | cloneKK (kd : Reg) (ks : Reg)
  /-- `ace.clone K(Xd), Ks` (R151). -/
  | cloneXK (xd : Reg) (ks : Reg)
  /-- `ace.clone Kd, K(Xs)` (R151). -/
  | cloneKX (kd : Reg) (xs : Reg)
  /-- `ace.clone K(Xd), K(Xs)` (R151). -/
  | cloneXX (xd : Reg) (xs : Reg)
  deriving DecidableEq, Repr

end Sys2Proof
end

