-- ==== Sys2Proof/WellFormed.lean ====
section
/-! DEFINITION. Which instructions and which parameters are well formed. -/
namespace Sys2Proof

/-- An instruction the assembler syntax has. The one exclusion is `ace.clear K(X0)`, which is written
`ace.reset` (30_encoding.md R141). -/
def Instr.wellFormed : Instr → Bool
  | .clearX xd => xd ≠ 0
  | _ => true

/-- The constraints on the encoding parameters: `ACE_INPUT_F3` is 6 or 7, and the CSR numbers are
pairwise distinct and none is `acestart`'s (93_implementation_defined.md part 2). -/
def EncParams.wellFormed (p : EncParams) : Bool :=
  (p.inputF3 = 6 || p.inputF3 = 7) &&
  decide [csrStart, p.csrError, p.csrMarchid, p.csrIobuflen, p.csrIobuftop, p.csrSequence, p.csrActivecr,
    p.csrHtrapmask, p.csrHtrapvector].Nodup

/-- Block and key sizes are whole bytes and not zero (44_alg_block_modes.md R326). -/
def Cipher.wellFormed (c : Cipher) : Bool :=
  c.blockBits % 8 = 0 && 0 < c.blockBits && c.keyBits % 8 = 0

/-- The parameter conditions of the generic hash template (46_alg_hash_mac.md R430). -/
def HashDef.wellFormed (h : HashDef) : Bool :=
  h.b % 8 = 0 && 0 < h.b && h.t % 8 = 0 && 0 < h.t && h.t ≤ h.b && h.n % 8 = 0 && h.key.getD 0 % 8 = 0 &&
  (h.useBlock || h.t ≤ h.n)

/-- The parameter conditions of each algorithm: 44_alg_block_modes.md R331, R335, R339, 45_alg_aead.md
R360, R375, R390, 46_alg_hash_mac.md R430, R445. -/
def AlgDef.wellFormed : AlgDef → Bool
  | .ecb c => c.wellFormed
  | .keystream c n j x _ =>
    c.wellFormed && n % 8 = 0 && j % 8 = 0 && (if x then n = c.blockBits && j = n else n + j = c.blockBits)
  | .xex c _ _ _ => c.wellFormed
  | .tbc _ b k t => b % 8 = 0 && 0 < b && k % 8 = 0 && t % 8 = 0
  | .gcm c ctr _ _ => c.wellFormed && ctr % 8 = 0 && ctr < c.blockBits && 0 < ctr
  | .gcmSiv c _ _ =>
    c.wellFormed && c.blockBits % 64 = 0 && (c.keyBits = c.blockBits || c.keyBits = 2 * c.blockBits)
  | .ocb c => c.wellFormed && 64 ≤ c.blockBits && 2 ^ Nat.log2 c.blockBits = c.blockBits &&
    c.keyBits % c.blockBits = 0
  | .cmac c => c.wellFormed
  | .hash h => h.wellFormed
  | .sha3 b t _ _ _ => b % 8 = 0 && t % 8 = 0 && 0 < t && t ≤ b && b ≤ 1600
  | .asconAead _ => true
  | .asconHash _ => true
  | .ecc _ => true

end Sys2Proof
end

