-- ==== Sys2Proof/Decode.lean ====
section
/-! DEFINITION. The decoder and the encoder (30_encoding.md). -/
namespace Sys2Proof

/-! ### Fields -/

/-- `opcode = inst[6:0]` (30_encoding.md R131). -/
def fieldOpcode (w : InstrWord) : BitVec 7 := w.extractLsb' 0 7

/-- `rd = inst[11:7]` (30_encoding.md R131). -/
def fieldRd (w : InstrWord) : Reg := w.extractLsb' 7 5

/-- `funct3 = inst[14:12]` (30_encoding.md R131). -/
def fieldFunct3 (w : InstrWord) : BitVec 3 := w.extractLsb' 12 3

/-- `rs1 = inst[19:15]` (30_encoding.md R131). -/
def fieldRs1 (w : InstrWord) : Reg := w.extractLsb' 15 5

/-- `rs2 = inst[24:20]` (30_encoding.md R131). -/
def fieldRs2 (w : InstrWord) : Reg := w.extractLsb' 20 5

/-- `funct7 = inst[31:25]` (30_encoding.md R131). -/
def fieldFunct7 (w : InstrWord) : BitVec 7 := w.extractLsb' 25 7

/-- The R-type layout (30_encoding.md R132). -/
def asmR (f7 : BitVec 7) (rs2 rs1 : Reg) (f3 : BitVec 3) (rd : Reg) (op : BitVec 7) : InstrWord :=
  (f7 ++ (rs2 ++ (rs1 ++ (f3 ++ (rd ++ op)))) : BitVec (7 + (5 + (5 + (3 + (5 + 7))))))

/-- The I-type layout (30_encoding.md R133). -/
def asmI (imm : Imm12) (rs1 : Reg) (f3 : BitVec 3) (rd : Reg) (op : BitVec 7) : InstrWord :=
  asmR (imm.extractLsb' 5 7) (imm.extractLsb' 0 5) rs1 f3 rd op

/-- The S-type layout (30_encoding.md R134). -/
def asmS (imm : Imm12) (rs2 rs1 : Reg) (f3 : BitVec 3) (op : BitVec 7) : InstrWord :=
  asmR (imm.extractLsb' 5 7) rs2 rs1 f3 (imm.extractLsb' 0 5) op

/-- The I-type immediate `inst[31:20]` from its two field parts (30_encoding.md R135). -/
def immI (f7 : BitVec 7) (rs2 : Reg) : Imm12 := (f7 ++ rs2 : BitVec (7 + 5))

/-- The S-type immediate `inst[31:25] @ inst[11:7]` (30_encoding.md R136). -/
def immS (f7 : BitVec 7) (rd : Reg) : Imm12 := (f7 ++ rd : BitVec (7 + 5))

/-! ### The decoder -/

/-- What an instruction word is. -/
inductive Decoded where
  /-- An ACE instruction of opcode_table.json. -/
  | ace (i : Instr)
  /-- A CSR instruction of the host (40_csr_access.md R170). -/
  | csr (c : CsrInstr)
  /-- Rejected: a word under an ACE opcode that no figure assigns (30_encoding.md R156). -/
  | reservedAce
  /-- Rejected: a word of the host ISA, outside the spec (00_scope.md R9). -/
  | hostWord
  /-- Rejected: fewer than four bytes (30_encoding.md R130). -/
  | truncated
  deriving DecidableEq, Repr

/-- Opcode `0x0b` by `funct3` (30_encoding.md R153). -/
def decodeLoad (p : EncParams) (f7 : BitVec 7) (rs2 rs1 : Reg) (f3 : BitVec 3) (rd : Reg) : Decoded :=
  if f3 = 0 then .ace (.importK rd (immI f7 rs2) rs1)
  else if f3 = 1 then .ace (.importSK rd (immI f7 rs2) rs1)
  else if f3 = 2 then .ace (.importX rd (immI f7 rs2) rs1)
  else if f3 = 3 then .ace (.importSX rd (immI f7 rs2) rs1)
  else if f3 = 4 then .ace (.provK rd (immI f7 rs2) rs1)
  else if f3 = 5 then .ace (.provX rd (immI f7 rs2) rs1)
  else if f3 = p.inputF3 then .ace (.input (immS f7 rd) rs2 rs1)
  else .reservedAce

/-- Opcode `0x27` by `funct3` (30_encoding.md R154). -/
def decodeStore (f7 : BitVec 7) (rs2 rs1 : Reg) (f3 : BitVec 3) (rd : Reg) : Decoded :=
  if f3 = 0 then .ace (.exportK (immS f7 rd) rs1 rs2)
  else if f3 = 1 then .ace (.exportX (immS f7 rd) rs1 rs2)
  else if f3 = 4 then .ace (.output (immI f7 rs2) rd rs1)
  else .reservedAce

/-- Opcode `0x5b` with `funct3 = 0`, by `funct7` (30_encoding.md R144, R149 to R151, R155). -/
def decodeGroup (f7 : BitVec 7) (rs2 rs1 rd : Reg) : Decoded :=
  if f7 = 0x00 then .ace (.execAK rd rs1 rs2)
  else if f7 = 0x02 then .ace (.execAX rd rs1 rs2)
  else if f7 = 0x08 then if rd = 0 then .ace (.execBK rs1 rs2) else .reservedAce
  else if f7 = 0x0a then if rd = 0 then .ace (.execBX rs1 rs2) else .reservedAce
  else if f7 = 0x10 then if rs2 = 0 then .ace (.execCK rd rs1) else .reservedAce
  else if f7 = 0x12 then if rs2 = 0 then .ace (.execCX rd rs1) else .reservedAce
  else if f7 = 0x18 then if rd = 0 ∧ rs2 = 0 then .ace (.execDK rs1) else .reservedAce
  else if f7 = 0x1a then if rd = 0 ∧ rs2 = 0 then .ace (.execDX rs1) else .reservedAce
  else if f7 = 0x01 then if rs2 = 0 then .ace (.sizeK rd rs1) else .reservedAce
  else if f7 = 0x03 then if rs2 = 0 then .ace (.sizeX rd rs1) else .reservedAce
  else if f7 = 0x09 then if rs2 = 0 then .ace (.sizeHeader rd rs1) else .reservedAce
  else if f7 = 0x11 then if rs2 = 0 then .ace (.sizeInternal rd rs1) else .reservedAce
  else if f7 = 0x19 then if rs2 = 0 then .ace (.sizeIobuf rd rs1) else .reservedAce
  else if f7 = 0x21 then if rs1 = 0 then .ace (.restrictK rd rs2) else .reservedAce
  else if f7 = 0x23 then if rs1 = 0 then .ace (.restrictX rd rs2) else .reservedAce
  else if f7 = 0x41 then if rs2 = 0 then .ace (.cloneKK rd rs1) else .reservedAce
  else if f7 = 0x43 then if rs2 = 0 then .ace (.cloneXK rd rs1) else .reservedAce
  else if f7 = 0x45 then if rs2 = 0 then .ace (.cloneKX rd rs1) else .reservedAce
  else if f7 = 0x47 then if rs2 = 0 then .ace (.cloneXX rd rs1) else .reservedAce
  else .reservedAce

/-- Opcode `0x5b` by `funct3` (30_encoding.md R155). -/
def decodeOp (f7 : BitVec 7) (rs2 rs1 : Reg) (f3 : BitVec 3) (rd : Reg) : Decoded :=
  if f3 = 0 then decodeGroup f7 rs2 rs1 rd
  else if f3 = 1 then if rs1 = 0 ∧ rs2 = 0 then .ace (.stateA rd f7) else .reservedAce
  else if f3 = 2 then if rs1 = 0 then .ace (.stateB rd f7 rs2) else .reservedAce
  else if f3 = 3 then if rs1 = 0 then .ace (.stateC rd f7 rs2) else .reservedAce
  else if f3 = 4 then if rs1 = 0 ∧ rs2 = 0 ∧ f7 = 0 then .ace (.clearK rd) else .reservedAce
  else if f3 = 5 then
    if rs1 = 0 ∧ rs2 = 0 ∧ f7 = 0 then if rd = 0 then .ace .aceReset else .ace (.clearX rd)
    else .reservedAce
  else .reservedAce

/-- Opcode `0x73`: `ace.error` and the CSR instructions (30_encoding.md R146, 40_csr_access.md R170). -/
def decodeSystem (p : EncParams) (f7 : BitVec 7) (rs2 rs1 : Reg) (f3 : BitVec 3) (rd : Reg) : Decoded :=
  if f3 = 1 then .csr ⟨.write, false, rd, rs1, immI f7 rs2⟩
  else if f3 = 2 then
    if rs1 = 0 ∧ immI f7 rs2 = p.csrError then .ace (.aceError rd)
    else .csr ⟨.setBits, false, rd, rs1, immI f7 rs2⟩
  else if f3 = 3 then .csr ⟨.clearBits, false, rd, rs1, immI f7 rs2⟩
  else if f3 = 5 then .csr ⟨.write, true, rd, rs1, immI f7 rs2⟩
  else if f3 = 6 then .csr ⟨.setBits, true, rd, rs1, immI f7 rs2⟩
  else if f3 = 7 then .csr ⟨.clearBits, true, rd, rs1, immI f7 rs2⟩
  else .hostWord

/-- Decoding of the six fields of a word (30_encoding.md R139, R153 to R156). -/
def decodeFields (p : EncParams) (f7 : BitVec 7) (rs2 rs1 : Reg) (f3 : BitVec 3) (rd : Reg)
    (op : BitVec 7) : Decoded :=
  if op = 0x0b then decodeLoad p f7 rs2 rs1 f3 rd
  else if op = 0x27 then decodeStore f7 rs2 rs1 f3 rd
  else if op = 0x5b then decodeOp f7 rs2 rs1 f3 rd
  else if op = 0x73 then decodeSystem p f7 rs2 rs1 f3 rd
  else .hostWord

/-- The decoder of one instruction word. -/
def decode (p : EncParams) (w : InstrWord) : Decoded :=
  decodeFields p (fieldFunct7 w) (fieldRs2 w) (fieldRs1 w) (fieldFunct3 w) (fieldRd w) (fieldOpcode w)

/-- Four bytes as an instruction word, the lowest address first (20_memory.md R92). -/
def wordOfBytes (b0 b1 b2 b3 : Byte) : InstrWord :=
  (b3 ++ (b2 ++ (b1 ++ b0)) : BitVec (8 + (8 + (8 + 8))))

/-- The decoder of the bytes at an address, total on any list of bytes. -/
def decodeBytes (p : EncParams) : List Byte → Decoded
  | b0 :: b1 :: b2 :: b3 :: _ => decode p (wordOfBytes b0 b1 b2 b3)
  | _ => .truncated

/-! ### The encoder -/

/-- The word of an instruction (30_encoding.md R140 to R151). -/
def encode (p : EncParams) : Instr → InstrWord
  | .provK kd off xs => asmI off xs 4 kd 0x0b
  | .provX xd off xs => asmI off xs 5 xd 0x0b
  | .clearK kd => asmR 0 0 0 4 kd 0x5b
  | .clearX xd => asmR 0 0 0 5 xd 0x5b
  | .aceReset => asmR 0 0 0 5 0 0x5b
  | .exportK off xd ks => asmS off ks xd 0 0x27
  | .exportX off xd xs => asmS off xs xd 1 0x27
  | .importK kd off xn => asmI off xn 0 kd 0x0b
  | .importSK kd off xn => asmI off xn 1 kd 0x0b
  | .importX xd off xn => asmI off xn 2 xd 0x0b
  | .importSX xd off xn => asmI off xn 3 xd 0x0b
  | .input off xs xl => asmS off xs xl p.inputF3 0x0b
  | .output off xd xl => asmI off xl 4 xd 0x27
  | .execAK vd kn vs => asmR 0x00 vs kn 0 vd 0x5b
  | .execBK kn vs => asmR 0x08 vs kn 0 0 0x5b
  | .execCK vd kn => asmR 0x10 0 kn 0 vd 0x5b
  | .execDK kn => asmR 0x18 0 kn 0 0 0x5b
  | .execAX vd xn vs => asmR 0x02 vs xn 0 vd 0x5b
  | .execBX xn vs => asmR 0x0a vs xn 0 0 0x5b
  | .execCX vd xn => asmR 0x12 0 xn 0 vd 0x5b
  | .execDX xn => asmR 0x1a 0 xn 0 0 0x5b
  | .stateA kd imm => asmR imm 0 0 1 kd 0x5b
  | .stateB kd imm xs => asmR imm xs 0 2 kd 0x5b
  | .stateC kd imm vs => asmR imm vs 0 3 kd 0x5b
  | .aceError xd => asmI p.csrError 0 2 xd 0x73
  | .sizeK xd ks => asmR 0x01 0 ks 0 xd 0x5b
  | .sizeX xd xs => asmR 0x03 0 xs 0 xd 0x5b
  | .sizeHeader xd xs => asmR 0x09 0 xs 0 xd 0x5b
  | .sizeInternal xd xs => asmR 0x11 0 xs 0 xd 0x5b
  | .sizeIobuf xd xs => asmR 0x19 0 xs 0 xd 0x5b
  | .avail xd xs => asmR 0x09 0 xs 0 xd 0x5b
  | .restrictK kd xs1 => asmR 0x21 xs1 0 0 kd 0x5b
  | .restrictX xd xs1 => asmR 0x23 xs1 0 0 xd 0x5b
  | .cloneKK kd ks => asmR 0x41 0 ks 0 kd 0x5b
  | .cloneXK xd ks => asmR 0x43 0 ks 0 xd 0x5b
  | .cloneKX kd xs => asmR 0x45 0 xs 0 kd 0x5b
  | .cloneXX xd xs => asmR 0x47 0 xs 0 xd 0x5b

/-- The `funct3` of a CSR instruction (40_csr_access.md R170). -/
def CsrInstr.funct3 (c : CsrInstr) : BitVec 3 :=
  match c.op, c.imm with
  | .write, false => 1
  | .setBits, false => 2
  | .clearBits, false => 3
  | .write, true => 5
  | .setBits, true => 6
  | .clearBits, true => 7

/-- The word of a CSR instruction (40_csr_access.md R170). -/
def encodeCsr (c : CsrInstr) : InstrWord := asmI c.csr c.src c.funct3 c.rd 0x73

/-- The instruction a decoder answers for the words of `i`: `ace.avail` is Form B of `ace.size`
(41_cr_management.md R218). -/
def Instr.canon : Instr → Instr
  | .avail xd xs => .sizeHeader xd xs
  | i => i

/-- The four bytes of a word, the lowest address first (20_memory.md R92). -/
def bytesOfWord (w : InstrWord) : List Byte :=
  [w.extractLsb' 0 8, w.extractLsb' 8 8, w.extractLsb' 16 8, w.extractLsb' 24 8]

/-- The bits `w` of an opcode-table row as an instruction word: bits at `nbits` and above are 0. -/
def tableWord (nbits w : Nat) : InstrWord := BitVec.ofNat 32 (w % 2 ^ nbits)

/-- The instruction the decoder reads from an opcode-table row's bits, with the parameters of T0. -/
def decodeTableWord (nbits w : Nat) : Option Instr :=
  match decodeBytes EncParams.t0 (bytesOfWord (tableWord nbits w)) with
  | .ace i => some i
  | _ => none

end Sys2Proof
end

