-- ==== Sys2Proof/Machine/Bits.lean ====
section
/-! DEFINITION. Bit strings, byte strings and `XLEN`-bit arithmetic (00_scope.md R12 to R16).
A bit string whose width is an algorithm parameter is the natural number its bits denote. -/
namespace Sys2Proof.Machine

/-! ### `XLEN`-bit values -/

/-- The low `XLEN` bits of a value, zero-extended to 64 (10_state.md R30). -/
def truncX (c : Config) (w : Word) : Word := if c.xlen64 then w else (w.setWidth 32).setWidth 64

/-- `zext_64(acemarchid)`: the CSR has `XLEN` bits (10_state.md R56). -/
def marchid (c : Config) : Word := truncX c c.archId

/-- Addition modulo `2^XLEN` (00_scope.md R20). -/
def addX (c : Config) (a b : Word) : Word := truncX c (a + b)

/-- `sext_XLEN(imm12)` (30_encoding.md R135). -/
def sextImm (c : Config) (imm : Imm12) : Word := truncX c (imm.signExtend 64)

/-! ### Bit strings as natural numbers -/

/-- The low `w` bits of `v`. -/
def low (w v : Nat) : Nat := v % 2 ^ w

/-- The slice `v[lo+w-1 : lo]` (00_scope.md R12). -/
def slice (v lo w : Nat) : Nat := (v >>> lo) % 2 ^ w

/-- `hi @ lo` with `lo` of `w` bits (00_scope.md R13). -/
def cat (hi w lo : Nat) : Nat := hi <<< w + lo

/-- `v` with its bits `[lo+w-1 : lo]` replaced by the low `w` bits of `new`. -/
def splice (v lo w new : Nat) : Nat :=
  v % 2 ^ lo + ((new % 2 ^ w) <<< lo) + ((v >>> (lo + w)) <<< (lo + w))

/-- `not v` on `w` bits. -/
def notBits (w v : Nat) : Nat := 2 ^ w - 1 - v % 2 ^ w

/-- A right rotation of a 64-bit word. -/
def ror64 (v : BitVec 64) (k : Nat) : BitVec 64 := v.rotateRight k

/-! ### Byte strings (00_scope.md R15) -/

/-- The natural number a byte string denotes, byte 0 least significant. -/
def leNat : List Byte → Nat
  | [] => 0
  | b :: bs => b.toNat + 256 * leNat bs

/-- The `n` bytes of `v`, byte 0 least significant. -/
def natLE : Nat → Nat → List Byte
  | 0, _ => []
  | n + 1, v => BitVec.ofNat 8 v :: natLE n (v / 256)

/-- The least multiple of 8 that is not below `n` (20_memory.md R107). -/
def roundUp8 (n : Nat) : Nat := (n + 7) / 8 * 8

/-- A byte string with zero bytes added up to length `n`. -/
def padBytes (n : Nat) (bs : List Byte) : List Byte := bs ++ List.replicate (n - bs.length) 0

/-- The byte string in chunks of `k` bytes, the last one possibly shorter; `fuel` bounds their number. -/
def chunks (k : Nat) : Nat → List Byte → List (List Byte)
  | 0, _ => []
  | _, [] => []
  | fuel + 1, b :: bs => (b :: bs).take k :: chunks k fuel ((b :: bs).drop k)

/-- The byte string as bit strings of `k` bytes each (43_sealing.md R294). -/
def blocksOf (k : Nat) (bs : List Byte) : List Nat := (chunks k bs.length bs).map leNat

/-- The values of consecutive fields of a byte string, `ws` their lengths in bytes. -/
def parseFields : List Nat → List Byte → List Nat
  | [], _ => []
  | w :: ws, bs => leNat (bs.take w) :: parseFields ws (bs.drop w)

/-- The bytes of consecutive fields, `ws` their lengths in bytes; a missing value is zero. -/
def emitFields : List Nat → List Nat → List Byte
  | [], _ => []
  | w :: ws, [] => natLE w 0 ++ emitFields ws []
  | w :: ws, v :: vs => natLE w v ++ emitFields ws vs

/-! ### Processing block by block -/

/-- `f` on each of `n` blocks of `b` bits, from the least significant on (44_alg_block_modes.md R323):
the last value of the state and the output blocks, or `none` as soon as a block answers `none`. -/
def blockLoop {α : Type} (b : Nat) (f : α → Nat → Option (α × Nat)) : Nat → α → Nat → Option (α × Nat)
  | 0, a, _ => some (a, 0)
  | n + 1, a, input =>
    match f a (input % 2 ^ b) with
    | none => none
    | some (a', out) =>
      match blockLoop b f n a' (input >>> b) with
      | none => none
      | some (a'', outs) => some (a'', cat outs b (out % 2 ^ b))

end Sys2Proof.Machine
end

