-- ==== Sys2Proof/Machine/Header.lean ====
section
/-! DEFINITION. The fields of the 64-bit Metadata Header (10_state.md R41). -/
namespace Sys2Proof.Machine

/-- A header with `v` in its bits from `lo` on. -/
def setField (mh : BitVec 64) (lo : Nat) {w : Nat} (v : BitVec w) : BitVec 64 :=
  (mh &&& ~~~((BitVec.allOnes w).setWidth 64 <<< lo)) ||| (v.setWidth 64 <<< lo)

/-- _Format_, bit 0 (10_state.md R42). -/
def mhFormat (mh : BitVec 64) : BitVec 1 := mh.extractLsb' 0 1

/-- _Algorithm_, bits `[11:1]` (10_state.md R43). -/
def mhAlgorithm (mh : BitVec 64) : BitVec 11 := mh.extractLsb' 1 11

/-- _AlgorithmPolicy_, bits `[13:12]` (10_state.md R43). -/
def mhPolicy (mh : BitVec 64) : BitVec 2 := mh.extractLsb' 12 2

/-- _SCProtection_, bits `[15:14]` (10_state.md R44). -/
def mhProtection (mh : BitVec 64) : BitVec 2 := mh.extractLsb' 14 2

/-- _KeyType_, bit 16 (10_state.md R45): true when the key is a System Key index. -/
def mhKeyType (mh : BitVec 64) : Bool := mh.getLsbD 16

/-- _StateNumber_, bits `[20:17]` (10_state.md R46). -/
def mhState (mh : BitVec 64) : BitVec 4 := mh.extractLsb' 17 4

/-- _Locality_, bits `[28:21]` (10_state.md R48). -/
def mhLocality (mh : BitVec 64) : BitVec 8 := mh.extractLsb' 21 8

/-- _UsagePolicy_, bits `[31:29]` (10_state.md R51). -/
def mhUsage (mh : BitVec 64) : BitVec 3 := mh.extractLsb' 29 3

/-- _AdditionalData_, bits `[45:32]` (10_state.md R52). -/
def mhAdditional (mh : BitVec 64) : BitVec 14 := mh.extractLsb' 32 14

/-- _ExpirationDate_, bits `[63:46]` (10_state.md R53). -/
def mhExpiration (mh : BitVec 64) : BitVec 18 := mh.extractLsb' 46 18

/-- "Encryption allowed" and "signature generation allowed": header bit 12 (10_state.md R43). -/
def mhEnc (mh : BitVec 64) : Bool := mh.getLsbD 12

/-- "Decryption allowed" and "verification allowed": header bit 13 (10_state.md R43). -/
def mhDec (mh : BitVec 64) : Bool := mh.getLsbD 13

/-- The header with another _StateNumber_. -/
def mhSetState (mh : BitVec 64) (sn : BitVec 4) : BitVec 64 := setField mh 17 sn

/-- The header with another _AdditionalData_. -/
def mhSetAdditional (mh : BitVec 64) (n : BitVec 14) : BitVec 64 := setField mh 32 n

/-! ### The fixed states (10_state.md R46) -/

/-- `ace_state_initial`. -/
def snInitial : BitVec 4 := 0

/-- `ace_state_invalid`. -/
def snInvalid : BitVec 4 := 14

/-- `ace_state_completed`. -/
def snCompleted : BitVec 4 := 15

end Sys2Proof.Machine
end

