-- ==== Sys2Proof/Machine/AsconPerm.lean ====
section
/-! DEFINITION. The Ascon permutation (47_alg_ascon.md R461, which the spec marks as general knowledge,
log 25). -/
namespace Sys2Proof.Machine

/-- The Ascon state: five 64-bit words (47_alg_ascon.md R460). -/
structure AsconState where
  w0 : BitVec 64
  w1 : BitVec 64
  w2 : BitVec 64
  w3 : BitVec 64
  w4 : BitVec 64
  deriving DecidableEq, Repr, Inhabited

/-- The round constants `RC` (47_alg_ascon.md R461). -/
def asconRC : List (BitVec 64) := [0xf0, 0xe1, 0xd2, 0xc3, 0xb4, 0xa5, 0x96, 0x87, 0x78, 0x69, 0x5a, 0x4b]

/-- The substitution layer: constant addition and S-box (47_alg_ascon.md R461). -/
def asconSub (s : AsconState) (rc : BitVec 64) : AsconState :=
  let a0 := s.w0 ^^^ s.w4
  let a1 := s.w1
  let a2 := s.w2 ^^^ rc ^^^ s.w1
  let a3 := s.w3
  let a4 := s.w4 ^^^ s.w3
  let b0 := a0 ^^^ (~~~a1 &&& a2)
  let b1 := a1 ^^^ (~~~a2 &&& a3)
  let b2 := a2 ^^^ (~~~a3 &&& a4)
  let b3 := a3 ^^^ (~~~a4 &&& a0)
  let b4 := a4 ^^^ (~~~a0 &&& a1)
  ⟨b0 ^^^ b4, b1 ^^^ b0, ~~~b2, b3 ^^^ b2, b4⟩

/-- The linear layer (47_alg_ascon.md R461). -/
def asconLinear (s : AsconState) : AsconState :=
  ⟨s.w0 ^^^ ror64 s.w0 19 ^^^ ror64 s.w0 28, s.w1 ^^^ ror64 s.w1 61 ^^^ ror64 s.w1 39,
   s.w2 ^^^ ror64 s.w2 1 ^^^ ror64 s.w2 6, s.w3 ^^^ ror64 s.w3 10 ^^^ ror64 s.w3 17,
   s.w4 ^^^ ror64 s.w4 7 ^^^ ror64 s.w4 41⟩

/-- One round. -/
def asconRound (s : AsconState) (rc : BitVec 64) : AsconState := asconLinear (asconSub s rc)

/-- `ASCON(p)`: `p` rounds on the state (47_alg_ascon.md R461). -/
def ascon (p : Nat) (s : AsconState) : AsconState := (asconRC.drop (12 - p)).foldl asconRound s

end Sys2Proof.Machine
end

