-- ==== Sys2Proof/Machine/State.lean ====
section
/-! DEFINITION. The state of the machine, its faults and refusals, and the state after reset. -/
namespace Sys2Proof.Machine

/-! ### The Internal State of the algorithms

A bit string whose width is a parameter is a natural number (log 39). -/

/-- Internal State of GCM (45_alg_aead.md R360). -/
structure GcmIst where
  key : Nat
  ctr : Nat
  iv : Nat
  hashKey : Nat
  tag : Nat
  deriving DecidableEq, Repr

/-- Internal State of GCM-SIV (45_alg_aead.md R375). -/
structure GcmSivIst where
  key : Nat
  encKey : Nat
  authKey : Nat
  nonce : Nat
  ctr : Nat
  tag : Nat
  siv : Nat
  deriving DecidableEq, Repr

/-- Internal State of OCB (45_alg_aead.md R390). -/
structure OcbIst where
  key : Nat
  nonce : Nat
  l : Nat
  offset : Nat
  hashA : Nat
  hashP : Nat
  nonceLen : Nat
  tagLen : Nat
  lastLen : Nat
  deriving DecidableEq, Repr

/-- Internal State of SHA-3 (46_alg_hash_mac.md R445). -/
structure Sha3Ist where
  state : Nat
  lastBlockLen : Nat
  blockBase : Nat
  deriving DecidableEq, Repr

/-- Internal State of Ascon-AEAD128 (47_alg_ascon.md R460). `nonce` is present in the variant with set
nonce (R475) and `key2`, the masking key `K2`, in the variant with nonce masking (R478); both are 0 else. -/
structure AsconAeadIst where
  key : Nat
  key2 : Nat
  nonce : Nat
  state : AsconState
  tagLen : Nat
  lastBlockLen : Nat
  deriving DecidableEq, Repr

/-- Internal State of an elliptic curve (48_alg_ecc.md R501). A point is `Y @ X`, a signature `S @ R`. -/
structure EccIst where
  hasGenerator : Bool
  hasSecondPoint : Bool
  hasScalar : Bool
  hasPublicKey : Bool
  hasSignature : Bool
  hasHash : Bool
  hasRandomNumber : Bool
  /-- False: the output is a point. True: a signature. -/
  outputType : Bool
  progress : Nat
  generator : Nat
  secondPoint : Nat
  scalar : Nat
  publicKey : Nat
  signature : Nat
  hash : Nat
  randomNumber : Nat
  deriving DecidableEq, Repr

/-- The Internal State `ist` of a configured CR (10_state.md R38). -/
inductive Ist where
  | ecb (key : Nat)
  | keystream (key iv ctr : Nat)
  | xex (key1 key2 mask : Nat)
  | tbc (key tweak : Nat)
  | gcm (g : GcmIst)
  | gcmSiv (g : GcmSivIst)
  | ocb (o : OcbIst)
  | cmac (key hash lastLen : Nat)
  | hash (h : HashIst)
  | sha3 (h : Sha3Ist)
  | asconAead (a : AsconAeadIst)
  | asconHash (state : AsconState) (countdown : Nat)
  | ecc (e : EccIst)
  deriving DecidableEq, Repr

/-! ### Cryptographic Registers -/

/-- The Cryptographic Context of a configured CR (10_state.md R38). -/
structure Context where
  /-- The Metadata Header (10_state.md R41). -/
  mh : BitVec 64
  /-- The System Key index kept for export; used only with _KeyType_ = 1 (10_state.md R45). -/
  keyIndex : BitVec 64
  ist : Ist
  /-- The additional data segment (10_state.md R52). -/
  ad : List Byte
  /-- An export is in progress (10_state.md R64). -/
  exporting : Bool
  /-- The _StateNumber_ saved during an import (10_state.md R65). -/
  savedSN : BitVec 4
  /-- Provisioning or import was interrupted (10_state.md R65). -/
  incomplete : Bool
  deriving DecidableEq, Repr

/-- A Cryptographic Register (10_state.md R37). -/
inductive CR where
  | unconfigured
  | configured (cc : Context)
  deriving DecidableEq, Repr

/-! ### Traps and events -/

/-- The synchronous exceptions an ACE instruction can raise (60_exceptions.md R531, R533). -/
inductive Cause where
  | illegalInstruction
  | loadMisaligned
  | loadAccess
  | storeMisaligned
  | storeAccess
  | loadPage
  | storePage
  deriving DecidableEq, Repr

/-- `Trap(cause, pc, tval)` as it is reported to the host (60_exceptions.md R540). -/
structure Trap where
  cause : Cause
  pc : Word
  tval : Word
  deriving DecidableEq, Repr

/-- What the environment may do between two instructions (60_exceptions.md R556). -/
inductive Event where
  | setCSK (v : BitVec 256)
  | setLST (i : Fin 11) (v : Option (BitVec 128))
  /-- The entry changes to the material, or is removed (`none`), which R556 does not say. DESIGN CHOICE, log 41. -/
  | setSKT (index : BitVec 64) (material : Option (List Byte))
  | advanceTime (h : Nat)
  | setMode (m : Mode) (virt : Bool)
  /-- The host's handler returns to `pc` (60_exceptions.md R541). Not an event of R556: log 7. -/
  | hostReturn (pc : Word)
  deriving DecidableEq, Repr

/-! ### The machine -/

/-- The machine. INVENTORY.md gives the rule and the reset value of every field. -/
@[ext]
structure State where
  cfg : Config
  /-- General registers (10_state.md R30). `x[0]` is read and written through Ops. -/
  x : Vector Word 32
  /-- Program counter (10_state.md R31). -/
  pc : Word
  /-- Privilege mode (10_state.md R32). -/
  mode : Mode
  /-- The H extension is enabled (10_state.md R32). -/
  hEnabled : Bool
  /-- The virtualisation bit V (10_state.md R32). -/
  virt : Bool
  /-- Memory as the listed bytes (10_state.md R33); see `Memory.wf`. -/
  mem : List Host.Cell
  /-- Vector registers, each its bits as a number (10_state.md R36). -/
  v : Vector Nat 32
  /-- Current vector length in elements (10_state.md R36). -/
  vl : Nat
  /-- Current element width in bits (10_state.md R36). -/
  sew : Nat
  /-- Cryptographic Registers (10_state.md R37). Those from `numCR` on do not exist. -/
  cr : Vector CR 32
  /-- The ACEIOBUF (10_state.md R40). -/
  iobuf : List Byte
  /-- The error code (10_state.md R55). -/
  aceerror : BitVec 4
  /-- Progress and window start, the same CSR as `vstart` (10_state.md R57). -/
  acestart : Word
  /-- Length of the ACEIOBUF (10_state.md R58). -/
  aceiobuflen : Word
  /-- Upper bound of the transfer window (10_state.md R59). -/
  aceiobuftop : Word
  /-- Completed instructions of a replacement sequence (10_state.md R60). -/
  acesequence : BitVec 2
  /-- The bound CR, 32 when disabled (10_state.md R61). -/
  aceactivecr : BitVec 6
  /-- Horizontal trap mask, storage (10_state.md R62). -/
  acehtrapmask : Word
  /-- Horizontal trap vector, storage (10_state.md R63). -/
  acehtrapvector : Word
  /-- Context Sealing Key (10_state.md R67). -/
  csk : BitVec 256
  /-- Locality Secrets Table (10_state.md R49). -/
  lst : Vector (Option (BitVec 128)) 11
  /-- System Keys Table: index and key bytes (10_state.md R68). -/
  skt : List (BitVec 64 × List Byte)
  /-- Hours since the base date (10_state.md R53). -/
  nowHours : Nat
  /-- The model's position in the random stream `ace_rng` (48_alg_ecc.md R507). Log 29. -/
  rngPos : Nat
  /-- The model's counter that feeds the free values of the vector registers. Log 10. -/
  freeTick : Nat
  /-- The exception handed to the host and not yet returned from (60_exceptions.md R540). Log 7. -/
  trap : Option Trap
  /-- The environment's event batches, one for each coming step (70_reset_and_hazards.md R595). Log 8. -/
  events : List (List Event)
  deriving DecidableEq, Repr

/-- Why the machine stops with a fault. -/
inductive Fault where
  /-- Raised by `step` when `pc` is not a multiple of 4: the host's fetch exception, which precedes
  everything of ACE (60_exceptions.md R542). Safe: the machine stops where the host goes on. Log 12. -/
  | fetchMisaligned
  deriving DecidableEq, Repr

/-- Why the model has no next state. -/
inductive Refusal where
  /-- Raised by `exec` for an instruction without a meaning yet. Safe. -/
  | notModelled (mnemonic : String)
  /-- Raised by `step` for a word of the host ISA, which is outside the spec (00_scope.md R9). Safe. Log 12. -/
  | hostInstruction (w : InstrWord)
  /-- Raised by `step` for a CSR of the host, which is outside the spec (00_scope.md R9). Safe. Log 11. -/
  | hostCsr (csr : CsrAddr)
  /-- Raised by `step` while an exception is with the host's handler, which is outside the spec
  (60_exceptions.md R540). Safe. Log 7. -/
  | hostTrap (t : Trap)
  deriving DecidableEq, Repr

/-- What an instruction answers. -/
abbrev Result := Host.Outcome State Fault Refusal

/-- The machine right after reset (10_state.md R70, 70_reset_and_hazards.md R570 to R572). Values the
spec leaves open are those of log 3 and log 15. -/
def State.reset : State :=
  { cfg := Config.reference
    x := Vector.replicate 32 0
    pc := 0x1000
    mode := .machine
    hEnabled := false
    virt := false
    mem := []
    v := Vector.replicate 32 0
    vl := 4
    sew := 32
    cr := Vector.replicate 32 .unconfigured
    iobuf := []
    aceerror := 0
    acestart := 0
    aceiobuflen := 0
    aceiobuftop := 0
    acesequence := 0
    aceactivecr := 32
    acehtrapmask := 0
    acehtrapvector := 0
    csk := 0x1f1e1d1c1b1a191817161514131211100f0e0d0c0b0a09080706050403020100
    lst := #v[none, none, some 0xafaeadacabaaa9a8a7a6a5a4a3a2a1a0, none, none,
      some 0xcfcecdcccbcac9c8c7c6c5c4c3c2c1c0, some 0xbfbebdbcbbbab9b8b7b6b5b4b3b2b1b0, none, none, none, none]
    skt := []
    nowHours := 0
    rngPos := 0
    freeTick := 0
    trap := none
    events := [] }

end Sys2Proof.Machine
end

