-- ==== Sys2Proof/Machine/AlgBase.lean ====
section
/-! DEFINITION. The shape in which an algorithm plugs into `ace.exec` and `ace.state`
(42_exec_state_io.md R240, R243). -/
namespace Sys2Proof.Machine

/-- The Forms of `ace.exec` and of `ace.state` (42_exec_state_io.md R249, R255). -/
inductive Form where
  | A
  | B
  | C
  | D
  deriving DecidableEq, Repr

/-- The size classes of an operand (42_exec_state_io.md R243). -/
inductive SizeClass where
  | blocks (b : Nat)
  | one (w : Nat)
  | stream
  | none
  deriving DecidableEq, Repr

/-- `IOLEN` is valid for a size class (42_exec_state_io.md R243, 46_alg_hash_mac.md R434). -/
def SizeClass.valid : SizeClass → Nat → Bool
  | .blocks b, iolen => 0 < iolen && iolen % b = 0
  | .one w, iolen => w ≤ iolen
  | .stream, iolen => 0 < iolen
  | .none, _ => true

/-- The outcome of an algorithm step (42_exec_state_io.md R240). -/
inductive AlgOutcome where
  | ok
  /-- An ACE error with the step's effects applied. -/
  | err (code : BitVec 4)
  /-- The CR is invalidated and `aceerror` takes the code. -/
  | invalidate (code : BitVec 4)
  deriving DecidableEq, Repr

/-- What a step or a transition does: the new Internal State and _StateNumber_, `OUTPUT` with the number of
its low bits that are written, the outcome, and how many random numbers it drew. -/
structure Step where
  ist : Ist
  sn : BitVec 4
  out : Nat
  written : Nat
  outcome : AlgOutcome
  draws : Nat
  deriving DecidableEq, Repr

/-- A step without output. -/
def Step.quiet (ist : Ist) (sn : BitVec 4) : Step := ⟨ist, sn, 0, 0, .ok, 0⟩

/-- A step with an output of `written` bits. -/
def Step.output (ist : Ist) (sn : BitVec 4) (out written : Nat) : Step := ⟨ist, sn, out, written, .ok, 0⟩

/-- A comparison of tags: error 10 when they differ (60_exceptions.md R534). -/
def Step.verdict (ist : Ist) (sn : BitVec 4) (equal : Bool) : Step :=
  ⟨ist, sn, 0, 0, if equal then .ok else .err 10, 0⟩

/-- A step that invalidates the CR (42_exec_state_io.md R270). -/
def Step.fail (ist : Ist) (code : BitVec 4) : Step := ⟨ist, snInvalid, 0, 0, .invalidate code, 0⟩

/-- What `ace.exec` does in the current state: its one allowed Form, the size class of the operand, and the
step on `INPUT` and `IOLEN` (42_exec_state_io.md R240). -/
structure ExecRow where
  form : Form
  size : SizeClass
  step : Nat → Nat → Step

/-- A transition row: target, Form, the states it may be requested in, condition, size class of `INPUT`
(Form C), action on the auxiliary value (42_exec_state_io.md R240, R259). -/
structure Row where
  target : Nat
  form : Form
  frm : List Nat
  cond : Bool
  size : SizeClass
  act : Nat → Step

/-- What an algorithm takes from the machine besides the context: the position in the random stream. -/
structure AlgEnv where
  rngPos : Nat
  deriving DecidableEq, Repr

/-- All sixteen states: the `from` set of a return to _initial_ (42_exec_state_io.md R260). -/
def anyState : List Nat := List.range 16

/-- The return to _initial_ every algorithm has unless its file changes it (42_exec_state_io.md R260). -/
def returnRow (ist : Ist) : Row :=
  { target := 0, form := .A, frm := anyState, cond := true, size := .none, act := fun _ => Step.quiet ist snInitial }

/-- A transition without operand and action, from one set of states to another. -/
def plainRow (target : Nat) (frm : List Nat) (cond : Bool) (ist : Ist) : Row :=
  { target := target, form := .A, frm := frm, cond := cond, size := .none,
    act := fun _ => Step.quiet ist (BitVec.ofNat 4 target) }

/-- The `blocks(b)` class: the per-block behaviour on every block of `INPUT`; a block that answers `none`
invalidates the CR (42_exec_state_io.md R243). -/
def blocksStep {α : Type} (b : Nat) (f : α → Nat → Option (α × Nat)) (a : α) (wrap : α → Ist) (sn : BitVec 4)
    (input iolen : Nat) : Step :=
  match blockLoop b f (iolen / b) a input with
  | some (a', out) => Step.output (wrap a') sn out iolen
  | none => Step.fail (wrap a) 4

/-- The Metadata Header of `mh` is in state `n`. -/
def inState (mh : BitVec 64) (n : Nat) : Bool := (mhState mh).toNat = n

end Sys2Proof.Machine
end

