-- ==== Sys2Proof/Machine/Gf.lean ====
section
/-! DEFINITION. Arithmetic in GF(2^b) (00_scope.md R22). PRESUMED (log 22): the source names the products
and defines none; the spec gives them as general knowledge. Bit `i` is the coefficient of `x^i`. -/
namespace Sys2Proof.Machine

/-- Multiplication by `x` modulo `x^b + poly`. -/
def gfDouble (b poly v : Nat) : Nat := if v < 2 ^ (b - 1) then 2 * v else (2 * v) ^^^ (2 ^ b + poly)

/-- The product by bits of `a` from bit `n - 1` down. -/
def gfMulLoop (b poly a x : Nat) : Nat → Nat → Nat
  | 0, acc => acc
  | n + 1, acc =>
    let acc' := gfDouble b poly acc
    gfMulLoop b poly a x n (if a.testBit n then acc' ^^^ x else acc')

/-- `Galoismul`: the product of `a` and `x` modulo `x^b + poly` (45_alg_aead.md R361). -/
def gfMul (b poly a x : Nat) : Nat := gfMulLoop b poly a x b 0

/-- Division by `x` modulo `x^b + poly`, for `poly` with constant term 1. -/
def gfHalve (b poly v : Nat) : Nat := if v % 2 = 0 then v / 2 else (v ^^^ (2 ^ b + poly)) / 2

/-- The product times `x^-b`, by bits of `a` from bit `i` up. -/
def montMulLoop (b poly a x : Nat) : Nat → Nat → Nat → Nat
  | 0, _, acc => acc
  | n + 1, i, acc => montMulLoop b poly a x n (i + 1) (gfHalve b poly (if a.testBit i then acc ^^^ x else acc))

/-- `Montmul`: the product of `a` and `x` times `x^-b` modulo `x^b + poly` (43_sealing.md R292). -/
def montMul (b poly a x : Nat) : Nat := montMulLoop b poly a x b 0 0

/-- The product of a universal hash on `b` bits (45_alg_aead.md R376). -/
def fieldMul (m : FieldMul) (b a x : Nat) : Nat :=
  match m with
  | .galois poly => gfMul b poly a x
  | .mont poly => montMul b poly a x

/-- The POLYVAL polynomial without its leading term (43_sealing.md R292). -/
def polyvalPoly : Nat := 0xc2000000000000000000000000000001

/-- `POLYVAL(H, X_1 .. X_m)` started at `s` (43_sealing.md R292). -/
def polyval (h : Nat) (s : Nat) : List Nat → Nat
  | [] => s
  | x :: xs => polyval h (montMul 128 polyvalPoly (s ^^^ x) h) xs

/-- The constant `C` of `double` (45_alg_aead.md R391, 46_alg_hash_mac.md R421); for a block size the
source does not list it is a free value (log 23). -/
def doubleConst (b : Nat) : Nat :=
  if b = 64 then 0x1b
  else if b = 128 then 0x87
  else if b = 256 then 0x425
  else low b (Config.doubleConst b)

/-- `double(S)` on `b` bits (45_alg_aead.md R391). -/
def doubleBlock (b v : Nat) : Nat := gfDouble b (doubleConst b) v

end Sys2Proof.Machine
end

