-- ==== Sys2Proof/Machine/Aes.lean ====
section
/-! DEFINITION. AES (00_scope.md R22). PRESUMED: the spec names the cipher and defines nothing of it, so
the tables and rounds are those of the standard it names. Log 18. -/
namespace Sys2Proof.Machine

/-- The S-box, entry `x` in byte `x`. -/
def aesSboxTable : Nat :=
  0x16bb54b00f2d99416842e6bf0d89a18cdf2855cee9871e9b948ed9691198f8e1 <<< 1792 +
  0x9e1dc186b95735610ef6034866b53e708a8bbd4b1f74dde8c6b4a61c2e2578ba <<< 1536 +
  0x08ae7a65eaf4566ca94ed58d6d37c8e779e4959162acd3c25c2406490a3a32e0 <<< 1280 +
  0xdb0b5ede14b8ee4688902a22dc4f816073195d643d7ea7c41744975fec130ccd <<< 1024 +
  0xd2f3ff1021dab6bcf5389d928f40a351a89f3c507f02f94585334d43fbaaefd0 <<< 768 +
  0xcf584c4a39becb6a5bb1fc20ed00d153842fe329b3d63b52a05a6e1b1a2c8309 <<< 512 +
  0x75b227ebe28012079a059618c323c7041531d871f1e5a534ccf73f362693fdb7 <<< 256 +
  0xc072a49cafa2d4adf04759fa7dc982ca76abd7fe2b670130c56f6bf27b777c63

/-- The inverse S-box, entry `x` in byte `x`. -/
def aesInvSboxTable : Nat :=
  0x7d0c2155631469e126d677ba7e042b17619953833cbbebc8b0f52aae4d3be0a0 <<< 1792 +
  0xef9cc9939f7ae52d0d4ab519a97f51605fec8027591012b131c7078833a8dd1f <<< 1536 +
  0xf45acd78fec0db9a2079d2c64b3e56fc1bbe18aa0e62b76f89c5291d711af147 <<< 1280 +
  0x6edf751ce837f9e28535ade72274ac9673e6b4f0cecff297eadc674f4111913a <<< 1024 +
  0x6b8a130103bdafc1020f3fca8f1e2cd00645b3b80558e4f70ad3bc8c00abd890 <<< 768 +
  0x849d8da75746155edab9edfd5048706c92b6655dcc5ca4d41698688664f6f872 <<< 512 +
  0x25d18b6d49a25b76b224d92866a12e084ec3fa420b954cee3d23c2a632947b54 <<< 256 +
  0xcbe9dec444438e3487ff2f9b8239e37cfbd7f3819ea340bf38a53630d56a0952

/-- Byte `i` of a bit string (00_scope.md R15). -/
def byteAt (v i : Nat) : Nat := (v >>> (8 * i)) % 256

/-- The S-box. -/
def aesSub (x : Nat) : Nat := byteAt aesSboxTable x

/-- The inverse S-box. -/
def aesInvSub (x : Nat) : Nat := byteAt aesInvSboxTable x

/-- Multiplication by `x` in GF(2^8) modulo `x^8 + x^4 + x^3 + x + 1`. -/
def aesXtime (a : Nat) : Nat := if a < 128 then 2 * a else (2 * a) ^^^ 0x11b

/-- A 32-bit column from its four bytes, byte 0 lowest. -/
def aesColumn (b0 b1 b2 b3 : Nat) : Nat := b0 + b1 <<< 8 + b2 <<< 16 + b3 <<< 24

/-- MixColumns on one column. -/
def aesMix (a0 a1 a2 a3 : Nat) : Nat :=
  aesColumn (aesXtime a0 ^^^ aesXtime a1 ^^^ a1 ^^^ a2 ^^^ a3) (a0 ^^^ aesXtime a1 ^^^ aesXtime a2 ^^^ a2 ^^^ a3)
    (a0 ^^^ a1 ^^^ aesXtime a2 ^^^ aesXtime a3 ^^^ a3) (aesXtime a0 ^^^ a0 ^^^ a1 ^^^ a2 ^^^ aesXtime a3)

/-- The multiples by 2, 4 and 8 a factor of the inverse MixColumns is made of: `9`, `11`, `13`, `14`. -/
def aesMul (f a : Nat) : Nat :=
  let a2 := aesXtime a
  let a4 := aesXtime a2
  let a8 := aesXtime a4
  match f with
  | 9 => a8 ^^^ a
  | 11 => a8 ^^^ a2 ^^^ a
  | 13 => a8 ^^^ a4 ^^^ a
  | _ => a8 ^^^ a4 ^^^ a2

/-- The inverse of MixColumns on one column. -/
def aesInvMix (a0 a1 a2 a3 : Nat) : Nat :=
  aesColumn (aesMul 14 a0 ^^^ aesMul 11 a1 ^^^ aesMul 13 a2 ^^^ aesMul 9 a3)
    (aesMul 9 a0 ^^^ aesMul 14 a1 ^^^ aesMul 11 a2 ^^^ aesMul 13 a3)
    (aesMul 13 a0 ^^^ aesMul 9 a1 ^^^ aesMul 14 a2 ^^^ aesMul 11 a3)
    (aesMul 11 a0 ^^^ aesMul 13 a1 ^^^ aesMul 9 a2 ^^^ aesMul 14 a3)

/-- A block from `f` applied to each of its four columns. -/
def aesColumns (f : Nat → Nat) : Nat := f 0 + f 1 <<< 32 + f 2 <<< 64 + f 3 <<< 96

/-- Byte `4 * c + r` of the block after ShiftRows and SubBytes. -/
def aesShifted (v c r : Nat) : Nat := aesSub (byteAt v (4 * ((c + r) % 4) + r))

/-- Byte `4 * c + r` of the block after the inverse of ShiftRows and of SubBytes. -/
def aesInvShifted (v c r : Nat) : Nat := aesInvSub (byteAt v (4 * ((c + 4 - r) % 4) + r))

/-- A full encryption round. -/
def aesRound (v rk : Nat) : Nat :=
  aesColumns (fun c => aesMix (aesShifted v c 0) (aesShifted v c 1) (aesShifted v c 2) (aesShifted v c 3)) ^^^ rk

/-- The last encryption round. -/
def aesLast (v rk : Nat) : Nat :=
  aesColumns (fun c => aesColumn (aesShifted v c 0) (aesShifted v c 1) (aesShifted v c 2) (aesShifted v c 3)) ^^^ rk

/-- The block after the inverse of ShiftRows and SubBytes, with the round key added. -/
def aesUnsub (v rk : Nat) : Nat :=
  aesColumns (fun c => aesColumn (aesInvShifted v c 0) (aesInvShifted v c 1) (aesInvShifted v c 2)
    (aesInvShifted v c 3)) ^^^ rk

/-- The inverse of MixColumns on a block. -/
def aesUnmix (v : Nat) : Nat :=
  aesColumns (fun c => aesInvMix (byteAt v (4 * c)) (byteAt v (4 * c + 1)) (byteAt v (4 * c + 2))
    (byteAt v (4 * c + 3)))

/-- SubWord of the key schedule. -/
def aesSubWord (w : Nat) : Nat :=
  aesColumn (aesSub (byteAt w 0)) (aesSub (byteAt w 1)) (aesSub (byteAt w 2)) (aesSub (byteAt w 3))

/-- RotWord of the key schedule, byte 0 lowest. -/
def aesRotWord (w : Nat) : Nat := w >>> 8 + (w % 256) <<< 24

/-- The next word of the key schedule, `ws` the words so far with the newest first, `i` its index, `nk`
the key length in words. -/
def aesNextWord (nk i rcon : Nat) (ws : List Nat) : Nat :=
  let prev := ws.headD 0
  let base := ws.getD (nk - 1) 0
  if i % nk = 0 then base ^^^ aesSubWord (aesRotWord prev) ^^^ rcon
  else if nk = 8 ∧ i % nk = 4 then base ^^^ aesSubWord prev
  else base ^^^ prev

/-- The key schedule: `n` more words, newest first. -/
def aesExpand (nk : Nat) : Nat → Nat → Nat → List Nat → List Nat
  | 0, _, _, ws => ws
  | n + 1, i, rcon, ws =>
    aesExpand nk n (i + 1) (if i % nk = 0 then aesXtime rcon else rcon) (aesNextWord nk i rcon ws :: ws)

/-- The words of a key, newest first. -/
def aesKeyWords (nk key : Nat) : List Nat := ((List.range nk).map fun i => slice key (32 * i) 32).reverse

/-- Words taken four at a time as 128-bit round keys. -/
def aesGroup : List Nat → List Nat
  | a :: b :: c :: d :: ws => (a + b <<< 32 + c <<< 64 + d <<< 96) :: aesGroup ws
  | _ => []

/-- The round keys of a key of `nk` words. -/
def aesRoundKeys (nk key : Nat) : List Nat :=
  aesGroup (aesExpand nk (4 * (nk + 7) - nk) nk 1 (aesKeyWords nk key)).reverse

/-- The encryption rounds. -/
def aesEncRounds (v : Nat) : List Nat → Nat
  | [] => v
  | [rk] => aesLast v rk
  | rk :: rks => aesEncRounds (aesRound v rk) rks

/-- The decryption rounds, `rks` the round keys from the last but one to the first. -/
def aesDecRounds (v : Nat) : List Nat → Nat
  | [] => v
  | [rk] => aesUnsub v rk
  | rk :: rks => aesDecRounds (aesUnmix (aesUnsub v rk)) rks

/-- AES encryption of a block, `nk` the key length in words. -/
def aesEnc (nk key blk : Nat) : Nat :=
  match aesRoundKeys nk key with
  | [] => blk
  | rk :: rks => aesEncRounds (blk ^^^ rk) rks

/-- AES decryption of a block, `nk` the key length in words. -/
def aesDec (nk key blk : Nat) : Nat :=
  match (aesRoundKeys nk key).reverse with
  | [] => blk
  | rk :: rks => aesDecRounds (blk ^^^ rk) rks

end Sys2Proof.Machine
end

