-- ==== Sys2Proof/Machine/Sm4.lean ====
section
/-! DEFINITION. SM4 (00_scope.md R22). PRESUMED: the spec names the cipher and defines nothing of it, so
the tables and rounds are those of the standard it names. Log 19. -/
namespace Sys2Proof.Machine

/-- The S-box, entry `x` in byte `x`. -/
def sm4SboxTable : Nat :=
  0x4839cbd73e5fee79204ddc3aec7df01884c66ec509f1b9657e77960c4a976989 <<< 1792 +
  0xb0b4e5b812d0742dbd7bcda58831c10ad85a101f415cd9117fbcddbb92af1b8d <<< 1536 +
  0x515b6c6d726aff032f8efdde4537dbd56f4e530dab2329c060ca66822ee2f61d <<< 1280 +
  0xe3b18cf5303293ad551a349ba45daee0a11561f9cef2f7a3b538c740d28abfea <<< 1024 +
  0x9ec8c4a0e702364c5227d39f574600d4877821013b7c2225a2d158635e0e241e <<< 768 +
  0x359d56704b0febf88bda6471b2816b68a84f85e6193c5983ba1773f3fca70747 <<< 512 +
  0xa63f8f75fa94df8095e808c9a91cb3e462accfed430b54337a98ef91f450429c <<< 256 +
  0x99068649261344aac304be2a769a672b052cfb28c214b616b73de1ccfee990d6

/-- A left rotation of a 32-bit word. -/
def rol32 (v k : Nat) : Nat := (v <<< k) % 2 ^ 32 + v >>> (32 - k)

/-- The S-box on the four bytes of a word. -/
def sm4Tau (w : Nat) : Nat :=
  aesColumn (byteAt sm4SboxTable (byteAt w 0)) (byteAt sm4SboxTable (byteAt w 1))
    (byteAt sm4SboxTable (byteAt w 2)) (byteAt sm4SboxTable (byteAt w 3))

/-- The linear layer of a data round. -/
def sm4L (b : Nat) : Nat := b ^^^ rol32 b 2 ^^^ rol32 b 10 ^^^ rol32 b 18 ^^^ rol32 b 24

/-- The linear layer of the key schedule. -/
def sm4LKey (b : Nat) : Nat := b ^^^ rol32 b 13 ^^^ rol32 b 23

/-- The constant of key-schedule round `i`: byte `j` from the top is `7 * (4 * i + j)` modulo 256. -/
def sm4Ck (i : Nat) : Nat :=
  aesColumn ((4 * i + 3) * 7 % 256) ((4 * i + 2) * 7 % 256) ((4 * i + 1) * 7 % 256) (4 * i * 7 % 256)

/-- The round keys: `n` more of them from round `i`, from the four words of the schedule. -/
def sm4Schedule : Nat → Nat → Nat → Nat → Nat → Nat → List Nat
  | 0, _, _, _, _, _ => []
  | n + 1, i, k0, k1, k2, k3 =>
    let k := k0 ^^^ sm4LKey (sm4Tau (k1 ^^^ k2 ^^^ k3 ^^^ sm4Ck i))
    k :: sm4Schedule n (i + 1) k1 k2 k3 k

/-- The 16 bytes of a block in the other order: the standard's words are big-endian. -/
def reverse128 (v : Nat) : Nat := (List.range 16).foldl (fun acc i => acc * 256 + byteAt v i) 0

/-- The data rounds under a list of round keys; the result is the last four words, newest first. -/
def sm4Rounds : List Nat → Nat → Nat → Nat → Nat → Nat
  | [], x0, x1, x2, x3 => x3 <<< 96 + x2 <<< 64 + x1 <<< 32 + x0
  | rk :: rks, x0, x1, x2, x3 => sm4Rounds rks x1 x2 x3 (x0 ^^^ sm4L (sm4Tau (x1 ^^^ x2 ^^^ x3 ^^^ rk)))

/-- The round keys of a key. -/
def sm4Keys (key : Nat) : List Nat :=
  let k := reverse128 key
  sm4Schedule 32 0 (slice k 96 32 ^^^ 0xa3b1bac6) (slice k 64 32 ^^^ 0x56aa3350) (slice k 32 32 ^^^ 0x677d9197)
    (slice k 0 32 ^^^ 0xb27022dc)

/-- SM4 on a block under a list of round keys. -/
def sm4Crypt (rks : List Nat) (blk : Nat) : Nat :=
  let x := reverse128 blk
  reverse128 (sm4Rounds rks (slice x 96 32) (slice x 64 32) (slice x 32 32) (slice x 0 32))

/-- SM4 encryption of a block. -/
def sm4Enc (key blk : Nat) : Nat := sm4Crypt (sm4Keys key) blk

/-- SM4 decryption of a block. -/
def sm4Dec (key blk : Nat) : Nat := sm4Crypt (sm4Keys key).reverse blk

end Sys2Proof.Machine
end

