-- ==== Sys2Proof/Machine/Block.lean ====
section
/-! DEFINITION. The block cipher an algorithm is instantiated with (00_scope.md R22). -/
namespace Sys2Proof.Machine

/-- `enc_blk(key, blk)` (44_alg_block_modes.md R326). -/
def encBlk (c : Cipher) (key blk : Nat) : Nat :=
  match c with
  | .aes128 => aesEnc 4 key blk
  | .aes192 => aesEnc 6 key blk
  | .aes256 => aesEnc 8 key blk
  | .sm4 => sm4Enc key blk
  | .custom id b _ => low b (Config.customEnc id key blk)

/-- `dec_blk(key, blk)` (44_alg_block_modes.md R326). -/
def decBlk (c : Cipher) (key blk : Nat) : Nat :=
  match c with
  | .aes128 => aesDec 4 key blk
  | .aes192 => aesDec 6 key blk
  | .aes256 => aesDec 8 key blk
  | .sm4 => sm4Dec key blk
  | .custom id b _ => low b (Config.customDec id key blk)

end Sys2Proof.Machine
end

