-- ==== Sys2Proof/Machine/AlgAead.lean ====
section
/-! DEFINITION. GCM, GCM with set IV, GCM-SIV and OCB (45_alg_aead.md). -/
namespace Sys2Proof.Machine

/-! ### GCM (R360 to R370) -/

/-- `absorb(data)` (R361). -/
def gcmAbsorb (b poly : Nat) (g : GcmIst) (data : Nat) : GcmIst :=
  { g with tag := gfMul b poly (g.tag ^^^ data) g.hashKey }

/-- `enc_block` (R363): `none` when the counter is exhausted. -/
def gcmEncBlock (c : Cipher) (ctr poly : Nat) (g : GcmIst) (input : Nat) : Option (GcmIst × Nat) :=
  if g.ctr = 2 ^ ctr - 1 then none
  else
    let tmp := input ^^^ encBlk c g.key (cat g.iv ctr g.ctr)
    some ({ gcmAbsorb c.blockBits poly g tmp with ctr := low ctr (g.ctr + 1) }, tmp)

/-- `dec_block` (R363): `none` when the counter is exhausted. -/
def gcmDecBlock (c : Cipher) (ctr poly : Nat) (g : GcmIst) (input : Nat) : Option (GcmIst × Nat) :=
  if g.ctr = 2 ^ ctr - 1 then none
  else
    some ({ gcmAbsorb c.blockBits poly g input with ctr := low ctr (g.ctr + 1) },
      input ^^^ encBlk c g.key (cat g.iv ctr g.ctr))

/-- `ace.exec` of GCM (R363). -/
def gcmExec (c : Cipher) (ctr poly : Nat) (sn : BitVec 4) (g : GcmIst) : Option ExecRow :=
  match sn.toNat with
  | 1 => some ⟨.B, .blocks c.blockBits, blocksStep c.blockBits
      (fun g p => some (gcmAbsorb c.blockBits poly g p, 0)) g .gcm sn⟩
  | 6 => some ⟨.A, .blocks c.blockBits, blocksStep c.blockBits (gcmEncBlock c ctr poly) g .gcm sn⟩
  | 7 => some ⟨.A, .blocks c.blockBits, blocksStep c.blockBits (gcmDecBlock c ctr poly) g .gcm sn⟩
  | 10 => some ⟨.C, .one c.blockBits, fun _ iolen => Step.output (.gcm g) snCompleted g.tag iolen⟩
  | _ => none

/-- The values of state _initial_ for a key and an `IV` (R362). -/
def gcmInit (c : Cipher) (key iv : Nat) : GcmIst :=
  { key := key, ctr := 1, iv := iv, hashKey := encBlk c key 0, tag := 0 }

/-- The two finalizing transitions (R362). -/
def gcmFinalize (c : Cipher) (ctr poly : Nat) (g : GcmIst) (input : Nat) : GcmIst :=
  let g' := gcmAbsorb c.blockBits poly g (low c.blockBits input)
  { g' with tag := g'.tag ^^^ encBlk c g.key (cat g.iv ctr 0) }

/-- The row to _hash_absorb_: it sets the `IV`, but for the variant with set IV (R362, R370). -/
def gcmStart (b ctr : Nat) (setIV : Bool) (g : GcmIst) : Row :=
  if setIV then plainRow 1 [0] true (.gcm g)
  else
    { target := 1, form := .C, frm := [0], cond := true, size := .one (b - ctr),
      act := fun input => Step.quiet (.gcm { g with iv := low (b - ctr) input }) 1 }

/-- The transitions of GCM (R362). -/
def gcmRows (c : Cipher) (ctr : Nat) (setIV : Bool) (poly : Nat) (enc dec : Bool) (g : GcmIst) : List Row :=
  [gcmStart c.blockBits ctr setIV g, plainRow 6 [1] enc (.gcm g), plainRow 7 [1] dec (.gcm g),
   { target := 10, form := .C, frm := [6], cond := true, size := .one c.blockBits,
     act := fun input => Step.quiet (.gcm (gcmFinalize c ctr poly g input)) 10 },
   { target := 11, form := .C, frm := [7], cond := true, size := .one c.blockBits,
     act := fun input => Step.quiet (.gcm (gcmFinalize c ctr poly g input)) 11 },
   { target := 4, form := .C, frm := [11], cond := true, size := .one c.blockBits,
     act := fun input => Step.verdict (.gcm g) snCompleted (low c.blockBits input = g.tag) },
   returnRow (.gcm (gcmInit c g.key (if setIV then g.iv else 0)))]

/-! ### GCM-SIV (R375 to R380) -/

/-- The low half of the encryption of block `i` (43_sealing.md R291). That listing has the slice `[63:0]`, which is the
low half for a block of 128 bits. DESIGN CHOICE (log 47): for another block size it is the low half too, with
`k = 2b` as with `k = b`. -/
def derivePart (c : Cipher) (key i : Nat) : Nat := low (c.blockBits / 2) (encBlk c key i)

/-- `RFC8452_KeyDeriv(key)`: `enc_key` and `auth_key`, for `k = b` and for `k = 2b`
(43_sealing.md R291, R376). -/
def keyDeriv (c : Cipher) (key : Nat) : Nat × Nat :=
  let h := c.blockBits / 2
  let auth := cat (derivePart c key 1) h (derivePart c key 0)
  let e := cat (derivePart c key 3) h (derivePart c key 2)
  if c.keyBits = c.blockBits then (e, auth)
  else (cat (cat (derivePart c key 5) h (derivePart c key 4)) (2 * h) e, auth)

/-- `absorb(data)` (R376). -/
def sivAbsorb (m : FieldMul) (b : Nat) (g : GcmSivIst) (data : Nat) : GcmSivIst :=
  { g with tag := fieldMul m b (g.tag ^^^ data) g.authKey }

/-- The counter block of `ks()` (R378). -/
def sivCounterBlock (b : Nat) (shortTag : Bool) (g : GcmSivIst) : Nat :=
  let q := b / 4
  if shortTag then 2 ^ (b - 1) + cat (low (3 * q - 1) g.siv) q g.ctr
  else 2 ^ (b - 1) + cat (slice g.siv q (b - 1 - q)) q (low q (low q g.siv + g.ctr))

/-- `ks()`: `none` when the counter is exhausted (R378, R379). -/
def sivKeystream (c : Cipher) (shortTag : Bool) (g : GcmSivIst) : Option Nat :=
  if g.ctr = 2 ^ (c.blockBits / 4) - 1 then none
  else some (encBlk c g.encKey (sivCounterBlock c.blockBits shortTag g))

/-- One block of state _encrypt_ (R378). -/
def sivEncBlock (c : Cipher) (shortTag : Bool) (g : GcmSivIst) (input : Nat) : Option (GcmSivIst × Nat) :=
  match sivKeystream c shortTag g with
  | none => none
  | some k => some ({ g with ctr := g.ctr + 1 }, input ^^^ k)

/-- One block of state _decrypt_ (R378). -/
def sivDecBlock (c : Cipher) (shortTag : Bool) (m : FieldMul) (g : GcmSivIst) (input : Nat) :
    Option (GcmSivIst × Nat) :=
  match sivKeystream c shortTag g with
  | none => none
  | some k => some ({ sivAbsorb m c.blockBits g (input ^^^ k) with ctr := g.ctr + 1 }, input ^^^ k)

/-- The state after the length block and the block `tmp` of the two finalize steps (R378). -/
def sivFinal (c : Cipher) (m : FieldMul) (g : GcmSivIst) (input : Nat) : GcmSivIst × Nat :=
  let g' := sivAbsorb m c.blockBits g (low c.blockBits input)
  (g', encBlk c g.encKey (low (c.blockBits - 1) (g'.tag ^^^ g.nonce)))

/-- `finalize_enc` (R378). -/
def sivFinalizeEnc (c : Cipher) (shortTag : Bool) (m : FieldMul) (g : GcmSivIst) (input iolen : Nat) : Step :=
  let (g', tmp) := sivFinal c m g input
  let tag := if shortTag then tmp >>> (c.blockBits / 4) else tmp
  Step.output (.gcmSiv { g' with siv := tag }) 10 tag iolen

/-- `finalize_dec` (R378). -/
def sivFinalizeDec (c : Cipher) (shortTag : Bool) (m : FieldMul) (g : GcmSivIst) (input : Nat) : Step :=
  let q := c.blockBits / 4
  let (g', tmp) := sivFinal c m g input
  if shortTag then
    Step.verdict (.gcmSiv { g' with tag := (tmp >>> q) <<< q }) snCompleted (tmp >>> q = g.siv)
  else Step.verdict (.gcmSiv { g' with tag := tmp }) snCompleted (tmp = g.siv)

/-- `ace.exec` of GCM-SIV (R378). -/
def gcmSivExec (c : Cipher) (shortTag : Bool) (m : FieldMul) (sn : BitVec 4) (g : GcmSivIst) : Option ExecRow :=
  match sn.toNat with
  | 1 => some ⟨.B, .blocks c.blockBits, blocksStep c.blockBits
      (fun g p => some (sivAbsorb m c.blockBits g p, 0)) g .gcmSiv sn⟩
  | 10 => some ⟨.A, .one c.blockBits, sivFinalizeEnc c shortTag m g⟩
  | 6 => some ⟨.A, .blocks c.blockBits, blocksStep c.blockBits (sivEncBlock c shortTag) g .gcmSiv sn⟩
  | 7 => some ⟨.A, .blocks c.blockBits, blocksStep c.blockBits (sivDecBlock c shortTag m) g .gcmSiv sn⟩
  | 11 => some ⟨.B, .one c.blockBits, fun input _ => sivFinalizeDec c shortTag m g input⟩
  | _ => none

/-- The width of `SIV` (R375). -/
def sivWidth (b : Nat) (shortTag : Bool) : Nat := if shortTag then 3 * (b / 4) else b

/-- The values of state _initial_ for a key (R377). -/
def gcmSivInit (c : Cipher) (key : Nat) : GcmSivIst :=
  { key := key, encKey := (keyDeriv c key).1, authKey := (keyDeriv c key).2, nonce := 0, ctr := 0, tag := 0,
    siv := 0 }

/-- The transitions of GCM-SIV (R377). -/
def gcmSivRows (c : Cipher) (shortTag : Bool) (enc dec : Bool) (g : GcmSivIst) : List Row :=
  let b := c.blockBits
  let w := sivWidth b shortTag
  [{ target := 12, form := .C, frm := [0], cond := true, size := .one (3 * (b / 4)),
     act := fun input => Step.quiet (.gcmSiv { g with nonce := low (3 * (b / 4)) input }) 12 },
   { target := 1, form := .C, frm := [12], cond := true, size := .one w,
     act := fun input => Step.quiet (.gcmSiv { g with siv := low w input }) 1 },
   plainRow 1 [12] true (.gcmSiv g), plainRow 10 [1] true (.gcmSiv g), plainRow 6 [10] enc (.gcmSiv g),
   plainRow 7 [1] dec (.gcmSiv g), plainRow 11 [7] true (.gcmSiv g), returnRow (.gcmSiv (gcmSivInit c g.key))]

/-! ### OCB (R390 to R398) -/

/-- `g = log_2(b)` (R390). -/
def ocbG (b : Nat) : Nat := Nat.log2 b

/-- `u = b - g - 1`, the largest nonce length (R390). -/
def ocbU (b : Nat) : Nat := b - ocbG b - 1

/-- A partial block padded: `zeros(b-l-1) @ 1 @ v[l-1:0]` (R394). -/
def padOne (l v : Nat) : Nat := 2 ^ l + low l v

/-- The values of state _initial_ for a key (R392). -/
def ocbInit (b key : Nat) : OcbIst :=
  { key := key, nonce := 2 ^ ocbU b, l := 0, offset := 0, hashA := 0, hashP := 0, nonceLen := 0, tagLen := 0,
    lastLen := 0 }

/-- `double(double(enc_blk(key, zeros(b))))` (R392, R393). -/
def ocbL (c : Cipher) (key : Nat) : Nat :=
  doubleBlock c.blockBits (doubleBlock c.blockBits (encBlk c key 0))

/-- `N_ext` (R393). -/
def ocbNExt (b : Nat) (o : OcbIst) : Nat :=
  (low o.nonceLen o.nonce) <<< (b - o.nonceLen) + 2 ^ (b - 1 - o.nonceLen) + low (ocbG b) o.tagLen

/-- `setup` (R393). -/
def ocbSetup (c : Cipher) (o : OcbIst) : OcbIst :=
  let b := c.blockBits
  let g := ocbG b
  let nExt := ocbNExt b o
  let bottom := slice nExt (b - g + 1) (g - 1)
  let ktop := encBlk c o.key (low (b - g + 1) nExt)
  let stretch := cat (low (b / 2) ktop ^^^ slice ktop 8 (b / 2)) b ktop
  { o with l := ocbL c o.key, offset := slice stretch bottom b }

/-- The offset step that opens every full block: double `L`, add it to `offset` (R394, R395). -/
def ocbAdvance (b : Nat) (o : OcbIst) : OcbIst :=
  { o with l := doubleBlock b o.l, offset := o.offset ^^^ doubleBlock b o.l }

/-- One block of associated data (R394). -/
def ocbAdBlock (c : Cipher) (o : OcbIst) (input : Nat) : OcbIst :=
  let o := ocbAdvance c.blockBits o
  { o with hashA := o.hashA ^^^ encBlk c o.key (input ^^^ o.offset) }

/-- The partial last block of associated data (R394). -/
def ocbAdLast (c : Cipher) (o : OcbIst) (input : Nat) : OcbIst :=
  let offset := o.offset ^^^ encBlk c o.key 0
  { o with offset := offset, hashA := o.hashA ^^^ encBlk c o.key (padOne o.lastLen input ^^^ offset) }

/-- One block of plaintext (R395). -/
def ocbEncBlock (c : Cipher) (o : OcbIst) (input : Nat) : OcbIst × Nat :=
  let o := ocbAdvance c.blockBits o
  ({ o with hashP := o.hashP ^^^ input }, o.offset ^^^ encBlk c o.key (input ^^^ o.offset))

/-- One block of ciphertext (R395). -/
def ocbDecBlock (c : Cipher) (o : OcbIst) (input : Nat) : OcbIst × Nat :=
  let o := ocbAdvance c.blockBits o
  let tmp := o.offset ^^^ decBlk c o.key (input ^^^ o.offset)
  ({ o with hashP := o.hashP ^^^ tmp }, tmp)

/-- `last(dir)` (R396): the new Internal State and the output of `last_blk_len` bits. -/
def ocbLast (c : Cipher) (decrypt : Bool) (o : OcbIst) (input : Nat) : OcbIst × Nat :=
  let aux := encBlk c o.key 0
  let offset := o.offset ^^^ aux
  let tmp := low o.lastLen input ^^^ low o.lastLen (encBlk c o.key offset)
  let tmp2 := padOne o.lastLen (if decrypt then input else tmp) ^^^ offset
  let aux := doubleBlock c.blockBits aux
  ({ o with offset := offset,
            hashP := encBlk c o.key (o.hashP ^^^ tmp2 ^^^ offset ^^^ aux) ^^^ o.hashA }, tmp)

/-- `last0` (R396). -/
def ocbLast0 (c : Cipher) (o : OcbIst) : OcbIst :=
  let aux := doubleBlock c.blockBits (encBlk c o.key 0)
  { o with hashP := encBlk c o.key (o.hashP ^^^ o.offset ^^^ aux) ^^^ o.hashA }

/-- The last block of the message, going on to state `next` (R396). -/
def ocbLastRow (c : Cipher) (decrypt : Bool) (o : OcbIst) (next : BitVec 4) : ExecRow :=
  if o.lastLen = 0 then ⟨.D, .none, fun _ _ => Step.quiet (.ocb (ocbLast0 c o)) next⟩
  else ⟨.A, .one c.blockBits, fun input iolen =>
    let (o', out) := ocbLast c decrypt o input
    Step.output (.ocb o') next out iolen⟩

/-- `ace.exec` of OCB (R394 to R397). -/
def ocbExec (c : Cipher) (sn : BitVec 4) (o : OcbIst) : Option ExecRow :=
  let b := c.blockBits
  match sn.toNat with
  | 12 => some ⟨.B, .one b, fun input _ => Step.quiet (.ocb { o with nonce := low o.nonceLen input }) sn⟩
  | 1 => some ⟨.B, .blocks b, blocksStep b (fun o p => some (ocbAdBlock c o p, 0)) o .ocb sn⟩
  | 3 =>
    if o.lastLen = 0 then none
    else some ⟨.B, .one b, fun input _ => Step.quiet (.ocb (ocbAdLast c o input)) sn⟩
  | 6 => some ⟨.A, .blocks b, blocksStep b (fun o p => some (ocbEncBlock c o p)) o .ocb sn⟩
  | 7 => some ⟨.A, .blocks b, blocksStep b (fun o p => some (ocbDecBlock c o p)) o .ocb sn⟩
  | 8 => some (ocbLastRow c false o 10)
  | 9 => some (ocbLastRow c true o 4)
  | 10 => some ⟨.C, .one b, fun _ iolen => Step.output (.ocb o) snCompleted (low o.tagLen o.hashP) iolen⟩
  | _ => none

/-- The Form B row that sets `last_blk_len` (R392). -/
def ocbLenRow (b target : Nat) (frm : List Nat) (o : OcbIst) : Row :=
  { target := target, form := .B, frm := frm, cond := true, size := .none,
    act := fun a =>
      if b ≤ a then Step.fail (.ocb o) 8 else Step.quiet (.ocb { o with lastLen := a }) (BitVec.ofNat 4 target) }

/-- The transitions of OCB (R392). -/
def ocbRows (c : Cipher) (enc dec : Bool) (o : OcbIst) : List Row :=
  let b := c.blockBits
  [{ target := 12, form := .B, frm := [0], cond := true, size := .none,
     act := fun a =>
       if a < ocbG b - 1 ∨ ocbU b < a then Step.fail (.ocb o) 8
       else Step.quiet (.ocb { o with nonceLen := a }) 12 },
   { target := 1, form := .B, frm := [12], cond := true, size := .none,
     act := fun a =>
       if b < a ∨ a = 0 then Step.fail (.ocb o) 8
       else if o.nonce.testBit (ocbU b) then Step.fail (.ocb o) 8
       else Step.quiet (.ocb { o with tagLen := a, offset := 0, l := ocbL c o.key }) 1 },
   ocbLenRow b 3 [1] o, plainRow 6 [3] enc (.ocb (ocbSetup c o)), plainRow 7 [3] dec (.ocb (ocbSetup c o)),
   ocbLenRow b 8 [6] o, ocbLenRow b 9 [7] o,
   { target := 4, form := .C, frm := [], cond := true, size := .one b,
     act := fun input => Step.verdict (.ocb o) snCompleted (low o.tagLen input = low o.tagLen o.hashP) },
   returnRow (.ocb (ocbInit b o.key))]

end Sys2Proof.Machine
end

