-- ==== Sys2Proof/Machine/AlgAscon.lean ====
section
/-! DEFINITION. The Ascon family (47_alg_ascon.md). -/
namespace Sys2Proof.Machine

/-- Bits `[63:0]` of a 128-bit string as a word. -/
def word0 (v : Nat) : BitVec 64 := BitVec.ofNat 64 v

/-- Bits `[127:64]` of a 128-bit string as a word. -/
def word1 (v : Nat) : BitVec 64 := BitVec.ofNat 64 (v >>> 64)

/-- `hi @ lo` of two words. -/
def joinWords (hi lo : BitVec 64) : Nat := cat hi.toNat 64 lo.toNat

/-! ### Ascon-AEAD128 (R460 to R478) -/

/-- Words 3 and 4 with the key added (R462). -/
def asconKeyTail (s : AsconState) (key : Nat) : AsconState :=
  { s with w3 := s.w3 ^^^ word0 key, w4 := s.w4 ^^^ word1 key }

/-- `set_nonce(N)` (R462). -/
def asconSetNonce (s : AsconState) (key nonce : Nat) : AsconState :=
  asconKeyTail (ascon 12 { s with w3 := word0 nonce, w4 := word1 nonce }) key

/-- `finalize` (R463). -/
def asconFinalize (s : AsconState) (key : Nat) : AsconState :=
  asconKeyTail (ascon 12 { s with w2 := s.w2 ^^^ word0 key, w3 := s.w3 ^^^ word1 key }) key

/-- The rate words with a block added. -/
def asconXorRate (s : AsconState) (input : Nat) : AsconState :=
  { s with w0 := s.w0 ^^^ word0 input, w1 := s.w1 ^^^ word1 input }

/-- The rate words replaced by a block. -/
def asconSetRate (s : AsconState) (input : Nat) : AsconState := { s with w0 := word0 input, w1 := word1 input }

/-- The rate `state[1] @ state[0]`. -/
def asconRate (s : AsconState) : Nat := joinWords s.w1 s.w0

/-- The tag `state[4] @ state[3]` (R463). -/
def asconTag (s : AsconState) : Nat := joinWords s.w4 s.w3

/-- The values of state _initial_ (R462, R475). -/
def asconAeadInit (v : AsconAead) (key key2 nonce : Nat) : AsconAeadIst :=
  { key := key, key2 := key2, nonce := nonce, tagLen := 128, lastBlockLen := 0,
    state :=
      { w0 := 0x00001000808c0001, w1 := word0 key, w2 := word1 key,
        w3 := if v = .setNonce then word0 nonce else 0, w4 := if v = .setNonce then word1 nonce else 0 } }

/-- `ace.exec` of Ascon-AEAD128 (R463). -/
def asconAeadExec (sn : BitVec 4) (a : AsconAeadIst) : Option ExecRow :=
  let wrap := fun s : AsconState => Ist.asconAead { a with state := s }
  match sn.toNat with
  | 1 => some ⟨.B, .blocks 128, blocksStep 128 (fun s p => some (asconXorRate (ascon 8 s) p, 0)) a.state wrap sn⟩
  | 6 => some ⟨.A, .blocks 128, blocksStep 128
      (fun s p => some (ascon 8 (asconXorRate s p), asconRate (asconXorRate s p))) a.state wrap sn⟩
  | 8 => some ⟨.A, .one 128, fun input _ =>
      Step.output (wrap (asconXorRate a.state input)) 5 (asconRate (asconXorRate a.state input)) 128⟩
  | 5 => some ⟨.C, .one 128, fun _ _ =>
      Step.output (wrap (asconFinalize a.state a.key)) snCompleted (asconTag (asconFinalize a.state a.key)) 128⟩
  | 7 => some ⟨.A, .blocks 128, blocksStep 128
      (fun s p => some (ascon 8 (asconSetRate s p), asconRate (asconXorRate s p))) a.state wrap sn⟩
  | 9 => some ⟨.A, .one 128, fun input _ =>
      Step.output (wrap (asconSetRate a.state input)) 4 (asconRate (asconXorRate a.state input)) 128⟩
  | 4 => some ⟨.B, .one 128, fun input _ =>
      let s := asconFinalize a.state a.key
      Step.verdict (wrap s) snCompleted (low a.tagLen input = low a.tagLen (asconTag s))⟩
  | _ => none

/-- The row to _hash_absorb_ of each variant (R462, R475, R478). -/
def asconStart (v : AsconAead) (a : AsconAeadIst) : Row :=
  match v with
  | .setNonce => plainRow 1 [0] true (.asconAead { a with state := asconKeyTail (ascon 12 a.state) a.key })
  | .plain =>
    { target := 1, form := .C, frm := [0], cond := true, size := .one 128,
      act := fun input => Step.quiet (.asconAead { a with state := asconSetNonce a.state a.key (low 128 input) }) 1 }
  | .nonceMask =>
    { target := 1, form := .C, frm := [0], cond := true, size := .one 128,
      act := fun input =>
        Step.quiet (.asconAead { a with state := asconSetNonce a.state a.key (low 128 input ^^^ a.key2) }) 1 }

/-- The return to _initial_: not from _completed_ with a set nonce (R475). -/
def asconReturn (v : AsconAead) (a : AsconAeadIst) : Row :=
  { returnRow (.asconAead (asconAeadInit v a.key a.key2 a.nonce)) with
    frm := if v = .setNonce then List.range 15 else anyState }

/-- The transitions of Ascon-AEAD128 (R462, R464). Log 33. -/
def asconAeadRows (v : AsconAead) (enc dec : Bool) (a : AsconAeadIst) : List Row :=
  let separated := Ist.asconAead { a with state := { a.state with w4 := a.state.w4 ^^^ 1 } }
  [asconStart v a, plainRow 6 [1] enc separated, plainRow 7 [1] dec separated,
   plainRow 8 [6] true (.asconAead a), plainRow 9 [7] true (.asconAead a),
   { target := 4, form := .B, frm := [4], cond := true, size := .none,
     act := fun len =>
       if len < 32 ∨ 128 < len then Step.fail (.asconAead a) 8
       else Step.quiet (.asconAead { a with tagLen := len }) 4 },
   asconReturn v a]

/-! ### Ascon-Hash256, Ascon-XOF128, Ascon-CXOF128 (R482 to R489) -/

/-- The IV written to `state[0]` (R483, R488, R489). -/
def asconHashIV : AsconHash → BitVec 64
  | .hash256 => 0x0000080100cc0002
  | .xof128 => 0x0000080000cc0003
  | .cxof128 => 0x0000080000cc0004

/-- The `state` in state _initial_ (R483). -/
def asconHashInit (v : AsconHash) : AsconState := ascon 12 ⟨asconHashIV v, 0, 0, 0, 0⟩

/-- `squeeze` on up to `n` words (R484): the state, `countdown`, `OUTPUT`, how many words were written, and
whether the last one was reached. -/
def asconSqueeze : Nat → AsconState → Nat → AsconState × Nat × Nat × Nat × Bool
  | 0, s, countdown => (s, countdown, 0, 0, false)
  | n + 1, s, countdown =>
    let s := ascon 12 s
    if countdown = 0 then (s, 0, s.w0.toNat, 1, true)
    else
      let (s', cd, out, count, done) := asconSqueeze n s (countdown - 1)
      (s', cd, cat out 64 s.w0.toNat, count + 1, done)

/-- The output step of Ascon-Hash256: words past the last keep their previous value (R484). -/
def asconHashSqueeze (sn : BitVec 4) (s : AsconState) (countdown iolen : Nat) : Step :=
  let (s', cd, out, count, done) := asconSqueeze (iolen / 64) s countdown
  Step.output (.asconHash s' cd) (if done then snCompleted else sn) out (64 * count)

/-- The output step of the XOFs (R488). -/
def asconXofSqueeze (sn : BitVec 4) (s : AsconState) (countdown iolen : Nat) : Step :=
  blocksStep 64 (fun s _ => some (ascon 12 s, (ascon 12 s).w0.toNat)) s (fun s => .asconHash s countdown) sn 0 iolen

/-- `ace.exec` of the Ascon hashes (R484, R488). -/
def asconHashExec (v : AsconHash) (sn : BitVec 4) (s : AsconState) (countdown : Nat) : Option ExecRow :=
  match sn.toNat with
  | 1 => some ⟨.B, .blocks 64, blocksStep 64 (fun s p => some (ascon 12 { s with w0 := s.w0 ^^^ word0 p }, 0)) s
      (fun s => .asconHash s countdown) sn⟩
  | 3 => some ⟨.C, .blocks 64, fun _ iolen =>
      if v = .hash256 then asconHashSqueeze sn s countdown iolen else asconXofSqueeze sn s countdown iolen⟩
  | _ => none

/-- The transitions of the Ascon hashes (R483, R488). -/
def asconHashRows (v : AsconHash) (s : AsconState) (countdown : Nat) : List Row :=
  [plainRow 1 [0] true (.asconHash s countdown),
   plainRow 3 [1] true (.asconHash s (if v = .hash256 then 3 else countdown)),
   returnRow (.asconHash (asconHashInit v) 0)]

end Sys2Proof.Machine
end

