-- ==== Sys2Proof/Machine/AlgBlock.lean ====
section
/-! DEFINITION. ECB, the keystream family, XEX and XTS, tweakable block ciphers (44_alg_block_modes.md). -/
namespace Sys2Proof.Machine

/-! ### ECB (R326 to R328) -/

/-- `ace.exec` of ECB (R328). -/
def ecbExec (c : Cipher) (sn : BitVec 4) (key : Nat) : Option ExecRow :=
  match sn.toNat with
  | 6 => some ⟨.A, .blocks c.blockBits, blocksStep c.blockBits (fun _ p => some ((), encBlk c key p)) ()
      (fun _ => .ecb key) sn⟩
  | 7 => some ⟨.A, .blocks c.blockBits, blocksStep c.blockBits (fun _ p => some ((), decBlk c key p)) ()
      (fun _ => .ecb key) sn⟩
  | _ => none

/-- The transitions of ECB (R327). -/
def ecbRows (enc dec : Bool) (key : Nat) : List Row :=
  [plainRow 6 [0, 6, 7] enc (.ecb key), plainRow 7 [0, 6, 7] dec (.ecb key), returnRow (.ecb key)]

/-! ### CTR, LFSR, XCTR, XLFSR (R331 to R333) -/

/-- `tick_ctr()` on a counter of `j` bits (R331). -/
def tickCtr (j : Nat) (lfsr : Option Nat) (ctr : Nat) : Nat :=
  match lfsr with
  | none => low j (ctr + 1)
  | some id => low j (Config.lfsrTick id ctr)

/-- The counter in state _initial_ (R331). -/
def initCtr (lfsr : Option Nat) : Nat := if lfsr.isSome then 1 else 0

/-- One block of keystream (R333): the state of the loop is the counter. -/
def keystreamBlock (c : Cipher) (j : Nat) (x : Bool) (lfsr : Option Nat) (key iv ctr : Nat) : Nat × Nat :=
  (tickCtr j lfsr ctr, encBlk c key (if x then iv ^^^ ctr else cat iv j ctr))

/-- `ace.exec` of the keystream family (R333). -/
def keystreamExec (c : Cipher) (j : Nat) (x : Bool) (lfsr : Option Nat) (sn : BitVec 4) (key iv ctr : Nat) :
    Option ExecRow :=
  match sn.toNat with
  | 1 => some ⟨.C, .blocks c.blockBits, blocksStep c.blockBits
      (fun ctr _ => some (keystreamBlock c j x lfsr key iv ctr)) ctr (fun ctr => .keystream key iv ctr) sn⟩
  | _ => none

/-- The transitions of the keystream family (R332). -/
def keystreamRows (n : Nat) (lfsr : Option Nat) (key ctr : Nat) : List Row :=
  [{ target := 1, form := .C, frm := [0, 1], cond := true, size := .one n,
     act := fun input => Step.quiet (.keystream key (low n input) ctr) 1 },
   returnRow (.keystream key 0 (initCtr lfsr))]

/-! ### XEX and XTS (R335 to R337) -/

/-- `update_mask` (R335). -/
def updateMask (b mult poly mask : Nat) : Nat := gfMul b poly mult mask

/-- `set_tweak` on `INPUT` (R336). -/
def setTweak (c : Cipher) (twoKeys : Bool) (mult poly key1 key2 input : Nat) : Nat :=
  if twoKeys then encBlk c key2 (low c.blockBits input)
  else updateMask c.blockBits mult poly (encBlk c key1 (low c.blockBits input))

/-- One block of XEX under `crypt` (R337): the state of the loop is the mask. -/
def xexBlock (b mult poly : Nat) (crypt : Nat → Nat) (mask input : Nat) : Nat × Nat :=
  (updateMask b mult poly mask, mask ^^^ crypt (input ^^^ mask))

/-- `ace.exec` of XEX and XTS (R337). -/
def xexExec (c : Cipher) (mult poly : Nat) (sn : BitVec 4) (key1 key2 mask : Nat) : Option ExecRow :=
  match sn.toNat with
  | 6 => some ⟨.A, .blocks c.blockBits, blocksStep c.blockBits
      (fun m p => some (xexBlock c.blockBits mult poly (encBlk c key1) m p)) mask (fun m => .xex key1 key2 m) sn⟩
  | 7 => some ⟨.A, .blocks c.blockBits, blocksStep c.blockBits
      (fun m p => some (xexBlock c.blockBits mult poly (decBlk c key1) m p)) mask (fun m => .xex key1 key2 m) sn⟩
  | _ => none

/-- The row of XEX to _encrypt_ or _decrypt_ (R336). -/
def xexRow (target : Nat) (cond : Bool) (c : Cipher) (twoKeys : Bool) (mult poly key1 key2 : Nat) : Row :=
  { target := target, form := .C, frm := [0], cond := cond, size := .one c.blockBits,
    act := fun input =>
      Step.quiet (.xex key1 key2 (setTweak c twoKeys mult poly key1 key2 input)) (BitVec.ofNat 4 target) }

/-- The transitions of XEX and XTS (R336). -/
def xexRows (c : Cipher) (twoKeys : Bool) (mult poly : Nat) (enc dec : Bool) (key1 key2 : Nat) : List Row :=
  [xexRow 6 enc c twoKeys mult poly key1 key2, xexRow 7 dec c twoKeys mult poly key1 key2,
   returnRow (.xex key1 key2 0)]

/-! ### Generic tweakable block ciphers (R339 to R341) -/

/-- `ace.exec` of a tweakable block cipher (R341). -/
def tbcExec (id b : Nat) (sn : BitVec 4) (key tweak : Nat) : Option ExecRow :=
  match sn.toNat with
  | 6 => some ⟨.A, .blocks b, blocksStep b (fun _ p => some ((), low b (Config.tbcEnc id key tweak p))) ()
      (fun _ => .tbc key tweak) sn⟩
  | 7 => some ⟨.A, .blocks b, blocksStep b (fun _ p => some ((), low b (Config.tbcDec id key tweak p))) ()
      (fun _ => .tbc key tweak) sn⟩
  | _ => none

/-- The transitions of a tweakable block cipher: the request for state 12 leaves the state unchanged (R340). -/
def tbcRows (t : Nat) (sn : BitVec 4) (enc dec : Bool) (key tweak : Nat) : List Row :=
  [{ target := 12, form := .C, frm := [0, 6, 7], cond := true, size := .one t,
     act := fun input => Step.quiet (.tbc key (low t input)) sn },
   plainRow 6 [0, 6, 7] enc (.tbc key tweak), plainRow 7 [0, 6, 7] dec (.tbc key tweak),
   returnRow (.tbc key 0)]

end Sys2Proof.Machine
end

