-- ==== Sys2Proof/Machine/Curve.lean ====
section
/-! DEFINITION. The NIST curves and ECDSA (48_alg_ecc.md R510). PRESUMED (log 27): the spec names the
functions and gives of their constants only the generator of secp256r1; the curves and formulas are those of
the standards it names. -/
namespace Sys2Proof

/-- The size `b` of the main fields in bits (48_alg_ecc.md R500). -/
def Curve.bits : Curve → Nat
  | .p256 => 256
  | .p384 => 384
  | .p521 => 576

/-- The length `h` of the hash in bits (48_alg_ecc.md R500). -/
def Curve.hashBits : Curve → Nat
  | .p256 => 256
  | .p384 => 384
  | .p521 => 512

/-- The prime of the field. -/
def Curve.prime : Curve → Nat
  | .p256 => 2 ^ 256 - 2 ^ 224 + 2 ^ 192 + 2 ^ 96 - 1
  | .p384 => 2 ^ 384 - 2 ^ 128 - 2 ^ 96 + 2 ^ 32 - 1
  | .p521 => 2 ^ 521 - 1

/-- The constant term of the equation `y^2 = x^3 - 3 x + b`. -/
def Curve.coeffB : Curve → Nat
  | .p256 => 0x5ac635d8aa3a93e7b3ebbd55769886bc651d06b0cc53b0f63bce3c3e27d2604b
  | .p384 =>
    0xb3312fa7e23ee7e4988e056be3f82d19181d9c6efe814112 <<< 192 +
      0x0314088f5013875ac656398d8a2ed19d2a85c8edd3ec2aef
  | .p521 =>
    0x0051953eb9618e1c9a1f929a21a0b68540eea2da725b99b315f3b8b489918ef109e1 <<< 256 +
      0x56193951ec7e937b1652c0bd3bb1bf073573df883d2c34f1ef451fd46b503f00

/-- The order `n` of the group. -/
def Curve.order : Curve → Nat
  | .p256 => 0xffffffff00000000ffffffffffffffffbce6faada7179e84f3b9cac2fc632551
  | .p384 =>
    0xffffffffffffffffffffffffffffffffffffffffffffffff <<< 192 +
      0xc7634d81f4372ddf581a0db248b0a77aecec196accc52973
  | .p521 =>
    0x01fffffffffffffffffffffffffffffffffffffffffffffffffffffffffffffffffa <<< 256 +
      0x51868783bf2f966b7fcc0148f709a5d03bb5c9b8899c47aebb6fb71e91386409

/-- The first coordinate of `ecc_G(curve)` (48_alg_ecc.md R510). -/
def Curve.genX : Curve → Nat
  | .p256 => 0x6b17d1f2e12c4247f8bce6e563a440f277037d812deb33a0f4a13945d898c296
  | .p384 =>
    0xaa87ca22be8b05378eb1c71ef320ad746e1d3b628ba79b98 <<< 192 +
      0x59f741e082542a385502f25dbf55296c3a545e3872760ab7
  | .p521 =>
    0x00c6858e06b70404e9cd9e3ecb662395b4429c648139053fb521f828af606b4d3dba <<< 256 +
      0xa14b5e77efe75928fe1dc127a2ffa8de3348b3c1856a429bf97e7e31c2e5bd66

/-- The second coordinate of `ecc_G(curve)` (48_alg_ecc.md R510). -/
def Curve.genY : Curve → Nat
  | .p256 => 0x4fe342e2fe1a7f9b8ee7eb4a7c0f9e162bce33576b315ececbb6406837bf51f5
  | .p384 =>
    0x3617de4a96262c6f5d9e98bf9292dc29f8f41dbd289a147c <<< 192 +
      0xe9da3113b5f0b8c00a60b1ce1d7e819d7a431d7c90ea0e5f
  | .p521 =>
    0x011839296a789a3bc0045c8a5fb42c7d1bd998f54449579b446817afbd17273e662c <<< 256 +
      0x97ee72995ef42640c550b9013fad0761353c7086a272c24088be94769fd16650

end Sys2Proof

namespace Sys2Proof.Machine

/-! ### Arithmetic -/

/-- Subtraction modulo `p` of values below `p`. -/
def subMod (p a b : Nat) : Nat := (a + (p - b)) % p

/-- A power modulo `p`, by bits of the exponent from bit `n - 1` down. -/
def powModLoop (p a e : Nat) : Nat → Nat → Nat
  | 0, acc => acc
  | n + 1, acc =>
    let sq := acc * acc % p
    powModLoop p a e n (if e.testBit n then sq * a % p else sq)

/-- The inverse modulo a prime `p` below `2^576`. -/
def invMod (p a : Nat) : Nat := powModLoop p (a % p) (p - 2) 576 1

/-- A point in Jacobian coordinates; `z = 0` is the point at infinity. -/
structure JPoint where
  x : Nat
  y : Nat
  z : Nat
  deriving DecidableEq, Repr

/-- Doubling on a curve with `a = -3`. -/
def JPoint.double (p : Nat) (q : JPoint) : JPoint :=
  if q.z = 0 ∨ q.y = 0 then ⟨1, 1, 0⟩
  else
    let delta := q.z * q.z % p
    let gamma := q.y * q.y % p
    let beta := q.x * gamma % p
    let alpha := 3 * (subMod p q.x delta) * ((q.x + delta) % p) % p
    let x3 := subMod p (alpha * alpha % p) (8 * beta % p)
    let z3 := subMod p ((q.y + q.z) * (q.y + q.z) % p) ((gamma + delta) % p)
    let y3 := subMod p (alpha * subMod p (4 * beta % p) x3 % p) (8 * gamma * gamma % p)
    ⟨x3, y3, z3⟩

/-- Addition of an affine point. -/
def JPoint.addAffine (p : Nat) (q : JPoint) (x2 y2 : Nat) : JPoint :=
  if q.z = 0 then ⟨x2, y2, 1⟩
  else
    let zz := q.z * q.z % p
    let h := subMod p (x2 * zz % p) q.x
    let r := subMod p (y2 * (zz * q.z % p) % p) q.y
    if h = 0 then if r = 0 then JPoint.double p q else ⟨1, 1, 0⟩
    else
      let hh := h * h % p
      let hhh := h * hh % p
      let v := q.x * hh % p
      let x3 := subMod p (subMod p (r * r % p) hhh) (2 * v % p)
      ⟨x3, subMod p (r * subMod p v x3 % p) (q.y * hhh % p), q.z * h % p⟩

/-- Scalar multiplication by bits of the scalar from bit `n - 1` down. -/
def ecMulLoop (p k x y : Nat) : Nat → JPoint → JPoint
  | 0, acc => acc
  | n + 1, acc =>
    let d := JPoint.double p acc
    ecMulLoop p k x y n (if k.testBit n then d.addAffine p x y else d)

/-- The affine point of Jacobian coordinates, `none` for the point at infinity. -/
def JPoint.affine (p : Nat) (q : JPoint) : Option (Nat × Nat) :=
  if q.z = 0 then none
  else
    let zi := invMod p q.z
    let zi2 := zi * zi % p
    some (q.x * zi2 % p, q.y * (zi2 * zi % p) % p)

/-- The coordinates are those of a point of the curve. -/
def onCurve (c : Curve) (x y : Nat) : Bool :=
  x < c.prime && y < c.prime && y * y % c.prime == (x * x * x + (c.prime - 3) * x + c.coeffB) % c.prime

/-- A multiple of a point of the curve, `none` for the point at infinity. -/
def ecScale (c : Curve) (k x y : Nat) : Option (Nat × Nat) :=
  (ecMulLoop c.prime k x y 576 ⟨1, 1, 0⟩).affine c.prime

/-- The sum of two points, `none` for the point at infinity. -/
def ecAdd (c : Curve) (a b : Option (Nat × Nat)) : Option (Nat × Nat) :=
  match a, b with
  | none, q => q
  | q, none => q
  | some (x1, y1), some (x2, y2) => (JPoint.addAffine c.prime ⟨x1, y1, 1⟩ x2 y2).affine c.prime

/-- `ecc_mul(curve, k, P)`: `none` when `P` is not a point of the curve or the product is the point at
infinity (48_alg_ecc.md R507). -/
def ecMul (c : Curve) (k x y : Nat) : Option (Nat × Nat) := if onCurve c x y then ecScale c k x y else none

/-- A signature the spec does not state: two free values in `[1, n-1]`, so that the bits no value of the curve has are
zero and neither is zero (48_alg_ecc.md R510). Logs 28, 29. -/
def ecdsaFree (c : Curve) (operands : List Nat) : Nat × Nat :=
  (Config.eccUnstated 0 operands % (c.order - 1) + 1, Config.eccUnstated 1 operands % (c.order - 1) + 1)

/-- `ecdsa_sign(curve, G, d, e, k)` (48_alg_ecc.md R510): `none` when `r` or `s` would be zero or `k` is
out of range. With a generator that is no point of the curve, or a private key `d` that is not in `[1, n-1]`, the result
is a free value. DESIGN CHOICE, log 28. -/
def ecdsaSign (c : Curve) (gx gy d e k : Nat) : Option (Nat × Nat) :=
  if k = 0 ∨ c.order ≤ k then none
  else if d = 0 ∨ c.order ≤ d ∨ !onCurve c gx gy then some (ecdsaFree c [gx, gy, d, e, k])
  else
    match ecScale c k gx gy with
    | none => none
    | some (x, _) =>
      let r := x % c.order
      let s := invMod c.order k * (e + r * d) % c.order
      if r = 0 ∨ s = 0 then none else some (r, s)

/-- `ecdsa_verify(curve, G, Q, e, (r, s))` (48_alg_ecc.md R510). With a generator or a public key that is
no point of the curve the result is a free value (log 28). -/
def ecdsaVerify (c : Curve) (gx gy qx qy e r s : Nat) : Bool :=
  if r = 0 ∨ c.order ≤ r ∨ s = 0 ∨ c.order ≤ s then false
  else if !(onCurve c gx gy && onCurve c qx qy) then Config.eccUnstated 2 [gx, gy, qx, qy, e, r, s] % 2 = 1
  else
    let w := invMod c.order s
    match ecAdd c (ecScale c (e * w % c.order) gx gy) (ecScale c (r * w % c.order) qx qy) with
    | none => false
    | some (x, _) => x % c.order == r

end Sys2Proof.Machine
end

