-- ==== Sys2Proof/Machine/AlgEcc.lean ====
section
/-! DEFINITION. Elliptic curves (48_alg_ecc.md). -/
namespace Sys2Proof.Machine

/-- The values after provisioning (R504). -/
def eccInit : EccIst :=
  { hasGenerator := false, hasSecondPoint := false, hasScalar := false, hasPublicKey := false,
    hasSignature := false, hasHash := false, hasRandomNumber := false, outputType := false, progress := 0,
    generator := 0, secondPoint := 0, scalar := 0, publicKey := 0, signature := 0, hash := 0, randomNumber := 0 }

/-- The first component of a pair of `b`-bit strings: X of a point, R of a signature (R506). -/
def fstOf (c : Curve) (v : Nat) : Nat := low c.bits v

/-- The second component of a pair of `b`-bit strings: Y of a point, S of a signature (R506). -/
def sndOf (c : Curve) (v : Nat) : Nat := slice v c.bits c.bits

/-- A pair of `b`-bit strings, the first in the low half (R506). -/
def pairOf (c : Curve) (x y : Nat) : Nat := cat y c.bits x

/-! ### Serialization (R501 to R503) -/

/-- Position i of the Serialized Content: the flags (R501). -/
def eccFlags (e : EccIst) : Nat :=
  e.hasGenerator.toNat + 2 * e.hasSecondPoint.toNat + 4 * e.hasScalar.toNat + 8 * e.hasPublicKey.toNat +
    16 * e.hasSignature.toNat + 32 * e.hasHash.toNat + 64 * e.hasRandomNumber.toNat + 128 * e.outputType.toNat

/-- `varlen` in bytes (R502). -/
def eccVarLen (c : Curve) (e : EccIst) : Nat :=
  let opt := e.hasSecondPoint.toNat * (2 * c.bits / 8) + e.hasPublicKey.toNat * (2 * c.bits / 8) +
    e.hasSignature.toNat * (2 * c.bits / 8) + e.hasHash.toNat * (c.hashBits / 8) +
    e.hasRandomNumber.toNat * (c.hashBits / 8)
  if opt = 0 then 0 else 8 + opt

/-- A field of the variable part: present with its flag (R502). -/
def eccOptional (present : Bool) (n v : Nat) : List Byte := if present then natLE n v else []

/-- The additional data segment: positions vii to xv (R502). -/
def eccAd (archId : Word) (c : Curve) (e : EccIst) : List Byte :=
  if eccVarLen c e = 0 then []
  else
    natLE 8 archId.toNat ++ eccOptional e.hasSecondPoint (2 * c.bits / 8) e.secondPoint ++
      eccOptional e.hasPublicKey (2 * c.bits / 8) e.publicKey ++
      eccOptional e.hasSignature (2 * c.bits / 8) e.signature ++
      eccOptional e.hasHash (c.hashBits / 8) e.hash ++
      eccOptional e.hasRandomNumber (c.hashBits / 8) e.randomNumber

/-- The Internal State the fixed part of an SCC says (R501), its optional fields still zero. -/
def eccOfFixed (flags progress generator scalar : Nat) : EccIst :=
  { hasGenerator := flags.testBit 0, hasSecondPoint := flags.testBit 1, hasScalar := flags.testBit 2,
    hasPublicKey := flags.testBit 3, hasSignature := flags.testBit 4, hasHash := flags.testBit 5,
    hasRandomNumber := flags.testBit 6, outputType := flags.testBit 7, progress := progress,
    generator := generator, secondPoint := 0, scalar := scalar, publicKey := 0, signature := 0, hash := 0,
    randomNumber := 0 }

/-- The lengths of the optional fields of the variable part, `acemarchid` first (R502). -/
def eccVarWidths (c : Curve) (e : EccIst) : List Nat :=
  [8, e.hasSecondPoint.toNat * (2 * c.bits / 8), e.hasPublicKey.toNat * (2 * c.bits / 8),
   e.hasSignature.toNat * (2 * c.bits / 8), e.hasHash.toNat * (c.hashBits / 8),
   e.hasRandomNumber.toNat * (c.hashBits / 8)]

/-- The optional fields read from the additional data segment (R503). -/
def eccWithVar (c : Curve) (e : EccIst) (ad : List Byte) : EccIst :=
  match parseFields (eccVarWidths c e) ad with
  | [_, p, q, s, h, r] =>
    { e with secondPoint := p, publicKey := q, signature := s, hash := h, randomNumber := r }
  | _ => e

/-- What an import discards when the segment comes from another microarchitecture (R503). -/
def eccForeign (sn : BitVec 4) (e : EccIst) : EccIst :=
  { e with
    hasRandomNumber := false
    randomNumber := 0
    progress := if sn.toNat = 4 ∨ sn.toNat = 5 ∨ sn.toNat = 6 then 0 else e.progress }

/-- The import of an ECC context: `none` when the segment is too short (R503). -/
def eccImport (archId : Word) (c : Curve) (sn : BitVec 4) (e : EccIst) (ad : List Byte) : Option EccIst :=
  if ad.length < eccVarLen c e then none
  else if ad.length ≠ 0 ∧ leNat (ad.take 8) ≠ archId.toNat then some (eccForeign sn (eccWithVar c e ad))
  else some (eccWithVar c e ad)

/-! ### `ace.exec` (R506 to R508) -/

/-- `load` into a field of `len` bits: the new field, `Progress`, and whether the field is complete (R506). -/
def eccLoad (len field progress input iolen : Nat) : Nat × Nat × Bool :=
  let amount := min iolen (len - progress)
  (splice field progress amount input, progress + amount, progress + amount = len)

/-- The step of a set state from what `load` answers (R506). -/
def eccLoadRow (sn : BitVec 4) (len field progress : Nat) (store : Nat → Nat → Bool → EccIst) : ExecRow :=
  ⟨.B, .stream, fun input iolen =>
    let (v, p, done) := eccLoad len field progress input iolen
    Step.quiet (.ecc (store v p done)) sn⟩

/-- The operation of state _point_mul_ (R507). -/
def eccPointMul (c : Curve) (e : EccIst) : Step :=
  match ecMul c e.scalar (fstOf c e.generator) (sndOf c e.generator) with
  | none => Step.fail (.ecc e) 8
  | some (x, y) =>
    Step.quiet (.ecc { e with secondPoint := pairOf c x y, hasSecondPoint := true, outputType := false,
                              progress := 0 }) 10

/-- The random `h` bits at a position of the stream (R507). -/
def eccNonce (c : Curve) (pos : Nat) : Nat := low c.hashBits (Config.rng pos)

/-- A signature from the first useful one of `n` draws, and how many draws it took (R507). When none of the `n` is of
use the signature is a free value (log 29). -/
def eccSignLoop (c : Curve) (e : EccIst) : Nat → Nat → Nat → (Nat × Nat) × Nat
  | 0, pos, count => (ecdsaFree c [e.generator, e.scalar, e.hash, pos], count)
  | n + 1, pos, count =>
    match ecdsaSign c (fstOf c e.generator) (sndOf c e.generator) e.scalar e.hash (eccNonce c pos) with
    | some sig => (sig, count + 1)
    | none => eccSignLoop c e n (pos + 1) (count + 1)

/-- The operation of state _sign_generate_ (R507): it draws again, in the same step, up to as many times as the group
has elements. -/
def eccSign (c : Curve) (rngPos : Nat) (e : EccIst) : Step :=
  let ((r, s), count) := eccSignLoop c e c.order rngPos 0
  { Step.quiet (.ecc { e with signature := pairOf c r s, hasSignature := true, hasRandomNumber := false,
                              randomNumber := 0, outputType := true, progress := 0 }) 10 with draws := count }

/-- The operation of state _sign_verify_ (R507). -/
def eccVerify (c : Curve) (e : EccIst) : Step :=
  Step.verdict (.ecc e) snCompleted
    (ecdsaVerify c (fstOf c e.generator) (sndOf c e.generator) (fstOf c e.publicKey) (sndOf c e.publicKey) e.hash
      (fstOf c e.signature) (sndOf c e.signature))

/-- The output step of state _output_ (R508). -/
def eccOutput (c : Curve) (e : EccIst) (iolen : Nat) : Step :=
  let amount := min iolen (2 * c.bits - e.progress)
  let out := slice (if e.outputType then e.signature else e.secondPoint) e.progress amount
  Step.output (.ecc { e with progress := e.progress + amount })
    (if e.progress + amount = 2 * c.bits then snCompleted else 10) out iolen

/-- `ace.exec` of an elliptic curve (R506 to R508). -/
def eccExec (c : Curve) (rngPos : Nat) (sn : BitVec 4) (e : EccIst) : Option ExecRow :=
  match sn.toNat with
  | 1 =>
    if e.hasGenerator then none
    else some (eccLoadRow sn (2 * c.bits) e.generator e.progress
      fun v p done => { e with generator := v, progress := p, hasGenerator := done })
  | 2 =>
    if e.hasScalar then none
    else some (eccLoadRow sn c.bits e.scalar e.progress
      fun v p done => { e with scalar := v, progress := p, hasScalar := done })
  | 7 =>
    if e.hasHash then none
    else some (eccLoadRow sn c.hashBits e.hash e.progress
      fun v p done => { e with hash := v, progress := p, hasHash := done })
  | 8 =>
    if e.hasPublicKey then none
    else some (eccLoadRow sn (2 * c.bits) e.publicKey e.progress
      fun v p done => { e with publicKey := v, progress := p, hasPublicKey := done })
  | 9 =>
    if e.hasSignature then none
    else some (eccLoadRow sn (2 * c.bits) e.signature e.progress
      fun v p done => { e with signature := v, progress := p, hasSignature := done })
  | 4 => some ⟨.D, .none, fun _ _ => eccPointMul c e⟩
  | 5 => some ⟨.D, .none, fun _ _ => eccSign c rngPos e⟩
  | 6 => some ⟨.D, .none, fun _ _ => eccVerify c e⟩
  | 10 => some ⟨.C, .stream, fun _ iolen => eccOutput c e iolen⟩
  | _ => none

/-! ### Transitions (R505, R509) -/

/-- The states a set state or an operation may be requested in: _initial_ and `SET` (R505). -/
def eccFrom : List Nat := [0, 1, 2, 7, 8, 9]

/-- A transition without condition on its operand. Every row clears `Progress` (R505). -/
def eccRow (target : Nat) (form : Form) (cond : Bool) (act : Nat → EccIst) : Row :=
  { target := target, form := form, frm := eccFrom, cond := cond, size := .none,
    act := fun a => Step.quiet (.ecc { act a with progress := 0 }) (BitVec.ofNat 4 target) }

/-- `ecc_random_scalar(curve)`: a value in `[1, n-1]` from the random stream (R505). -/
def eccRandomScalar (c : Curve) (pos : Nat) : Nat := Config.rng pos % (c.order - 1) + 1

/-- _set_generator_ with a default generator or an empty one (R505). -/
def eccSetGenerator (c : Curve) (e : EccIst) (a : Nat) : EccIst :=
  if a = 0 then { e with generator := pairOf c c.genX c.genY, hasGenerator := true }
  else { e with generator := 0, hasGenerator := false }

/-- The Form B row to _set_scalar_: a non-zero operand sets a random scalar (R505). -/
def eccRandomRow (c : Curve) (rngPos : Nat) (e : EccIst) : Row :=
  { target := 2, form := .B, frm := eccFrom, cond := true, size := .none,
    act := fun a =>
      if a = 0 then Step.quiet (.ecc { e with scalar := 0, hasScalar := false, progress := 0 }) 2
      else { Step.quiet (.ecc { e with scalar := eccRandomScalar c rngPos, hasScalar := true, progress := 0 }) 2
             with draws := 1 } }

/-- The copies of the return to _initial_: bits 4 and 5 (R509). -/
def eccCopies (e : EccIst) (a : Nat) : EccIst :=
  { e with
    secondPoint := if a.testBit 4 then e.generator else e.secondPoint
    hasSecondPoint := if a.testBit 4 then e.hasGenerator else e.hasSecondPoint
    generator := if a.testBit 5 then e.secondPoint else e.generator
    hasGenerator := if a.testBit 5 then e.hasSecondPoint else e.hasGenerator }

/-- The erasures of the return to _initial_: bits 0 to 3, and what is always reset (R509). -/
def eccErase (e : EccIst) (a : Nat) : EccIst :=
  { e with
    generator := if a.testBit 0 then 0 else e.generator
    hasGenerator := !a.testBit 0 && e.hasGenerator
    secondPoint := if a.testBit 1 then 0 else e.secondPoint
    hasSecondPoint := !a.testBit 1 && e.hasSecondPoint
    scalar := if a.testBit 2 then 0 else e.scalar
    hasScalar := !a.testBit 2 && e.hasScalar
    publicKey := if a.testBit 3 then 0 else e.publicKey
    hasPublicKey := !a.testBit 3 && e.hasPublicKey
    signature := 0
    hasSignature := false
    randomNumber := 0
    hasRandomNumber := false
    outputType := false
    progress := 0 }

/-- The return to _initial_ in Form A or B (R509). -/
def eccReturnRow (form : Form) (e : EccIst) : Row :=
  { target := 0, form := form, frm := anyState, cond := true, size := .none,
    act := fun a => Step.quiet (.ecc (eccErase (eccCopies e a) a)) snInitial }

/-- The transitions of an elliptic curve (R505); `sig` and `ver` are the two permission bits (R500). In Form A
the auxiliary value is 0. -/
def eccRows (c : Curve) (rngPos : Nat) (sig ver : Bool) (e : EccIst) : List Row :=
  [eccRow 1 .A true (eccSetGenerator c e), eccRow 1 .B true (eccSetGenerator c e),
   eccRow 2 .A true (fun _ => { e with scalar := 0, hasScalar := false }), eccRandomRow c rngPos e,
   eccRow 7 .A (sig || ver) (fun _ => { e with hash := 0, hasHash := false }),
   eccRow 8 .A (sig || ver) (fun _ => { e with publicKey := 0, hasPublicKey := false }),
   eccRow 9 .A (sig || ver) (fun _ => { e with signature := 0, hasSignature := false }),
   eccRow 4 .A (e.hasGenerator && e.hasScalar) (fun _ => e),
   eccRow 5 .A (sig && e.hasGenerator && e.hasScalar && e.hasPublicKey && e.hasHash) (fun _ => e),
   eccRow 6 .A (ver && e.hasGenerator && e.hasScalar && e.hasPublicKey && e.hasHash && e.hasSignature) (fun _ => e),
   eccReturnRow .A e, eccReturnRow .B e]

end Sys2Proof.Machine
end

