-- ==== Sys2Proof/Machine/Keccak.lean ====
section
/-! DEFINITION. `KECCAK-p[1600, 24]` (46_alg_hash_mac.md R446). PRESUMED (log 24): the spec names the
permutation and defines nothing of it. Lane `x + 5 * y` of the state is its bits from `64 * (x + 5 * y)` on. -/
namespace Sys2Proof.Machine

/-- The round constants. -/
def keccakRC : List Nat :=
  [0x0000000000000001, 0x0000000000008082, 0x800000000000808a, 0x8000000080008000, 0x000000000000808b,
   0x0000000080000001, 0x8000000080008081, 0x8000000000008009, 0x000000000000008a, 0x0000000000000088,
   0x0000000080008009, 0x000000008000000a] ++
  [0x000000008000808b, 0x800000000000008b, 0x8000000000008089, 0x8000000000008003, 0x8000000000008002,
   0x8000000000000080, 0x000000000000800a, 0x800000008000000a, 0x8000000080008081, 0x8000000000008080,
   0x0000000080000001, 0x8000000080008008]

/-- The rotation of lane `x + 5 * y` in step rho. -/
def keccakRho : List Nat :=
  [0, 1, 62, 28, 27, 36, 44, 6, 55, 20, 3, 10, 43, 25, 39, 41, 45, 15, 21, 8, 18, 2, 61, 56, 14]

/-- A left rotation of a 64-bit lane. -/
def rol64 (v k : Nat) : Nat := (v <<< k) % 2 ^ 64 + v >>> (64 - k)

/-- Lane `i` of a state. -/
def lane (s i : Nat) : Nat := slice s (64 * i) 64

/-- A state from its 25 lanes. -/
def ofLanes : List Nat → Nat
  | [] => 0
  | l :: ls => l + (ofLanes ls) <<< 64

/-- The parity of column `x` (step theta). -/
def keccakColumn (s x : Nat) : Nat := lane s x ^^^ lane s (x + 5) ^^^ lane s (x + 10) ^^^ lane s (x + 15) ^^^ lane s (x + 20)

/-- Step theta on a state. -/
def keccakTheta (s : Nat) : Nat :=
  ofLanes ((List.range 25).map fun i =>
    lane s i ^^^ keccakColumn s ((i % 5 + 4) % 5) ^^^ rol64 (keccakColumn s ((i % 5 + 1) % 5)) 1)

/-- Steps rho and pi: lane `y + 5 * ((2 * x + 3 * y) mod 5)` comes from lane `x + 5 * y`, read backwards. -/
def keccakRhoPi (s : Nat) : Nat :=
  ofLanes ((List.range 25).map fun i =>
    let src := (i % 5 + 3 * (i / 5)) % 5 + 5 * (i % 5)
    rol64 (lane s src) (keccakRho.getD src 0))

/-- Step chi on a state. -/
def keccakChi (s : Nat) : Nat :=
  ofLanes ((List.range 25).map fun i =>
    let y := 5 * (i / 5)
    lane s i ^^^ (notBits 64 (lane s (y + (i % 5 + 1) % 5)) &&& lane s (y + (i % 5 + 2) % 5)))

/-- One round. -/
def keccakRound (s rc : Nat) : Nat := keccakChi (keccakRhoPi (keccakTheta s)) ^^^ rc

/-- `P()`: `KECCAK-p[1600, 24]` (46_alg_hash_mac.md R446). -/
def keccakP (s : Nat) : Nat := keccakRC.foldl keccakRound s

end Sys2Proof.Machine
end

