-- ==== Sys2Proof/Machine/AlgHash.lean ====
section
/-! DEFINITION. CMAC, the generic interface for hashes, MACs and XOFs, and SHA-3 (46_alg_hash_mac.md). -/
namespace Sys2Proof.Machine

/-! ### CMAC (R420 to R424) -/

/-- `gen_subkeys(K)` (R421). -/
def cmacSubkeys (c : Cipher) (key : Nat) : Nat × Nat :=
  let k1 := doubleBlock c.blockBits (encBlk c key 0)
  (k1, doubleBlock c.blockBits k1)

/-- `last_block` (R423): the new `hash`. -/
def cmacLast (c : Cipher) (key hash l input : Nat) : Nat :=
  let b := c.blockBits
  let (k1, k2) := cmacSubkeys c key
  if l = b then encBlk c key (hash ^^^ low b input ^^^ k1)
  else encBlk c key (hash ^^^ (2 ^ l + low l input) ^^^ k2)

/-- `ace.exec` of CMAC (R423). -/
def cmacExec (c : Cipher) (sn : BitVec 4) (key hash l : Nat) : Option ExecRow :=
  let b := c.blockBits
  match sn.toNat with
  | 1 => some ⟨.B, .blocks b, blocksStep b (fun h p => some (encBlk c key (h ^^^ p), 0)) hash
      (fun h => .cmac key h l) sn⟩
  | 2 => some ⟨.B, .one b, fun input _ => Step.quiet (.cmac key (cmacLast c key hash l input) l) 5⟩
  | 5 => some ⟨.C, .one b, fun _ iolen => Step.output (.cmac key hash l) snCompleted hash iolen⟩
  | _ => none

/-- The transitions of CMAC (R422). -/
def cmacRows (c : Cipher) (key hash l : Nat) : List Row :=
  [plainRow 1 [0] true (.cmac key hash l),
   { target := 2, form := .B, frm := [1], cond := true, size := .none,
     act := fun a =>
       if l ≠ 0 ∨ c.blockBits < a then Step.fail (.cmac key hash l) 4 else Step.quiet (.cmac key hash a) 2 },
   returnRow (.cmac key 0 0)]

/-! ### The loops of the generic interface (R434) -/

/-- How a loop moves through the blocks of a state: `block_base`, what counts `amount` bits into it, and what sets it
to 0. -/
structure Cursor (α : Type) where
  base : α → Nat
  advance : α → Nat → α
  rewind : α → α

/-- `absorb_stream`, and with `once` `absorb_last`: `put` stores `amount` bits at a position, `full` runs when
`limit` bits are there. The answer is the state and whether `full` ended the loop. Every round consumes bits, but
for a context whose import was malformed, so `IOLEN` rounds suffice (log 31). -/
def absorbLoop {α : Type} (k : Cursor α) (put : α → Nat → Nat → Nat → α) (full : α → α) (limit : α → Nat)
    (once : Bool) : Nat → α → Nat → Nat → α × Bool
  | 0, a, _, _ => (a, false)
  | fuel + 1, a, input, rem =>
    if rem = 0 then (a, false)
    else
      let amount := min rem (limit a - k.base a)
      let a := k.advance (put a (k.base a) amount (low amount input)) amount
      if k.base a = limit a then
        if once then (full a, true)
        else absorbLoop k put full limit once fuel (k.rewind (full a)) (input >>> amount) (rem - amount)
      else absorbLoop k put full limit once fuel a (input >>> amount) (rem - amount)

/-- `output_stream`: `read` takes `amount` bits at a position, `next` runs after each `t` bits of a XOF. The
answer is the state, `OUTPUT`, and whether a hash or MAC is complete. -/
def outputLoop {α : Type} (k : Cursor α) (read : α → Nat → Nat → Nat) (next : α → α) (t : Nat) (xof : Bool) :
    Nat → α → Nat → α × Nat × Bool
  | 0, a, _ => (a, 0, false)
  | fuel + 1, a, rem =>
    if rem = 0 then (a, 0, false)
    else
      let amount := min rem (t - k.base a)
      let part := read a (k.base a) amount
      let a := k.advance a amount
      if k.base a = t then
        if xof then
          let (a', out, done) := outputLoop k read next t xof fuel (k.rewind (next a)) (rem - amount)
          (a', cat out amount part, done)
        else (a, part, true)
      else
        let (a', out, done) := outputLoop k read next t xof fuel a (rem - amount)
        (a', cat out amount part, done)

/-! ### The generic template (R430 to R434) -/

/-- The position inside a block; `cumul_len` is increased together with it, before `absorb` and the other functions
run (R431, log 26). -/
def hashCursor (d : HashDef) : Cursor HashIst where
  base h := h.blockBase
  advance h amount :=
    { h with blockBase := h.blockBase + amount, cumulLen := if d.useCumulLen then h.cumulLen + amount else 0 }
  rewind h := { h with blockBase := 0 }

/-- What an instance's own function answers, cut to the fields the instance has and to their widths (R431). The
position inside a block that an instance does not store is that of the loop, `base`. -/
def hashTrim (d : HashDef) (base : Nat) (h : HashIst) : HashIst :=
  { key := low (d.key.getD 0) h.key
    state := low d.n h.state
    lastBlockLen := if d.useLastLen then h.lastBlockLen else 0
    blockBase := if d.useBlockBase then h.blockBase else base
    cumulLen := if d.useCumulLen then h.cumulLen else 0
    block := if d.useBlock then low d.b h.block else 0 }

/-- One of the instance's functions (R432). -/
def hashApply (d : HashDef) (fn : HashFn) (h : HashIst) : HashIst :=
  hashTrim d h.blockBase (Config.hashFn d.id fn h)

/-- `block[t-1:0] <- finalize()`; the low bits of `state` where there is no `block` (R434, `enter_output`). -/
def hashFinalize (d : HashDef) (h : HashIst) : HashIst :=
  let h' := hashApply d .finalize h
  if d.useBlock then { h' with block := splice h'.block 0 d.t (Config.hashDigest d.id h) }
  else { h' with state := splice h'.state 0 d.t (Config.hashDigest d.id h) }

/-- The store operation `put` (R432). -/
def hashPut (d : HashDef) (h : HashIst) (base amount bits : Nat) : HashIst :=
  if d.useBlock && !d.ownPut then { h with block := splice h.block base amount bits }
  else hashTrim d h.blockBase (Config.hashPut d.id h base amount bits)

/-- How many bits the last block has; an instance without `last_block_len` ends with a full one (R431, log 26). -/
def hashLastLen (d : HashDef) (h : HashIst) : Nat := if d.useLastLen then h.lastBlockLen else d.b

/-- The Internal State between instructions: an instance without `block_base` has none (R431, log 26). -/
def hashSettle (d : HashDef) (h : HashIst) : HashIst := if d.useBlockBase then h else { h with blockBase := 0 }

/-- The bits of the digest (R434). -/
def hashRead (d : HashDef) (h : HashIst) (base amount : Nat) : Nat :=
  slice (if d.useBlock then h.block else h.state) base amount

/-- `absorb_stream` (R434). -/
def hashAbsorb (d : HashDef) (sn : BitVec 4) (h : HashIst) (input iolen : Nat) : Step :=
  let (h', _) :=
    absorbLoop (hashCursor d) (hashPut d) (hashApply d .absorb) (fun _ => d.b) false (iolen + 1) h input iolen
  Step.quiet (.hash (hashSettle d h')) sn

/-- `absorb_last` with `enter_output` (R434). -/
def hashAbsorbLast (d : HashDef) (sn : BitVec 4) (h : HashIst) (input iolen : Nat) : Step :=
  let (h', done) :=
    absorbLoop (hashCursor d) (hashPut d) (hashApply d .absorbLastBlock) (hashLastLen d) true (iolen + 1) h input iolen
  if done then Step.quiet (.hash ((hashCursor d).rewind (hashFinalize d h'))) 5
  else Step.quiet (.hash (hashSettle d h')) sn

/-- `output_stream` (R434). -/
def hashOutput (d : HashDef) (sn : BitVec 4) (h : HashIst) (iolen : Nat) : Step :=
  let (h', out, done) :=
    outputLoop (hashCursor d) (hashRead d) (fun h => hashFinalize d (hashApply d .update h)) d.t d.xof (iolen + 1) h
      iolen
  Step.output (.hash (hashSettle d h')) (if done then snCompleted else sn) out iolen

/-- `ace.exec` of the generic template (R434). -/
def hashExec (d : HashDef) (sn : BitVec 4) (h : HashIst) : Option ExecRow :=
  match sn.toNat with
  | 1 => some ⟨.B, .stream, hashAbsorb d sn h⟩
  | 2 => some ⟨.B, .stream, hashAbsorbLast d sn h⟩
  | 5 => some ⟨.C, .stream, fun _ iolen => hashOutput d sn h iolen⟩
  | _ => none

/-- The values of state _initial_ for a key (R433). DESIGN CHOICE (log 26): the initial `state`, which the rule leaves to
the algorithm, is a constant of the instance, for a keyed one too, and does not depend on the key. -/
def hashInit (d : HashDef) (key : Nat) : HashIst :=
  { key := key, state := low d.n d.iv, lastBlockLen := 0, blockBase := 0, cumulLen := 0, block := 0 }

/-- The transitions of the generic template (R433). -/
def hashRows (d : HashDef) (h : HashIst) : List Row :=
  [plainRow 1 [0] true (.hash h),
   { target := 2, form := .B, frm := [1], cond := true, size := .none,
     act := fun a =>
       if h.blockBase ≠ 0 ∨ d.b < a ∨ a = 0 then Step.fail (.hash h) 4
       else Step.quiet (.hash { h with lastBlockLen := if d.useLastLen then a else 0 }) 2 },
   returnRow (.hash (hashInit d h.key))]

/-! ### SHA-3 (R445 to R449) -/

/-- The position inside a block of SHA-3 (R445). -/
def sha3Cursor : Cursor Sha3Ist where
  base h := h.blockBase
  advance h amount := { h with blockBase := h.blockBase + amount }
  rewind h := { h with blockBase := 0 }

/-- `put` of SHA-3: the bits are added to `state` (R446). -/
def sha3Put (h : Sha3Ist) (base _amount bits : Nat) : Sha3Ist := { h with state := h.state ^^^ (bits <<< base) }

/-- `P()` on `state` (R446). -/
def sha3Permute (h : Sha3Ist) : Sha3Ist := { h with state := keccakP h.state }

/-- The string `S` that completes a block holding `m` bits, and its length (R447, log 24). -/
def sha3Suffix (b suffix suffixLen m : Nat) : Nat × Nat :=
  let len := if suffixLen + 2 ≤ b - m then b - m else 2 * b - m
  (suffix + 2 ^ suffixLen + 2 ^ (len - 1), len)

/-- `pad` (R447). -/
def sha3Pad (b suffix suffixLen : Nat) (h : Sha3Ist) : Nat :=
  let m := h.blockBase
  let (s, len) := sha3Suffix b suffix suffixLen m
  if len = b - m then keccakP (h.state ^^^ (s <<< m))
  else keccakP (keccakP (h.state ^^^ (low (b - m) s <<< m)) ^^^ (s >>> (b - m)))

/-- `absorb_stream` of SHA-3 (R448). -/
def sha3Absorb (b : Nat) (sn : BitVec 4) (h : Sha3Ist) (input iolen : Nat) : Step :=
  let (h', _) := absorbLoop sha3Cursor sha3Put sha3Permute (fun _ => b) false (iolen + 1) h input iolen
  Step.quiet (.sha3 h') sn

/-- `absorb_last` of SHA-3, which ends in state 3 (R448). -/
def sha3AbsorbLast (sn : BitVec 4) (h : Sha3Ist) (input iolen : Nat) : Step :=
  let (h', done) := absorbLoop sha3Cursor sha3Put id (fun h => h.lastBlockLen) true (iolen + 1) h input iolen
  Step.quiet (.sha3 h') (if done then 3 else sn)

/-- `output_stream` of SHA-3 (R448). -/
def sha3Output (t : Nat) (xof : Bool) (sn : BitVec 4) (h : Sha3Ist) (iolen : Nat) : Step :=
  let (h', out, done) :=
    outputLoop sha3Cursor (fun h base amount => slice h.state base amount) sha3Permute t xof (iolen + 1) h iolen
  Step.output (.sha3 h') (if done then snCompleted else sn) out iolen

/-- `ace.exec` of SHA-3 (R448). -/
def sha3Exec (b t : Nat) (xof : Bool) (sn : BitVec 4) (h : Sha3Ist) : Option ExecRow :=
  match sn.toNat with
  | 1 => some ⟨.B, .stream, sha3Absorb b sn h⟩
  | 2 => some ⟨.B, .stream, sha3AbsorbLast sn h⟩
  | 5 => some ⟨.C, .stream, fun _ iolen => sha3Output t xof sn h iolen⟩
  | _ => none

/-- The transitions of SHA-3 (R447). -/
def sha3Rows (b suffix suffixLen : Nat) (h : Sha3Ist) : List Row :=
  [plainRow 1 [0] true (.sha3 h),
   { target := 2, form := .B, frm := [1], cond := true, size := .none,
     act := fun a =>
       if h.blockBase ≠ 0 ∨ b < a ∨ a = 0 then Step.fail (.sha3 h) 4
       else Step.quiet (.sha3 { h with lastBlockLen := a }) 2 },
   { target := 5, form := .A, frm := [3], cond := true, size := .none,
     act := fun _ => Step.quiet (.sha3 { h with state := sha3Pad b suffix suffixLen h, blockBase := 0 }) 5 },
   returnRow (.sha3 { state := 0, lastBlockLen := 0, blockBase := 0 })]

end Sys2Proof.Machine
end

