-- ==== Sys2Proof/Machine/Layout.lean ====
section
/-! DEFINITION. The Provisioning Input and Serialized Content tables of the algorithms (files 44 to 48) and the
size functions (20_memory.md R106, R107). Lengths are in bytes. -/
namespace Sys2Proof.Machine

/-! ### Keys -/

/-- The lengths of the key fields (10_state.md R45). -/
def keyWidths : AlgDef → List Nat
  | .ecb c => [c.keyBits / 8]
  | .keystream c _ _ _ _ => [c.keyBits / 8]
  | .xex c two _ _ => if two then [c.keyBits / 8, c.keyBits / 8] else [c.keyBits / 8]
  | .tbc _ _ k _ => [k / 8]
  | .gcm c _ _ _ => [c.keyBits / 8]
  | .gcmSiv c _ _ => [c.keyBits / 8]
  | .ocb c => [c.keyBits / 8]
  | .cmac c => [c.keyBits / 8]
  | .hash h => match h.key with
    | some k => [k / 8]
    | none => []
  | .sha3 _ _ _ _ _ => []
  | .asconAead v => if v = .nonceMask then [16, 16] else [16]
  | .asconHash _ => []
  | .ecc _ => []

/-- How many bytes the key fields take, all together 8 with _KeyType_ = 1 (10_state.md R45). -/
def keyBytes (d : AlgDef) (kt : Bool) : Nat :=
  if keyWidths d = [] then 0 else if kt then 8 else (keyWidths d).sum

/-! ### Provisioning Input (20_memory.md R104) -/

/-- The lengths of the Provisioning Input fields after the keys (45_alg_aead.md R370, 47_alg_ascon.md R475). -/
def piExtraWidths : AlgDef → List Nat
  | .gcm c ctr setIV _ => if setIV then [(c.blockBits - ctr) / 8] else []
  | .asconAead v => if v = .setNonce then [16] else []
  | _ => []

/-- `PI_content_size` (20_memory.md R107). What the bytes that only round it up hold is not looked at. DESIGN CHOICE,
log 46. -/
def piContentSize (d : AlgDef) (kt : Bool) : Nat := roundUp8 (keyBytes d kt + (piExtraWidths d).sum)

/-! ### Serialized Content (20_memory.md R105) -/

/-- The group of the three length fields of the generic template, absent when none is used (46_alg_hash_mac.md
R431). -/
def hashHasLens (h : HashDef) : Bool := h.useLastLen || h.useBlockBase || h.useCumulLen

/-- The lengths of the Serialized Content fields after the keys, padding left out where it is last. -/
def fieldWidths : AlgDef → List Nat
  | .ecb _ => []
  | .keystream _ n j _ _ => [n / 8, j / 8]
  | .xex c _ _ _ => [c.blockBits / 8]
  | .tbc _ _ _ t => [t / 8]
  | .gcm c ctr _ _ => [ctr / 8, (c.blockBits - ctr) / 8, c.blockBits / 8]
  | .gcmSiv c _ _ => [3 * c.blockBits / 32, c.blockBits / 32, c.blockBits / 8, c.blockBits / 8]
  | .ocb c => List.replicate 5 (c.blockBits / 8) ++ [2, 2, 2, 2]
  | .cmac c => [c.blockBits / 8, 8]
  | .hash h =>
    [h.n / 8] ++ (if hashHasLens h then [2, 2, 4] else []) ++ (if h.useBlock then [h.b / 8] else [])
  | .sha3 _ _ _ _ _ => [200, 2, 2, 4]
  | .asconAead v => match v with
    | .plain => [8, 8, 8, 8, 8, 2, 2, 4]
    | .setNonce => [16, 8, 8, 8, 8, 8, 2, 2, 4]
    | .nonceMask => [8, 8, 8, 8, 8, 2, 6]
  | .asconHash v => if v = .hash256 then [8, 8, 8, 8, 8, 1, 7] else [8, 8, 8, 8, 8]
  | .ecc c => [2, 2, 4, 2 * c.bits / 8, c.bits / 8]

/-- `SCC_content_size` (20_memory.md R107). -/
def sccContentSize (d : AlgDef) (kt : Bool) : Nat := roundUp8 (keyBytes d kt + (fieldWidths d).sum)

/-- The five words of an Ascon state as field values. -/
def asconWords (s : AsconState) : List Nat := [s.w0.toNat, s.w1.toNat, s.w2.toNat, s.w3.toNat, s.w4.toNat]

/-- A value of a field that an instance has only with a flag. -/
def ifUsed (used : Bool) (v : Nat) : Nat := if used then v else 0

/-- The key fields of an Internal State. -/
def keyValues : Ist → List Nat
  | .ecb key => [key]
  | .keystream key _ _ => [key]
  | .xex key1 key2 _ => [key1, key2]
  | .tbc key _ => [key]
  | .gcm g => [g.key]
  | .gcmSiv g => [g.key]
  | .ocb o => [o.key]
  | .cmac key _ _ => [key]
  | .hash h => [h.key]
  | .sha3 _ => []
  | .asconAead a => [a.key, a.key2]
  | .asconHash _ _ => []
  | .ecc _ => []

/-- The values of the Serialized Content fields after the keys. A generator or scalar of ECC that is only partly loaded
has its flag false and is serialized as zeros, as 48_alg_ecc.md R501 says, so that its loaded bits do not come back from
an import, which 41_cr_management.md R210 asks of every context. Log 43. -/
def fieldValues (d : AlgDef) : Ist → List Nat
  | .ecb _ => []
  | .keystream _ iv ctr => [iv, ctr]
  | .xex _ _ mask => [mask]
  | .tbc _ tweak => [tweak]
  | .gcm g => [g.ctr, g.iv, g.tag]
  | .gcmSiv g => [g.nonce, g.ctr, g.tag, g.siv]
  | .ocb o => [o.nonce, o.l, o.offset, o.hashA, o.hashP, o.tagLen, o.lastLen, o.nonceLen]
  | .cmac _ hash lastLen => [hash, lastLen]
  | .hash h => match d with
    | .hash hd =>
      [h.state] ++
        (if hashHasLens hd then
          [ifUsed hd.useLastLen h.lastBlockLen, ifUsed hd.useBlockBase h.blockBase,
           ifUsed hd.useCumulLen h.cumulLen]
         else []) ++
        (if hd.useBlock then [h.block] else [])
    | _ => []
  | .sha3 h => [h.state, h.lastBlockLen, h.blockBase]
  | .asconAead a => match d with
    | .asconAead .plain => asconWords a.state ++ [a.lastBlockLen, a.tagLen]
    | .asconAead .setNonce => a.nonce :: asconWords a.state ++ [a.lastBlockLen, a.tagLen]
    | _ => asconWords a.state ++ [a.tagLen]
  | .asconHash s countdown => asconWords s ++ [countdown]
  | .ecc e =>
    [eccFlags e, e.progress, 0, if e.hasGenerator then e.generator else 0, if e.hasScalar then e.scalar else 0]

/-! ### Internal State from field values -/

/-- An Ascon state from five field values. -/
def asconOfWords (a b c d e : Nat) : AsconState :=
  ⟨BitVec.ofNat 64 a, BitVec.ofNat 64 b, BitVec.ofNat 64 c, BitVec.ofNat 64 d, BitVec.ofNat 64 e⟩

/-- The field at position `i`, zero when there is none. -/
def nth (vs : List Nat) (i : Nat) : Nat := vs.getD i 0

/-- The generic template's Internal State from its fields (46_alg_hash_mac.md R431). -/
def hashOfFields (d : HashDef) (key : Nat) (vs : List Nat) : HashIst :=
  let k := if hashHasLens d then 3 else 0
  { key := key, state := nth vs 0, lastBlockLen := if hashHasLens d then ifUsed d.useLastLen (nth vs 1) else 0,
    blockBase := if hashHasLens d then ifUsed d.useBlockBase (nth vs 2) else 0,
    cumulLen := if hashHasLens d then ifUsed d.useCumulLen (nth vs 3) else 0,
    block := if d.useBlock then nth vs (k + 1) else 0 }

/-- The bits of the Serialized Content fields that the tables say are zero: those of `N` above `u` and the padding of
OCB (45_alg_aead.md R390), those of a short `SIV` above its width (45_alg_aead.md R375), the padding of SHA-3 and the
length fields a generic hash does not use (46_alg_hash_mac.md R431, R445). A one there is a reserved bit of the Content
(93_implementation_defined.md I10), log 42. The paddings the spec says are not examined (R370, R460, R503) are not
among them. Nor, by the model's choice (log 46), are the padding of Ascon-Hash256 and of nonce masking (47_alg_ascon.md
R478, R482) and the bytes that only round a size up to a multiple of 8 (20_memory.md R107, 44_alg_block_modes.md R331,
R339). -/
def reservedZero (d : AlgDef) (vs : List Nat) : Bool :=
  match d with
  | .gcmSiv c short _ => nth vs 3 < 2 ^ sivWidth c.blockBits short
  | .ocb c => nth vs 0 < 2 ^ (ocbU c.blockBits + 1) && nth vs 8 = 0
  | .hash h =>
    !hashHasLens h || ((h.useLastLen || nth vs 1 = 0) && (h.useBlockBase || nth vs 2 = 0) &&
      (h.useCumulLen || nth vs 3 = 0))
  | .sha3 _ _ _ _ _ => nth vs 3 = 0
  | _ => true

/-- The Internal State from the keys and the Serialized Content fields, omitted fields recomputed
(41_cr_management.md R210). The variable part of ECC is read apart. -/
def istOfFields (d : AlgDef) (keys vs : List Nat) : Ist :=
  let key := nth keys 0
  match d with
  | .ecb _ => .ecb key
  | .keystream _ _ _ _ _ => .keystream key (nth vs 0) (nth vs 1)
  | .xex _ _ _ _ => .xex key (nth keys 1) (nth vs 0)
  | .tbc _ _ _ _ => .tbc key (nth vs 0)
  | .gcm c _ _ _ => .gcm { gcmInit c key (nth vs 1) with ctr := nth vs 0, tag := nth vs 2 }
  | .gcmSiv c _ _ =>
    .gcmSiv { gcmSivInit c key with
      nonce := nth vs 0, ctr := nth vs 1, tag := nth vs 2, siv := nth vs 3 }
  | .ocb _ =>
    .ocb { key := key, nonce := nth vs 0, l := nth vs 1, offset := nth vs 2,
           hashA := nth vs 3, hashP := nth vs 4, tagLen := nth vs 5, lastLen := nth vs 6, nonceLen := nth vs 7 }
  | .cmac _ => .cmac key (nth vs 0) (nth vs 1)
  | .hash h => .hash (hashOfFields h key vs)
  | .sha3 _ _ _ _ _ => .sha3 { state := nth vs 0, lastBlockLen := nth vs 1, blockBase := nth vs 2 }
  | .asconAead .plain =>
    .asconAead { key := key, key2 := 0, nonce := 0, lastBlockLen := nth vs 5, tagLen := nth vs 6,
                 state := asconOfWords (nth vs 0) (nth vs 1) (nth vs 2) (nth vs 3) (nth vs 4) }
  | .asconAead .setNonce =>
    .asconAead { key := key, key2 := 0, nonce := nth vs 0, lastBlockLen := nth vs 6, tagLen := nth vs 7,
                 state := asconOfWords (nth vs 1) (nth vs 2) (nth vs 3) (nth vs 4) (nth vs 5) }
  | .asconAead .nonceMask =>
    .asconAead { key := key, key2 := nth keys 1, nonce := 0, lastBlockLen := 0, tagLen := nth vs 5,
                 state := asconOfWords (nth vs 0) (nth vs 1) (nth vs 2) (nth vs 3) (nth vs 4) }
  | .asconHash _ => .asconHash (asconOfWords (nth vs 0) (nth vs 1) (nth vs 2) (nth vs 3) (nth vs 4)) (nth vs 5)
  | .ecc _ => .ecc (eccOfFixed (nth vs 0) (nth vs 1) (nth vs 3) (nth vs 4))

/-- `init_prov`: the Internal State after provisioning from the keys and the further Provisioning Input fields
(44_alg_block_modes.md R325, 41_cr_management.md R198). -/
def initProv (d : AlgDef) (keys extra : List Nat) : Ist :=
  let key := nth keys 0
  match d with
  | .ecb _ => .ecb key
  | .keystream _ _ _ _ lfsr => .keystream key 0 (initCtr lfsr)
  | .xex _ _ _ _ => .xex key (nth keys 1) 0
  | .tbc _ _ _ _ => .tbc key 0
  | .gcm c _ _ _ => .gcm (gcmInit c key (nth extra 0))
  | .gcmSiv c _ _ => .gcmSiv (gcmSivInit c key)
  | .ocb c => .ocb (ocbInit c.blockBits key)
  | .cmac _ => .cmac key 0 0
  | .hash h => .hash (hashInit h key)
  | .sha3 _ _ _ _ _ => .sha3 { state := 0, lastBlockLen := 0, blockBase := 0 }
  | .asconAead v => .asconAead (asconAeadInit v key (nth keys 1) (nth extra 0))
  | .asconHash v => .asconHash (asconHashInit v) 0
  | .ecc _ => .ecc eccInit

end Sys2Proof.Machine
end

