-- ==== Sys2Proof/Machine/Alg.lean ====
section
/-! DEFINITION. `AlgTable`, and the algorithm of a Cryptographic Context (42_exec_state_io.md R240). -/
namespace Sys2Proof.Machine

/-! ### `AlgTable` and `Supported` (00_scope.md R11) -/

/-- The entry of an _Algorithm_ and _AlgorithmPolicy_ value. -/
def findAlg (t : List AlgEntry) (alg : BitVec 11) (ap : BitVec 2) : Option AlgEntry :=
  t.find? fun e => e.alg = alg && (e.ap = none || e.ap = some ap)

/-- The entry of a header. -/
def algEntry (c : Config) (mh : BitVec 64) : Option AlgEntry := findAlg c.algTable (mhAlgorithm mh) (mhPolicy mh)

/-- `Supported(alg, ap, scp, kt)` (00_scope.md R11). -/
def supported (c : Config) (alg : BitVec 11) (ap scp : BitVec 2) (kt : Bool) : Bool :=
  match findAlg c.algTable alg ap with
  | some e => e.combos.contains (ap, scp, kt)
  | none => false

/-- `Supported` of the fields of a header. -/
def supportedHeader (c : Config) (mh : BitVec 64) : Bool :=
  supported c (mhAlgorithm mh) (mhPolicy mh) (mhProtection mh) (mhKeyType mh)

/-- Some _AlgorithmPolicy_ makes the combination supported (41_cr_management.md R216). -/
def supportedSome (c : Config) (mh : BitVec 64) : Bool :=
  [0, 1, 2, 3].any fun ap => supported c (mhAlgorithm mh) ap (mhProtection mh) (mhKeyType mh)

/-- `SCC_content_size(mh) + mh.AdditionalData * 8` (20_memory.md R105). -/
def contentSize (d : AlgDef) (mh : BitVec 64) : Nat := sccContentSize d (mhKeyType mh) + 8 * (mhAdditional mh).toNat

/-- `SCC_total_size(mh)`, 24 bytes and the content (20_memory.md R106). -/
def sccTotalSize (c : Config) (mh : BitVec 64) : Nat :=
  match algEntry c mh with
  | some e => 24 + contentSize e.algDef mh
  | none => 24 + 8 * (mhAdditional mh).toNat

/-- `CR_cost(mh)`: it depends on _Algorithm_, _SCProtection_ and _KeyType_ (00_scope.md R11). Log 17. -/
def crCost (c : Config) (mh : BitVec 64) : Nat :=
  match c.crCosts.find? fun e => e.1 = mhAlgorithm mh && e.2.1 = mhProtection mh && e.2.2.1 = mhKeyType mh with
  | some e => e.2.2.2
  | none =>
    match c.algTable.find? fun e => e.alg = mhAlgorithm mh with
    | some e => sccContentSize e.algDef (mhKeyType mh)
    | none => 0

/-- `IOBUF_cost(n)` (00_scope.md R11). Log 17. -/
def iobufCost (c : Config) (n : Nat) : Nat :=
  match c.iobufCosts.find? fun e => e.1 = n with
  | some e => e.2
  | none => c.iobufCostBase + c.iobufCostPerByte * n

/-! ### What `ace.exec` and `ace.state` find in a context -/

/-- `exec_form`, `exec_size` and `exec_step` of an algorithm in its current state, `none` where no Form of
`ace.exec` is allowed (42_exec_state_io.md R240). -/
def execOf (env : AlgEnv) (d : AlgDef) (mh : BitVec 64) (ist : Ist) : Option ExecRow :=
  let sn := mhState mh
  match d, ist with
  | .ecb c, .ecb key => ecbExec c sn key
  | .keystream c _ j x lfsr, .keystream key iv ctr => keystreamExec c j x lfsr sn key iv ctr
  | .xex c _ mult poly, .xex key1 key2 mask => xexExec c mult poly sn key1 key2 mask
  | .tbc id b _ _, .tbc key tweak => tbcExec id b sn key tweak
  | .gcm c ctr _ poly, .gcm g => gcmExec c ctr poly sn g
  | .gcmSiv c short mul, .gcmSiv g => gcmSivExec c short mul sn g
  | .ocb c, .ocb o => ocbExec c sn o
  | .cmac c, .cmac key hash l => cmacExec c sn key hash l
  | .hash h, .hash i => hashExec h sn i
  | .sha3 b t xof _ _, .sha3 i => sha3Exec b t xof sn i
  | .asconAead _, .asconAead a => asconAeadExec sn a
  | .asconHash v, .asconHash s countdown => asconHashExec v sn s countdown
  | .ecc c, .ecc e => eccExec c env.rngPos sn e
  | _, _ => none

/-- The transition rows of an algorithm (42_exec_state_io.md R240). -/
def rowsOf (env : AlgEnv) (d : AlgDef) (mh : BitVec 64) (ist : Ist) : List Row :=
  let sn := mhState mh
  let enc := mhEnc mh
  let dec := mhDec mh
  match d, ist with
  | .ecb _, .ecb key => ecbRows enc dec key
  | .keystream _ n _ _ lfsr, .keystream key _ ctr => keystreamRows n lfsr key ctr
  | .xex c two mult poly, .xex key1 key2 _ => xexRows c two mult poly enc dec key1 key2
  | .tbc _ _ _ t, .tbc key tweak => tbcRows t sn enc dec key tweak
  | .gcm c ctr setIV poly, .gcm g => gcmRows c ctr setIV poly enc dec g
  | .gcmSiv c short _, .gcmSiv g => gcmSivRows c short enc dec g
  | .ocb c, .ocb o => ocbRows c enc dec o
  | .cmac c, .cmac key hash l => cmacRows c key hash l
  | .hash h, .hash i => hashRows h i
  | .sha3 b _ _ suffix len, .sha3 i => sha3Rows b suffix len i
  | .asconAead v, .asconAead a => asconAeadRows v enc dec a
  | .asconHash v, .asconHash s countdown => asconHashRows v s countdown
  | .ecc c, .ecc e => eccRows c env.rngPos enc dec e
  | _, _ => []

/-- `exec_form`, `exec_size` and `exec_step` of a context. -/
def ccExec (c : Config) (env : AlgEnv) (cc : Context) : Option ExecRow :=
  match algEntry c cc.mh with
  | some e => execOf env e.algDef cc.mh cc.ist
  | none => none

/-- `exec_form(cc)` (42_exec_state_io.md R240). -/
def execForm (c : Config) (env : AlgEnv) (cc : Context) : Option Form := (ccExec c env cc).map (·.form)

/-- A row applies when it leads to state `t` and may be requested in the current one, or `t` is the current
state (42_exec_state_io.md R259). -/
def rowApplies (mh : BitVec 64) (t : Nat) (r : Row) : Bool :=
  r.target = t && (r.frm.contains (mhState mh).toNat || inState mh t) && r.cond

/-- The rows that apply to a request for state `t` (42_exec_state_io.md R255, line 6). -/
def ccRows (c : Config) (env : AlgEnv) (cc : Context) (t : Nat) : List Row :=
  match algEntry c cc.mh with
  | some e => (rowsOf env e.algDef cc.mh cc.ist).filter (rowApplies cc.mh t)
  | none => []

/-- Some Form C transition row applies in the current state (42_exec_state_io.md R264). -/
def formCRow (c : Config) (env : AlgEnv) (cc : Context) : Bool :=
  (List.range 16).any fun t => (ccRows c env cc t).any fun r => r.form = .C

/-- `input_expected(cc)` (42_exec_state_io.md R264). -/
def inputExpected (c : Config) (env : AlgEnv) (cc : Context) : Bool :=
  execForm c env cc = some .A || execForm c env cc = some .B || formCRow c env cc

/-- `Alg.invalidates_on_bad_exec(cc)`: the generic hash family in state _initial_ (42_exec_state_io.md R251,
46_alg_hash_mac.md R433). -/
def invalidatesOnBadExec (c : Config) (cc : Context) : Bool :=
  match algEntry c cc.mh with
  | some e => match e.algDef with
    | .hash _ => inState cc.mh 0
    | .sha3 _ _ _ _ _ => inState cc.mh 0
    | _ => false
  | none => false

/-- The additional data segment and its length after `ace.exec` and `ace.state`: those of ECC follow the flags,
any other context keeps its own (48_alg_ecc.md R502). -/
def ccSync (c : Config) (cc : Context) : Context :=
  match algEntry c cc.mh, cc.ist with
  | some e, .ecc i => match e.algDef with
    | .ecc curve =>
      { cc with mh := mhSetAdditional cc.mh (BitVec.ofNat 14 (eccVarLen curve i / 8)), ad := eccAd (marchid c) curve i }
    | _ => cc
  | _, _ => cc

/-- A context after a step or a transition with outcome `ok` or an error (42_exec_state_io.md R249, R255). -/
def ccAfter (c : Config) (cc : Context) (r : Step) : Context :=
  ccSync c { cc with mh := mhSetState cc.mh r.sn, ist := r.ist, exporting := false }

/-- An invalidated context (42_exec_state_io.md R270). -/
def ccInvalid (cc : Context) : Context := { cc with mh := mhSetState cc.mh snInvalid, exporting := false }

end Sys2Proof.Machine
end

