-- ==== Sys2Proof/Machine/Flags.lean ====
section
/-! DEFINITION. The ACE error codes (60_exceptions.md R534). ACE has no condition codes or status flags
(10_state.md R34): the code in `aceerror` is all an instruction reports. -/
namespace Sys2Proof.Machine

/-- `ace_err_no_error`. -/
def errNone : BitVec 4 := 0

/-- `ace_err_import_auth`. -/
def errImportAuth : BitVec 4 := 1

/-- `ace_err_unconf_CR`. -/
def errUnconfCR : BitVec 4 := 2

/-- `ace_err_unconf_buf`. -/
def errUnconfBuf : BitVec 4 := 3

/-- `ace_err_invalid_CR`. -/
def errInvalidCR : BitVec 4 := 4

/-- `ace_err_expired_CR`. -/
def errExpiredCR : BitVec 4 := 5

/-- `ace_err_memory`. -/
def errMemory : BitVec 4 := 6

/-- `ace_err_unimpl`. -/
def errUnimpl : BitVec 4 := 7

/-- `ace_err_invalid_value`. -/
def errInvalidValue : BitVec 4 := 8

/-- `ace_err_privilege`. -/
def errPrivilege : BitVec 4 := 9

/-- `ace_err_auth`. -/
def errAuth : BitVec 4 := 10

end Sys2Proof.Machine
end

