-- ==== Sys2Proof/Machine/Ops.lean ====
section
/-! DEFINITION. The named operations over registers, memory, Cryptographic Registers and exceptions. An operation
that may end the instruction answers `Except.error` with the state the instruction ends in. -/
namespace Sys2Proof.Machine

/-! ### General registers (10_state.md R30) -/

/-- `x[r]`: `x[0]` reads as zero. -/
def State.readX (s : State) (r : Reg) : Word :=
  if r = 0 then 0 else truncX s.cfg (s.x[r.toNat]'r.isLt)

/-- `x[r] <- v`: a write of `x[0]` is discarded. -/
def State.writeX (s : State) (r : Reg) (v : Word) : State :=
  if r = 0 then s else { s with x := s.x.set r.toNat (truncX s.cfg v) r.isLt }

/-! ### Memory (10_state.md R33, 20_memory.md) -/

/-- The byte at an address; an unlisted address reads as 0. DESIGN CHOICE (log 2), unsafe. -/
def Memory.read : List Host.Cell → Nat → Byte
  | [], _ => 0
  | (k, v) :: m, a => if a = k then v else Memory.read m a

/-- The memory with the byte at an address replaced. -/
def Memory.write : List Host.Cell → Nat → Byte → List Host.Cell
  | [], a, b => if b = 0 then [] else [(a, b)]
  | (k, v) :: m, a, b =>
    if a < k then if b = 0 then (k, v) :: m else (a, b) :: (k, v) :: m
    else if a = k then if b = 0 then m else (a, b) :: m
    else (k, v) :: Memory.write m a b

/-- The canonical form: addresses strictly rising, and no byte listed that reads the same unlisted. -/
def Memory.wf (m : List Host.Cell) : Bool :=
  decide (m.Pairwise fun c d => c.1 < d.1) && m.all fun c => c.2 ≠ 0

/-- An address modulo `2^XLEN` (20_memory.md R91). -/
def byteAddr (c : Config) (a : Nat) : Nat := a % 2 ^ c.xlen

/-- `n` bytes from address `a` on, ascending (20_memory.md R95). -/
def State.readBytes (s : State) (a : Nat) : Nat → List Byte
  | 0 => []
  | n + 1 => Memory.read s.mem (byteAddr s.cfg a) :: State.readBytes s (a + 1) n

/-- Bytes written from address `a` on, ascending (20_memory.md R95). -/
def State.writeBytes (s : State) (a : Nat) : List Byte → State
  | [] => s
  | b :: bs => State.writeBytes { s with mem := Memory.write s.mem (byteAddr s.cfg a) b } (a + 1) bs

/-- The effective address `(x[r] + sext_XLEN(imm12)) mod 2^XLEN` (20_memory.md R91). -/
def State.effAddr (s : State) (r : Reg) (imm : Imm12) : Word := addX s.cfg (s.readX r) (sextImm s.cfg imm)

/-- What `mem_ok` depends on besides the address (60_exceptions.md R533, R550, R558). -/
def State.privilege (s : State) : Privilege := ⟨s.mode, s.hEnabled, s.virt⟩

/-- `mem_ok` of one byte: the exception it raises, `none` when it is `ok` (60_exceptions.md R533). Log 9. -/
def State.memFault (s : State) (store : Bool) (a : Nat) : Option Cause :=
  (s.cfg.memFaults.find? fun r =>
    r.base ≤ a && a < r.base + r.size && (if store then r.onWrite else r.onRead) && r.levels.contains s.privilege).map
    fun r =>
      if store then if r.page then .storePage else .storeAccess else if r.page then .loadPage else .loadAccess

/-- The exception of the first of `n` bytes from `a` on that fails, with its address (60_exceptions.md R533). -/
def State.firstFault (s : State) (store : Bool) (a : Nat) : Nat → Option (Cause × Nat)
  | 0 => none
  | n + 1 =>
    match s.memFault store (byteAddr s.cfg a) with
    | some c => some (c, byteAddr s.cfg a)
    | none => State.firstFault s store (a + 1) n

/-! ### Exceptions (60_exceptions.md R531 to R533, R540, R541) -/

/-- The host's number of an exception. -/
def Cause.code : Cause → Nat
  | .illegalInstruction => 2
  | .loadMisaligned => 4
  | .loadAccess => 5
  | .storeMisaligned => 6
  | .storeAccess => 7
  | .loadPage => 13
  | .storePage => 15

/-- Taking an exception: `Trap(cause, pc, tval)` is reported to the host, `pc` is not advanced and nothing else
changes (60_exceptions.md R540). Log 7. -/
def State.raise (s : State) (c : Cause) (tval : Word) : State := { s with trap := some ⟨c, s.pc, tval⟩ }

/-- `raise IllegalInstruction`: the trap value is the instruction word (60_exceptions.md R531, R540). -/
def State.illegal (s : State) (w : InstrWord) : State := s.raise .illegalInstruction (w.setWidth 64)

/-- The host's return from its handler: execution goes on at `pc` (60_exceptions.md R541). Log 7. -/
def State.hostReturn (s : State) (pc : Word) : State := { s with trap := none, pc := truncX s.cfg pc }

/-! ### The end of an instruction (60_exceptions.md R530, R535) -/

/-- `pc <- pc + 4` (10_state.md R31). -/
def State.advance (s : State) : State := { s with pc := addX s.cfg s.pc 4 }

/-- An instruction that completes with a code in `aceerror`, 0 when there is no error. -/
def State.endWith (s : State) (code : BitVec 4) : State := { s with aceerror := code, acestart := 0 }.advance

/-- What an instruction answers from the state it ends in. -/
def finish (r : Except State State) : Result :=
  match r with
  | .ok s => .next s
  | .error s => .next s

/-- The bytes an access reads, or the end of the instruction in the exception of the first failing byte
(60_exceptions.md R533). -/
def State.load (s : State) (a n : Nat) : Except State (List Byte) :=
  match s.firstFault false a n with
  | some (c, addr) => .error (s.raise c (BitVec.ofNat 64 addr))
  | none => .ok (s.readBytes a n)

/-- The state after an access that writes, or the end of the instruction in the exception of the first failing byte;
then no byte is written (60_exceptions.md R533). -/
def State.store (s : State) (a : Nat) (bs : List Byte) : Except State State :=
  match s.firstFault true a bs.length with
  | some (c, addr) => .error (s.raise c (BitVec.ofNat 64 addr))
  | none => .ok (s.writeBytes a bs)

/-! ### Cryptographic Registers (10_state.md R37 to R39) -/

/-- `CR[n]`. -/
def State.getCR (s : State) (n : Fin 32) : CR := s.cr[n.val]

/-- `CR[n] <- c`. -/
def State.setCR (s : State) (n : Fin 32) (c : CR) : State := { s with cr := s.cr.set n.val c n.isLt }

/-- `release(n)` (41_cr_management.md R195). -/
def State.release (s : State) (n : Fin 32) : State := s.setCR n .unconfigured

/-- `invalidate(n)` (42_exec_state_io.md R270). -/
def State.invalidate (s : State) (n : Fin 32) : State :=
  match s.getCR n with
  | .unconfigured => s
  | .configured cc => s.setCR n (.configured (ccInvalid cc))

/-- The capacity a CR takes (10_state.md R39). -/
def CR.cost (c : Config) : CR → Nat
  | .unconfigured => 0
  | .configured cc => crCost c cc.mh

/-- The capacity all CRs take. -/
def State.crUsed (s : State) : Nat := (s.cr.toList.map (CR.cost s.cfg)).sum

/-- `crf_used` (10_state.md R39). -/
def State.crfUsed (s : State) : Nat :=
  s.crUsed + if s.cfg.iobufInCrf then iobufCost s.cfg s.aceiobuflen.toNat else 0

/-- The largest value up to `n` that passes, 0 when none does. -/
def largestUpTo (p : Nat → Bool) : Nat → Nat
  | 0 => 0
  | n + 1 => if p (n + 1) then n + 1 else largestUpTo p n

/-- The current maximum length of the ACEIOBUF (40_csr_access.md R175). -/
def State.iobufLimit (s : State) : Nat :=
  if !s.cfg.hasIobuf then 0
  else if !s.cfg.iobufInCrf then s.cfg.iobufMax
  else largestUpTo (fun n => s.crUsed + iobufCost s.cfg n ≤ s.cfg.crfCapacity) s.cfg.iobufMax

/-- A buffer of `n` zero bytes with the whole of it as its window (40_csr_access.md R175). -/
def State.setBuffer (s : State) (n : Nat) : State :=
  { s with
    iobuf := List.replicate n 0
    aceiobuflen := BitVec.ofNat 64 n
    aceiobuftop := BitVec.ofNat 64 n
    acestart := 0 }

/-! ### The common steps (41_cr_management.md R190 to R193) -/

/-- `resolve(field, ind)` (41_cr_management.md R190). -/
def State.resolve (s : State) (w : InstrWord) (ind : Bool) (field : Reg) : Except State (Fin 32) :=
  if ind ∧ field = 0 then .error (s.illegal w)
  else
    let n := if ind then (s.readX field).toNat else field.toNat
    if h : n < 32 ∧ n < s.cfg.numCR then .ok ⟨n, h.1⟩
    else .error ({ s with aceerror := errUnconfCR }.illegal w)

/-- `check_active(n)` (41_cr_management.md R191). -/
def State.checkActive (s : State) (w : InstrWord) (n : Fin 32) : Except State Unit :=
  if s.aceactivecr ≠ 32 ∧ s.aceactivecr.toNat ≠ n.val then .error (s.illegal w) else .ok ()

/-- `resolve` and `check_active`: the CR a single-CR instruction names. -/
def State.nameCR (s : State) (w : InstrWord) (ind : Bool) (field : Reg) : Except State (Fin 32) := do
  let n ← s.resolve w ind field
  s.checkActive w n
  return n

/-- A context is expired (10_state.md R53). -/
def State.expired (s : State) (cc : Context) : Bool :=
  mhExpiration cc.mh ≠ 0 && (mhExpiration cc.mh).toNat ≤ s.nowHours

/-- `usage_allowed` (60_exceptions.md R549). -/
def State.usageAllowed (s : State) (up : BitVec 3) : Bool :=
  match s.mode with
  | .machine => true
  | .user => !up.getLsbD 0
  | .supervisor => if s.hEnabled && !s.virt then !up.getLsbD 2 else !up.getLsbD 1

/-- Which of the checks `inv`, `exp` and `priv` an instruction makes beside `unconf` (41_cr_management.md R192). -/
structure Want where
  inv : Bool
  exp : Bool
  priv : Bool
  deriving DecidableEq, Repr

/-- The checks of a usage-controlled instruction. -/
def Want.all : Want := ⟨true, true, true⟩

/-- The error `check_status` finds on a configured CR (41_cr_management.md R192). -/
def State.statusError (s : State) (want : Want) (cc : Context) : Option (BitVec 4) :=
  if want.inv && !cc.incomplete && inState cc.mh 14 && !s.expired cc then some errInvalidCR
  else if cc.incomplete then some errUnconfCR
  else if want.exp && s.expired cc then some errExpiredCR
  else if want.priv && !s.usageAllowed (mhUsage cc.mh) then some errPrivilege
  else none

/-- `check_status(n, want)` with `unconf` in `want`: the context the CR holds (41_cr_management.md R192). -/
def State.source (s : State) (n : Fin 32) (want : Want) : Except State Context :=
  match s.getCR n with
  | .unconfigured => .error (s.endWith errUnconfCR)
  | .configured cc =>
    match s.statusError want cc with
    | some code => .error (s.endWith code)
    | none => .ok cc

/-- `check_capacity(mh)` (41_cr_management.md R193). -/
def State.checkCapacity (s : State) (mh : BitVec 64) : Except State Unit :=
  if s.cfg.crfCapacity < s.crfUsed + crCost s.cfg mh then .error (s.endWith errMemory) else .ok ()

/-! ### Localities (10_state.md R48 to R50) -/

/-- `LS(i)`, `none` when no secret of its chain is configured (10_state.md R49). -/
def State.localitySecret (s : State) (i : Fin 11) : Option (BitVec 128) :=
  match i.val with
  | 0 => s.lst[0] <|> s.lst[1] <|> s.lst[2]
  | 1 => s.lst[1] <|> s.lst[2]
  | 3 => s.lst[3] <|> s.lst[4] <|> s.lst[5]
  | 4 => s.lst[4] <|> s.lst[5]
  | 9 => if s.hEnabled && s.virt then s.lst[9] else s.lst[8]
  | _ => s.lst[i.val]

/-- The LST indices a _Locality_ value selects, ascending (10_state.md R50). -/
def localityIndices (loc : BitVec 8) : List (Fin 11) :=
  (if loc.extractLsb' 0 3 = 0 then [] else [Fin.ofNat 11 ((loc.extractLsb' 0 3).toNat - 1)]) ++
    (if loc.getLsbD 3 then [6] else []) ++ (if loc.getLsbD 4 then [7] else []) ++
    (if loc.extractLsb' 5 2 = 0 then [] else [Fin.ofNat 11 (7 + (loc.extractLsb' 5 2).toNat)])

/-- A _Locality_ value is supported (10_state.md R48). -/
def State.localityOk (s : State) (loc : BitVec 8) : Bool :=
  !loc.getLsbD 7 && loc.extractLsb' 0 3 ≠ 7 && !(loc.getLsbD 3 && loc.getLsbD 4) &&
    (localityIndices loc).all fun i => (s.localitySecret i).isSome

/-- `get_localities(loc)` (10_state.md R50). A secret that is absent is left out (43_sealing.md R305, log 34). -/
def State.localities (s : State) (loc : BitVec 8) : List Nat :=
  (localityIndices loc).filterMap fun i => (s.localitySecret i).map BitVec.toNat

/-! ### Metadata and keys (41_cr_management.md R196, R198) -/

/-- A header no `ace.prov` (`pi`) or `ace.import` accepts (41_cr_management.md R196). -/
def State.badHeader (s : State) (pi : Bool) (mh : BitVec 64) : Bool :=
  mhFormat mh = 1 || !s.localityOk (mhLocality mh) || (pi && mhState mh ≠ 0) || (pi && mhAdditional mh ≠ 0)

/-- `check_metadata(mh, kind)` (41_cr_management.md R196): the algorithm of the header. -/
def State.checkMetadata (s : State) (pi : Bool) (mh : BitVec 64) : Except State AlgDef :=
  if s.badHeader pi mh then .error (s.endWith errInvalidValue)
  else if !supportedHeader s.cfg mh then .error (s.endWith errUnimpl)
  else
    match algEntry s.cfg mh with
    | none => .error (s.endWith errUnimpl)
    | some e => do
      s.checkCapacity mh
      return e.algDef

/-- The key material of an SKT index (10_state.md R68). -/
def sktFind : List (BitVec 64 × List Byte) → BitVec 64 → Option (List Byte)
  | [], _ => none
  | (i, m) :: t, index => if i = index then some m else sktFind t index

/-- The keys of a Content and the System Key index kept for export, `none` for an index the SKT does not hold with
keys long enough (10_state.md R45, log 32). -/
def State.resolveKeys (s : State) (d : AlgDef) (kt : Bool) (c : List Byte) : Option (List Nat × BitVec 64) :=
  if keyWidths d = [] then some ([], 0)
  else if kt then
    let index := BitVec.ofNat 64 (leNat (c.take 8))
    match sktFind s.skt index with
    | some m => if (keyWidths d).sum ≤ m.length then some (parseFields (keyWidths d) m, index) else none
    | none => none
  else some (parseFields (keyWidths d) c, 0)

/-! ### Events of the environment (60_exceptions.md R556) -/

/-- The entry of the LST: only entries 0, 1, 3 and 4 may become unconfigured (60_exceptions.md R556). An event that
would unconfigure another one is not among the events and changes nothing (log 41). -/
def State.setLST (s : State) (i : Fin 11) (v : Option (BitVec 128)) : State :=
  if v = none ∧ (i.val = 2 ∨ 5 ≤ i.val) then s else { s with lst := s.lst.set i.val v i.isLt }

/-- The effect of one event (60_exceptions.md R556). DESIGN CHOICE (log 41): a change of a System Keys Table entry may
also remove it. -/
def State.applyEvent (s : State) : Event → State
  | .setCSK v => { s with csk := v }
  | .setLST i v => s.setLST i v
  | .setSKT index material =>
    let rest := s.skt.filter fun e => e.1 ≠ index
    match material with
    | some m => { s with skt := (index, m) :: rest }
    | none => { s with skt := rest }
  | .advanceTime h => { s with nowHours := s.nowHours + h }
  | .setMode m v => { s with mode := m, virt := v }
  | .hostReturn pc => s.hostReturn pc

/-- The next batch of events, applied in order (70_reset_and_hazards.md R595). Log 8. -/
def State.applyEvents (s : State) : State :=
  match s.events with
  | [] => s
  | batch :: rest => batch.foldl State.applyEvent { s with events := rest }

end Sys2Proof.Machine
end

