-- ==== Sys2Proof/Machine/Csr.lean ====
section
/-! DEFINITION. `ace.error` and the CSR instructions on the ACE CSRs (40_csr_access.md). -/
namespace Sys2Proof.Machine

/-- The ACE CSRs (10_state.md R54). -/
inductive AceCsr where
  | error
  | marchid
  | start
  | iobuflen
  | iobuftop
  | sequence
  | activecr
  | htrapmask
  | htrapvector
  deriving DecidableEq, Repr

/-- The ACE CSR at a number (10_state.md R54). -/
def aceCsr (p : EncParams) (n : CsrAddr) : Option AceCsr :=
  if n = csrStart then some .start
  else if n = p.csrError then some .error
  else if n = p.csrMarchid then some .marchid
  else if n = p.csrIobuflen then some .iobuflen
  else if n = p.csrIobuftop then some .iobuftop
  else if n = p.csrSequence then some .sequence
  else if n = p.csrActivecr then some .activecr
  else if n = p.csrHtrapmask then some .htrapmask
  else if n = p.csrHtrapvector then some .htrapvector
  else none

/-- The value a CSR reads as (40_csr_access.md R174 to R181). -/
def State.readCsr (s : State) : AceCsr → Word
  | .error => s.aceerror.setWidth 64
  | .marchid => Sys2Proof.Machine.marchid s.cfg
  | .start => s.acestart
  | .iobuflen => s.aceiobuflen
  | .iobuftop => s.aceiobuftop
  | .sequence => s.acesequence.setWidth 64
  | .activecr => s.aceactivecr.setWidth 64
  | .htrapmask => s.acehtrapmask
  | .htrapvector => s.acehtrapvector

/-- A write to `aceiobuflen`: the length is cut to the current maximum, with error 6 when it is above
(40_csr_access.md R175). -/
def State.writeIobuflen (s : State) (v : Word) : State :=
  let s' := s.setBuffer (min v.toNat s.iobufLimit)
  if s.iobufLimit < v.toNat then { s' with aceerror := errMemory } else s'

/-- A write to `aceiobuftop` (40_csr_access.md R176). -/
def State.writeIobuftop (s : State) (v : Word) : State :=
  if s.acestart.toNat ≤ v.toNat ∧ v.toNat ≤ s.aceiobuflen.toNat then { s with aceiobuftop := v }
  else { s with aceerror := errInvalidValue }

/-- A write to `aceactivecr` with `acesequence` zero (40_csr_access.md R178). -/
def State.writeActivecr (s : State) (v : Word) : State :=
  if 32 < (v.setWidth 6).toNat then { s with aceerror := errInvalidValue } else { s with aceactivecr := v.setWidth 6 }

/-- The write rule of a CSR, `none` where it raises an illegal-instruction exception
(40_csr_access.md R172, R174 to R180). -/
def State.writeCsr (s : State) (c : AceCsr) (v : Word) : Option State :=
  match c with
  | .error => some { s with aceerror := v.setWidth 4 }
  | .marchid => none
  | .start => some { s with acestart := v }
  | .iobuflen => some (s.writeIobuflen v)
  | .iobuftop => some (s.writeIobuftop v)
  | .sequence => some { s with acesequence := v.setWidth 2 }
  | .activecr => if s.acesequence ≠ 0 then none else some (s.writeActivecr v)
  | .htrapmask => some { s with acehtrapmask := v }
  | .htrapvector => some { s with acehtrapvector := v }

/-- The source of a CSR instruction (40_csr_access.md R170). -/
def State.csrSource (s : State) (i : CsrInstr) : Word := if i.imm then i.src.setWidth 64 else s.readX i.src

/-- The value a CSR instruction writes, `none` when its write is suppressed (40_csr_access.md R170). -/
def csrNew (i : CsrInstr) (old src : Word) : Option Word :=
  match i.op with
  | .write => some src
  | .setBits => if i.src = 0 then none else some (old ||| src)
  | .clearBits => if i.src = 0 then none else some (old &&& ~~~src)

/-- A CSR instruction on an ACE CSR (40_csr_access.md R170). -/
def State.accessCsr (s : State) (i : CsrInstr) (c : AceCsr) : State :=
  let old := s.readCsr c
  match csrNew i old (s.csrSource i) with
  | none => (s.writeX i.rd old).advance
  | some v =>
    match s.writeCsr c (truncX s.cfg v) with
    | none => s.illegal (encodeCsr i)
    | some s' => (s'.writeX i.rd old).advance

/-- A CSR instruction: on a CSR of the host it is refused, and on no CSR at all it is an illegal instruction
(40_csr_access.md R171, log 11). -/
def execCsr (i : CsrInstr) (s : State) : Result :=
  match aceCsr s.cfg.enc i.csr with
  | some c => .next (s.accessCsr i c)
  | none => if s.cfg.hostCsrs.contains i.csr then .refused (.hostCsr i.csr) else .next (s.illegal (encodeCsr i))

/-- `ace.error Xd` (40_csr_access.md R173). -/
def execAceError (xd : Reg) (s : State) : Result := .next (s.writeX xd (s.aceerror.setWidth 64)).advance

end Sys2Proof.Machine
end

