-- ==== Sys2Proof/Machine/Sealing.lean ====
section
/-! DEFINITION. Serialization and sealing of Cryptographic Contexts (43_sealing.md). -/
namespace Sys2Proof.Machine

/-! ### Serialization (43_sealing.md R293, 41_cr_management.md R210) -/

/-- The key part of a Content: the System Key index with _KeyType_ = 1, else the keys (10_state.md R45). -/
def serializeKeys (d : AlgDef) (cc : Context) : List Byte :=
  if keyWidths d = [] then []
  else if mhKeyType cc.mh then natLE 8 cc.keyIndex.toNat
  else emitFields (keyWidths d) (keyValues cc.ist)

/-- `serialize_alg(cc)` (43_sealing.md R293). -/
def serialize (d : AlgDef) (cc : Context) : List Byte :=
  padBytes (sccContentSize d (mhKeyType cc.mh))
    (serializeKeys d cc ++ emitFields (fieldWidths d) (fieldValues d cc.ist)) ++ cc.ad

/-- The Internal State of an SCC with the variable part of ECC, `none` when that is too short
(48_alg_ecc.md R503). -/
def withVariablePart (c : Config) (d : AlgDef) (mh : BitVec 64) (ist : Ist) (ad : List Byte) : Option Ist :=
  match d, ist with
  | .ecc curve, .ecc e => (eccImport (marchid c) curve (mhState mh) e ad).map .ecc
  | _, _ => some ist

/-- `deserialize_alg(mh, content)`: the record of the CR, `none` for a Content it does not accept
(41_cr_management.md R210). The bytes that only round the Content up to a multiple of 8 are not looked at. DESIGN
CHOICE, log 46. The segment `ad` is the one of the SCC, also where 48_alg_ecc.md R503 discards a part of it from the
Internal State. DESIGN CHOICE, log 30. -/
def State.deserialize (s : State) (d : AlgDef) (mh : BitVec 64) (content : List Byte) : Option Context :=
  let kt := mhKeyType mh
  let ad := content.drop (sccContentSize d kt)
  match s.resolveKeys d kt (content.take (keyBytes d kt)) with
  | none => none
  | some (keys, index) =>
    let vs := parseFields (fieldWidths d) (content.drop (keyBytes d kt))
    if !reservedZero d vs then none
    else
      match withVariablePart s.cfg d mh (istOfFields d keys vs) ad with
      | none => none
      | some ist =>
        some { mh := mh, keyIndex := index, ist := ist, ad := ad, exporting := false, savedSN := mhState mh,
               incomplete := false }

/-! ### The computation (43_sealing.md R291 to R298) -/

/-- `RFC8452_KeyDeriv(CSK)`: `enc_key` and `auth_key` (43_sealing.md R291). -/
def State.sealKeys (s : State) : Nat × Nat := keyDeriv .aes256 s.csk.toNat

/-- `auth_blocks(mh, content)` (43_sealing.md R294). -/
def State.authBlocks (s : State) (mh : BitVec 64) (content : List Byte) : List Nat :=
  s.localities (mhLocality mh) ++ [mh.toNat] ++ blocksOf 16 content

/-- `sealtag(mh, content)`, 128 bits (43_sealing.md R297). -/
def State.sealTag (s : State) (mh : BitVec 64) (content : List Byte) : Nat :=
  low 128 (encBlk .aes256 s.sealKeys.1 (low 127 (polyval s.sealKeys.2 0 (s.authBlocks mh content))))

/-- `KS(enc_key, SIV, i)` (43_sealing.md R295). -/
def sealKeystream (encKey siv i : Nat) : Nat :=
  encBlk .aes256 encKey (2 ^ 127 + cat (slice siv 32 95) 32 (low 32 (low 32 siv + i)))

/-- Blocks added to the keystream from block `i` on; a shorter last block takes its first bytes
(43_sealing.md R296). -/
def sealStream (encKey siv : Nat) : Nat → List (List Byte) → List Byte
  | _, [] => []
  | i, blk :: rest =>
    natLE blk.length (leNat blk ^^^ sealKeystream encKey siv i) ++ sealStream encKey siv (i + 1) rest

/-- The content encrypted or decrypted, which is the same (43_sealing.md R296, R298). -/
def State.sealCrypt (s : State) (siv : Nat) (content : List Byte) : List Byte :=
  sealStream s.sealKeys.1 siv 0 (chunks 16 content.length content)

/-- `seal(cc)` (43_sealing.md R296). -/
def State.sealContext (s : State) (d : AlgDef) (cc : Context) : List Byte :=
  let content := serialize d cc
  let siv := s.sealTag cc.mh content
  natLE 8 cc.mh.toNat ++ natLE 16 siv ++ s.sealCrypt siv content

/-- `unseal(mh, SIV, ct)`: the content, `none` when it does not authenticate (43_sealing.md R298). -/
def State.unseal (s : State) (mh : BitVec 64) (siv : Nat) (ct : List Byte) : Option (List Byte) :=
  let content := s.sealCrypt siv ct
  if s.sealTag mh content = siv then some content else none

end Sys2Proof.Machine
end

