-- ==== Sys2Proof/Machine/CrManage.lean ====
section
/-! DEFINITION. The CR management instructions (41_cr_management.md). Each takes its own word first, the trap value
of an illegal-instruction exception. -/
namespace Sys2Proof.Machine

/-- The word of an instruction under the machine's encoding parameters. -/
def State.word (s : State) (i : Instr) : InstrWord := encode s.cfg.enc i

/-- Completion without error (60_exceptions.md R530). -/
def State.done (s : State) : State := s.endWith errNone

/-! ### `ace.prov` (41_cr_management.md R197, R198) -/

/-- `provision_alg(mh, c)`: the record of the CR, `none` for a Content it does not accept (R198). -/
def State.provisionAlg (s : State) (d : AlgDef) (mh : BitVec 64) (c : List Byte) : Option Context :=
  let n := keyBytes d (mhKeyType mh)
  match s.resolveKeys d (mhKeyType mh) (c.take n) with
  | none => none
  | some (keys, index) =>
    some { mh := mhSetState mh snInitial, keyIndex := index,
           ist := initProv d keys (parseFields (piExtraWidths d) (c.drop n)), ad := [], exporting := false,
           savedSN := 0, incomplete := false }

/-- The misaligned exception of the four instructions on a PI or an SCC (20_memory.md R93). -/
def State.checkAligned (s : State) (c : Cause) (ea : Word) : Except State Unit :=
  if ea.toNat % 8 ≠ 0 then .error (s.raise c ea) else .ok ()

/-- `ace.prov` after its CR is named and released (R197). -/
def State.provLoad (s : State) (n : Fin 32) (ea : Nat) : Except State State := do
  let header ← s.load ea 8
  let mh := BitVec.ofNat 64 (leNat header)
  let d ← s.checkMetadata true mh
  let content ← s.load (ea + 8) (piContentSize d (mhKeyType mh))
  match s.provisionAlg d mh content with
  | none => .error (s.endWith errInvalidValue)
  | some cc => return (s.setCR n (.configured cc)).done

/-- `ace.prov` (R197). -/
def State.prov (s : State) (w : InstrWord) (ind : Bool) (field : Reg) (off : Imm12) (base : Reg) :
    Except State State := do
  let n ← s.nameCR w ind field
  let ea := s.effAddr base off
  s.checkAligned .loadMisaligned ea
  (s.release n).provLoad n ea.toNat

/-- `ace.prov Kd, %offset(Xs)`. -/
def execProvK (kd : Reg) (off : Imm12) (xs : Reg) (s : State) : Result :=
  finish (s.prov (s.word (.provK kd off xs)) false kd off xs)

/-- `ace.prov K(Xd), %offset(Xs)`. -/
def execProvX (xd : Reg) (off : Imm12) (xs : Reg) (s : State) : Result :=
  finish (s.prov (s.word (.provX xd off xs)) true xd off xs)

/-! ### `ace.clear` and `ace.reset` (41_cr_management.md R199, R200) -/

/-- `ace.clear` (R199). -/
def State.clear (s : State) (w : InstrWord) (ind : Bool) (field : Reg) : Except State State := do
  let n ← s.nameCR w ind field
  return (s.release n).done

/-- `ace.clear Kd`. -/
def execClearK (kd : Reg) (s : State) : Result := finish (s.clear (s.word (.clearK kd)) false kd)

/-- `ace.reset`: every CR and the buffer unconfigured (R200). -/
def State.resetAce (s : State) : State :=
  ({ s with cr := Vector.replicate 32 .unconfigured }.setBuffer 0).done

/-- `ace.clear K(Xd)`; with `Xd = X0` it is `ace.reset` (R199, 30_encoding.md R141). -/
def execClearX (xd : Reg) (s : State) : Result :=
  if xd = 0 then .next s.resetAce else finish (s.clear (s.word (.clearX xd)) true xd)

/-- `ace.reset` (R200). -/
def execAceReset (s : State) : Result := .next s.resetAce

/-! ### `ace.export` (41_cr_management.md R205) -/

/-- `ace.export` (R205): only an unconfigured or incomplete CR is refused, with error 2. -/
def State.exportCR (s : State) (w : InstrWord) (ind : Bool) (field : Reg) (off : Imm12) (base : Reg) :
    Except State State := do
  let n ← s.nameCR w ind field
  let cc ← s.source n ⟨false, false, false⟩
  let ea := s.effAddr base off
  s.checkAligned .storeMisaligned ea
  match algEntry s.cfg cc.mh with
  | none => .error (s.endWith errUnimpl)
  | some e =>
    let s' ← s.store ea.toNat (s.sealContext e.algDef cc)
    return (s'.setCR n (.configured { cc with exporting := false })).done

/-- `ace.export %offset(Xd), Ks`. -/
def execExportK (off : Imm12) (xd ks : Reg) (s : State) : Result :=
  finish (s.exportCR (s.word (.exportK off xd ks)) false ks off xd)

/-- `ace.export %offset(Xd), K(Xs)`. -/
def execExportX (off : Imm12) (xd xs : Reg) (s : State) : Result :=
  finish (s.exportCR (s.word (.exportX off xd xs)) true xs off xd)

/-! ### `ace.import` and `ace.import.S` (41_cr_management.md R209, R211) -/

/-- `ace.import` after its CR is named and released (R209). -/
def State.importLoad (s : State) (n : Fin 32) (ea : Nat) : Except State State := do
  let header ← s.load ea 8
  let mh := BitVec.ofNat 64 (leNat header)
  let d ← s.checkMetadata false mh
  let siv ← s.load (ea + 8) 16
  let ct ← s.load (ea + 24) (contentSize d mh)
  match s.unseal mh (leNat siv) ct with
  | none => .error (s.endWith errImportAuth)
  | some content =>
    match s.deserialize d mh content with
    | none => .error (s.endWith errInvalidValue)
    | some cc => return (s.setCR n (.configured cc)).done

/-- `ace.import` (R209). -/
def State.importCR (s : State) (w : InstrWord) (ind : Bool) (field : Reg) (off : Imm12) (base : Reg) :
    Except State State := do
  let n ← s.nameCR w ind field
  let ea := s.effAddr base off
  s.checkAligned .loadMisaligned ea
  (s.release n).importLoad n ea.toNat

/-- What `system_import` answers, put into the CR (R211). Log 16. -/
def State.systemLoad (s : State) (n : Fin 32) (ea : Word) : Except State State := do
  let _ ← s.load ea.toNat (Config.systemImport s.mem ea).1
  match (Config.systemImport s.mem ea).2 with
  | .error code => .error (s.endWith (BitVec.ofNat 4 (code.val + 1)))
  | .context mh content =>
    let mh := setField mh 16 (0 : BitVec 1)
    let d ← s.checkMetadata false mh
    match s.deserialize d mh (padBytes (contentSize d mh) (content.take (contentSize d mh))) with
    | none => .error (s.endWith errInvalidValue)
    | some cc => return (s.setCR n (.configured cc)).done

/-- `ace.import.S` (R211). -/
def State.importS (s : State) (w : InstrWord) (ind : Bool) (field : Reg) (off : Imm12) (base : Reg) :
    Except State State :=
  if !s.cfg.hasSystemImport then .error (s.illegal w)
  else do
    let n ← s.nameCR w ind field
    let ea := s.effAddr base off
    s.checkAligned .loadMisaligned ea
    (s.release n).systemLoad n ea

/-- `ace.import Kd, %offset(Xn)`. -/
def execImportK (kd : Reg) (off : Imm12) (xn : Reg) (s : State) : Result :=
  finish (s.importCR (s.word (.importK kd off xn)) false kd off xn)

/-- `ace.import.S Kd, %offset(Xn)`. -/
def execImportSK (kd : Reg) (off : Imm12) (xn : Reg) (s : State) : Result :=
  finish (s.importS (s.word (.importSK kd off xn)) false kd off xn)

/-- `ace.import K(Xd), %offset(Xn)`. -/
def execImportX (xd : Reg) (off : Imm12) (xn : Reg) (s : State) : Result :=
  finish (s.importCR (s.word (.importX xd off xn)) true xd off xn)

/-- `ace.import.S K(Xd), %offset(Xn)`. -/
def execImportSX (xd : Reg) (off : Imm12) (xn : Reg) (s : State) : Result :=
  finish (s.importS (s.word (.importSX xd off xn)) true xd off xn)

/-! ### `ace.clone` (41_cr_management.md R212) -/

/-- The copy of a context that `ace.clone` makes (R212). -/
def Context.copy (cc : Context) : Context := { cc with exporting := false, incomplete := false }

/-- `ace.clone`: source first, the destination not checked against `aceactivecr`, a CR onto itself no change
(R212). -/
def State.clone (s : State) (w : InstrWord) (dInd : Bool) (dst : Reg) (sInd : Bool) (src : Reg) :
    Except State State := do
  let n ← s.resolve w sInd src
  let d ← s.resolve w dInd dst
  s.checkActive w n
  let cc ← s.source n ⟨true, false, false⟩
  if n = d then return s.done
  else
    let s' := s.release d
    s'.checkCapacity cc.mh
    return (s'.setCR d (.configured cc.copy)).done

/-- `ace.clone Kd, Ks`. -/
def execCloneKK (kd ks : Reg) (s : State) : Result := finish (s.clone (s.word (.cloneKK kd ks)) false kd false ks)

/-- `ace.clone K(Xd), Ks`. -/
def execCloneXK (xd ks : Reg) (s : State) : Result := finish (s.clone (s.word (.cloneXK xd ks)) true xd false ks)

/-- `ace.clone Kd, K(Xs)`. -/
def execCloneKX (kd xs : Reg) (s : State) : Result := finish (s.clone (s.word (.cloneKX kd xs)) false kd true xs)

/-- `ace.clone K(Xd), K(Xs)`. -/
def execCloneXX (xd xs : Reg) (s : State) : Result := finish (s.clone (s.word (.cloneXX xd xs)) true xd true xs)

/-! ### `ace.size` and `ace.avail` (41_cr_management.md R214 to R218) -/

/-- Form A of `ace.size` (R214). -/
def State.sizeOf (s : State) (w : InstrWord) (rd : Reg) (ind : Bool) (field : Reg) : Except State State := do
  let n ← s.nameCR w ind field
  match s.getCR n with
  | .unconfigured => return (s.writeX rd 0).done
  | .configured cc => return (s.writeX rd (BitVec.ofNat 64 (sccTotalSize s.cfg cc.mh))).done

/-- `ace.size Xd, Ks`. -/
def execSizeK (xd ks : Reg) (s : State) : Result := finish (s.sizeOf (s.word (.sizeK xd ks)) xd false ks)

/-- `ace.size Xd, K(Xs)`. -/
def execSizeX (xd xs : Reg) (s : State) : Result := finish (s.sizeOf (s.word (.sizeX xd xs)) xd true xs)

/-- The value of Form B of `ace.size` for a header (R215). -/
def headerSize (c : Config) (mh : BitVec 64) : Nat := if supportedHeader c mh then sccTotalSize c mh else 0

/-- `ace.size Xd, Xs`: Form B (R215). -/
def execSizeHeader (xd xs : Reg) (s : State) : Result :=
  .next (s.writeX xd (BitVec.ofNat 64 (headerSize s.cfg (s.readX xs)))).done

/-- `ace.avail Xd, Xs`: Form B of `ace.size` under another name (R218). -/
def execAvail (xd xs : Reg) (s : State) : Result :=
  .next (s.writeX xd (BitVec.ofNat 64 (headerSize s.cfg (s.readX xs)))).done

/-- The bits of _Algorithm_, _SCProtection_, _KeyType_ and _StateNumber_, which Form C of `ace.size` reads (R216). -/
def internalMask : BitVec 64 := 0x1fcffe

/-- The value of Form C of `ace.size`, `none` when a bit is set that must be zero (R216). -/
def State.internalSize (s : State) (mh : BitVec 64) : Option Nat :=
  if mh = mhSetState 0 snCompleted then some s.cfg.crfCapacity
  else if mh = mhSetState 0 snInvalid then some (s.cfg.crfCapacity - s.crfUsed)
  else if mh &&& ~~~internalMask = 0 ∧ mhState mh = 0 then
    some (if supportedSome s.cfg mh then crCost s.cfg mh else 0)
  else none

/-- `ace.size.internal Xd, Xs`: Form C (R216). -/
def execSizeInternal (xd xs : Reg) (s : State) : Result :=
  match s.internalSize (s.readX xs) with
  | some n => .next (s.writeX xd (BitVec.ofNat 64 n)).done
  | none => .next ((s.writeX xd 0).endWith errInvalidValue)

/-- `ace.size.iobuf Xd, Xs`: Form D (R217). -/
def execSizeIobuf (xd xs : Reg) (s : State) : Result :=
  .next (s.writeX xd (BitVec.ofNat 64 (iobufCost s.cfg (s.readX xs).toNat))).done

/-! ### `ace.restrict` (41_cr_management.md R220) -/

/-- `S`: on RV32 a register pair, whose number must be even (R220). With register 0 it is zero, upper half and all, as
92_eei_decisions.md D31 decides; R220's own text has `x[1]` there. DEDUCED, log 45. -/
def State.restrictOperand (s : State) (w : InstrWord) (r : Reg) : Except State (BitVec 64) :=
  if s.cfg.xlen64 then .ok (s.readX r)
  else if r.toNat % 2 = 1 then .error (s.illegal w)
  else if r = 0 then .ok 0
  else .ok (((s.readX (r + 1)).setWidth 64 <<< 32) ||| s.readX r)

/-- `AP_restrict_ok(alg, old, new)` (R220). -/
def apRestrictOk (permBits : Bool) (old new : BitVec 2) : Bool := new = old || (permBits && new ≠ 0)

/-- One group of the _Locality_: a group not yet set takes the operand's value, a set one may only be repeated; `none`
for anything else (R220). -/
def mergeGroup {w : Nat} (old new : BitVec w) : Option (BitVec w) :=
  if new = 0 then some old else if old = 0 then some new else if old = new then some old else none

/-- The _Locality_ after `ace.restrict`, bit 7 kept as it is (R220). -/
def mergeLocality (old new : BitVec 8) : Option (BitVec 8) :=
  match mergeGroup (old.extractLsb' 0 3) (new.extractLsb' 0 3), mergeGroup (old.extractLsb' 3 1) (new.extractLsb' 3 1),
    mergeGroup (old.extractLsb' 4 1) (new.extractLsb' 4 1), mergeGroup (old.extractLsb' 5 2) (new.extractLsb' 5 2) with
  | some a, some b, some c, some d =>
    some ((old.extractLsb' 7 1 ++ (d ++ (c ++ (b ++ a))) : BitVec (1 + (2 + (1 + (1 + 3))))))
  | _, _, _, _ => none

/-- The _ExpirationDate_ after `ace.restrict` (R220). -/
def mergeExpiration (old new : BitVec 18) : Option (BitVec 18) :=
  if new = 0 then some old else if old = 0 then some new else none

/-- The header after `ace.restrict`, `none` where the operand is an invalid value (R220). -/
def State.restrictHeader (s : State) (m op : BitVec 64) : Option (BitVec 64) :=
  let perm := match algEntry s.cfg m with
    | some e => e.permBits
    | none => false
  let ap := mhPolicy op
  let scp := mhProtection op
  if mhFormat op ≠ 0 ∨ mhAlgorithm op ≠ 0 ∨ mhKeyType op ∨ mhState op ≠ 0 ∨ mhAdditional op ≠ 0 then none
  else if ap &&& ~~~mhPolicy m ≠ 0 ∨ !apRestrictOk perm (mhPolicy m) ap then none
  else if scp.toNat < (mhProtection m).toNat ∨ !supported s.cfg (mhAlgorithm m) ap scp (mhKeyType m) then none
  else
    match mergeLocality (mhLocality m) (mhLocality op), mergeExpiration (mhExpiration m) (mhExpiration op) with
    | some loc, some ed =>
      if (mhLocality op).getLsbD 7 ∨ !s.localityOk loc then none
      else some (setField (setField (setField (setField (setField m 12 ap) 14 scp) 21 loc) 29
        (mhUsage m ||| mhUsage op)) 46 ed)
    | _, _ => none

/-- `ace.restrict` (R220). -/
def State.restrict (s : State) (w : InstrWord) (ind : Bool) (field src : Reg) : Except State State := do
  let n ← s.nameCR w ind field
  let op ← s.restrictOperand w src
  let cc ← s.source n Want.all
  if inState cc.mh 15 then .error (s.illegal w)
  else
    match s.restrictHeader cc.mh op with
    | none => .error (s.endWith errInvalidValue)
    | some mh =>
      if s.cfg.crfCapacity < s.crfUsed - crCost s.cfg cc.mh + crCost s.cfg mh then .error (s.endWith errMemory)
      else return (s.setCR n (.configured { cc with mh := mh, exporting := false })).done

/-- `ace.restrict Kd, Xs1`. -/
def execRestrictK (kd xs1 : Reg) (s : State) : Result :=
  finish (s.restrict (s.word (.restrictK kd xs1)) false kd xs1)

/-- `ace.restrict K(Xd), Xs1`. -/
def execRestrictX (xd xs1 : Reg) (s : State) : Result :=
  finish (s.restrict (s.word (.restrictX xd xs1)) true xd xs1)

end Sys2Proof.Machine
end

