-- ==== Sys2Proof/Machine/Operands.lean ====
section
/-! DEFINITION. The operands of `ace.exec` and `ace.state`: vector register groups and the window of the ACEIOBUF
(10_state.md R36, 42_exec_state_io.md R243 to R247). -/
namespace Sys2Proof.Machine

/-- Where an operand is. -/
inductive Operand where
  | none
  /-- The vector register group that starts at a register (42_exec_state_io.md R246). -/
  | vector (r : Reg)
  /-- The window of the ACEIOBUF (42_exec_state_io.md R247). -/
  | buffer
  deriving DecidableEq, Repr

/-! ### Vector register groups (10_state.md R36) -/

/-- The width of `V(r)` in bits. -/
def State.vecBits (s : State) : Nat := s.vl * s.sew

/-- How many registers hold the bits of `V(r)`. DESIGN CHOICE (log 10): the spec does not say how many registers a group
has; registers of a larger group past these keep their value. -/
def State.vecRegs (s : State) : Nat := (s.vecBits + s.cfg.vlen - 1) / s.cfg.vlen

/-- The bits of register `r + i` of a group; past `v31` they are free (log 10). -/
def State.vecPart (s : State) (r i : Nat) : Nat :=
  if h : r + i < 32 then low s.cfg.vlen s.v[r + i]
  else low s.cfg.vlen (Config.vectorBeyond s.freeTick >>> (s.cfg.vlen * i))

/-- The first `n` registers of a group as one bit string, the first least significant. -/
def State.vecJoin (s : State) (r : Nat) : Nat → Nat
  | 0 => 0
  | n + 1 => State.vecJoin s r n + (s.vecPart r n) <<< (s.cfg.vlen * n)

/-- `V(r)`. -/
def State.readVec (s : State) (r : Reg) : Nat := low s.vecBits (s.vecJoin r.toNat s.vecRegs)

/-- The bits register `j` takes when `V(r) <- new`: bits past `VL*SEW` are free (log 10). -/
def State.vecNew (s : State) (r new j : Nat) : Nat :=
  let base := s.cfg.vlen * (j - r)
  if base + s.cfg.vlen ≤ s.vecBits then slice new base s.cfg.vlen
  else
    cat (low (base + s.cfg.vlen - s.vecBits) (Config.vectorTail s.freeTick j)) (s.vecBits - base)
      (slice new base (s.vecBits - base))

/-- `V(r) <- new`. -/
def State.writeVec (s : State) (r : Reg) (new : Nat) : State :=
  { s with
    v := Vector.ofFn fun j : Fin 32 =>
      if r.toNat ≤ j.val ∧ j.val < r.toNat + s.vecRegs then s.vecNew r.toNat new j.val else s.v[j.val] }

/-! ### The ACEIOBUF (42_exec_state_io.md R247) -/

/-- The bytes of the buffer from `a` up to, not including, `t`. -/
def State.bufBytes (s : State) (a t : Nat) : List Byte := (s.iobuf.drop a).take (t - a)

/-- The buffer with bytes replaced from `a` on. -/
def State.setBufBytes (s : State) (a : Nat) (bs : List Byte) : State :=
  { s with iobuf := s.iobuf.take a ++ bs ++ s.iobuf.drop (a + bs.length) }

/-! ### Windows -/

/-- `IOLEN` of an operand, or the end of the instruction with error 3 or 8 (42_exec_state_io.md R246, R247, R249). -/
def State.window (s : State) : Operand → Except State Nat
  | .none => .ok 0
  | .vector _ => if s.vl ≤ s.acestart.toNat then .error (s.endWith errInvalidValue)
      else .ok ((s.vl - s.acestart.toNat) * s.sew)
  | .buffer =>
    if s.aceiobuflen = 0 then .error (s.endWith errUnconfBuf)
    else if s.aceiobuftop.toNat ≤ s.acestart.toNat then .error (s.endWith errInvalidValue)
    else .ok (8 * (s.aceiobuftop.toNat - s.acestart.toNat))

/-- `INPUT` (42_exec_state_io.md R246, R247). -/
def State.readOperand (s : State) : Operand → Nat
  | .none => 0
  | .vector r => s.readVec r >>> (s.acestart.toNat * s.sew)
  | .buffer => leNat (s.bufBytes s.acestart.toNat s.aceiobuftop.toNat)

/-- The low `written` bits of `OUTPUT` written to an operand; its other bits keep their value
(42_exec_state_io.md R245 to R247). -/
def State.writeOperand (s : State) (o : Operand) (out written : Nat) : State :=
  match o with
  | .none => s
  | .vector r => s.writeVec r (splice (s.readVec r) (s.acestart.toNat * s.sew) written out)
  | .buffer =>
    let a := s.acestart.toNat
    let t := s.aceiobuftop.toNat
    s.setBufBytes a (natLE (t - a) (splice (leNat (s.bufBytes a t)) 0 written out))

/-- The counter of the free values after an instruction with these operands (log 10). -/
def State.tick (s : State) (src dst : Operand) : State :=
  match src, dst with
  | .vector _, _ => { s with freeTick := s.freeTick + 1 }
  | _, .vector _ => { s with freeTick := s.freeTick + 1 }
  | _, _ => s

end Sys2Proof.Machine
end

