-- ==== Sys2Proof/Machine/ExecState.lean ====
section
/-! DEFINITION. `ace.exec`, `ace.state`, `ace.input` and `ace.output` (42_exec_state_io.md). Each takes its own word
first, the trap value of an illegal-instruction exception. -/
namespace Sys2Proof.Machine

/-- What an algorithm takes from the machine. -/
def State.env (s : State) : AlgEnv := ⟨s.rngPos⟩

/-! ### Form not allowed, ordering violation (42_exec_state_io.md R251, R263) -/

/-- `form_not_allowed(n)` (R251). -/
def State.formNotAllowed (s : State) (w : InstrWord) (n : Fin 32) (cc : Context) : State :=
  if invalidatesOnBadExec s.cfg cc then (s.invalidate n).illegal w else s.illegal w

/-- `seq_violation(n)` (R263): with `check_active` passed, the bound CR is the one named. -/
def State.seqViolation (s : State) (w : InstrWord) (n : Fin 32) : State := (s.invalidate n).illegal w

/-! ### The end of a step or a transition (42_exec_state_io.md R249, R255) -/

/-- A CR invalidated with an error code: the instruction completes (R270). -/
def State.invalidateWith (s : State) (n : Fin 32) (code : BitVec 4) : State := (s.invalidate n).endWith code

/-- The CR after a step or a transition, the next `acesequence`, and the random numbers drawn. -/
def State.commit (s : State) (n : Fin 32) (cc : Context) (seq : BitVec 2) (r : Step) : State :=
  { s.setCR n (.configured (ccAfter s.cfg cc r)) with acesequence := seq, rngPos := s.rngPos + r.draws }

/-- The outcome of a step applied (R249 lines 9 and 10, R255 lines 10 and 11). -/
def State.applyStep (s : State) (n : Fin 32) (cc : Context) (seq : BitVec 2) (src dst : Operand) (r : Step) : State :=
  match r.outcome with
  | .ok => (((s.commit n cc seq r).writeOperand dst r.out r.written).tick src dst).done
  | .err code => (((s.commit n cc seq r).writeOperand dst r.out r.written).tick src dst).endWith code
  | .invalidate code => (s.invalidateWith n code).tick src dst

/-! ### `ace.exec` (42_exec_state_io.md R249 to R253, R262) -/

/-- The operands of an `ace.exec` and the `acesequence` after it (R262). -/
structure ExecPlan where
  src : Operand
  dst : Operand
  seq : BitVec 2
  deriving DecidableEq, Repr

/-- The operands of a vector Form (R250, R252, R269). -/
def vectorPlan (f : Form) (vd vs : Reg) : ExecPlan :=
  match f with
  | .A => ⟨.vector vs, .vector vd, 0⟩
  | .B => ⟨.vector vs, .none, 0⟩
  | .C => ⟨.none, .vector vd, 0⟩
  | .D => ⟨.none, .none, 0⟩

/-- What Form D stands for, by `acesequence`, the allowed Form and the binding; `none` is an ordering violation, and
`some none` a Form that is not allowed (R262). -/
def formDPlan (seq : BitVec 2) (allowed : Option Form) (bound : Bool) : Option (Option ExecPlan) :=
  if seq = 0 then
    match allowed with
    | some .D => some (some ⟨.none, .none, 0⟩)
    | some .C => if bound then some (some ⟨.none, .buffer, 1⟩) else some none
    | _ => some none
  else if seq = 1 ∧ bound then
    match allowed with
    | some .A => some (some ⟨.buffer, .buffer, 2⟩)
    | some .B => some (some ⟨.buffer, .none, 0⟩)
    | _ => none
  else none

/-- The plan of any Form of `ace.exec` (R262). -/
def execPlan (f : Form) (vd vs : Reg) (seq : BitVec 2) (allowed : Option Form) (bound : Bool) :
    Option (Option ExecPlan) :=
  if f = .D then formDPlan seq allowed bound
  else if seq ≠ 0 then none
  else if allowed = some f then some (some (vectorPlan f vd vs))
  else some none

/-- The `IOLEN` of a plan, or error 3 or 8: that of the source, or of the destination where there is no source
(R246, R247). -/
def State.planWindow (s : State) (p : ExecPlan) : Except State Nat :=
  if p.src = .none then s.window p.dst else s.window p.src

/-- Lines 6 to 10 of R249 for a plan and the algorithm's row. -/
def State.runExec (s : State) (n : Fin 32) (cc : Context) (row : ExecRow) (p : ExecPlan) : Except State State := do
  let iolen ← s.planWindow p
  if !row.size.valid iolen then .error (s.endWith errInvalidValue)
  else return s.applyStep n cc p.seq p.src p.dst (row.step (s.readOperand p.src) iolen)

/-- `ace.exec` (R249). -/
def State.aceExec (s : State) (w : InstrWord) (f : Form) (ind : Bool) (field vd vs : Reg) : Except State State :=
  if f ≠ .D ∧ !s.cfg.hasV then .error (s.illegal w)
  else do
    let n ← s.nameCR w ind field
    let cc ← s.source n Want.all
    match execPlan f vd vs s.acesequence (execForm s.cfg s.env cc) (s.aceactivecr.toNat = n.val),
      ccExec s.cfg s.env cc with
    | none, _ => .error (s.seqViolation w n)
    | some (some p), some row => s.runExec n cc row p
    | _, _ => .error (s.formNotAllowed w n cc)

/-- `ace.exec Vd, Kn, Vs`. -/
def execExecAK (vd kn vs : Reg) (s : State) : Result :=
  finish (s.aceExec (s.word (.execAK vd kn vs)) .A false kn vd vs)

/-- `ace.exec Kn, Vs`. -/
def execExecBK (kn vs : Reg) (s : State) : Result :=
  finish (s.aceExec (s.word (.execBK kn vs)) .B false kn 0 vs)

/-- `ace.exec Vd, Kn`. -/
def execExecCK (vd kn : Reg) (s : State) : Result :=
  finish (s.aceExec (s.word (.execCK vd kn)) .C false kn vd 0)

/-- `ace.exec Kn`. -/
def execExecDK (kn : Reg) (s : State) : Result :=
  finish (s.aceExec (s.word (.execDK kn)) .D false kn 0 0)

/-- `ace.exec Vd, K(Xn), Vs`. -/
def execExecAX (vd xn vs : Reg) (s : State) : Result :=
  finish (s.aceExec (s.word (.execAX vd xn vs)) .A true xn vd vs)

/-- `ace.exec K(Xn), Vs`. -/
def execExecBX (xn vs : Reg) (s : State) : Result :=
  finish (s.aceExec (s.word (.execBX xn vs)) .B true xn 0 vs)

/-- `ace.exec Vd, K(Xn)`. -/
def execExecCX (vd xn : Reg) (s : State) : Result :=
  finish (s.aceExec (s.word (.execCX vd xn)) .C true xn vd 0)

/-- `ace.exec K(Xn)`. -/
def execExecDX (xn : Reg) (s : State) : Result :=
  finish (s.aceExec (s.word (.execDX xn)) .D true xn 0 0)

/-! ### `ace.state` (42_exec_state_io.md R255 to R260) -/

/-- The effective Form and where `INPUT` is, `none` for an ordering violation (R255 line 5, R262). -/
def statePlan (f : Form) (vs : Reg) (seq : BitVec 2) (bound : Bool) : Option (Form × Operand) :=
  if seq = 0 then some (f, if f = .C then .vector vs else .none)
  else if f = .A ∧ seq = 1 ∧ bound then some (.C, .buffer)
  else none

/-- Lines 8 to 11 of R255 for a row and its operand; `reg` is the auxiliary value of Form B. -/
def State.runRow (s : State) (n : Fin 32) (cc : Context) (row : Row) (o : Operand) (reg : Nat) :
    Except State State := do
  let iolen ← s.window o
  if row.form = .C ∧ !row.size.valid iolen then .error (s.endWith errInvalidValue)
  else return s.applyStep n cc 0 o .none (row.act (if row.form = .C then s.readOperand o else reg))

/-- `ace.state` (R255): requested state `t`, Form `f`, register `r` of the Form B or C operand. With `acesequence` 1 and
no row at all for `t`, line 6 of R255 ends with error 7, while the table of R262 has an ordering violation wherever no
Form C row applies. DESIGN CHOICE (log 44): the listing of R255 is followed. -/
def State.aceState (s : State) (w : InstrWord) (f : Form) (field : Reg) (t : Nat) (r : Reg) : Except State State :=
  if f = .C ∧ !s.cfg.hasV then .error (s.illegal w)
  else do
    let n ← s.nameCR w false field
    let cc ← s.source n { Want.all with inv := t ≠ 0 }
    match statePlan f r s.acesequence (s.aceactivecr.toNat = n.val) with
    | none => .error (s.seqViolation w n)
    | some (e, o) =>
      match ccRows s.cfg s.env cc t with
      | [] => .error (s.invalidateWith n errUnimpl)
      | rows =>
        match rows.find? fun row => row.form = e with
        | none => .error (if s.acesequence = 1 then s.seqViolation w n else s.illegal w)
        | some row => s.runRow n cc row o (if e = .B then (s.readX r).toNat else 0)

/-- `ace.state Kd, #immed7` (R255). -/
def execStateA (kd : Reg) (imm : BitVec 7) (s : State) : Result :=
  finish (s.aceState (s.word (.stateA kd imm)) .A kd imm.toNat 0)

/-- `ace.state Kd, #immed7, Xs` (R256). -/
def execStateB (kd : Reg) (imm : BitVec 7) (xs : Reg) (s : State) : Result :=
  finish (s.aceState (s.word (.stateB kd imm xs)) .B kd imm.toNat xs)

/-- `ace.state Kd, #immed7, Vs` (R257). -/
def execStateC (kd : Reg) (imm : BitVec 7) (vs : Reg) (s : State) : Result :=
  finish (s.aceState (s.word (.stateC kd imm vs)) .C kd imm.toNat vs)

/-! ### `ace.input` and `ace.output` (42_exec_state_io.md R264 to R267) -/

/-- Line 3 of R264 and R265: the checks on the bound CR; `allowed` is the ordering condition. -/
def State.checkBound (s : State) (w : InstrWord) (allowed : Context → Bool) : Except State Unit :=
  if s.aceactivecr = 32 then .ok ()
  else if h : s.aceactivecr.toNat < 32 ∧ s.aceactivecr.toNat < s.cfg.numCR then do
    let cc ← s.source ⟨s.aceactivecr.toNat, h.1⟩ Want.all
    if allowed cc then .ok () else .error (s.seqViolation w ⟨s.aceactivecr.toNat, h.1⟩)
  else .error ({ s with aceerror := errUnconfCR }.illegal w)

/-- Lines 4 and 5 of R264 and R265: the window of a transfer of `len` bytes. -/
def State.checkTransfer (s : State) (len : Nat) : Except State Unit :=
  if s.aceiobuflen = 0 then .error (s.endWith errUnconfBuf)
  else if s.aceiobuftop.toNat < s.acestart.toNat ∨ s.aceiobuftop.toNat - s.acestart.toNat < len then
    .error (s.endWith errInvalidValue)
  else .ok ()

/-- `acesequence` after a transfer: free transfers leave it (R266). -/
def State.setSequence (s : State) (seq : BitVec 2) : State :=
  if s.aceactivecr = 32 then s else { s with acesequence := seq }

/-- `ace.input` may stand here: an input is expected and no sequence is in progress (R264). -/
def State.inputAllowed (s : State) (cc : Context) : Bool := s.acesequence = 0 && inputExpected s.cfg s.env cc

/-- `ace.input` of `len` bytes, `len` not 0 (R264). -/
def State.aceInput (s : State) (w : InstrWord) (ea : Word) (len : Nat) : Except State State := do
  s.checkBound w s.inputAllowed
  s.checkTransfer len
  let bs ← s.load ea.toNat len
  return ((s.setBufBytes s.acestart.toNat bs).setSequence 1).done

/-- `ace.output` of `len` bytes, `len` not 0 (R265). -/
def State.aceOutput (s : State) (w : InstrWord) (ea : Word) (len : Nat) : Except State State := do
  s.checkBound w (fun _ => s.acesequence = 1 || s.acesequence = 2)
  s.checkTransfer len
  let s' ← s.store ea.toNat (s.bufBytes s.acestart.toNat (s.acestart.toNat + len))
  return (s'.setSequence 0).done

/-- `ace.input %offset(Xs), Xl`: with length 0 only `pc` advances (R264). -/
def execInput (off : Imm12) (xs xl : Reg) (s : State) : Result :=
  if s.readX xl = 0 then .next s.advance
  else finish (s.aceInput (s.word (.input off xs xl)) (s.effAddr xs off) (s.readX xl).toNat)

/-- `ace.output %offset(Xd), Xl`: with length 0 only `pc` advances (R265). -/
def execOutput (off : Imm12) (xd xl : Reg) (s : State) : Result :=
  if s.readX xl = 0 then .next s.advance
  else finish (s.aceOutput (s.word (.output off xd xl)) (s.effAddr xd off) (s.readX xl).toNat)

end Sys2Proof.Machine
end

