-- ==== Sys2Proof/Machine/Dispatch.lean ====
section
/-! DEFINITION. The meaning of every instruction. -/
namespace Sys2Proof.Machine

/-- What an instruction does: one meaning for each constructor of `Instr`. -/
def exec (i : Instr) (s : State) : Host.Outcome State Fault Refusal :=
  match i with
  | .provK kd off xs => Sys2Proof.Machine.execProvK kd off xs s
  | .provX xd off xs => Sys2Proof.Machine.execProvX xd off xs s
  | .clearK kd => Sys2Proof.Machine.execClearK kd s
  | .clearX xd => Sys2Proof.Machine.execClearX xd s
  | .aceReset => Sys2Proof.Machine.execAceReset s
  | .exportK off xd ks => Sys2Proof.Machine.execExportK off xd ks s
  | .exportX off xd xs => Sys2Proof.Machine.execExportX off xd xs s
  | .importK kd off xn => Sys2Proof.Machine.execImportK kd off xn s
  | .importSK kd off xn => Sys2Proof.Machine.execImportSK kd off xn s
  | .importX xd off xn => Sys2Proof.Machine.execImportX xd off xn s
  | .importSX xd off xn => Sys2Proof.Machine.execImportSX xd off xn s
  | .input off xs xl => Sys2Proof.Machine.execInput off xs xl s
  | .output off xd xl => Sys2Proof.Machine.execOutput off xd xl s
  | .execAK vd kn vs => Sys2Proof.Machine.execExecAK vd kn vs s
  | .execBK kn vs => Sys2Proof.Machine.execExecBK kn vs s
  | .execCK vd kn => Sys2Proof.Machine.execExecCK vd kn s
  | .execDK kn => Sys2Proof.Machine.execExecDK kn s
  | .execAX vd xn vs => Sys2Proof.Machine.execExecAX vd xn vs s
  | .execBX xn vs => Sys2Proof.Machine.execExecBX xn vs s
  | .execCX vd xn => Sys2Proof.Machine.execExecCX vd xn s
  | .execDX xn => Sys2Proof.Machine.execExecDX xn s
  | .stateA kd imm => Sys2Proof.Machine.execStateA kd imm s
  | .stateB kd imm xs => Sys2Proof.Machine.execStateB kd imm xs s
  | .stateC kd imm vs => Sys2Proof.Machine.execStateC kd imm vs s
  | .aceError xd => Sys2Proof.Machine.execAceError xd s
  | .sizeK xd ks => Sys2Proof.Machine.execSizeK xd ks s
  | .sizeX xd xs => Sys2Proof.Machine.execSizeX xd xs s
  | .sizeHeader xd xs => Sys2Proof.Machine.execSizeHeader xd xs s
  | .sizeInternal xd xs => Sys2Proof.Machine.execSizeInternal xd xs s
  | .sizeIobuf xd xs => Sys2Proof.Machine.execSizeIobuf xd xs s
  | .avail xd xs => Sys2Proof.Machine.execAvail xd xs s
  | .restrictK kd xs1 => Sys2Proof.Machine.execRestrictK kd xs1 s
  | .restrictX xd xs1 => Sys2Proof.Machine.execRestrictX xd xs1 s
  | .cloneKK kd ks => Sys2Proof.Machine.execCloneKK kd ks s
  | .cloneXK xd ks => Sys2Proof.Machine.execCloneXK xd ks s
  | .cloneKX kd xs => Sys2Proof.Machine.execCloneKX kd xs s
  | .cloneXX xd xs => Sys2Proof.Machine.execCloneXX xd xs s

end Sys2Proof.Machine
end

