-- ==== Sys2Proof/Machine/Fetch.lean ====
section
/-! DEFINITION. Instruction fetch, and where the host of the model's programs places a word. -/
namespace Sys2Proof.Machine

/-- The four bytes at `pc`, little-endian (20_memory.md R92). -/
def State.fetchBytes (s : State) : List Byte := s.readBytes s.pc.toNat 4

/-- The word at `pc`. -/
def State.fetchWord (s : State) : InstrWord := BitVec.ofNat 32 (leNat s.fetchBytes)

/-- What the bytes at `pc` decode to. -/
def State.fetched (s : State) : Decoded := decodeBytes s.cfg.enc s.fetchBytes

/-- `pc` is a multiple of 4 (10_state.md R31). -/
def State.pcAligned (s : State) : Bool := s.pc.toNat % 4 = 0

/-- A word stored at `pc`. -/
def State.placeWord (s : State) (w : InstrWord) : State := s.writeBytes s.pc.toNat (bytesOfWord w)

end Sys2Proof.Machine
end

