-- ==== Sys2Proof/Machine/Step.lean ====
section
/-! DEFINITION. One step of the machine (70_reset_and_hazards.md R595). -/
namespace Sys2Proof.Machine

/-- What a decoded word does. A word under an ACE opcode that no figure assigns raises an illegal-instruction
exception (30_encoding.md R156); a word of the host ISA is outside the spec (00_scope.md R9, log 12). -/
def execDecoded (d : Decoded) (s : State) : Host.Outcome State Fault Refusal :=
  match d with
  | .ace i => exec i s
  | .csr c => execCsr c s
  | .reservedAce => .next (s.illegal s.fetchWord)
  | .hostWord => .refused (.hostInstruction s.fetchWord)
  | .truncated => .refused (.hostInstruction s.fetchWord)

/-- The instruction at `pc` run, once no exception is with the host's handler (log 7) and `pc` is aligned (log 12). -/
def runNext (s : State) : Host.Outcome State Fault Refusal :=
  match s.trap with
  | some t => .refused (.hostTrap t)
  | none => if s.pcAligned then execDecoded s.fetched s else .fault .fetchMisaligned

/-- One step: the environment's next events, then one instruction (R595). -/
def step (s : State) : Host.Outcome State Fault Refusal := runNext s.applyEvents

/-- An instruction of the opcode table stored at `pc`. -/
def State.withFetchWord (s : State) (nbits w : Nat) : State := s.placeWord (tableWord nbits w)

end Sys2Proof.Machine
end

