-- ==== Sys2Proof/Safety.lean ====
section
/-! DEFINITION. What the spec asks of an implementation's parameters and what every step keeps; and the words in which
the statements speak of operands. -/
namespace Sys2Proof

/-! ### Parameters (00_scope.md R11) -/

/-- Some header has an algorithm of the kind: a supported combination of fields, in whose entry of `AlgTable` one
stands. -/
def Config.offers (c : Config) (kind : AlgDef → Bool) : Bool :=
  c.algTable.any fun e => e.combos.any fun k =>
    Machine.supported c e.alg k.1 k.2.1 k.2.2 && (Machine.findAlg c.algTable e.alg k.1).any fun f => kind f.algDef

/-- ECB mode with a given cipher (44_alg_block_modes.md R326). -/
def AlgDef.isEcb (c : Cipher) : AlgDef → Bool
  | .ecb c' => c' = c
  | _ => false

/-- GCM-SIV mode with a given cipher, of any tag length and multiplication (45_alg_aead.md R375, R376). -/
def AlgDef.isGcmSiv (c : Cipher) : AlgDef → Bool
  | .gcmSiv c' _ _ => c' = c
  | _ => false

/-- AES-128 and AES-256 in ECB and GCM-SIV modes, which every implementation has (00_scope.md R3, R4, R11); the spec
does not say which GCM-SIV instance, and any will do. -/
def requiredAlgs : List (AlgDef → Bool) :=
  [AlgDef.isEcb .aes128, AlgDef.isEcb .aes256, AlgDef.isGcmSiv .aes128, AlgDef.isGcmSiv .aes256]

/-- The header of an entry with one of its protection levels and key types. -/
def AlgEntry.header (e : AlgEntry) (scp : BitVec 2) (kt : Bool) : BitVec 64 :=
  Machine.setField (Machine.setField (Machine.setField 0 1 e.alg) 14 scp) 16 (if kt then (1 : BitVec 1) else 0)

/-- The CR file holds the largest pair of CRs `ace.clone` makes (10_state.md R39). -/
def Config.holdsPairs (c : Config) : Bool :=
  c.algTable.all fun e => e.combos.all fun k => 2 * Machine.crCost c (e.header k.2.1 k.2.2) ≤ c.crfCapacity

/-- The ACEIOBUF parameters: a maximum that is a multiple of 8, and 0 without a buffer (93_implementation_defined.md
part 2). DEDUCED (log 17): the maximum is below `2^XLEN`, since `aceiobuflen` has `XLEN` bits (10_state.md R58). DESIGN
CHOICE (log 17), not in the spec, which constrains `IOBUF_cost` nowhere: where the buffer is in the CR file, no buffer
costs nothing and a longer buffer costs no less, so that `crf_used` stays within the capacity (10_state.md R39). -/
def Config.bufferOk (c : Config) : Bool :=
  c.iobufMax % 8 = 0 && c.iobufMax < 2 ^ c.xlen && (c.hasIobuf || c.iobufMax = 0) &&
    (!c.iobufInCrf || (Machine.iobufCost c 0 = 0 && (List.range c.iobufMax).all fun n =>
      Machine.iobufCost c n ≤ Machine.iobufCost c (n + 1)))

/-- The constraints on the parameters (00_scope.md R11, 93_implementation_defined.md part 2). -/
def Config.wf (c : Config) : Bool :=
  0 < c.numCR && c.numCR ≤ 32 && (c.hasV || c.hasIobuf) && c.bufferOk && c.enc.wellFormed && 0 < c.vlen &&
    (c.algTable.all fun e => e.algDef.wellFormed) && requiredAlgs.all c.offers && c.holdsPairs

/-! ### Operands of the instructions -/

/-- The CR operand of a single-CR instruction: whether it is indirect, and its field (41_cr_management.md R191). -/
def Instr.crOperand : Instr → Option (Bool × Reg)
  | .provK kd _ _ => some (false, kd)
  | .provX xd _ _ => some (true, xd)
  | .clearK kd => some (false, kd)
  | .clearX xd => some (true, xd)
  | .aceReset => none
  | .exportK _ _ ks => some (false, ks)
  | .exportX _ _ xs => some (true, xs)
  | .importK kd _ _ => some (false, kd)
  | .importSK kd _ _ => some (false, kd)
  | .importX xd _ _ => some (true, xd)
  | .importSX xd _ _ => some (true, xd)
  | .input _ _ _ => none
  | .output _ _ _ => none
  | .execAK _ kn _ => some (false, kn)
  | .execBK kn _ => some (false, kn)
  | .execCK _ kn => some (false, kn)
  | .execDK kn => some (false, kn)
  | .execAX _ xn _ => some (true, xn)
  | .execBX xn _ => some (true, xn)
  | .execCX _ xn => some (true, xn)
  | .execDX xn => some (true, xn)
  | .stateA kd _ => some (false, kd)
  | .stateB kd _ _ => some (false, kd)
  | .stateC kd _ _ => some (false, kd)
  | .aceError _ => none
  | .sizeK _ ks => some (false, ks)
  | .sizeX _ xs => some (true, xs)
  | .sizeHeader _ _ => none
  | .sizeInternal _ _ => none
  | .sizeIobuf _ _ => none
  | .avail _ _ => none
  | .restrictK kd _ => some (false, kd)
  | .restrictX xd _ => some (true, xd)
  | .cloneKK _ _ => none
  | .cloneXK _ _ => none
  | .cloneKX _ _ => none
  | .cloneXX _ _ => none

/-- The source CR of `ace.clone`. -/
def Instr.cloneSource : Instr → Option (Bool × Reg)
  | .cloneKK _ ks => some (false, ks)
  | .cloneXK _ ks => some (false, ks)
  | .cloneKX _ xs => some (true, xs)
  | .cloneXX _ xs => some (true, xs)
  | _ => none

/-- The destination CR of `ace.clone`. -/
def Instr.cloneTarget : Instr → Option (Bool × Reg)
  | .cloneKK kd _ => some (false, kd)
  | .cloneXK xd _ => some (true, xd)
  | .cloneKX kd _ => some (false, kd)
  | .cloneXX xd _ => some (true, xd)
  | _ => none

/-- An instruction that replaces or discards the context of the CR it names: `ace.prov`, `ace.clear`, `ace.import`,
`ace.import.S`, `ace.clone` and `ace.reset`. -/
def Instr.replaces : Instr → Bool
  | .provK _ _ _ | .provX _ _ _ | .clearK _ | .clearX _ | .aceReset => true
  | .importK _ _ _ | .importSK _ _ _ | .importX _ _ _ | .importSX _ _ _ => true
  | .cloneKK _ _ | .cloneXK _ _ | .cloneKX _ _ | .cloneXX _ _ => true
  | _ => false

/-- The general register an instruction writes: only `ace.error`, `ace.size` and `ace.avail` have one. -/
def Instr.destReg : Instr → Option Reg
  | .aceError xd | .sizeK xd _ | .sizeX xd _ | .sizeHeader xd _ | .sizeInternal xd _ | .sizeIobuf xd _
  | .avail xd _ => some xd
  | _ => none

/-- The vector register group an instruction writes: Forms A and C of `ace.exec`. -/
def Instr.destVec : Instr → Option Reg
  | .execAK vd _ _ | .execAX vd _ _ | .execCK vd _ | .execCX vd _ => some vd
  | _ => none

/-- `ace.exec`, `ace.state`, `ace.input` and `ace.output`, the instructions of a replacement sequence. -/
def Instr.sequenced : Instr → Bool
  | .execAK _ _ _ | .execBK _ _ | .execCK _ _ | .execDK _ | .execAX _ _ _ | .execBX _ _ | .execCX _ _ | .execDX _
  | .stateA _ _ | .stateB _ _ _ | .stateC _ _ _ | .input _ _ _ | .output _ _ _ => true
  | _ => false

/-- The implementation has the instruction: the vector Forms need vector registers (42_exec_state_io.md R249, R255) and
`ace.import.S` a system-defined format (41_cr_management.md R211). -/
def Instr.present (c : Config) : Instr → Bool
  | .execAK _ _ _ | .execBK _ _ | .execCK _ _ | .execAX _ _ _ | .execBX _ _ | .execCX _ _ | .stateC _ _ _ => c.hasV
  | .importSK _ _ _ | .importSX _ _ _ => c.hasSystemImport
  | _ => true

end Sys2Proof

namespace Sys2Proof.Machine

/-- Form `f` of `ace.exec`, with the CR named directly or through a register. -/
def Form.execInstr (f : Form) (ind : Bool) (field vd vs : Reg) : Instr :=
  match f, ind with
  | .A, false => .execAK vd field vs
  | .A, true => .execAX vd field vs
  | .B, false => .execBK field vs
  | .B, true => .execBX field vs
  | .C, false => .execCK vd field
  | .C, true => .execCX vd field
  | .D, false => .execDK field
  | .D, true => .execDX field

/-- A write of a CSR instruction with source field 0 is suppressed, but for `csrrw` and `csrrwi` (40_csr_access.md
R170). -/
def suppressed (i : CsrInstr) : Bool := decide (i.op ≠ .write) && decide (i.src = 0)

/-- The value a CSR instruction writes to a CSR that holds `old` (40_csr_access.md R170). -/
def State.csrWritten (s : State) (i : CsrInstr) (old : Word) : Word :=
  truncX s.cfg (match i.op with
    | .write => if i.imm then i.src.setWidth 64 else s.readX i.src
    | .setBits => old ||| (if i.imm then i.src.setWidth 64 else s.readX i.src)
    | .clearBits => old &&& ~~~(if i.imm then i.src.setWidth 64 else s.readX i.src))

/-! ### Invariants -/

/-- The memory has its canonical form. -/
def State.MemInv (s : State) : Prop := Memory.wf s.mem = true

/-- General registers and `pc` hold `XLEN` bits (10_state.md R30, R31). -/
def State.WidthInv (s : State) : Prop :=
  (∀ r : Fin 32, s.x[r.val].toNat < 2 ^ s.cfg.xlen) ∧ s.pc.toNat < 2 ^ s.cfg.xlen

/-- Only implemented CRs are configured (10_state.md R37). -/
def State.FileInv (s : State) : Prop := ∀ n : Fin 32, s.cfg.numCR ≤ n.val → s.getCR n = .unconfigured

/-- `aceactivecr` holds a legal value (10_state.md R61). -/
def State.ActiveInv (s : State) : Prop := s.aceactivecr.toNat ≤ 32

/-- The ACEIOBUF has `aceiobuflen` bytes, no more than the maximum, and the window's bound is inside it
(10_state.md R40, R58, R59). -/
def State.BufferInv (s : State) : Prop :=
  s.iobuf.length = s.aceiobuflen.toNat ∧ s.aceiobuftop.toNat ≤ s.aceiobuflen.toNat ∧
    s.aceiobuflen.toNat ≤ s.cfg.iobufMax

/-- The CR file holds no more than its capacity (10_state.md R39). -/
def State.CapacityInv (s : State) : Prop := s.crfUsed ≤ s.cfg.crfCapacity

/-- No CR is in the middle of an export, a provisioning or an import (10_state.md R64, R65). -/
def State.HiddenInv (s : State) : Prop :=
  ∀ (n : Fin 32) (cc : Context), s.getCR n = .configured cc → cc.exporting = false ∧ cc.incomplete = false

/-- The additional data segment has the length its header says (10_state.md R52). -/
def State.SegmentInv (s : State) : Prop :=
  ∀ (n : Fin 32) (cc : Context), s.getCR n = .configured cc → cc.ad.length = 8 * (mhAdditional cc.mh).toNat

/-- ChipSecret and DeviceSecret are populated (10_state.md R49). -/
def State.SecretsInv (s : State) : Prop := s.lst[2].isSome = true ∧ s.lst[5].isSome = true

/-- All of them, with parameters the spec allows. -/
structure State.Inv (s : State) : Prop where
  config : s.cfg.wf = true
  mem : s.MemInv
  width : s.WidthInv
  file : s.FileInv
  active : s.ActiveInv
  buffer : s.BufferInv
  capacity : s.CapacityInv
  hidden : s.HiddenInv
  segment : s.SegmentInv
  secrets : s.SecretsInv

/-! ### Operands of the statements -/

/-- A CR operand names CR `n`: directly, or with its number in a general register other than `X0`
(41_cr_management.md R190). -/
def State.Names (s : State) (ind : Bool) (field : Reg) (n : Fin 32) : Prop :=
  (if ind then field ≠ 0 ∧ (s.readX field).toNat = n.val else field.toNat = n.val) ∧ n.val < s.cfg.numCR

/-- `check_active(n)` passes (41_cr_management.md R191). -/
def State.Unbound (s : State) (n : Fin 32) : Prop := s.aceactivecr = 32 ∨ s.aceactivecr.toNat = n.val

/-- CR `n` may be used by a usage-controlled instruction: it holds `cc`, which is neither incomplete, nor invalid, nor
expired, nor forbidden to the mode (41_cr_management.md R192). -/
def State.Usable (s : State) (n : Fin 32) (cc : Context) : Prop :=
  s.getCR n = .configured cc ∧ cc.incomplete = false ∧ mhState cc.mh ≠ 14 ∧ s.expired cc = false ∧
    s.usageAllowed (mhUsage cc.mh) = true

/-- `ace.state` may act on CR `n`: as `Usable`, but an invalid CR may return to _initial_
(41_cr_management.md R192, 42_exec_state_io.md R255). -/
def State.Changeable (s : State) (n : Fin 32) (cc : Context) (target : BitVec 7) : Prop :=
  s.getCR n = .configured cc ∧ cc.incomplete = false ∧ (mhState cc.mh = 14 → target = 0) ∧ s.expired cc = false ∧
    s.usageAllowed (mhUsage cc.mh) = true

/-- The bound CR, if any, lets a transfer happen (42_exec_state_io.md R264, R265, R266). -/
def State.TransferAllowed (s : State) (allowed : Context → Prop) : Prop :=
  s.aceactivecr = 32 ∨
    ∃ (n : Fin 32) (cc : Context), s.aceactivecr.toNat = n.val ∧ n.val < s.cfg.numCR ∧ s.Usable n cc ∧ allowed cc

/-- The window of the ACEIOBUF has room for `len` bytes (42_exec_state_io.md R264, R265). -/
def State.HasRoom (s : State) (len : Nat) : Prop :=
  s.aceiobuflen ≠ 0 ∧ s.acestart.toNat ≤ s.aceiobuftop.toNat ∧ len ≤ s.aceiobuftop.toNat - s.acestart.toNat

/-- Where the operand of a step is: in vector registers, or in the window of the ACEIOBUF. -/
inductive Place where
  | vectors
  | buffer
  deriving DecidableEq, Repr

/-- `IOLEN` of an operand: all from `acestart` on (42_exec_state_io.md R246, R247). -/
def State.iolen (s : State) : Place → Nat
  | .vectors => (s.vl - s.acestart.toNat) * s.sew
  | .buffer => 8 * (s.aceiobuftop.toNat - s.acestart.toNat)

/-- The error of an operand for a step of a size class: 3 for an unconfigured buffer, 8 for an empty window or a size
the step does not take (42_exec_state_io.md R243, R246, R247). -/
def State.WindowError (s : State) (p : Place) (size : SizeClass) (code : BitVec 4) : Prop :=
  if p = .buffer ∧ s.aceiobuflen = 0 then code = 3
  else
    code = 8 ∧ ((match p with
        | .vectors => s.vl
        | .buffer => s.aceiobuftop.toNat) ≤ s.acestart.toNat ∨ size.valid (s.iolen p) = false)

/-- The operand has a window of a size the step takes (42_exec_state_io.md R243, R246, R247). -/
def State.WindowOk (s : State) (p : Place) (size : SizeClass) : Prop :=
  (p = .buffer → s.aceiobuflen ≠ 0) ∧
    s.acestart.toNat < (match p with
      | .vectors => s.vl
      | .buffer => s.aceiobuftop.toNat) ∧ size.valid (s.iolen p) = true

/-- The operand from `acestart` on (42_exec_state_io.md R246, R247). -/
def State.inputAt (s : State) (r : Reg) : Place → Nat
  | .vectors => s.readVec r >>> (s.acestart.toNat * s.sew)
  | .buffer => leNat ((s.iobuf.drop s.acestart.toNat).take (s.aceiobuftop.toNat - s.acestart.toNat))

/-- CR `n` may be used and holds `cc`, in whose state Form `f` of `ace.exec` runs `row`. -/
def State.ExecReady (s : State) (n : Fin 32) (cc : Context) (f : Form) (row : ExecRow) : Prop :=
  s.Unbound n ∧ s.Usable n cc ∧ ccExec s.cfg s.env cc = some row ∧ row.form = f

/-- The bound CR `n` is at the point of a replacement sequence where Form D of `ace.exec` stands for Form `f`, and
`acesequence` is `q` afterwards (42_exec_state_io.md R262). -/
def State.StandsFor (s : State) (n : Fin 32) (f : Form) (q : BitVec 2) : Prop :=
  s.aceactivecr.toNat = n.val ∧
    ((f = .C ∧ s.acesequence = 0 ∧ q = 1) ∨ (f = .A ∧ s.acesequence = 1 ∧ q = 2) ∨
      (f = .B ∧ s.acesequence = 1 ∧ q = 0))

/-- An `ace.state` on CR `n`, which holds `cc`, that takes a row of Form `e` to the state it asks for; `o` is the place
of the operand of Form C and `aux` the auxiliary value (42_exec_state_io.md R255 to R257, R262). -/
def State.StateReady (s : State) (i : Instr) (n : Fin 32) (cc : Context) (row : Row) (o : Option Place) (aux : Nat) :
    Prop :=
  s.Unbound n ∧ ∃ (k r : Reg) (imm : BitVec 7), s.Names false k n ∧ s.Changeable n cc imm ∧
    (ccRows s.cfg s.env cc imm.toNat).find? (fun x => decide (x.form = row.form)) = some row ∧
    ((i = .stateA k imm ∧ row.form = .A ∧ s.acesequence = 0 ∧ o = none ∧ aux = 0) ∨
      (i = .stateB k imm r ∧ row.form = .B ∧ s.acesequence = 0 ∧ o = none ∧ aux = (s.readX r).toNat) ∨
      (i = .stateC k imm r ∧ row.form = .C ∧ s.cfg.hasV = true ∧ s.acesequence = 0 ∧ o = some .vectors ∧
        aux = s.inputAt r .vectors) ∨
      (i = .stateA k imm ∧ row.form = .C ∧ s.acesequence = 1 ∧ s.aceactivecr.toNat = n.val ∧ o = some .buffer ∧
        aux = s.inputAt 0 .buffer))

/-- A _Locality_ group, or another field, that is taken over where it is unset and may otherwise only be repeated
(41_cr_management.md R220). -/
def Merged {w : Nat} (old new res : BitVec w) : Prop :=
  (new = 0 ∧ res = old) ∨ (new ≠ 0 ∧ old = 0 ∧ res = new) ∨ (new ≠ 0 ∧ old = new ∧ res = old)

/-- A header `ace.prov` (`pi`) or `ace.import` accepts, for an algorithm that is supported and fits into the CR file
once CR `n` is released (41_cr_management.md R196). -/
def State.Accepts (s : State) (n : Fin 32) (pi : Bool) (mh : BitVec 64) (e : AlgEntry) : Prop :=
  mhFormat mh = 0 ∧ s.localityOk (mhLocality mh) = true ∧ (pi = true → mhState mh = 0 ∧ mhAdditional mh = 0) ∧
    supportedHeader s.cfg mh = true ∧ algEntry s.cfg mh = some e ∧
    (s.release n).crfUsed + crCost s.cfg mh ≤ s.cfg.crfCapacity

/-- No byte of an access faults (60_exceptions.md R533). -/
def State.Accessible (s : State) (store : Bool) (a n : Nat) : Prop := s.firstFault store a n = none

/-- The address `a` is not among `n` bytes from `ea` on (20_memory.md R91). -/
def State.Outside (s : State) (ea n a : Nat) : Prop := ∀ i, i < n → a ≠ (ea + i) % 2 ^ s.cfg.xlen

end Sys2Proof.Machine
end

