-- ==== Sys2Proof/Certificates/Slice0/Obligations.lean ====
section
/-! DEFINITION. The statements for the provers. A completed instruction is written out as a record update, which says
what it leaves alone. That it clears `acestart` and writes `aceerror` is decision D13 and D14 of the spec. -/
open Sys2Proof Sys2Proof.Machine

/-! ### Encoding -/

/-- Decoding the word of a well-formed instruction gives the instruction back, with every operand at every value;
`ace.avail` comes back as Form B of `ace.size`, whose word it is (30_encoding.md R140 to R151, 41_cr_management.md
R218). -/
def Obligations.DecodeOfEncode : Prop :=
  ∀ (p : EncParams) (i : Instr), p.wellFormed = true → i.wellFormed = true → decode p (encode p i) = .ace i.canon

/-- A word that decodes to an ACE instruction is the word of that instruction, so no two words decode alike and every
bit a figure fixes is checked (30_encoding.md R140 to R151, R156). -/
def Obligations.EncodeOfDecode : Prop :=
  ∀ (p : EncParams) (w : InstrWord) (i : Instr), p.wellFormed = true → decode p w = .ace i →
    encode p i = w ∧ i.wellFormed = true

/-- A few words written out from the figures (30_encoding.md R140 to R151) decode to what they stand for. -/
def Obligations.WordsDecode : Prop :=
  decode EncParams.t0 0xff85530b = .ace (.provX 6 0xff8 10) ∧
  decode EncParams.t0 0x02659427 = .ace (.exportX 40 11 6) ∧
  decode EncParams.t0 0xfec5ef8b = .ace (.input 0xfff 12 11) ∧
  decode EncParams.t0 0x0105c6a7 = .ace (.output 16 13 11) ∧
  decode EncParams.t0 0x0011815b = .ace (.execAK 2 3 1) ∧
  decode EncParams.t0 0x18e021db = .ace (.stateB 3 12 14) ∧
  decode EncParams.t0 0x46c0035b = .ace (.restrictX 6 12) ∧
  decode EncParams.t0 0x8a0380db = .ace (.cloneKX 1 7) ∧
  decode EncParams.t0 0x220702db = .ace (.sizeInternal 5 14) ∧
  decode EncParams.t0 0x300180db = .reservedAce

/-- `ace.clear` and `ace.reset` share `opcode` `0x5b`; with `funct3` 4 the CR is named directly, with 5 through a
general register, and `X0` there makes it `ace.reset` (30_encoding.md R141); a one in the other fields makes it no
instruction (R156), which is decision D6 of the spec. -/
def Obligations.ClearAndResetDecode : Prop :=
  ∀ (p : EncParams) (f7 : BitVec 7) (rs2 rs1 rd : Reg),
    decode p (asmR f7 rs2 rs1 4 rd 0x5b) =
      (if f7 = 0 ∧ rs2 = 0 ∧ rs1 = 0 then .ace (.clearK rd) else .reservedAce) ∧
    decode p (asmR f7 rs2 rs1 5 rd 0x5b) =
      (if f7 = 0 ∧ rs2 = 0 ∧ rs1 = 0 then if rd = 0 then .ace .aceReset else .ace (.clearX rd) else .reservedAce)

/-! ### Steps -/

/-- One step applies the environment's next events and then runs the instruction the four bytes at `pc` decode to; it
adds nothing to `exec` (70_reset_and_hazards.md R595). That the events to come are a queue in the state, and that an
empty queue means that nothing happens, is the model's choice, log 8. -/
def Obligations.StepRunsDecoded : Prop :=
  ∀ (s u : State) (i : Instr), u = s.applyEvents → u.trap = none → u.pc.toNat % 4 = 0 →
    decodeBytes u.cfg.enc (u.readBytes u.pc.toNat 4) = .ace i → step s = exec i u ∧ (s.events = [] → u = s)

/-- A word under an ACE opcode that no figure assigns raises an illegal-instruction exception with the word as trap
value and changes nothing else (30_encoding.md R156, 60_exceptions.md R531 case 11, R532, R540). -/
def Obligations.StepReservedWordTraps : Prop :=
  ∀ s : State, s.events = [] → s.trap = none → s.pc.toNat % 4 = 0 → s.fetched = .reservedAce →
    step s = .next { s with trap := some ⟨.illegalInstruction, s.pc, BitVec.ofNat 64 (leNat s.fetchBytes)⟩ }

/-- The return from the host's handler: the pending exception is gone and execution goes on at the address the handler
returns to, in the state the exception left (60_exceptions.md R541). That the return is an event and a pending
exception stops the machine is the model's choice, log 7. -/
def Obligations.HandlerReturns : Prop :=
  ∀ (s : State) (t : Trap) (a : Word) (rest : List (List Event)), s.events = [.hostReturn a] :: rest →
    s.trap = some t → step s = runNext { s with trap := none, pc := truncX s.cfg a, events := rest } ∧
      step { s with events := [] } = .refused (.hostTrap t)

/-! ### Reset -/

/-- The ACE state after reset. Only `acesequence` is the source's, the other values are decision D11 of the spec
(10_state.md R70, log 4). -/
def Obligations.ResetValues : Prop :=
  (∀ n : Fin 32, State.reset.getCR n = .unconfigured) ∧ State.reset.crfUsed = 0 ∧ State.reset.iobuf = [] ∧
  State.reset.aceiobuflen = 0 ∧ State.reset.aceiobuftop = 0 ∧ State.reset.aceerror = 0 ∧ State.reset.acestart = 0 ∧
  State.reset.acesequence = 0 ∧ State.reset.aceactivecr = 32 ∧ State.reset.acehtrapmask = 0 ∧
  State.reset.acehtrapvector = 0 ∧ State.reset.mode = .machine ∧ State.reset.virt = false

/-- The state after reset has every invariant. Its configuration is the model's choice, log 5. -/
def Obligations.ResetKeepsInvariants : Prop := State.reset.Inv

/-! ### Invariants -/

/-- Every step keeps all invariants: the parameters, the canonical form of memory, the widths, CRs beyond `NUM_CR`
unconfigured, a legal `aceactivecr`, the shape of the buffer, the CR file's capacity, no CR in mid-export or
incomplete, additional data as long as the header says, and the two secrets that stay populated (10_state.md R30, R31,
R37, R39, R40, R49, R52, R59, R61, R64). -/
def Obligations.StepKeepsInvariants : Prop :=
  ∀ s t : State, s.Inv → step s = .next t → t.Inv

/-- Every step keeps the canonical form of memory, whatever else holds. The form is the model's own representation of
memory, log 2. -/
def Obligations.StepKeepsMemory : Prop :=
  ∀ s t : State, s.MemInv → step s = .next t → t.MemInv

/-! ### Frames of all instructions -/

/-- No ACE instruction changes a parameter, the mode, a sealing key, a Locality Secret, a System Key, the clock, the
bound CR, the horizontal trap CSRs, the vector configuration or the length and bound of the buffer, but for
`ace.reset` and the buffer (60_exceptions.md R550, R556). -/
def Obligations.HostStateKept : Prop :=
  ∀ (i : Instr) (s t : State), exec i s = .next t →
    t.cfg = s.cfg ∧ t.mode = s.mode ∧ t.hEnabled = s.hEnabled ∧ t.virt = s.virt ∧ t.vl = s.vl ∧ t.sew = s.sew ∧
    t.csk = s.csk ∧ t.lst = s.lst ∧ t.skt = s.skt ∧ t.nowHours = s.nowHours ∧ t.events = s.events ∧
    t.aceactivecr = s.aceactivecr ∧ t.acehtrapmask = s.acehtrapmask ∧ t.acehtrapvector = s.acehtrapvector ∧
    (i ≠ .aceReset → i ≠ .clearX 0 → t.aceiobuflen = s.aceiobuflen ∧ t.aceiobuftop = s.aceiobuftop)

/-- Only `ace.error`, `ace.size` and `ace.avail` write a general register, and only the one they name; `X0` stays as
it is (41_cr_management.md R219, 10_state.md R30). Only Forms A and C of `ace.exec` write vector registers, and only
those of the group they name (42_exec_state_io.md R250, R252, R253, R269); that a group has as many registers as its
bits fill is the model's choice, log 10. -/
def Obligations.RegistersKept : Prop :=
  ∀ (i : Instr) (s t : State), exec i s = .next t →
    (∀ r : Reg, i.destReg ≠ some r ∨ r = 0 → t.readX r = s.readX r) ∧
    ∀ j : Fin 32, (∀ vd, i.destVec = some vd → j.val < vd.toNat ∨ vd.toNat + s.vecRegs ≤ j.val) →
      t.v[j.val] = s.v[j.val]

/-- Memory changes only in the bytes of the sealed context that `ace.export` stores at its effective address and the
bytes `ace.output` stores at its own (41_cr_management.md R205, 42_exec_state_io.md R265). -/
def Obligations.MemoryKept : Prop :=
  ∀ (i : Instr) (s t : State) (a : Nat), exec i s = .next t →
    match i with
    | .exportK off xd ks =>
      (∀ (n : Fin 32) (cc : Context) (e : AlgEntry), s.Names false ks n → s.getCR n = .configured cc →
        algEntry s.cfg cc.mh = some e → s.Outside (s.effAddr xd off).toNat (s.sealContext e.algDef cc).length a) →
      Memory.read t.mem a = Memory.read s.mem a
    | .exportX off xd xs =>
      (∀ (n : Fin 32) (cc : Context) (e : AlgEntry), s.Names true xs n → s.getCR n = .configured cc →
        algEntry s.cfg cc.mh = some e → s.Outside (s.effAddr xd off).toNat (s.sealContext e.algDef cc).length a) →
      Memory.read t.mem a = Memory.read s.mem a
    | .output off xd xl =>
      s.Outside (s.effAddr xd off).toNat (s.readX xl).toNat a → Memory.read t.mem a = Memory.read s.mem a
    | _ => Memory.read t.mem a = Memory.read s.mem a

/-- A CR changes only by an instruction that names it, as its operand or as the destination of `ace.clone`, by
`ace.reset`, and by a transfer that is out of order while the CR is bound (41_cr_management.md R190, R200, R212,
42_exec_state_io.md R263). -/
def Obligations.OtherCRsKept : Prop :=
  ∀ (i : Instr) (s t : State) (m : Fin 32), exec i s = .next t → i ≠ .aceReset → i ≠ .clearX 0 →
    (∀ ind field, i.crOperand = some (ind, field) → ¬ s.Names ind field m) →
    (∀ ind field, i.cloneTarget = some (ind, field) → ¬ s.Names ind field m) →
    (i.sequenced = true → i.crOperand = none → s.aceactivecr.toNat ≠ m.val) → t.getCR m = s.getCR m

/-- Only `ace.exec`, `ace.state`, `ace.input` and `ace.output` change `acesequence` or draw random numbers, and only
they and `ace.reset` change the buffer (42_exec_state_io.md R262, 41_cr_management.md R200). -/
def Obligations.SequenceKept : Prop :=
  ∀ (i : Instr) (s t : State), exec i s = .next t → i.sequenced = false →
    t.acesequence = s.acesequence ∧ t.rngPos = s.rngPos ∧ t.freeTick = s.freeTick ∧
      (i ≠ .aceReset → i ≠ .clearX 0 → t.iobuf = s.iobuf)

/-- An instruction that ends in an exception reports its own `pc`, does not advance it, and changes no general or
vector register, no byte of memory or of the buffer, and no CSR but `aceerror`, which takes 2 or stays
(60_exceptions.md R532, R533, R540). -/
def Obligations.ExceptionKeepsState : Prop :=
  ∀ (i : Instr) (s t : State) (e : Trap), s.trap = none → exec i s = .next t → t.trap = some e →
    e.pc = s.pc ∧ t = { s with cr := t.cr, aceerror := t.aceerror, trap := some e } ∧
      (t.aceerror = s.aceerror ∨ (t.aceerror = 2 ∧ e.cause = .illegalInstruction))

/-- An instruction that completes leaves `acestart` 0 and takes `pc` to the next word, but for `ace.error` and a
transfer of no bytes, which keep `acestart` (42_exec_state_io.md R268). -/
def Obligations.CompletionClearsStart : Prop :=
  ∀ (i : Instr) (s t : State), s.trap = none → exec i s = .next t → t.trap = none →
    t.pc = addX s.cfg s.pc 4 ∧
      (t.acestart = 0 ∨ (t.acestart = s.acestart ∧
        match i with
        | .aceError _ => True
        | .input _ _ xl => s.readX xl = 0
        | .output _ _ xl => s.readX xl = 0
        | _ => False))

/-- No instruction but those that replace the whole context relaxes what a header says: the algorithm, the key type,
the format and every _Locality_ group already set stay, the usage restrictions only grow, an expiration date once set
stays, and the side-channel protection does not fall (41_cr_management.md R220, 10_state.md R51, R53). -/
def Obligations.PoliciesOnlyTighten : Prop :=
  ∀ (i : Instr) (s t : State) (n : Fin 32) (cc : Context), exec i s = .next t → i.replaces = false →
    s.getCR n = .configured cc →
    ∃ cc', t.getCR n = .configured cc' ∧ mhFormat cc'.mh = mhFormat cc.mh ∧ mhAlgorithm cc'.mh = mhAlgorithm cc.mh ∧
      mhKeyType cc'.mh = mhKeyType cc.mh ∧ mhUsage cc.mh &&& ~~~mhUsage cc'.mh = 0 ∧
      mhPolicy cc'.mh &&& ~~~mhPolicy cc.mh = 0 ∧
      (mhProtection cc.mh).toNat ≤ (mhProtection cc'.mh).toNat ∧
      (mhExpiration cc.mh ≠ 0 → mhExpiration cc'.mh = mhExpiration cc.mh) ∧
      ((mhLocality cc.mh).extractLsb' 0 3 ≠ 0 →
        (mhLocality cc'.mh).extractLsb' 0 3 = (mhLocality cc.mh).extractLsb' 0 3) ∧
      ((mhLocality cc.mh).getLsbD 3 = true → (mhLocality cc'.mh).getLsbD 3 = true) ∧
      ((mhLocality cc.mh).getLsbD 4 = true → (mhLocality cc'.mh).getLsbD 4 = true) ∧
      ((mhLocality cc.mh).extractLsb' 5 2 ≠ 0 →
        (mhLocality cc'.mh).extractLsb' 5 2 = (mhLocality cc.mh).extractLsb' 5 2)

/-! ### What all instructions on a CR check -/

/-- A single-CR instruction that names its CR through `X0` raises an illegal-instruction exception and changes
nothing; with an index above 31 or not below `NUM_CR` it also sets `aceerror` to 2. `ace.clone` does so for its source,
and for its destination where the source is named well (41_cr_management.md R190, R212). The treatment of an index
below 32 and of the error code is decision D15 of the spec. -/
def Obligations.BadIndexTraps : Prop :=
  ∀ (i : Instr) (s : State) (ind : Bool) (field : Reg),
    (i.crOperand = some (ind, field) ∨ i.cloneSource = some (ind, field) ∨
      (i.cloneTarget = some (ind, field) ∧
        ∃ sInd src n, i.cloneSource = some (sInd, src) ∧ s.Names sInd src n)) →
    i.wellFormed = true → i.present s.cfg = true →
    (ind = true ∧ field = 0 → exec i s =
      .next { s with trap := some ⟨.illegalInstruction, s.pc, (encode s.cfg.enc i).setWidth 64⟩ }) ∧
    (ind = true ∧ field ≠ 0 ∧ (31 < (s.readX field).toNat ∨ s.cfg.numCR ≤ (s.readX field).toNat) →
      exec i s = .next { s with
        aceerror := 2, trap := some ⟨.illegalInstruction, s.pc, (encode s.cfg.enc i).setWidth 64⟩ }) ∧
    (ind = false ∧ s.cfg.numCR ≤ field.toNat →
      exec i s = .next { s with
        aceerror := 2, trap := some ⟨.illegalInstruction, s.pc, (encode s.cfg.enc i).setWidth 64⟩ })

/-- While a CR is bound, a single-CR instruction that names another one raises an illegal-instruction exception and
changes nothing, and so does `ace.clone` from another one (41_cr_management.md R191). -/
def Obligations.UnboundCRTraps : Prop :=
  ∀ (i : Instr) (s : State) (ind : Bool) (field : Reg) (n : Fin 32),
    i.crOperand = some (ind, field) ∨ i.cloneSource = some (ind, field) → i.wellFormed = true →
    i.present s.cfg = true → s.Names ind field n →
    (∀ dInd dst, i.cloneTarget = some (dInd, dst) → ∃ d, s.Names dInd dst d) → s.aceactivecr ≠ 32 →
    s.aceactivecr.toNat ≠ n.val →
    exec i s = .next { s with trap := some ⟨.illegalInstruction, s.pc, (encode s.cfg.enc i).setWidth 64⟩ }

/-- An instruction on a CR whose status it checks and finds wrong ends with the error of the highest priority and
changes nothing else: invalid and not expired 4, unconfigured or incomplete 2, expired 5, forbidden to the mode 9.
`ace.exec`, `ace.restrict` and the transfers of a bound CR make all checks, `ace.state` to _initial_ all but the first,
the source of `ace.clone` the first two, and `ace.export` only the second (41_cr_management.md R192, R205, R212,
42_exec_state_io.md R264, R265, 60_exceptions.md R537). -/
def Obligations.StatusErrors : Prop :=
  ∀ (i : Instr) (s : State) (n : Fin 32) (want : Want) (code : BitVec 4), i.present s.cfg = true → s.Unbound n →
    (match i with
      | .execAK _ k _ | .execBK k _ | .execCK _ k | .execDK k => s.Names false k n ∧ want = ⟨true, true, true⟩
      | .execAX _ k _ | .execBX k _ | .execCX _ k | .execDX k => s.Names true k n ∧ want = ⟨true, true, true⟩
      | .stateA k imm | .stateB k imm _ | .stateC k imm _ =>
        s.Names false k n ∧ want = ⟨decide (imm ≠ 0), true, true⟩
      | .restrictK k xs =>
        s.Names false k n ∧ (s.cfg.xlen64 = true ∨ xs.toNat % 2 = 0) ∧ want = ⟨true, true, true⟩
      | .restrictX k xs =>
        s.Names true k n ∧ (s.cfg.xlen64 = true ∨ xs.toNat % 2 = 0) ∧ want = ⟨true, true, true⟩
      | .exportK _ _ k => s.Names false k n ∧ want = ⟨false, false, false⟩
      | .exportX _ _ k => s.Names true k n ∧ want = ⟨false, false, false⟩
      | .cloneKK d k => s.Names false k n ∧ (∃ m, s.Names false d m) ∧ want = ⟨true, false, false⟩
      | .cloneXK d k => s.Names false k n ∧ (∃ m, s.Names true d m) ∧ want = ⟨true, false, false⟩
      | .cloneKX d k => s.Names true k n ∧ (∃ m, s.Names false d m) ∧ want = ⟨true, false, false⟩
      | .cloneXX d k => s.Names true k n ∧ (∃ m, s.Names true d m) ∧ want = ⟨true, false, false⟩
      | .input _ _ xl | .output _ _ xl =>
        s.aceactivecr.toNat = n.val ∧ n.val < s.cfg.numCR ∧ s.readX xl ≠ 0 ∧ want = ⟨true, true, true⟩
      | _ => False) →
    (match s.getCR n with
      | .unconfigured => code = 2
      | .configured cc =>
        if want.inv = true ∧ cc.incomplete = false ∧ mhState cc.mh = 14 ∧ s.expired cc = false then code = 4
        else if cc.incomplete then code = 2
        else if want.exp = true ∧ s.expired cc = true then code = 5
        else want.priv = true ∧ s.usageAllowed (mhUsage cc.mh) = false ∧ code = 9) →
    exec i s = .next { s with aceerror := code, acestart := 0, pc := addX s.cfg s.pc 4 }

/-- The four instructions on a PI or an SCC raise a misaligned exception on an address that is no multiple of 8, before
they change anything (20_memory.md R93). -/
def Obligations.MisalignedTraps : Prop :=
  ∀ (s : State) (ind : Bool) (field : Reg) (n : Fin 32) (off : Imm12) (base : Reg), s.Names ind field n →
    s.Unbound n → (s.effAddr base off).toNat % 8 ≠ 0 →
    exec (if ind then .provX field off base else .provK field off base) s =
      .next { s with trap := some ⟨.loadMisaligned, s.pc, s.effAddr base off⟩ } ∧
    exec (if ind then .importX field off base else .importK field off base) s =
      .next { s with trap := some ⟨.loadMisaligned, s.pc, s.effAddr base off⟩ } ∧
    (s.cfg.hasSystemImport = true →
      exec (if ind then .importSX field off base else .importSK field off base) s =
        .next { s with trap := some ⟨.loadMisaligned, s.pc, s.effAddr base off⟩ }) ∧
    (∀ cc, s.getCR n = .configured cc → cc.incomplete = false →
      exec (if ind then .exportX off base field else .exportK off base field) s =
        .next { s with trap := some ⟨.storeMisaligned, s.pc, s.effAddr base off⟩ })

/-! ### CR management -/

/-- `ace.clear` makes the CR it names unconfigured (41_cr_management.md R199). -/
def Obligations.ClearCompletes : Prop :=
  ∀ (s : State) (ind : Bool) (field : Reg) (n : Fin 32), s.Names ind field n → s.Unbound n →
    exec (if ind then .clearX field else .clearK field) s =
      .next { s with
        cr := s.cr.set n.val .unconfigured n.isLt, aceerror := 0, acestart := 0, pc := addX s.cfg s.pc 4 }

/-- `ace.reset`, and the word of `ace.clear K(X0)`, makes every CR and the buffer unconfigured, whatever is bound
(41_cr_management.md R200). -/
def Obligations.ResetCompletes : Prop :=
  ∀ (s : State) (i : Instr), i = .aceReset ∨ i = .clearX 0 →
    exec i s =
      .next { s with
        cr := Vector.replicate 32 .unconfigured, iobuf := [], aceiobuflen := 0, aceiobuftop := 0, aceerror := 0,
        acestart := 0, pc := addX s.cfg s.pc 4 }

/-- `ace.prov` makes the context its algorithm builds from the Provisioning Input (41_cr_management.md R197, R198). -/
def Obligations.ProvisionCompletes : Prop :=
  ∀ (s : State) (ind : Bool) (field : Reg) (n : Fin 32) (off : Imm12) (base : Reg) (ea : Nat) (mh : BitVec 64)
    (e : AlgEntry) (cc : Context), s.Names ind field n → s.Unbound n → ea = (s.effAddr base off).toNat →
    ea % 8 = 0 → s.Accessible false ea 8 → mh = BitVec.ofNat 64 (leNat (s.readBytes ea 8)) →
    s.Accepts n true mh e → s.Accessible false (ea + 8) (piContentSize e.algDef (mhKeyType mh)) →
    s.provisionAlg e.algDef mh (s.readBytes (ea + 8) (piContentSize e.algDef (mhKeyType mh))) = some cc →
    exec (if ind then .provX field off base else .provK field off base) s =
      .next { s with
        cr := s.cr.set n.val (.configured cc) n.isLt, aceerror := 0, acestart := 0, pc := addX s.cfg s.pc 4 }

/-- After `ace.prov` of an ECB context with its own key the Internal State is the key of the Provisioning Input, and the
header is the one read (41_cr_management.md R197, R198, 44_alg_block_modes.md R326). -/
def Obligations.ProvisionTakesEcbKey : Prop :=
  ∀ (s : State) (ind : Bool) (field : Reg) (n : Fin 32) (off : Imm12) (base : Reg) (ea : Nat) (mh : BitVec 64)
    (e : AlgEntry) (c : Cipher), s.Names ind field n → s.Unbound n → ea = (s.effAddr base off).toNat →
    ea % 8 = 0 → s.Accessible false ea 8 → mh = BitVec.ofNat 64 (leNat (s.readBytes ea 8)) →
    s.Accepts n true mh e → e.algDef = .ecb c → mhKeyType mh = false →
    s.Accessible false (ea + 8) (piContentSize e.algDef false) →
    ∃ t, exec (if ind then .provX field off base else .provK field off base) s = .next t ∧
      t.getCR n = .configured
        { mh := mh, keyIndex := 0, ist := .ecb (leNat (s.readBytes (ea + 8) (c.keyBits / 8))), ad := [],
          exporting := false, savedSN := 0, incomplete := false } ∧
      t = { s with cr := t.cr, aceerror := 0, acestart := 0, pc := addX s.cfg s.pc 4 } ∧
      ∀ m, m ≠ n → t.getCR m = s.getCR m

/-- `ace.prov` of a header that is invalid, not supported or too big ends with 8, 7 or 6 in this order of priority, and
of a System Key index without entry in the System Keys Table with 8; each leaves the CR unconfigured
(41_cr_management.md R193, R196, R197, R198, 60_exceptions.md R537). -/
def Obligations.ProvisionErrors : Prop :=
  ∀ (s : State) (ind : Bool) (field : Reg) (n : Fin 32) (off : Imm12) (base : Reg) (ea : Nat) (mh : BitVec 64)
    (code : BitVec 4), s.Names ind field n → s.Unbound n → ea = (s.effAddr base off).toNat → ea % 8 = 0 →
    s.Accessible false ea 8 → mh = BitVec.ofNat 64 (leNat (s.readBytes ea 8)) →
    (if mhFormat mh = 1 ∨ s.localityOk (mhLocality mh) = false ∨ mhState mh ≠ 0 ∨ mhAdditional mh ≠ 0 then code = 8
      else if supportedHeader s.cfg mh = false then code = 7
      else if s.cfg.crfCapacity < (s.release n).crfUsed + crCost s.cfg mh then code = 6
      else ∃ e, algEntry s.cfg mh = some e ∧ keyWidths e.algDef ≠ [] ∧ mhKeyType mh = true ∧
        s.Accessible false (ea + 8) (piContentSize e.algDef true) ∧
        (∀ m, (BitVec.ofNat 64 (leNat (s.readBytes (ea + 8) 8)), m) ∉ s.skt) ∧ code = 8) →
    exec (if ind then .provX field off base else .provK field off base) s =
      .next { s with
        cr := s.cr.set n.val .unconfigured n.isLt, aceerror := code, acestart := 0, pc := addX s.cfg s.pc 4 }

/-- `ace.export` stores the sealed context at its effective address and nothing else, in whatever state the CR is
(41_cr_management.md R205, 43_sealing.md R296). -/
def Obligations.ExportCompletes : Prop :=
  ∀ (s : State) (ind : Bool) (field : Reg) (n : Fin 32) (off : Imm12) (base : Reg) (cc : Context) (e : AlgEntry)
    (ea : Nat) (scc : List Byte), s.MemInv → s.Names ind field n → s.Unbound n → s.getCR n = .configured cc →
    cc.incomplete = false → algEntry s.cfg cc.mh = some e → ea = (s.effAddr base off).toNat → ea % 8 = 0 →
    scc = s.sealContext e.algDef cc → scc.length ≤ 2 ^ s.cfg.xlen → s.Accessible true ea scc.length →
    ∃ t, exec (if ind then .exportX off base field else .exportK off base field) s = .next t ∧
      t.readBytes ea scc.length = scc ∧
      (∀ a, s.Outside ea scc.length a → Memory.read t.mem a = Memory.read s.mem a) ∧
      t = { s with
        mem := t.mem, cr := s.cr.set n.val (.configured { cc with exporting := false }) n.isLt, aceerror := 0,
        acestart := 0, pc := addX s.cfg s.pc 4 }

/-- `ace.import` unseals the context in memory and makes the CR hold it (41_cr_management.md R209, R210,
43_sealing.md R298). -/
def Obligations.ImportCompletes : Prop :=
  ∀ (s : State) (ind : Bool) (field : Reg) (n : Fin 32) (off : Imm12) (base : Reg) (ea : Nat) (mh : BitVec 64)
    (e : AlgEntry) (content : List Byte) (cc : Context), s.Names ind field n → s.Unbound n →
    ea = (s.effAddr base off).toNat → ea % 8 = 0 → s.Accessible false ea 8 →
    mh = BitVec.ofNat 64 (leNat (s.readBytes ea 8)) → s.Accepts n false mh e → s.Accessible false (ea + 8) 16 →
    s.Accessible false (ea + 24) (contentSize e.algDef mh) →
    s.unseal mh (leNat (s.readBytes (ea + 8) 16)) (s.readBytes (ea + 24) (contentSize e.algDef mh)) = some content →
    s.deserialize e.algDef mh content = some cc →
    exec (if ind then .importX field off base else .importK field off base) s =
      .next { s with
        cr := s.cr.set n.val (.configured cc) n.isLt, aceerror := 0, acestart := 0, pc := addX s.cfg s.pc 4 }

/-- `ace.import` ends with 8, 7 or 6 for a header that is invalid, not supported or too big, in this order, with 1 for a
context that does not authenticate, and with 8 for a content its algorithm does not accept; each leaves the CR
unconfigured (41_cr_management.md R196, R209, R210, 60_exceptions.md R534, R537). Which contents an algorithm does not
accept is the model's choice where the spec does not say it, logs 31, 32 and 42. -/
def Obligations.ImportErrors : Prop :=
  ∀ (s : State) (ind : Bool) (field : Reg) (n : Fin 32) (off : Imm12) (base : Reg) (ea : Nat) (mh : BitVec 64)
    (code : BitVec 4), s.Names ind field n → s.Unbound n → ea = (s.effAddr base off).toNat → ea % 8 = 0 →
    s.Accessible false ea 8 → mh = BitVec.ofNat 64 (leNat (s.readBytes ea 8)) →
    (if mhFormat mh = 1 ∨ s.localityOk (mhLocality mh) = false then code = 8
      else if supportedHeader s.cfg mh = false then code = 7
      else if s.cfg.crfCapacity < (s.release n).crfUsed + crCost s.cfg mh then code = 6
      else ∃ e, algEntry s.cfg mh = some e ∧ s.Accessible false (ea + 8) 16 ∧
        s.Accessible false (ea + 24) (contentSize e.algDef mh) ∧
        match s.unseal mh (leNat (s.readBytes (ea + 8) 16)) (s.readBytes (ea + 24) (contentSize e.algDef mh)) with
        | none => code = 1
        | some content => s.deserialize e.algDef mh content = none ∧ code = 8) →
    exec (if ind then .importX field off base else .importK field off base) s =
      .next { s with
        cr := s.cr.set n.val .unconfigured n.isLt, aceerror := code, acestart := 0, pc := addX s.cfg s.pc 4 }

/-- Decrypting what was encrypted under the tag of a header and a content gives the content back, and it authenticates
(43_sealing.md R295 to R299). -/
def Obligations.UnsealOfSeal : Prop :=
  ∀ (s : State) (mh : BitVec 64) (content : List Byte),
    s.unseal mh (s.sealTag mh content) (s.sealCrypt (s.sealTag mh content) content) = some content

/-- An ECB context with its own key that is exported and then imported into any CR is the same context again
(41_cr_management.md R210, 43_sealing.md R299). -/
def Obligations.ImportOfExport : Prop :=
  ∀ (s : State) (n m : Fin 32) (ks kd : Reg) (off : Imm12) (base : Reg) (cc : Context) (e : AlgEntry) (c : Cipher)
    (key ea : Nat), s.MemInv → s.aceactivecr = 32 → s.Names false ks n → s.Names false kd m →
    s.getCR n = .configured cc → cc.incomplete = false → s.Accepts m false cc.mh e → e.algDef = .ecb c →
    mhKeyType cc.mh = false → cc.ist = .ecb key → key < 2 ^ c.keyBits → c.keyBits % 8 = 0 → c.keyBits ≤ 256 →
    cc.ad = [] → mhAdditional cc.mh = 0 → ea = (s.effAddr base off).toNat → ea % 8 = 0 →
    s.Accessible true ea (24 + contentSize e.algDef cc.mh) →
    s.Accessible false ea (24 + contentSize e.algDef cc.mh) →
    ∃ t u cc', exec (.exportK off base ks) s = .next t ∧ exec (.importK kd off base) t = .next u ∧
      u.getCR m = .configured cc' ∧ cc'.mh = cc.mh ∧ cc'.ist = cc.ist ∧ cc'.ad = cc.ad ∧ u.aceerror = 0

/-- `ace.import.S` with a system-defined format puts what the format answers into the CR, or ends with its error; the
context is checked as in `ace.import` and its key type is 0 (41_cr_management.md R211). The format is a free value:
the answer is the model's choice to have none, log 16. -/
def Obligations.SystemImportCompletes : Prop :=
  ∀ (s : State) (ind : Bool) (field : Reg) (n : Fin 32) (off : Imm12) (base : Reg) (ea : Word),
    s.cfg.hasSystemImport = true → s.Names ind field n → s.Unbound n → ea = s.effAddr base off → ea.toNat % 8 = 0 →
    s.Accessible false ea.toNat (Config.systemImport s.mem ea).1 →
    ∃ (c : CR) (code : BitVec 4),
      exec (if ind then .importSX field off base else .importSK field off base) s =
        .next { s with
          cr := s.cr.set n.val c n.isLt, aceerror := code, acestart := 0, pc := addX s.cfg s.pc 4 } ∧
      match (Config.systemImport s.mem ea).2 with
      | .error x => c = .unconfigured ∧ code = BitVec.ofNat 4 (x.val + 1)
      | .context h content =>
        if mhFormat h = 1 ∨ s.localityOk (mhLocality h) = false then c = .unconfigured ∧ code = 8
        else if supportedHeader s.cfg (setField h 16 (0 : BitVec 1)) = false then c = .unconfigured ∧ code = 7
        else if s.cfg.crfCapacity < (s.release n).crfUsed + crCost s.cfg (setField h 16 (0 : BitVec 1)) then
          c = .unconfigured ∧ code = 6
        else
          match algEntry s.cfg (setField h 16 (0 : BitVec 1)) with
          | none => False
          | some e =>
            let size := contentSize e.algDef (setField h 16 (0 : BitVec 1))
            match s.deserialize e.algDef (setField h 16 (0 : BitVec 1)) (padBytes size (content.take size)) with
            | none => c = .unconfigured ∧ code = 8
            | some cc => c = .configured cc ∧ code = 0 ∧ mhKeyType cc.mh = false

/-- `ace.import.S` without a system-defined format, and a vector Form of `ace.exec` or `ace.state` without vector
registers, raise an illegal-instruction exception and change nothing (41_cr_management.md R211, 42_exec_state_io.md
R249, R255, 60_exceptions.md R531 cases 4 and 6). -/
def Obligations.AbsentInstructionTraps : Prop :=
  ∀ (s : State) (i : Instr),
    (match i with
      | .importSK _ _ _ | .importSX _ _ _ => s.cfg.hasSystemImport = false
      | .execAK _ _ _ | .execBK _ _ | .execCK _ _ | .execAX _ _ _ | .execBX _ _ | .execCX _ _ | .stateC _ _ _ =>
        s.cfg.hasV = false
      | _ => False) →
    exec i s = .next { s with trap := some ⟨.illegalInstruction, s.pc, (encode s.cfg.enc i).setWidth 64⟩ }

/-- `ace.clone` copies the source context; onto itself it changes nothing; a copy that does not fit leaves the
destination unconfigured with error 6 (41_cr_management.md R212). -/
def Obligations.CloneCompletes : Prop :=
  ∀ (s : State) (i : Instr) (dInd sInd : Bool) (dst src : Reg) (d n : Fin 32) (cc : Context),
    i = (match dInd, sInd with
      | false, false => .cloneKK dst src
      | true, false => .cloneXK dst src
      | false, true => .cloneKX dst src
      | true, true => .cloneXX dst src) →
    s.Names dInd dst d → s.Names sInd src n → s.Unbound n → s.getCR n = .configured cc → cc.incomplete = false →
    (mhState cc.mh = 14 → s.expired cc = true) →
    exec i s = .next
      (if n = d then { s with aceerror := 0, acestart := 0, pc := addX s.cfg s.pc 4 }
        else if s.cfg.crfCapacity < (s.release d).crfUsed + crCost s.cfg cc.mh then
          { s with cr := s.cr.set d.val .unconfigured d.isLt, aceerror := 6, acestart := 0, pc := addX s.cfg s.pc 4 }
        else
          { s with
            cr := s.cr.set d.val (.configured { cc with exporting := false, incomplete := false }) d.isLt,
            aceerror := 0, acestart := 0, pc := addX s.cfg s.pc 4 })

/-- `ace.restrict` on a CR it may use gives the CR the restricted header, or ends with error 8 for an operand that is
no restriction, or with 6 when the higher protection does not fit; a failing one changes nothing else. On a completed
CR, and on RV32 with an odd operand register, it raises an illegal-instruction exception and changes nothing
(41_cr_management.md R194, R220). That on RV32 register 0 stands for zeros and not for the pair `x[1]`, `x[0]` is
92_eei_decisions.md D31 against R220's own text, log 45. -/
def Obligations.RestrictCompletes : Prop :=
  ∀ (s : State) (i : Instr) (ind : Bool) (field src : Reg) (n : Fin 32),
    i = (if ind then .restrictX field src else .restrictK field src) → s.Names ind field n → s.Unbound n →
    (s.cfg.xlen64 = false → src.toNat % 2 = 1 →
      exec i s = .next { s with trap := some ⟨.illegalInstruction, s.pc, (encode s.cfg.enc i).setWidth 64⟩ }) ∧
    ∀ (cc : Context) (op : BitVec 64), s.Usable n cc →
      (if s.cfg.xlen64 then op = s.readX src
        else src.toNat % 2 = 0 ∧
          op = (if src = 0 then (0 : BitVec 64) else (s.readX (src + 1)) <<< 32 ||| s.readX src)) →
      exec i s =
        if mhState cc.mh = 15 then
          .next { s with trap := some ⟨.illegalInstruction, s.pc, (encode s.cfg.enc i).setWidth 64⟩ }
        else
          match s.restrictHeader cc.mh op with
          | none => .next { s with aceerror := 8, acestart := 0, pc := addX s.cfg s.pc 4 }
          | some mh =>
            if s.cfg.crfCapacity < s.crfUsed - crCost s.cfg cc.mh + crCost s.cfg mh then
              .next { s with aceerror := 6, acestart := 0, pc := addX s.cfg s.pc 4 }
            else
              .next { s with
                cr := s.cr.set n.val (.configured { cc with mh := mh, exporting := false }) n.isLt, aceerror := 0,
                acestart := 0, pc := addX s.cfg s.pc 4 }

/-- When `ace.restrict` accepts its operand, and each field of the header it then makes: fields that must be zero in
the operand stay; _AlgorithmPolicy_ may lose permission bits, not all of them, where the algorithm has such bits;
_SCProtection_ may not fall; each group of the _Locality_ is kept, taken over where it is unset, or repeated;
_UsagePolicy_ bits are added; an _ExpirationDate_ is taken over once (41_cr_management.md R220). -/
def Obligations.RestrictedHeader : Prop :=
  ∀ (s : State) (m op m' : BitVec 64), s.restrictHeader m op = some m' ↔
    (mhFormat op = 0 ∧ mhAlgorithm op = 0 ∧ mhKeyType op = false ∧ mhState op = 0 ∧ mhAdditional op = 0) ∧
    (mhFormat m' = mhFormat m ∧ mhAlgorithm m' = mhAlgorithm m ∧ mhKeyType m' = mhKeyType m ∧
      mhState m' = mhState m ∧ mhAdditional m' = mhAdditional m) ∧
    (mhPolicy m' = mhPolicy op ∧ mhPolicy op &&& ~~~mhPolicy m = 0 ∧
      (mhPolicy op = mhPolicy m ∨
        (mhPolicy op ≠ 0 ∧ ∃ e, algEntry s.cfg m = some e ∧ e.permBits = true))) ∧
    (mhProtection m' = mhProtection op ∧ (mhProtection m).toNat ≤ (mhProtection op).toNat ∧
      supported s.cfg (mhAlgorithm m) (mhPolicy op) (mhProtection op) (mhKeyType m) = true) ∧
    (Merged ((mhLocality m).extractLsb' 0 3) ((mhLocality op).extractLsb' 0 3) ((mhLocality m').extractLsb' 0 3) ∧
      Merged ((mhLocality m).extractLsb' 3 1) ((mhLocality op).extractLsb' 3 1) ((mhLocality m').extractLsb' 3 1) ∧
      Merged ((mhLocality m).extractLsb' 4 1) ((mhLocality op).extractLsb' 4 1) ((mhLocality m').extractLsb' 4 1) ∧
      Merged ((mhLocality m).extractLsb' 5 2) ((mhLocality op).extractLsb' 5 2) ((mhLocality m').extractLsb' 5 2) ∧
      (mhLocality op).getLsbD 7 = false ∧ (mhLocality m').getLsbD 7 = (mhLocality m).getLsbD 7 ∧
      s.localityOk (mhLocality m') = true) ∧
    mhUsage m' = mhUsage m ||| mhUsage op ∧
    ((mhExpiration op = 0 ∧ mhExpiration m' = mhExpiration m) ∨
      (mhExpiration op ≠ 0 ∧ mhExpiration m = 0 ∧ mhExpiration m' = mhExpiration op))

/-- Form A of `ace.size`: the size of the exported context, 0 for an unconfigured CR (41_cr_management.md R214). -/
def Obligations.SizeOfCRCompletes : Prop :=
  ∀ (s : State) (ind : Bool) (xd field : Reg) (n : Fin 32) (v : Nat), s.Names ind field n → s.Unbound n →
    (match s.getCR n with
      | .unconfigured => v = 0
      | .configured cc => ∀ e, algEntry s.cfg cc.mh = some e →
          v = 8 + 16 + sccContentSize e.algDef (mhKeyType cc.mh) + 8 * (mhAdditional cc.mh).toNat) →
    (∀ cc, s.getCR n = .configured cc → (algEntry s.cfg cc.mh).isSome = true) →
    exec (if ind then .sizeX xd field else .sizeK xd field) s =
      .next { s with
        x := (s.writeX xd (BitVec.ofNat 64 v)).x, aceerror := 0, acestart := 0, pc := addX s.cfg s.pc 4 }

/-- Form B of `ace.size` and `ace.avail`: the size for the header in the source register, 0 when its algorithm is not
supported (41_cr_management.md R215, R218). -/
def Obligations.SizeOfHeaderCompletes : Prop :=
  ∀ (s : State) (i : Instr) (xd xs : Reg) (v : Nat), i = .sizeHeader xd xs ∨ i = .avail xd xs →
    (if supportedHeader s.cfg (s.readX xs) then
      ∀ e, algEntry s.cfg (s.readX xs) = some e → v = 24 + contentSize e.algDef (s.readX xs)
      else v = 0) →
    exec i s =
      .next { s with
        x := (s.writeX xd (BitVec.ofNat 64 v)).x, aceerror := 0, acestart := 0, pc := addX s.cfg s.pc 4 }

/-- `ace.avail` is an alias to Form B of `ace.size`: the same word and the same effect. Its result is not zero exactly
when the combination in the source register is supported (41_cr_management.md R218), where the size of such a context
fits a general register. -/
def Obligations.AvailIsSizeFormB : Prop :=
  ∀ (p : EncParams) (s : State) (xd xs : Reg), exec (.avail xd xs) s = exec (.sizeHeader xd xs) s ∧
    encode p (.avail xd xs) = encode p (.sizeHeader xd xs) ∧
    (xd ≠ 0 → sccTotalSize s.cfg (s.readX xs) < 2 ^ s.cfg.xlen →
      ∃ t, exec (.avail xd xs) s = .next t ∧ (t.readX xd ≠ 0 ↔ supportedHeader s.cfg (s.readX xs) = true))

/-- Form C of `ace.size`: with only _StateNumber_ 15 or 14 set the whole or the free capacity; with only the fields that
decide the cost set, the cost, 0 when no policy makes them supported; anything else is error 8 with result 0
(41_cr_management.md R216). -/
def Obligations.SizeInternalCompletes : Prop :=
  ∀ (s : State) (xd xs : Reg) (mh : BitVec 64), s.readX xs = mh →
    exec (.sizeInternal xd xs) s =
      if mh = mhSetState 0 15 then
        .next { s with
          x := (s.writeX xd (BitVec.ofNat 64 s.cfg.crfCapacity)).x, aceerror := 0, acestart := 0,
          pc := addX s.cfg s.pc 4 }
      else if mh = mhSetState 0 14 then
        .next { s with
          x := (s.writeX xd (BitVec.ofNat 64 (s.cfg.crfCapacity - s.crfUsed))).x, aceerror := 0, acestart := 0,
          pc := addX s.cfg s.pc 4 }
      else if mhFormat mh = 0 ∧ mhPolicy mh = 0 ∧ mhState mh = 0 ∧ mhLocality mh = 0 ∧ mhUsage mh = 0 ∧
          mhAdditional mh = 0 ∧ mhExpiration mh = 0 then
        .next { s with
          x := (s.writeX xd (BitVec.ofNat 64
            (if ∃ ap, supported s.cfg (mhAlgorithm mh) ap (mhProtection mh) (mhKeyType mh) = true then
              crCost s.cfg mh else 0))).x,
          aceerror := 0, acestart := 0, pc := addX s.cfg s.pc 4 }
      else
        .next { s with x := (s.writeX xd 0).x, aceerror := 8, acestart := 0, pc := addX s.cfg s.pc 4 }

/-- Form D of `ace.size`: what a buffer of the length in the source register takes (41_cr_management.md R217). -/
def Obligations.SizeOfBufferCompletes : Prop :=
  ∀ (s : State) (xd xs : Reg),
    exec (.sizeIobuf xd xs) s =
      .next { s with
        x := (s.writeX xd (BitVec.ofNat 64 (iobufCost s.cfg (s.readX xs).toNat))).x, aceerror := 0, acestart := 0,
        pc := addX s.cfg s.pc 4 }

/-- `ace.error` writes the error code to its register, or nowhere for `X0`, and changes nothing else
(40_csr_access.md R173). -/
def Obligations.ErrorCompletes : Prop :=
  ∀ (s : State) (xd : Reg), ∃ t, exec (.aceError xd) s = .next t ∧
    (xd ≠ 0 → t.readX xd = s.aceerror.setWidth 64) ∧ (∀ r, r ≠ xd → t.readX r = s.readX r) ∧
    t = { s with x := t.x, pc := addX s.cfg s.pc 4 } ∧ (xd = 0 → t.x = s.x)

/-! ### `ace.input` and `ace.output` -/

/-- `ace.input` copies bytes of memory into the window of the buffer; while a CR is bound it is step 1 of a replacement
sequence (42_exec_state_io.md R262, R264, R266). -/
def Obligations.InputCompletes : Prop :=
  ∀ (s : State) (off : Imm12) (xs xl : Reg) (ea len start : Nat), ea = (s.effAddr xs off).toNat →
    len = (s.readX xl).toNat → len ≠ 0 → start = s.acestart.toNat →
    s.TransferAllowed (fun cc => s.acesequence = 0 ∧ inputExpected s.cfg s.env cc = true) → s.HasRoom len →
    s.Accessible false ea len →
    exec (.input off xs xl) s =
      .next { s with
        iobuf := s.iobuf.take start ++ s.readBytes ea len ++ s.iobuf.drop (start + len),
        acesequence := if s.aceactivecr = 32 then s.acesequence else 1, aceerror := 0, acestart := 0,
        pc := addX s.cfg s.pc 4 }

/-- `ace.output` copies the window of the buffer to memory and changes no other byte; while a CR is bound it is the
last step of a replacement sequence (42_exec_state_io.md R262, R265, R266). -/
def Obligations.OutputCompletes : Prop :=
  ∀ (s : State) (off : Imm12) (xd xl : Reg) (ea len start : Nat), s.MemInv → s.BufferInv →
    ea = (s.effAddr xd off).toNat → len = (s.readX xl).toNat → len ≠ 0 → start = s.acestart.toNat →
    s.TransferAllowed (fun _ => s.acesequence = 1 ∨ s.acesequence = 2) → s.HasRoom len → s.Accessible true ea len →
    ∃ t, exec (.output off xd xl) s = .next t ∧ t.readBytes ea len = (s.iobuf.drop start).take len ∧
      (∀ a, s.Outside ea len a → Memory.read t.mem a = Memory.read s.mem a) ∧
      t = { s with
        mem := t.mem, acesequence := if s.aceactivecr = 32 then s.acesequence else 0, aceerror := 0, acestart := 0,
        pc := addX s.cfg s.pc 4 }

/-- A transfer of no bytes only advances `pc` (42_exec_state_io.md R264, R265). That it skips every check is decision
D32 of the spec. -/
def Obligations.EmptyTransferIsNop : Prop :=
  ∀ (s : State) (i : Instr) (off : Imm12) (x xl : Reg), i = .input off x xl ∨ i = .output off x xl →
    s.readX xl = 0 → exec i s = .next { s with pc := addX s.cfg s.pc 4 }

/-- An access whose byte faults raises the exception of the first such byte and stores nothing. A transfer and
`ace.export` change nothing else; `ace.prov`, `ace.import` and `ace.import.S` have made their CR unconfigured by then
(60_exceptions.md R533, 41_cr_management.md R197, R205, R209, 42_exec_state_io.md R267). What `ace.import.S` reads is
the model's choice, log 16. -/
def Obligations.MemoryFaults : Prop :=
  (∀ (s : State) (off : Imm12) (x xl : Reg) (ea len addr : Nat) (c : Cause), ea = (s.effAddr x off).toNat →
    len = (s.readX xl).toNat → len ≠ 0 → s.HasRoom len →
    (s.TransferAllowed (fun cc => s.acesequence = 0 ∧ inputExpected s.cfg s.env cc = true) →
      s.firstFault false ea len = some (c, addr) →
      exec (.input off x xl) s = .next { s with trap := some ⟨c, s.pc, BitVec.ofNat 64 addr⟩ }) ∧
    (s.BufferInv → s.TransferAllowed (fun _ => s.acesequence = 1 ∨ s.acesequence = 2) →
      s.firstFault true ea len = some (c, addr) →
      exec (.output off x xl) s = .next { s with trap := some ⟨c, s.pc, BitVec.ofNat 64 addr⟩ })) ∧
  ∀ (s t : State) (ind : Bool) (field : Reg) (n : Fin 32) (off : Imm12) (base : Reg) (ea addr : Nat)
    (mh : BitVec 64) (e : AlgEntry) (c : Cause), s.Names ind field n → s.Unbound n →
    ea = (s.effAddr base off).toNat → ea % 8 = 0 →
    mh = BitVec.ofNat 64 (leNat (s.readBytes ea 8)) →
    t = { s with cr := s.cr.set n.val .unconfigured n.isLt, trap := some ⟨c, s.pc, BitVec.ofNat 64 addr⟩ } →
    (s.firstFault false ea 8 = some (c, addr) ∨
        (s.Accessible false ea 8 ∧ s.Accepts n true mh e ∧
          s.firstFault false (ea + 8) (piContentSize e.algDef (mhKeyType mh)) = some (c, addr)) →
      exec (if ind then .provX field off base else .provK field off base) s = .next t) ∧
    (s.firstFault false ea 8 = some (c, addr) ∨
        (s.Accessible false ea 8 ∧ s.Accepts n false mh e ∧
          s.firstFault false (ea + 8) (16 + contentSize e.algDef mh) = some (c, addr)) →
      exec (if ind then .importX field off base else .importK field off base) s = .next t) ∧
    (s.cfg.hasSystemImport = true →
      s.firstFault false ea (Config.systemImport s.mem (s.effAddr base off)).1 = some (c, addr) →
      exec (if ind then .importSX field off base else .importSK field off base) s = .next t) ∧
    (∀ cc, s.getCR n = .configured cc → cc.incomplete = false → algEntry s.cfg cc.mh = some e →
      s.firstFault true ea (s.sealContext e.algDef cc).length = some (c, addr) →
      exec (if ind then .exportX off base field else .exportK off base field) s =
        .next { s with trap := some ⟨c, s.pc, BitVec.ofNat 64 addr⟩ })

/-! ### `ace.exec` and `ace.state` -/

/-- An operand in a buffer that is not configured is error 3, and one with an empty window, or of a size the step or
the transfer does not take, error 8; nothing else changes (42_exec_state_io.md R243, R246, R247, R249, R255, R264,
R265). -/
def Obligations.WindowErrors : Prop :=
  ∀ (s : State) (i : Instr) (code : BitVec 4),
    ((∃ off x xl, s.readX xl ≠ 0 ∧
        ((i = .input off x xl ∧
            s.TransferAllowed (fun cc => s.acesequence = 0 ∧ inputExpected s.cfg s.env cc = true)) ∨
          (i = .output off x xl ∧ s.TransferAllowed (fun _ => s.acesequence = 1 ∨ s.acesequence = 2))) ∧
        if s.aceiobuflen = 0 then code = 3
        else code = 8 ∧ (s.aceiobuftop.toNat < s.acestart.toNat ∨
          s.aceiobuftop.toNat - s.acestart.toNat < (s.readX xl).toNat)) ∨
      (∃ f ind field vd vs n cc row, i = Form.execInstr f ind field vd vs ∧ s.Names ind field n ∧
        s.ExecReady n cc f row ∧ f ≠ .D ∧ s.cfg.hasV = true ∧ s.acesequence = 0 ∧
        s.WindowError .vectors row.size code) ∨
      (∃ f ind field n cc row q, i = Form.execInstr .D ind field 0 0 ∧ s.Names ind field n ∧
        s.ExecReady n cc f row ∧ s.StandsFor n f q ∧ s.WindowError .buffer row.size code) ∨
      (∃ n cc row o aux, s.StateReady i n cc row (some o) aux ∧ s.WindowError o row.size code)) →
    exec i s = .next { s with aceerror := code, acestart := 0, pc := addX s.cfg s.pc 4 }

/-- Forms A, B and C of `ace.exec` in a state that allows them: the algorithm's step runs on the source's elements from
`acestart` on, its output goes to the destination's, and the CR takes the new Internal State and _StateNumber_; a
failed verification reports its error and has the same effects (42_exec_state_io.md R246, R249, R250, R252, R269).
What a group holds past `VL*SEW`, that a group past `v31` completes, and the counter of the free values are the model's,
log 10. -/
def Obligations.ExecVectorCompletes : Prop :=
  ∀ (s : State) (f : Form) (ind : Bool) (field vd vs : Reg) (n : Fin 32) (cc : Context) (row : ExecRow)
    (inp : Nat) (r : Step) (code : BitVec 4), s.Names ind field n → s.ExecReady n cc f row → f ≠ .D →
    s.cfg.hasV = true → s.acesequence = 0 → s.WindowOk .vectors row.size →
    inp = (if f = .C then 0 else s.inputAt vs .vectors) → r = row.step inp (s.iolen .vectors) →
    r.outcome = .ok ∧ code = 0 ∨ r.outcome = .err code →
    exec (Form.execInstr f ind field vd vs) s =
      .next { s with
        cr := s.cr.set n.val (.configured (ccAfter s.cfg cc r)) n.isLt,
        v := if f = .B then s.v
          else (s.writeVec vd (splice (s.readVec vd) (s.acestart.toNat * s.sew) r.written r.out)).v,
        acesequence := 0, rngPos := s.rngPos + r.draws, freeTick := s.freeTick + 1, aceerror := code, acestart := 0,
        pc := addX s.cfg s.pc 4 }

/-- Form D of `ace.exec`: on its own where the state allows Form D, and in place of Forms A, B and C on the window of
the buffer of the bound CR, with the next `acesequence` of each (42_exec_state_io.md R247, R249, R253, R262). -/
def Obligations.ExecBufferCompletes : Prop :=
  ∀ (s : State) (ind : Bool) (field : Reg) (n : Fin 32) (cc : Context) (f : Form) (row : ExecRow) (q : BitVec 2)
    (top start inp iolen : Nat) (r : Step) (code : BitVec 4), s.Names ind field n → s.ExecReady n cc f row →
    top = s.aceiobuftop.toNat → start = s.acestart.toNat →
    (f = .D ∧ s.acesequence = 0 ∧ q = 0 ∧ row.size.valid 0 = true ∧ iolen = 0) ∨
      (s.StandsFor n f q ∧ s.BufferInv ∧ s.WindowOk .buffer row.size ∧ iolen = s.iolen .buffer) →
    inp = (if f = .A ∨ f = .B then s.inputAt 0 .buffer else 0) → r = row.step inp iolen →
    r.outcome = .ok ∧ code = 0 ∨ r.outcome = .err code →
    exec (Form.execInstr .D ind field 0 0) s =
      .next { s with
        cr := s.cr.set n.val (.configured (ccAfter s.cfg cc r)) n.isLt,
        iobuf := if f = .A ∨ f = .C then
            s.iobuf.take start ++
              natLE (top - start) (splice (leNat ((s.iobuf.drop start).take (top - start))) 0 r.written r.out) ++
              s.iobuf.drop top
          else s.iobuf,
        acesequence := q, rngPos := s.rngPos + r.draws, aceerror := code, acestart := 0,
        pc := addX s.cfg s.pc 4 }

/-- Form A of `ace.exec` on an ECB context in state _encrypt_ or _decrypt_: each block of the destination is the cipher
of the block of the source, and the context stays as it is (44_alg_block_modes.md R323, R328, 42_exec_state_io.md
R249, R250). -/
def Obligations.EcbProcessesBlocks : Prop :=
  ∀ (s : State) (ind : Bool) (field vd vs : Reg) (n : Fin 32) (cc : Context) (e : AlgEntry) (c : Cipher)
    (key blocks : Nat) (crypt : Nat → Nat), s.cfg.hasV = true → s.Names ind field n → s.Unbound n →
    s.Usable n cc → s.acesequence = 0 → s.acestart = 0 → algEntry s.cfg cc.mh = some e → e.algDef = .ecb c →
    cc.ist = .ecb key →
    (mhState cc.mh = 6 ∧ crypt = encBlk c key) ∨ (mhState cc.mh = 7 ∧ crypt = decBlk c key) →
    0 < c.blockBits → 0 < blocks → s.vl * s.sew = blocks * c.blockBits → 0 < s.cfg.vlen →
    vd.toNat + s.vecRegs ≤ 32 →
    ∃ t, exec (if ind then .execAX vd field vs else .execAK vd field vs) s = .next t ∧
      (∀ j, j < blocks → slice (t.readVec vd) (j * c.blockBits) c.blockBits =
        crypt (slice (s.readVec vs) (j * c.blockBits) c.blockBits) % 2 ^ c.blockBits) ∧
      t.getCR n = .configured { cc with exporting := false } ∧ t.aceerror = 0 ∧ t.pc = addX s.cfg s.pc 4 ∧
      t.mem = s.mem ∧ t.x = s.x ∧ t.iobuf = s.iobuf ∧ ∀ m, m ≠ n → t.getCR m = s.getCR m

/-- A step of `ace.exec`, in any Form and on either place of an operand, or an action of `ace.state`, that invalidates
the CR changes nothing else of it, writes no output, leaves `acesequence`, and reports the error it names
(42_exec_state_io.md R249, R255, R270). The discarded effects are decision D47 of the spec; that a vector operand past
`v31` takes part, and the counter of the free values, are the model's, log 10. -/
def Obligations.InvalidatingStep : Prop :=
  ∀ (s : State) (i : Instr) (n : Fin 32) (cc : Context) (r : Step) (tick : Nat) (code : BitVec 4),
    r.outcome = .invalidate code →
    ((∃ f ind field vd vs row, i = Form.execInstr f ind field vd vs ∧ s.Names ind field n ∧
        s.ExecReady n cc f row ∧ f ≠ .D ∧ s.cfg.hasV = true ∧ s.acesequence = 0 ∧ s.WindowOk .vectors row.size ∧
        r = row.step (if f = .C then 0 else s.inputAt vs .vectors) (s.iolen .vectors) ∧ tick = s.freeTick + 1) ∨
      (∃ ind field row, i = Form.execInstr .D ind field 0 0 ∧ s.Names ind field n ∧ s.ExecReady n cc .D row ∧
        s.acesequence = 0 ∧ row.size.valid 0 = true ∧ r = row.step 0 0 ∧ tick = s.freeTick) ∨
      (∃ f ind field row q, i = Form.execInstr .D ind field 0 0 ∧ s.Names ind field n ∧ s.ExecReady n cc f row ∧
        s.StandsFor n f q ∧ s.WindowOk .buffer row.size ∧
        r = row.step (if f = .C then 0 else s.inputAt 0 .buffer) (s.iolen .buffer) ∧ tick = s.freeTick) ∨
      (∃ row o aux, s.StateReady i n cc row o aux ∧ (∀ p, o = some p → s.WindowOk p row.size) ∧ r = row.act aux ∧
        tick = if o = some .vectors then s.freeTick + 1 else s.freeTick)) →
    exec i s =
      .next { s with
        cr := s.cr.set n.val (.configured { cc with mh := mhSetState cc.mh 14, exporting := false }) n.isLt,
        freeTick := tick, aceerror := code, acestart := 0, pc := addX s.cfg s.pc 4 }

/-- A Form that the state does not allow raises an illegal-instruction exception and leaves the CR as it is. This holds
of `ace.exec`, but for the hash families in state _initial_, which are invalidated (42_exec_state_io.md R251), and of
`ace.state` to a state that only other Forms lead to (R255). -/
def Obligations.FormNotAllowedTraps : Prop :=
  ∀ (s : State) (i : Instr) (n : Fin 32) (cc : Context), i.present s.cfg = true → s.Unbound n →
    s.acesequence = 0 →
    ((∃ f ind field vd vs, i = Form.execInstr f ind field vd vs ∧ s.Names ind field n ∧ s.Usable n cc ∧
        execForm s.cfg s.env cc ≠ some f ∧
        (f = .D → execForm s.cfg s.env cc = some .C → s.aceactivecr.toNat ≠ n.val)) →
      exec i s =
        .next { s with
          cr := if invalidatesOnBadExec s.cfg cc then
              s.cr.set n.val (.configured { cc with mh := mhSetState cc.mh 14, exporting := false }) n.isLt
            else s.cr,
          trap := some ⟨.illegalInstruction, s.pc, (encode s.cfg.enc i).setWidth 64⟩ }) ∧
    ((∃ k r imm f, s.Names false k n ∧ s.Changeable n cc imm ∧
        ((i = .stateA k imm ∧ f = .A) ∨ (i = .stateB k imm r ∧ f = .B) ∨ (i = .stateC k imm r ∧ f = .C)) ∧
        ccRows s.cfg s.env cc imm.toNat ≠ [] ∧ ∀ row ∈ ccRows s.cfg s.env cc imm.toNat, row.form ≠ f) →
      exec i s = .next { s with trap := some ⟨.illegalInstruction, s.pc, (encode s.cfg.enc i).setWidth 64⟩ })

/-- An instruction of a replacement sequence out of order raises an illegal-instruction exception and invalidates the
CR (42_exec_state_io.md R255, R262, R263): a vector Form or Form B or C of `ace.state` in the middle of a sequence,
Form D of `ace.exec` or Form A of `ace.state` there for a CR that is not bound or whose state has no Form for the
buffer, a second `ace.input`, an `ace.output` without a step before it. -/
def Obligations.OrderViolationInvalidates : Prop :=
  ∀ (s : State) (i : Instr) (n : Fin 32) (cc : Context), n.val < s.cfg.numCR → s.Unbound n →
    i.present s.cfg = true →
    (match i with
      | .execAK _ k _ | .execBK k _ | .execCK _ k => s.Usable n cc ∧ s.Names false k n ∧ s.acesequence ≠ 0
      | .execAX _ k _ | .execBX k _ | .execCX _ k => s.Usable n cc ∧ s.Names true k n ∧ s.acesequence ≠ 0
      | .execDK k => s.Usable n cc ∧ s.Names false k n ∧ s.acesequence ≠ 0 ∧
          (s.acesequence = 1 → s.aceactivecr.toNat = n.val →
            execForm s.cfg s.env cc ≠ some .A ∧ execForm s.cfg s.env cc ≠ some .B)
      | .execDX k => s.Usable n cc ∧ s.Names true k n ∧ s.acesequence ≠ 0 ∧
          (s.acesequence = 1 → s.aceactivecr.toNat = n.val →
            execForm s.cfg s.env cc ≠ some .A ∧ execForm s.cfg s.env cc ≠ some .B)
      | .stateA k imm => s.Changeable n cc imm ∧ s.Names false k n ∧ s.acesequence ≠ 0 ∧
          (s.acesequence = 1 → s.aceactivecr.toNat = n.val → ccRows s.cfg s.env cc imm.toNat ≠ [] ∧
            ∀ row ∈ ccRows s.cfg s.env cc imm.toNat, row.form ≠ .C)
      | .stateB k imm _ | .stateC k imm _ => s.Changeable n cc imm ∧ s.Names false k n ∧ s.acesequence ≠ 0
      | .input _ _ xl => s.Usable n cc ∧ s.aceactivecr.toNat = n.val ∧ s.readX xl ≠ 0 ∧
          (s.acesequence ≠ 0 ∨ inputExpected s.cfg s.env cc = false)
      | .output _ _ xl => s.Usable n cc ∧ s.aceactivecr.toNat = n.val ∧ s.readX xl ≠ 0 ∧
          (s.acesequence = 0 ∨ s.acesequence = 3)
      | _ => False) →
    exec i s =
      .next { s with
        cr := s.cr.set n.val (.configured { cc with mh := mhSetState cc.mh 14, exporting := false }) n.isLt,
        trap := some ⟨.illegalInstruction, s.pc, (encode s.cfg.enc i).setWidth 64⟩ }

/-- `ace.state` where a transition row applies: the row's action runs on the auxiliary value, which is nothing in Form
A, a general register in Form B, a vector register group in Form C, and the window of the bound CR's buffer for Form A
as the second step of a sequence (42_exec_state_io.md R255 to R257, R259, R262). That a vector operand past `v31` takes
part, and the counter of the free values, are the model's, log 10. -/
def Obligations.StateCompletes : Prop :=
  ∀ (s : State) (i : Instr) (n : Fin 32) (cc : Context) (row : Row) (o : Option Place) (aux tick : Nat) (r : Step)
    (code : BitVec 4), s.StateReady i n cc row o aux → (∀ p, o = some p → s.WindowOk p row.size) →
    tick = (if o = some .vectors then s.freeTick + 1 else s.freeTick) → r = row.act aux →
    r.outcome = .ok ∧ code = 0 ∨ r.outcome = .err code →
    exec i s =
      .next { s with
        cr := s.cr.set n.val (.configured (ccAfter s.cfg cc r)) n.isLt, acesequence := 0,
        rngPos := s.rngPos + r.draws, freeTick := tick, aceerror := code, acestart := 0,
        pc := addX s.cfg s.pc 4 }

/-- `ace.state` to a state that no row leads to from the current one ends with error 7 and invalidates the CR
(42_exec_state_io.md R258). That it does so too for Form A as the second step of a sequence, as R255 lists it and R262
does not, is the model's choice, log 44. -/
def Obligations.StateNotAllowedInvalidates : Prop :=
  ∀ (s : State) (i : Instr) (field r : Reg) (imm : BitVec 7) (n : Fin 32) (cc : Context),
    (s.acesequence = 0 ∧ (i = .stateA field imm ∨ i = .stateB field imm r ∨ i = .stateC field imm r)) ∨
      (s.acesequence = 1 ∧ s.aceactivecr.toNat = n.val ∧ i = .stateA field imm) →
    i.present s.cfg = true → s.Names false field n → s.Unbound n → s.Changeable n cc imm →
    ccRows s.cfg s.env cc imm.toNat = [] →
    exec i s =
      .next { s with
        cr := s.cr.set n.val (.configured { cc with mh := mhSetState cc.mh 14, exporting := false }) n.isLt,
        aceerror := 7, acestart := 0, pc := addX s.cfg s.pc 4 }

/-! ### CSRs -/

/-- A CSR instruction on `aceerror`, `acestart`, `acesequence` and the horizontal trap CSRs: the register takes the old
value and the CSR the low bits of the new one; a source field of 0 makes a set or clear a read, of every ACE CSR; a
write of `acemarchid`, and any access to a number at which the hart has no CSR, is an illegal instruction
(40_csr_access.md R170, R171, R172, R174, R177, R179, R180). The six instructions are the host's, log 11. -/
def Obligations.PlainCsrsWritten : Prop :=
  ∀ (i : CsrInstr) (s : State),
    (aceCsr s.cfg.enc i.csr = none → i.csr ∉ s.cfg.hostCsrs →
      execCsr i s = .next { s with trap := some ⟨.illegalInstruction, s.pc, (encodeCsr i).setWidth 64⟩ }) ∧
    ∀ (c : AceCsr) (old new : Word) (x' : Vector Word 32), aceCsr s.cfg.enc i.csr = some c → old = s.readCsr c →
      new = s.csrWritten i old → x' = (s.writeX i.rd old).x →
      if suppressed i then execCsr i s = .next { s with x := x', pc := addX s.cfg s.pc 4 }
      else
        match c with
        | .error => execCsr i s =
            .next { s with aceerror := new.setWidth 4, x := x', pc := addX s.cfg s.pc 4 }
        | .start => execCsr i s = .next { s with acestart := new, x := x', pc := addX s.cfg s.pc 4 }
        | .sequence => execCsr i s =
            .next { s with acesequence := new.setWidth 2, x := x', pc := addX s.cfg s.pc 4 }
        | .htrapmask => execCsr i s = .next { s with acehtrapmask := new, x := x', pc := addX s.cfg s.pc 4 }
        | .htrapvector => execCsr i s = .next { s with acehtrapvector := new, x := x', pc := addX s.cfg s.pc 4 }
        | .marchid => execCsr i s =
            .next { s with trap := some ⟨.illegalInstruction, s.pc, (encodeCsr i).setWidth 64⟩ }
        | _ => True

/-- A write to `aceactivecr`, by any of the six CSR instructions, while a sequence is in progress raises an
illegal-instruction exception and changes nothing; a value above 32 in the six bits is error 8 and keeps the old one;
any other is taken (40_csr_access.md R170, R178). The treatment of 33 to 63 is decision D40 of the spec. -/
def Obligations.ActiveCRWritten : Prop :=
  ∀ (i : CsrInstr) (s : State), i.csr = s.cfg.enc.csrActivecr → s.cfg.enc.wellFormed = true → suppressed i = false →
    ∀ (old : Word) (v : BitVec 6) (x' : Vector Word 32), old = s.aceactivecr.setWidth 64 →
    v = (s.csrWritten i old).setWidth 6 → x' = (s.writeX i.rd old).x →
    execCsr i s =
      if s.acesequence ≠ 0 then
        .next { s with trap := some ⟨.illegalInstruction, s.pc, (encodeCsr i).setWidth 64⟩ }
      else if 32 < v.toNat then .next { s with aceerror := 8, x := x', pc := addX s.cfg s.pc 4 }
      else .next { s with aceactivecr := v, x := x', pc := addX s.cfg s.pc 4 }

/-- A write to `aceiobuflen`, by any of the six CSR instructions, configures a buffer of zero bytes with the whole of it
as its window, cut to the current maximum with error 6, which a buffer in the CR file shares with the CRs; one to
`aceiobuftop` is taken between `acestart` and `aceiobuflen` and is error 8 elsewhere (40_csr_access.md R170, R175,
R176). Cutting every value that is too large and keeping a refused bound are decisions D18 and D39 of the spec. -/
def Obligations.BufferCsrsWritten : Prop :=
  ∀ (i : CsrInstr) (s : State) (v : Word), s.cfg.enc.wellFormed = true → suppressed i = false →
    (i.csr = s.cfg.enc.csrIobuflen → v = s.csrWritten i s.aceiobuflen → ∀ max n : Nat,
      (s.cfg.hasIobuf = false ∧ max = 0) ∨
        (s.cfg.hasIobuf = true ∧ s.cfg.iobufInCrf = false ∧ max = s.cfg.iobufMax) ∨
        (s.cfg.hasIobuf = true ∧ s.cfg.iobufInCrf = true ∧ max ≤ s.cfg.iobufMax ∧
          (max = 0 ∨ s.crUsed + iobufCost s.cfg max ≤ s.cfg.crfCapacity) ∧
          ∀ k, max < k → k ≤ s.cfg.iobufMax → s.cfg.crfCapacity < s.crUsed + iobufCost s.cfg k) →
      n = min v.toNat max →
      execCsr i s =
        .next { s with
          iobuf := List.replicate n 0, aceiobuflen := BitVec.ofNat 64 n, aceiobuftop := BitVec.ofNat 64 n,
          acestart := 0, aceerror := if max < v.toNat then 6 else s.aceerror,
          x := (s.writeX i.rd s.aceiobuflen).x, pc := addX s.cfg s.pc 4 }) ∧
    (i.csr = s.cfg.enc.csrIobuftop → v = s.csrWritten i s.aceiobuftop →
      execCsr i s =
        if s.acestart.toNat ≤ v.toNat ∧ v.toNat ≤ s.aceiobuflen.toNat then
          .next { s with aceiobuftop := v, x := (s.writeX i.rd s.aceiobuftop).x, pc := addX s.cfg s.pc 4 }
        else .next { s with aceerror := 8, x := (s.writeX i.rd s.aceiobuftop).x, pc := addX s.cfg s.pc 4 })
end

