-- ==== Sys2Proof/Laws/Decode.lean ====
section
/-! SUPPORT. Laws of the instruction formats: the fields of an assembled word, and the immediates from their parts. -/
namespace Sys2Proof
set_option Elab.async false

variable (f7 : BitVec 7) (rs2 rs1 : Reg) (f3 : BitVec 3) (rd : Reg) (op : BitVec 7)

@[simp] theorem fieldOpcode_asmR : fieldOpcode (asmR f7 rs2 rs1 f3 rd op) = op := by
  unfold fieldOpcode asmR
  ext i hi
  simp only [BitVec.getElem_extractLsb', BitVec.getLsbD_append]
  simp [(by omega : i < 12), (by omega : i < 15), (by omega : i < 20), (by omega : i < 25), hi]

@[simp] theorem fieldRd_asmR : fieldRd (asmR f7 rs2 rs1 f3 rd op) = rd := by
  unfold fieldRd asmR
  ext i hi
  simp only [BitVec.getElem_extractLsb', BitVec.getLsbD_append]
  simp [(by omega : 7 + i < 12), (by omega : 7 + i < 15), (by omega : 7 + i < 20), (by omega : 7 + i < 25), hi]

@[simp] theorem fieldFunct3_asmR : fieldFunct3 (asmR f7 rs2 rs1 f3 rd op) = f3 := by
  unfold fieldFunct3 asmR
  ext i hi
  simp only [BitVec.getElem_extractLsb', BitVec.getLsbD_append]
  simp [(by omega : 12 + i < 15), (by omega : 12 + i < 20), (by omega : 12 + i < 25), hi] <;> omega

@[simp] theorem fieldRs1_asmR : fieldRs1 (asmR f7 rs2 rs1 f3 rd op) = rs1 := by
  unfold fieldRs1 asmR
  ext i hi
  simp only [BitVec.getElem_extractLsb', BitVec.getLsbD_append]
  simp [(by omega : 15 + i < 20), (by omega : 15 + i < 25), hi] <;> omega

@[simp] theorem fieldRs2_asmR : fieldRs2 (asmR f7 rs2 rs1 f3 rd op) = rs2 := by
  unfold fieldRs2 asmR
  ext i hi
  simp only [BitVec.getElem_extractLsb', BitVec.getLsbD_append]
  simp [(by omega : 20 + i < 25), hi] <;> omega

@[simp] theorem fieldFunct7_asmR : fieldFunct7 (asmR f7 rs2 rs1 f3 rd op) = f7 := by
  unfold fieldFunct7 asmR
  ext i hi
  simp only [BitVec.getElem_extractLsb', BitVec.getLsbD_append]
  rw [if_neg (by omega)]
  have e : 25 + i - (5 + (5 + (3 + (5 + 7)))) = i := by omega
  rw [e, BitVec.getLsbD_eq_getElem hi]

/-- An immediate is put together from the parts it is taken apart into. -/
@[simp] theorem immI_parts (imm : Imm12) : immI (imm.extractLsb' 5 7) (imm.extractLsb' 0 5) = imm := by
  unfold immI
  ext i hi
  simp only [BitVec.getElem_append, BitVec.getElem_extractLsb']
  split
  · simp [BitVec.getLsbD_eq_getElem hi]
  · have : 5 + (i - 5) = i := by omega
    simp [this, BitVec.getLsbD_eq_getElem hi]

@[simp] theorem immS_parts (imm : Imm12) : immS (imm.extractLsb' 5 7) (imm.extractLsb' 0 5) = imm := immI_parts imm

/-- Decoding an assembled word is decoding its fields. -/
theorem decode_asmR (p : EncParams) :
    decode p (asmR f7 rs2 rs1 f3 rd op) = decodeFields p f7 rs2 rs1 f3 rd op := by
  simp [decode]

end Sys2Proof
end

