-- ==== Sys2Proof/Laws/State.lean ====
section
/-! SUPPORT. What each update of the state does to each field. -/
namespace Sys2Proof.Machine
set_option Elab.async false

variable (s : State)

/-! ### `advance` -/

@[simp] theorem State.advance_cfg : s.advance.cfg = s.cfg := rfl
@[simp] theorem State.advance_x : s.advance.x = s.x := rfl
@[simp] theorem State.advance_pc : s.advance.pc = addX s.cfg s.pc 4 := rfl
@[simp] theorem State.advance_mode : s.advance.mode = s.mode := rfl
@[simp] theorem State.advance_hEnabled : s.advance.hEnabled = s.hEnabled := rfl
@[simp] theorem State.advance_virt : s.advance.virt = s.virt := rfl
@[simp] theorem State.advance_mem : s.advance.mem = s.mem := rfl
@[simp] theorem State.advance_v : s.advance.v = s.v := rfl
@[simp] theorem State.advance_vl : s.advance.vl = s.vl := rfl
@[simp] theorem State.advance_sew : s.advance.sew = s.sew := rfl
@[simp] theorem State.advance_cr : s.advance.cr = s.cr := rfl
@[simp] theorem State.advance_iobuf : s.advance.iobuf = s.iobuf := rfl
@[simp] theorem State.advance_aceerror : s.advance.aceerror = s.aceerror := rfl
@[simp] theorem State.advance_acestart : s.advance.acestart = s.acestart := rfl
@[simp] theorem State.advance_aceiobuflen : s.advance.aceiobuflen = s.aceiobuflen := rfl
@[simp] theorem State.advance_aceiobuftop : s.advance.aceiobuftop = s.aceiobuftop := rfl
@[simp] theorem State.advance_acesequence : s.advance.acesequence = s.acesequence := rfl
@[simp] theorem State.advance_aceactivecr : s.advance.aceactivecr = s.aceactivecr := rfl
@[simp] theorem State.advance_acehtrapmask : s.advance.acehtrapmask = s.acehtrapmask := rfl
@[simp] theorem State.advance_acehtrapvector : s.advance.acehtrapvector = s.acehtrapvector := rfl
@[simp] theorem State.advance_csk : s.advance.csk = s.csk := rfl
@[simp] theorem State.advance_lst : s.advance.lst = s.lst := rfl
@[simp] theorem State.advance_skt : s.advance.skt = s.skt := rfl
@[simp] theorem State.advance_nowHours : s.advance.nowHours = s.nowHours := rfl
@[simp] theorem State.advance_rngPos : s.advance.rngPos = s.rngPos := rfl
@[simp] theorem State.advance_freeTick : s.advance.freeTick = s.freeTick := rfl
@[simp] theorem State.advance_trap : s.advance.trap = s.trap := rfl
@[simp] theorem State.advance_events : s.advance.events = s.events := rfl

/-! ### `endWith` -/

@[simp] theorem State.endWith_cfg (code : BitVec 4) : (s.endWith code).cfg = s.cfg := rfl
@[simp] theorem State.endWith_x (code : BitVec 4) : (s.endWith code).x = s.x := rfl
@[simp] theorem State.endWith_pc (code : BitVec 4) : (s.endWith code).pc = addX s.cfg s.pc 4 := rfl
@[simp] theorem State.endWith_mode (code : BitVec 4) : (s.endWith code).mode = s.mode := rfl
@[simp] theorem State.endWith_hEnabled (code : BitVec 4) : (s.endWith code).hEnabled = s.hEnabled := rfl
@[simp] theorem State.endWith_virt (code : BitVec 4) : (s.endWith code).virt = s.virt := rfl
@[simp] theorem State.endWith_mem (code : BitVec 4) : (s.endWith code).mem = s.mem := rfl
@[simp] theorem State.endWith_v (code : BitVec 4) : (s.endWith code).v = s.v := rfl
@[simp] theorem State.endWith_vl (code : BitVec 4) : (s.endWith code).vl = s.vl := rfl
@[simp] theorem State.endWith_sew (code : BitVec 4) : (s.endWith code).sew = s.sew := rfl
@[simp] theorem State.endWith_cr (code : BitVec 4) : (s.endWith code).cr = s.cr := rfl
@[simp] theorem State.endWith_iobuf (code : BitVec 4) : (s.endWith code).iobuf = s.iobuf := rfl
@[simp] theorem State.endWith_aceerror (code : BitVec 4) : (s.endWith code).aceerror = code := rfl
@[simp] theorem State.endWith_acestart (code : BitVec 4) : (s.endWith code).acestart = 0 := rfl
@[simp] theorem State.endWith_aceiobuflen (code : BitVec 4) : (s.endWith code).aceiobuflen = s.aceiobuflen := rfl
@[simp] theorem State.endWith_aceiobuftop (code : BitVec 4) : (s.endWith code).aceiobuftop = s.aceiobuftop := rfl
@[simp] theorem State.endWith_acesequence (code : BitVec 4) : (s.endWith code).acesequence = s.acesequence := rfl
@[simp] theorem State.endWith_aceactivecr (code : BitVec 4) : (s.endWith code).aceactivecr = s.aceactivecr := rfl
@[simp] theorem State.endWith_acehtrapmask (code : BitVec 4) : (s.endWith code).acehtrapmask = s.acehtrapmask := rfl
@[simp] theorem State.endWith_acehtrapvector (code : BitVec 4) : (s.endWith code).acehtrapvector = s.acehtrapvector := rfl
@[simp] theorem State.endWith_csk (code : BitVec 4) : (s.endWith code).csk = s.csk := rfl
@[simp] theorem State.endWith_lst (code : BitVec 4) : (s.endWith code).lst = s.lst := rfl
@[simp] theorem State.endWith_skt (code : BitVec 4) : (s.endWith code).skt = s.skt := rfl
@[simp] theorem State.endWith_nowHours (code : BitVec 4) : (s.endWith code).nowHours = s.nowHours := rfl
@[simp] theorem State.endWith_rngPos (code : BitVec 4) : (s.endWith code).rngPos = s.rngPos := rfl
@[simp] theorem State.endWith_freeTick (code : BitVec 4) : (s.endWith code).freeTick = s.freeTick := rfl
@[simp] theorem State.endWith_trap (code : BitVec 4) : (s.endWith code).trap = s.trap := rfl
@[simp] theorem State.endWith_events (code : BitVec 4) : (s.endWith code).events = s.events := rfl

/-! ### `done` -/

@[simp] theorem State.done_cfg : s.done.cfg = s.cfg := rfl
@[simp] theorem State.done_x : s.done.x = s.x := rfl
@[simp] theorem State.done_pc : s.done.pc = addX s.cfg s.pc 4 := rfl
@[simp] theorem State.done_mode : s.done.mode = s.mode := rfl
@[simp] theorem State.done_hEnabled : s.done.hEnabled = s.hEnabled := rfl
@[simp] theorem State.done_virt : s.done.virt = s.virt := rfl
@[simp] theorem State.done_mem : s.done.mem = s.mem := rfl
@[simp] theorem State.done_v : s.done.v = s.v := rfl
@[simp] theorem State.done_vl : s.done.vl = s.vl := rfl
@[simp] theorem State.done_sew : s.done.sew = s.sew := rfl
@[simp] theorem State.done_cr : s.done.cr = s.cr := rfl
@[simp] theorem State.done_iobuf : s.done.iobuf = s.iobuf := rfl
@[simp] theorem State.done_aceerror : s.done.aceerror = 0 := rfl
@[simp] theorem State.done_acestart : s.done.acestart = 0 := rfl
@[simp] theorem State.done_aceiobuflen : s.done.aceiobuflen = s.aceiobuflen := rfl
@[simp] theorem State.done_aceiobuftop : s.done.aceiobuftop = s.aceiobuftop := rfl
@[simp] theorem State.done_acesequence : s.done.acesequence = s.acesequence := rfl
@[simp] theorem State.done_aceactivecr : s.done.aceactivecr = s.aceactivecr := rfl
@[simp] theorem State.done_acehtrapmask : s.done.acehtrapmask = s.acehtrapmask := rfl
@[simp] theorem State.done_acehtrapvector : s.done.acehtrapvector = s.acehtrapvector := rfl
@[simp] theorem State.done_csk : s.done.csk = s.csk := rfl
@[simp] theorem State.done_lst : s.done.lst = s.lst := rfl
@[simp] theorem State.done_skt : s.done.skt = s.skt := rfl
@[simp] theorem State.done_nowHours : s.done.nowHours = s.nowHours := rfl
@[simp] theorem State.done_rngPos : s.done.rngPos = s.rngPos := rfl
@[simp] theorem State.done_freeTick : s.done.freeTick = s.freeTick := rfl
@[simp] theorem State.done_trap : s.done.trap = s.trap := rfl
@[simp] theorem State.done_events : s.done.events = s.events := rfl

/-! ### `raise` -/

@[simp] theorem State.raise_cfg (c : Cause) (t : Word) : (s.raise c t).cfg = s.cfg := rfl
@[simp] theorem State.raise_x (c : Cause) (t : Word) : (s.raise c t).x = s.x := rfl
@[simp] theorem State.raise_pc (c : Cause) (t : Word) : (s.raise c t).pc = s.pc := rfl
@[simp] theorem State.raise_mode (c : Cause) (t : Word) : (s.raise c t).mode = s.mode := rfl
@[simp] theorem State.raise_hEnabled (c : Cause) (t : Word) : (s.raise c t).hEnabled = s.hEnabled := rfl
@[simp] theorem State.raise_virt (c : Cause) (t : Word) : (s.raise c t).virt = s.virt := rfl
@[simp] theorem State.raise_mem (c : Cause) (t : Word) : (s.raise c t).mem = s.mem := rfl
@[simp] theorem State.raise_v (c : Cause) (t : Word) : (s.raise c t).v = s.v := rfl
@[simp] theorem State.raise_vl (c : Cause) (t : Word) : (s.raise c t).vl = s.vl := rfl
@[simp] theorem State.raise_sew (c : Cause) (t : Word) : (s.raise c t).sew = s.sew := rfl
@[simp] theorem State.raise_cr (c : Cause) (t : Word) : (s.raise c t).cr = s.cr := rfl
@[simp] theorem State.raise_iobuf (c : Cause) (t : Word) : (s.raise c t).iobuf = s.iobuf := rfl
@[simp] theorem State.raise_aceerror (c : Cause) (t : Word) : (s.raise c t).aceerror = s.aceerror := rfl
@[simp] theorem State.raise_acestart (c : Cause) (t : Word) : (s.raise c t).acestart = s.acestart := rfl
@[simp] theorem State.raise_aceiobuflen (c : Cause) (t : Word) : (s.raise c t).aceiobuflen = s.aceiobuflen := rfl
@[simp] theorem State.raise_aceiobuftop (c : Cause) (t : Word) : (s.raise c t).aceiobuftop = s.aceiobuftop := rfl
@[simp] theorem State.raise_acesequence (c : Cause) (t : Word) : (s.raise c t).acesequence = s.acesequence := rfl
@[simp] theorem State.raise_aceactivecr (c : Cause) (t : Word) : (s.raise c t).aceactivecr = s.aceactivecr := rfl
@[simp] theorem State.raise_acehtrapmask (c : Cause) (t : Word) : (s.raise c t).acehtrapmask = s.acehtrapmask := rfl
@[simp] theorem State.raise_acehtrapvector (c : Cause) (t : Word) : (s.raise c t).acehtrapvector = s.acehtrapvector := rfl
@[simp] theorem State.raise_csk (c : Cause) (t : Word) : (s.raise c t).csk = s.csk := rfl
@[simp] theorem State.raise_lst (c : Cause) (t : Word) : (s.raise c t).lst = s.lst := rfl
@[simp] theorem State.raise_skt (c : Cause) (t : Word) : (s.raise c t).skt = s.skt := rfl
@[simp] theorem State.raise_nowHours (c : Cause) (t : Word) : (s.raise c t).nowHours = s.nowHours := rfl
@[simp] theorem State.raise_rngPos (c : Cause) (t : Word) : (s.raise c t).rngPos = s.rngPos := rfl
@[simp] theorem State.raise_freeTick (c : Cause) (t : Word) : (s.raise c t).freeTick = s.freeTick := rfl
@[simp] theorem State.raise_trap (c : Cause) (t : Word) : (s.raise c t).trap = some ⟨c, s.pc, t⟩ := rfl
@[simp] theorem State.raise_events (c : Cause) (t : Word) : (s.raise c t).events = s.events := rfl

/-! ### `illegal` -/

@[simp] theorem State.illegal_cfg (w : InstrWord) : (s.illegal w).cfg = s.cfg := rfl
@[simp] theorem State.illegal_x (w : InstrWord) : (s.illegal w).x = s.x := rfl
@[simp] theorem State.illegal_pc (w : InstrWord) : (s.illegal w).pc = s.pc := rfl
@[simp] theorem State.illegal_mode (w : InstrWord) : (s.illegal w).mode = s.mode := rfl
@[simp] theorem State.illegal_hEnabled (w : InstrWord) : (s.illegal w).hEnabled = s.hEnabled := rfl
@[simp] theorem State.illegal_virt (w : InstrWord) : (s.illegal w).virt = s.virt := rfl
@[simp] theorem State.illegal_mem (w : InstrWord) : (s.illegal w).mem = s.mem := rfl
@[simp] theorem State.illegal_v (w : InstrWord) : (s.illegal w).v = s.v := rfl
@[simp] theorem State.illegal_vl (w : InstrWord) : (s.illegal w).vl = s.vl := rfl
@[simp] theorem State.illegal_sew (w : InstrWord) : (s.illegal w).sew = s.sew := rfl
@[simp] theorem State.illegal_cr (w : InstrWord) : (s.illegal w).cr = s.cr := rfl
@[simp] theorem State.illegal_iobuf (w : InstrWord) : (s.illegal w).iobuf = s.iobuf := rfl
@[simp] theorem State.illegal_aceerror (w : InstrWord) : (s.illegal w).aceerror = s.aceerror := rfl
@[simp] theorem State.illegal_acestart (w : InstrWord) : (s.illegal w).acestart = s.acestart := rfl
@[simp] theorem State.illegal_aceiobuflen (w : InstrWord) : (s.illegal w).aceiobuflen = s.aceiobuflen := rfl
@[simp] theorem State.illegal_aceiobuftop (w : InstrWord) : (s.illegal w).aceiobuftop = s.aceiobuftop := rfl
@[simp] theorem State.illegal_acesequence (w : InstrWord) : (s.illegal w).acesequence = s.acesequence := rfl
@[simp] theorem State.illegal_aceactivecr (w : InstrWord) : (s.illegal w).aceactivecr = s.aceactivecr := rfl
@[simp] theorem State.illegal_acehtrapmask (w : InstrWord) : (s.illegal w).acehtrapmask = s.acehtrapmask := rfl
@[simp] theorem State.illegal_acehtrapvector (w : InstrWord) : (s.illegal w).acehtrapvector = s.acehtrapvector := rfl
@[simp] theorem State.illegal_csk (w : InstrWord) : (s.illegal w).csk = s.csk := rfl
@[simp] theorem State.illegal_lst (w : InstrWord) : (s.illegal w).lst = s.lst := rfl
@[simp] theorem State.illegal_skt (w : InstrWord) : (s.illegal w).skt = s.skt := rfl
@[simp] theorem State.illegal_nowHours (w : InstrWord) : (s.illegal w).nowHours = s.nowHours := rfl
@[simp] theorem State.illegal_rngPos (w : InstrWord) : (s.illegal w).rngPos = s.rngPos := rfl
@[simp] theorem State.illegal_freeTick (w : InstrWord) : (s.illegal w).freeTick = s.freeTick := rfl
@[simp] theorem State.illegal_trap (w : InstrWord) : (s.illegal w).trap = some ⟨.illegalInstruction, s.pc, w.setWidth 64⟩ := rfl
@[simp] theorem State.illegal_events (w : InstrWord) : (s.illegal w).events = s.events := rfl

/-! ### `hostReturn` -/

@[simp] theorem State.hostReturn_cfg (p : Word) : (s.hostReturn p).cfg = s.cfg := rfl
@[simp] theorem State.hostReturn_x (p : Word) : (s.hostReturn p).x = s.x := rfl
@[simp] theorem State.hostReturn_pc (p : Word) : (s.hostReturn p).pc = truncX s.cfg p := rfl
@[simp] theorem State.hostReturn_mode (p : Word) : (s.hostReturn p).mode = s.mode := rfl
@[simp] theorem State.hostReturn_hEnabled (p : Word) : (s.hostReturn p).hEnabled = s.hEnabled := rfl
@[simp] theorem State.hostReturn_virt (p : Word) : (s.hostReturn p).virt = s.virt := rfl
@[simp] theorem State.hostReturn_mem (p : Word) : (s.hostReturn p).mem = s.mem := rfl
@[simp] theorem State.hostReturn_v (p : Word) : (s.hostReturn p).v = s.v := rfl
@[simp] theorem State.hostReturn_vl (p : Word) : (s.hostReturn p).vl = s.vl := rfl
@[simp] theorem State.hostReturn_sew (p : Word) : (s.hostReturn p).sew = s.sew := rfl
@[simp] theorem State.hostReturn_cr (p : Word) : (s.hostReturn p).cr = s.cr := rfl
@[simp] theorem State.hostReturn_iobuf (p : Word) : (s.hostReturn p).iobuf = s.iobuf := rfl
@[simp] theorem State.hostReturn_aceerror (p : Word) : (s.hostReturn p).aceerror = s.aceerror := rfl
@[simp] theorem State.hostReturn_acestart (p : Word) : (s.hostReturn p).acestart = s.acestart := rfl
@[simp] theorem State.hostReturn_aceiobuflen (p : Word) : (s.hostReturn p).aceiobuflen = s.aceiobuflen := rfl
@[simp] theorem State.hostReturn_aceiobuftop (p : Word) : (s.hostReturn p).aceiobuftop = s.aceiobuftop := rfl
@[simp] theorem State.hostReturn_acesequence (p : Word) : (s.hostReturn p).acesequence = s.acesequence := rfl
@[simp] theorem State.hostReturn_aceactivecr (p : Word) : (s.hostReturn p).aceactivecr = s.aceactivecr := rfl
@[simp] theorem State.hostReturn_acehtrapmask (p : Word) : (s.hostReturn p).acehtrapmask = s.acehtrapmask := rfl
@[simp] theorem State.hostReturn_acehtrapvector (p : Word) : (s.hostReturn p).acehtrapvector = s.acehtrapvector := rfl
@[simp] theorem State.hostReturn_csk (p : Word) : (s.hostReturn p).csk = s.csk := rfl
@[simp] theorem State.hostReturn_lst (p : Word) : (s.hostReturn p).lst = s.lst := rfl
@[simp] theorem State.hostReturn_skt (p : Word) : (s.hostReturn p).skt = s.skt := rfl
@[simp] theorem State.hostReturn_nowHours (p : Word) : (s.hostReturn p).nowHours = s.nowHours := rfl
@[simp] theorem State.hostReturn_rngPos (p : Word) : (s.hostReturn p).rngPos = s.rngPos := rfl
@[simp] theorem State.hostReturn_freeTick (p : Word) : (s.hostReturn p).freeTick = s.freeTick := rfl
@[simp] theorem State.hostReturn_trap (p : Word) : (s.hostReturn p).trap = none := rfl
@[simp] theorem State.hostReturn_events (p : Word) : (s.hostReturn p).events = s.events := rfl

/-! ### `setCR` -/

@[simp] theorem State.setCR_cfg (n : Fin 32) (c : CR) : (s.setCR n c).cfg = s.cfg := rfl
@[simp] theorem State.setCR_x (n : Fin 32) (c : CR) : (s.setCR n c).x = s.x := rfl
@[simp] theorem State.setCR_pc (n : Fin 32) (c : CR) : (s.setCR n c).pc = s.pc := rfl
@[simp] theorem State.setCR_mode (n : Fin 32) (c : CR) : (s.setCR n c).mode = s.mode := rfl
@[simp] theorem State.setCR_hEnabled (n : Fin 32) (c : CR) : (s.setCR n c).hEnabled = s.hEnabled := rfl
@[simp] theorem State.setCR_virt (n : Fin 32) (c : CR) : (s.setCR n c).virt = s.virt := rfl
@[simp] theorem State.setCR_mem (n : Fin 32) (c : CR) : (s.setCR n c).mem = s.mem := rfl
@[simp] theorem State.setCR_v (n : Fin 32) (c : CR) : (s.setCR n c).v = s.v := rfl
@[simp] theorem State.setCR_vl (n : Fin 32) (c : CR) : (s.setCR n c).vl = s.vl := rfl
@[simp] theorem State.setCR_sew (n : Fin 32) (c : CR) : (s.setCR n c).sew = s.sew := rfl
@[simp] theorem State.setCR_cr (n : Fin 32) (c : CR) : (s.setCR n c).cr = s.cr.set n.val c n.isLt := rfl
@[simp] theorem State.setCR_iobuf (n : Fin 32) (c : CR) : (s.setCR n c).iobuf = s.iobuf := rfl
@[simp] theorem State.setCR_aceerror (n : Fin 32) (c : CR) : (s.setCR n c).aceerror = s.aceerror := rfl
@[simp] theorem State.setCR_acestart (n : Fin 32) (c : CR) : (s.setCR n c).acestart = s.acestart := rfl
@[simp] theorem State.setCR_aceiobuflen (n : Fin 32) (c : CR) : (s.setCR n c).aceiobuflen = s.aceiobuflen := rfl
@[simp] theorem State.setCR_aceiobuftop (n : Fin 32) (c : CR) : (s.setCR n c).aceiobuftop = s.aceiobuftop := rfl
@[simp] theorem State.setCR_acesequence (n : Fin 32) (c : CR) : (s.setCR n c).acesequence = s.acesequence := rfl
@[simp] theorem State.setCR_aceactivecr (n : Fin 32) (c : CR) : (s.setCR n c).aceactivecr = s.aceactivecr := rfl
@[simp] theorem State.setCR_acehtrapmask (n : Fin 32) (c : CR) : (s.setCR n c).acehtrapmask = s.acehtrapmask := rfl
@[simp] theorem State.setCR_acehtrapvector (n : Fin 32) (c : CR) : (s.setCR n c).acehtrapvector = s.acehtrapvector := rfl
@[simp] theorem State.setCR_csk (n : Fin 32) (c : CR) : (s.setCR n c).csk = s.csk := rfl
@[simp] theorem State.setCR_lst (n : Fin 32) (c : CR) : (s.setCR n c).lst = s.lst := rfl
@[simp] theorem State.setCR_skt (n : Fin 32) (c : CR) : (s.setCR n c).skt = s.skt := rfl
@[simp] theorem State.setCR_nowHours (n : Fin 32) (c : CR) : (s.setCR n c).nowHours = s.nowHours := rfl
@[simp] theorem State.setCR_rngPos (n : Fin 32) (c : CR) : (s.setCR n c).rngPos = s.rngPos := rfl
@[simp] theorem State.setCR_freeTick (n : Fin 32) (c : CR) : (s.setCR n c).freeTick = s.freeTick := rfl
@[simp] theorem State.setCR_trap (n : Fin 32) (c : CR) : (s.setCR n c).trap = s.trap := rfl
@[simp] theorem State.setCR_events (n : Fin 32) (c : CR) : (s.setCR n c).events = s.events := rfl

/-! ### `release` -/

@[simp] theorem State.release_cfg (n : Fin 32) : (s.release n).cfg = s.cfg := rfl
@[simp] theorem State.release_x (n : Fin 32) : (s.release n).x = s.x := rfl
@[simp] theorem State.release_pc (n : Fin 32) : (s.release n).pc = s.pc := rfl
@[simp] theorem State.release_mode (n : Fin 32) : (s.release n).mode = s.mode := rfl
@[simp] theorem State.release_hEnabled (n : Fin 32) : (s.release n).hEnabled = s.hEnabled := rfl
@[simp] theorem State.release_virt (n : Fin 32) : (s.release n).virt = s.virt := rfl
@[simp] theorem State.release_mem (n : Fin 32) : (s.release n).mem = s.mem := rfl
@[simp] theorem State.release_v (n : Fin 32) : (s.release n).v = s.v := rfl
@[simp] theorem State.release_vl (n : Fin 32) : (s.release n).vl = s.vl := rfl
@[simp] theorem State.release_sew (n : Fin 32) : (s.release n).sew = s.sew := rfl
@[simp] theorem State.release_cr (n : Fin 32) : (s.release n).cr = s.cr.set n.val .unconfigured n.isLt := rfl
@[simp] theorem State.release_iobuf (n : Fin 32) : (s.release n).iobuf = s.iobuf := rfl
@[simp] theorem State.release_aceerror (n : Fin 32) : (s.release n).aceerror = s.aceerror := rfl
@[simp] theorem State.release_acestart (n : Fin 32) : (s.release n).acestart = s.acestart := rfl
@[simp] theorem State.release_aceiobuflen (n : Fin 32) : (s.release n).aceiobuflen = s.aceiobuflen := rfl
@[simp] theorem State.release_aceiobuftop (n : Fin 32) : (s.release n).aceiobuftop = s.aceiobuftop := rfl
@[simp] theorem State.release_acesequence (n : Fin 32) : (s.release n).acesequence = s.acesequence := rfl
@[simp] theorem State.release_aceactivecr (n : Fin 32) : (s.release n).aceactivecr = s.aceactivecr := rfl
@[simp] theorem State.release_acehtrapmask (n : Fin 32) : (s.release n).acehtrapmask = s.acehtrapmask := rfl
@[simp] theorem State.release_acehtrapvector (n : Fin 32) : (s.release n).acehtrapvector = s.acehtrapvector := rfl
@[simp] theorem State.release_csk (n : Fin 32) : (s.release n).csk = s.csk := rfl
@[simp] theorem State.release_lst (n : Fin 32) : (s.release n).lst = s.lst := rfl
@[simp] theorem State.release_skt (n : Fin 32) : (s.release n).skt = s.skt := rfl
@[simp] theorem State.release_nowHours (n : Fin 32) : (s.release n).nowHours = s.nowHours := rfl
@[simp] theorem State.release_rngPos (n : Fin 32) : (s.release n).rngPos = s.rngPos := rfl
@[simp] theorem State.release_freeTick (n : Fin 32) : (s.release n).freeTick = s.freeTick := rfl
@[simp] theorem State.release_trap (n : Fin 32) : (s.release n).trap = s.trap := rfl
@[simp] theorem State.release_events (n : Fin 32) : (s.release n).events = s.events := rfl

/-! ### `setBuffer` -/

@[simp] theorem State.setBuffer_cfg (n : Nat) : (s.setBuffer n).cfg = s.cfg := rfl
@[simp] theorem State.setBuffer_x (n : Nat) : (s.setBuffer n).x = s.x := rfl
@[simp] theorem State.setBuffer_pc (n : Nat) : (s.setBuffer n).pc = s.pc := rfl
@[simp] theorem State.setBuffer_mode (n : Nat) : (s.setBuffer n).mode = s.mode := rfl
@[simp] theorem State.setBuffer_hEnabled (n : Nat) : (s.setBuffer n).hEnabled = s.hEnabled := rfl
@[simp] theorem State.setBuffer_virt (n : Nat) : (s.setBuffer n).virt = s.virt := rfl
@[simp] theorem State.setBuffer_mem (n : Nat) : (s.setBuffer n).mem = s.mem := rfl
@[simp] theorem State.setBuffer_v (n : Nat) : (s.setBuffer n).v = s.v := rfl
@[simp] theorem State.setBuffer_vl (n : Nat) : (s.setBuffer n).vl = s.vl := rfl
@[simp] theorem State.setBuffer_sew (n : Nat) : (s.setBuffer n).sew = s.sew := rfl
@[simp] theorem State.setBuffer_cr (n : Nat) : (s.setBuffer n).cr = s.cr := rfl
@[simp] theorem State.setBuffer_iobuf (n : Nat) : (s.setBuffer n).iobuf = List.replicate n 0 := rfl
@[simp] theorem State.setBuffer_aceerror (n : Nat) : (s.setBuffer n).aceerror = s.aceerror := rfl
@[simp] theorem State.setBuffer_acestart (n : Nat) : (s.setBuffer n).acestart = 0 := rfl
@[simp] theorem State.setBuffer_aceiobuflen (n : Nat) : (s.setBuffer n).aceiobuflen = BitVec.ofNat 64 n := rfl
@[simp] theorem State.setBuffer_aceiobuftop (n : Nat) : (s.setBuffer n).aceiobuftop = BitVec.ofNat 64 n := rfl
@[simp] theorem State.setBuffer_acesequence (n : Nat) : (s.setBuffer n).acesequence = s.acesequence := rfl
@[simp] theorem State.setBuffer_aceactivecr (n : Nat) : (s.setBuffer n).aceactivecr = s.aceactivecr := rfl
@[simp] theorem State.setBuffer_acehtrapmask (n : Nat) : (s.setBuffer n).acehtrapmask = s.acehtrapmask := rfl
@[simp] theorem State.setBuffer_acehtrapvector (n : Nat) : (s.setBuffer n).acehtrapvector = s.acehtrapvector := rfl
@[simp] theorem State.setBuffer_csk (n : Nat) : (s.setBuffer n).csk = s.csk := rfl
@[simp] theorem State.setBuffer_lst (n : Nat) : (s.setBuffer n).lst = s.lst := rfl
@[simp] theorem State.setBuffer_skt (n : Nat) : (s.setBuffer n).skt = s.skt := rfl
@[simp] theorem State.setBuffer_nowHours (n : Nat) : (s.setBuffer n).nowHours = s.nowHours := rfl
@[simp] theorem State.setBuffer_rngPos (n : Nat) : (s.setBuffer n).rngPos = s.rngPos := rfl
@[simp] theorem State.setBuffer_freeTick (n : Nat) : (s.setBuffer n).freeTick = s.freeTick := rfl
@[simp] theorem State.setBuffer_trap (n : Nat) : (s.setBuffer n).trap = s.trap := rfl
@[simp] theorem State.setBuffer_events (n : Nat) : (s.setBuffer n).events = s.events := rfl

/-! ### `setBufBytes` -/

@[simp] theorem State.setBufBytes_cfg (a : Nat) (bs : List Byte) : (s.setBufBytes a bs).cfg = s.cfg := rfl
@[simp] theorem State.setBufBytes_x (a : Nat) (bs : List Byte) : (s.setBufBytes a bs).x = s.x := rfl
@[simp] theorem State.setBufBytes_pc (a : Nat) (bs : List Byte) : (s.setBufBytes a bs).pc = s.pc := rfl
@[simp] theorem State.setBufBytes_mode (a : Nat) (bs : List Byte) : (s.setBufBytes a bs).mode = s.mode := rfl
@[simp] theorem State.setBufBytes_hEnabled (a : Nat) (bs : List Byte) : (s.setBufBytes a bs).hEnabled = s.hEnabled := rfl
@[simp] theorem State.setBufBytes_virt (a : Nat) (bs : List Byte) : (s.setBufBytes a bs).virt = s.virt := rfl
@[simp] theorem State.setBufBytes_mem (a : Nat) (bs : List Byte) : (s.setBufBytes a bs).mem = s.mem := rfl
@[simp] theorem State.setBufBytes_v (a : Nat) (bs : List Byte) : (s.setBufBytes a bs).v = s.v := rfl
@[simp] theorem State.setBufBytes_vl (a : Nat) (bs : List Byte) : (s.setBufBytes a bs).vl = s.vl := rfl
@[simp] theorem State.setBufBytes_sew (a : Nat) (bs : List Byte) : (s.setBufBytes a bs).sew = s.sew := rfl
@[simp] theorem State.setBufBytes_cr (a : Nat) (bs : List Byte) : (s.setBufBytes a bs).cr = s.cr := rfl
@[simp] theorem State.setBufBytes_iobuf (a : Nat) (bs : List Byte) : (s.setBufBytes a bs).iobuf = s.iobuf.take a ++ bs ++ s.iobuf.drop (a + bs.length) := rfl
@[simp] theorem State.setBufBytes_aceerror (a : Nat) (bs : List Byte) : (s.setBufBytes a bs).aceerror = s.aceerror := rfl
@[simp] theorem State.setBufBytes_acestart (a : Nat) (bs : List Byte) : (s.setBufBytes a bs).acestart = s.acestart := rfl
@[simp] theorem State.setBufBytes_aceiobuflen (a : Nat) (bs : List Byte) : (s.setBufBytes a bs).aceiobuflen = s.aceiobuflen := rfl
@[simp] theorem State.setBufBytes_aceiobuftop (a : Nat) (bs : List Byte) : (s.setBufBytes a bs).aceiobuftop = s.aceiobuftop := rfl
@[simp] theorem State.setBufBytes_acesequence (a : Nat) (bs : List Byte) : (s.setBufBytes a bs).acesequence = s.acesequence := rfl
@[simp] theorem State.setBufBytes_aceactivecr (a : Nat) (bs : List Byte) : (s.setBufBytes a bs).aceactivecr = s.aceactivecr := rfl
@[simp] theorem State.setBufBytes_acehtrapmask (a : Nat) (bs : List Byte) : (s.setBufBytes a bs).acehtrapmask = s.acehtrapmask := rfl
@[simp] theorem State.setBufBytes_acehtrapvector (a : Nat) (bs : List Byte) : (s.setBufBytes a bs).acehtrapvector = s.acehtrapvector := rfl
@[simp] theorem State.setBufBytes_csk (a : Nat) (bs : List Byte) : (s.setBufBytes a bs).csk = s.csk := rfl
@[simp] theorem State.setBufBytes_lst (a : Nat) (bs : List Byte) : (s.setBufBytes a bs).lst = s.lst := rfl
@[simp] theorem State.setBufBytes_skt (a : Nat) (bs : List Byte) : (s.setBufBytes a bs).skt = s.skt := rfl
@[simp] theorem State.setBufBytes_nowHours (a : Nat) (bs : List Byte) : (s.setBufBytes a bs).nowHours = s.nowHours := rfl
@[simp] theorem State.setBufBytes_rngPos (a : Nat) (bs : List Byte) : (s.setBufBytes a bs).rngPos = s.rngPos := rfl
@[simp] theorem State.setBufBytes_freeTick (a : Nat) (bs : List Byte) : (s.setBufBytes a bs).freeTick = s.freeTick := rfl
@[simp] theorem State.setBufBytes_trap (a : Nat) (bs : List Byte) : (s.setBufBytes a bs).trap = s.trap := rfl
@[simp] theorem State.setBufBytes_events (a : Nat) (bs : List Byte) : (s.setBufBytes a bs).events = s.events := rfl

/-! ### `writeX` -/

@[simp] theorem State.writeX_cfg (r : Reg) (w : Word) : (s.writeX r w).cfg = s.cfg := by
  unfold State.writeX; split <;> rfl
@[simp] theorem State.writeX_pc (r : Reg) (w : Word) : (s.writeX r w).pc = s.pc := by
  unfold State.writeX; split <;> rfl
@[simp] theorem State.writeX_mode (r : Reg) (w : Word) : (s.writeX r w).mode = s.mode := by
  unfold State.writeX; split <;> rfl
@[simp] theorem State.writeX_hEnabled (r : Reg) (w : Word) : (s.writeX r w).hEnabled = s.hEnabled := by
  unfold State.writeX; split <;> rfl
@[simp] theorem State.writeX_virt (r : Reg) (w : Word) : (s.writeX r w).virt = s.virt := by
  unfold State.writeX; split <;> rfl
@[simp] theorem State.writeX_mem (r : Reg) (w : Word) : (s.writeX r w).mem = s.mem := by
  unfold State.writeX; split <;> rfl
@[simp] theorem State.writeX_v (r : Reg) (w : Word) : (s.writeX r w).v = s.v := by
  unfold State.writeX; split <;> rfl
@[simp] theorem State.writeX_vl (r : Reg) (w : Word) : (s.writeX r w).vl = s.vl := by
  unfold State.writeX; split <;> rfl
@[simp] theorem State.writeX_sew (r : Reg) (w : Word) : (s.writeX r w).sew = s.sew := by
  unfold State.writeX; split <;> rfl
@[simp] theorem State.writeX_cr (r : Reg) (w : Word) : (s.writeX r w).cr = s.cr := by
  unfold State.writeX; split <;> rfl
@[simp] theorem State.writeX_iobuf (r : Reg) (w : Word) : (s.writeX r w).iobuf = s.iobuf := by
  unfold State.writeX; split <;> rfl
@[simp] theorem State.writeX_aceerror (r : Reg) (w : Word) : (s.writeX r w).aceerror = s.aceerror := by
  unfold State.writeX; split <;> rfl
@[simp] theorem State.writeX_acestart (r : Reg) (w : Word) : (s.writeX r w).acestart = s.acestart := by
  unfold State.writeX; split <;> rfl
@[simp] theorem State.writeX_aceiobuflen (r : Reg) (w : Word) : (s.writeX r w).aceiobuflen = s.aceiobuflen := by
  unfold State.writeX; split <;> rfl
@[simp] theorem State.writeX_aceiobuftop (r : Reg) (w : Word) : (s.writeX r w).aceiobuftop = s.aceiobuftop := by
  unfold State.writeX; split <;> rfl
@[simp] theorem State.writeX_acesequence (r : Reg) (w : Word) : (s.writeX r w).acesequence = s.acesequence := by
  unfold State.writeX; split <;> rfl
@[simp] theorem State.writeX_aceactivecr (r : Reg) (w : Word) : (s.writeX r w).aceactivecr = s.aceactivecr := by
  unfold State.writeX; split <;> rfl
@[simp] theorem State.writeX_acehtrapmask (r : Reg) (w : Word) : (s.writeX r w).acehtrapmask = s.acehtrapmask := by
  unfold State.writeX; split <;> rfl
@[simp] theorem State.writeX_acehtrapvector (r : Reg) (w : Word) : (s.writeX r w).acehtrapvector = s.acehtrapvector := by
  unfold State.writeX; split <;> rfl
@[simp] theorem State.writeX_csk (r : Reg) (w : Word) : (s.writeX r w).csk = s.csk := by
  unfold State.writeX; split <;> rfl
@[simp] theorem State.writeX_lst (r : Reg) (w : Word) : (s.writeX r w).lst = s.lst := by
  unfold State.writeX; split <;> rfl
@[simp] theorem State.writeX_skt (r : Reg) (w : Word) : (s.writeX r w).skt = s.skt := by
  unfold State.writeX; split <;> rfl
@[simp] theorem State.writeX_nowHours (r : Reg) (w : Word) : (s.writeX r w).nowHours = s.nowHours := by
  unfold State.writeX; split <;> rfl
@[simp] theorem State.writeX_rngPos (r : Reg) (w : Word) : (s.writeX r w).rngPos = s.rngPos := by
  unfold State.writeX; split <;> rfl
@[simp] theorem State.writeX_freeTick (r : Reg) (w : Word) : (s.writeX r w).freeTick = s.freeTick := by
  unfold State.writeX; split <;> rfl
@[simp] theorem State.writeX_trap (r : Reg) (w : Word) : (s.writeX r w).trap = s.trap := by
  unfold State.writeX; split <;> rfl
@[simp] theorem State.writeX_events (r : Reg) (w : Word) : (s.writeX r w).events = s.events := by
  unfold State.writeX; split <;> rfl

/-! ### `invalidate` -/

@[simp] theorem State.invalidate_cfg (n : Fin 32) : (s.invalidate n).cfg = s.cfg := by
  unfold State.invalidate; split <;> rfl
@[simp] theorem State.invalidate_x (n : Fin 32) : (s.invalidate n).x = s.x := by
  unfold State.invalidate; split <;> rfl
@[simp] theorem State.invalidate_pc (n : Fin 32) : (s.invalidate n).pc = s.pc := by
  unfold State.invalidate; split <;> rfl
@[simp] theorem State.invalidate_mode (n : Fin 32) : (s.invalidate n).mode = s.mode := by
  unfold State.invalidate; split <;> rfl
@[simp] theorem State.invalidate_hEnabled (n : Fin 32) : (s.invalidate n).hEnabled = s.hEnabled := by
  unfold State.invalidate; split <;> rfl
@[simp] theorem State.invalidate_virt (n : Fin 32) : (s.invalidate n).virt = s.virt := by
  unfold State.invalidate; split <;> rfl
@[simp] theorem State.invalidate_mem (n : Fin 32) : (s.invalidate n).mem = s.mem := by
  unfold State.invalidate; split <;> rfl
@[simp] theorem State.invalidate_v (n : Fin 32) : (s.invalidate n).v = s.v := by
  unfold State.invalidate; split <;> rfl
@[simp] theorem State.invalidate_vl (n : Fin 32) : (s.invalidate n).vl = s.vl := by
  unfold State.invalidate; split <;> rfl
@[simp] theorem State.invalidate_sew (n : Fin 32) : (s.invalidate n).sew = s.sew := by
  unfold State.invalidate; split <;> rfl
@[simp] theorem State.invalidate_iobuf (n : Fin 32) : (s.invalidate n).iobuf = s.iobuf := by
  unfold State.invalidate; split <;> rfl
@[simp] theorem State.invalidate_aceerror (n : Fin 32) : (s.invalidate n).aceerror = s.aceerror := by
  unfold State.invalidate; split <;> rfl
@[simp] theorem State.invalidate_acestart (n : Fin 32) : (s.invalidate n).acestart = s.acestart := by
  unfold State.invalidate; split <;> rfl
@[simp] theorem State.invalidate_aceiobuflen (n : Fin 32) : (s.invalidate n).aceiobuflen = s.aceiobuflen := by
  unfold State.invalidate; split <;> rfl
@[simp] theorem State.invalidate_aceiobuftop (n : Fin 32) : (s.invalidate n).aceiobuftop = s.aceiobuftop := by
  unfold State.invalidate; split <;> rfl
@[simp] theorem State.invalidate_acesequence (n : Fin 32) : (s.invalidate n).acesequence = s.acesequence := by
  unfold State.invalidate; split <;> rfl
@[simp] theorem State.invalidate_aceactivecr (n : Fin 32) : (s.invalidate n).aceactivecr = s.aceactivecr := by
  unfold State.invalidate; split <;> rfl
@[simp] theorem State.invalidate_acehtrapmask (n : Fin 32) : (s.invalidate n).acehtrapmask = s.acehtrapmask := by
  unfold State.invalidate; split <;> rfl
@[simp] theorem State.invalidate_acehtrapvector (n : Fin 32) : (s.invalidate n).acehtrapvector = s.acehtrapvector := by
  unfold State.invalidate; split <;> rfl
@[simp] theorem State.invalidate_csk (n : Fin 32) : (s.invalidate n).csk = s.csk := by
  unfold State.invalidate; split <;> rfl
@[simp] theorem State.invalidate_lst (n : Fin 32) : (s.invalidate n).lst = s.lst := by
  unfold State.invalidate; split <;> rfl
@[simp] theorem State.invalidate_skt (n : Fin 32) : (s.invalidate n).skt = s.skt := by
  unfold State.invalidate; split <;> rfl
@[simp] theorem State.invalidate_nowHours (n : Fin 32) : (s.invalidate n).nowHours = s.nowHours := by
  unfold State.invalidate; split <;> rfl
@[simp] theorem State.invalidate_rngPos (n : Fin 32) : (s.invalidate n).rngPos = s.rngPos := by
  unfold State.invalidate; split <;> rfl
@[simp] theorem State.invalidate_freeTick (n : Fin 32) : (s.invalidate n).freeTick = s.freeTick := by
  unfold State.invalidate; split <;> rfl
@[simp] theorem State.invalidate_trap (n : Fin 32) : (s.invalidate n).trap = s.trap := by
  unfold State.invalidate; split <;> rfl
@[simp] theorem State.invalidate_events (n : Fin 32) : (s.invalidate n).events = s.events := by
  unfold State.invalidate; split <;> rfl

/-! ### `setSequence` -/

@[simp] theorem State.setSequence_cfg (q : BitVec 2) : (s.setSequence q).cfg = s.cfg := by
  unfold State.setSequence; split <;> rfl
@[simp] theorem State.setSequence_x (q : BitVec 2) : (s.setSequence q).x = s.x := by
  unfold State.setSequence; split <;> rfl
@[simp] theorem State.setSequence_pc (q : BitVec 2) : (s.setSequence q).pc = s.pc := by
  unfold State.setSequence; split <;> rfl
@[simp] theorem State.setSequence_mode (q : BitVec 2) : (s.setSequence q).mode = s.mode := by
  unfold State.setSequence; split <;> rfl
@[simp] theorem State.setSequence_hEnabled (q : BitVec 2) : (s.setSequence q).hEnabled = s.hEnabled := by
  unfold State.setSequence; split <;> rfl
@[simp] theorem State.setSequence_virt (q : BitVec 2) : (s.setSequence q).virt = s.virt := by
  unfold State.setSequence; split <;> rfl
@[simp] theorem State.setSequence_mem (q : BitVec 2) : (s.setSequence q).mem = s.mem := by
  unfold State.setSequence; split <;> rfl
@[simp] theorem State.setSequence_v (q : BitVec 2) : (s.setSequence q).v = s.v := by
  unfold State.setSequence; split <;> rfl
@[simp] theorem State.setSequence_vl (q : BitVec 2) : (s.setSequence q).vl = s.vl := by
  unfold State.setSequence; split <;> rfl
@[simp] theorem State.setSequence_sew (q : BitVec 2) : (s.setSequence q).sew = s.sew := by
  unfold State.setSequence; split <;> rfl
@[simp] theorem State.setSequence_cr (q : BitVec 2) : (s.setSequence q).cr = s.cr := by
  unfold State.setSequence; split <;> rfl
@[simp] theorem State.setSequence_iobuf (q : BitVec 2) : (s.setSequence q).iobuf = s.iobuf := by
  unfold State.setSequence; split <;> rfl
@[simp] theorem State.setSequence_aceerror (q : BitVec 2) : (s.setSequence q).aceerror = s.aceerror := by
  unfold State.setSequence; split <;> rfl
@[simp] theorem State.setSequence_acestart (q : BitVec 2) : (s.setSequence q).acestart = s.acestart := by
  unfold State.setSequence; split <;> rfl
@[simp] theorem State.setSequence_aceiobuflen (q : BitVec 2) : (s.setSequence q).aceiobuflen = s.aceiobuflen := by
  unfold State.setSequence; split <;> rfl
@[simp] theorem State.setSequence_aceiobuftop (q : BitVec 2) : (s.setSequence q).aceiobuftop = s.aceiobuftop := by
  unfold State.setSequence; split <;> rfl
@[simp] theorem State.setSequence_aceactivecr (q : BitVec 2) : (s.setSequence q).aceactivecr = s.aceactivecr := by
  unfold State.setSequence; split <;> rfl
@[simp] theorem State.setSequence_acehtrapmask (q : BitVec 2) : (s.setSequence q).acehtrapmask = s.acehtrapmask := by
  unfold State.setSequence; split <;> rfl
@[simp] theorem State.setSequence_acehtrapvector (q : BitVec 2) : (s.setSequence q).acehtrapvector = s.acehtrapvector := by
  unfold State.setSequence; split <;> rfl
@[simp] theorem State.setSequence_csk (q : BitVec 2) : (s.setSequence q).csk = s.csk := by
  unfold State.setSequence; split <;> rfl
@[simp] theorem State.setSequence_lst (q : BitVec 2) : (s.setSequence q).lst = s.lst := by
  unfold State.setSequence; split <;> rfl
@[simp] theorem State.setSequence_skt (q : BitVec 2) : (s.setSequence q).skt = s.skt := by
  unfold State.setSequence; split <;> rfl
@[simp] theorem State.setSequence_nowHours (q : BitVec 2) : (s.setSequence q).nowHours = s.nowHours := by
  unfold State.setSequence; split <;> rfl
@[simp] theorem State.setSequence_rngPos (q : BitVec 2) : (s.setSequence q).rngPos = s.rngPos := by
  unfold State.setSequence; split <;> rfl
@[simp] theorem State.setSequence_freeTick (q : BitVec 2) : (s.setSequence q).freeTick = s.freeTick := by
  unfold State.setSequence; split <;> rfl
@[simp] theorem State.setSequence_trap (q : BitVec 2) : (s.setSequence q).trap = s.trap := by
  unfold State.setSequence; split <;> rfl
@[simp] theorem State.setSequence_events (q : BitVec 2) : (s.setSequence q).events = s.events := by
  unfold State.setSequence; split <;> rfl

/-! ### `tick` -/

@[simp] theorem State.tick_cfg (a b : Operand) : (s.tick a b).cfg = s.cfg := by
  unfold State.tick; split <;> rfl
@[simp] theorem State.tick_x (a b : Operand) : (s.tick a b).x = s.x := by
  unfold State.tick; split <;> rfl
@[simp] theorem State.tick_pc (a b : Operand) : (s.tick a b).pc = s.pc := by
  unfold State.tick; split <;> rfl
@[simp] theorem State.tick_mode (a b : Operand) : (s.tick a b).mode = s.mode := by
  unfold State.tick; split <;> rfl
@[simp] theorem State.tick_hEnabled (a b : Operand) : (s.tick a b).hEnabled = s.hEnabled := by
  unfold State.tick; split <;> rfl
@[simp] theorem State.tick_virt (a b : Operand) : (s.tick a b).virt = s.virt := by
  unfold State.tick; split <;> rfl
@[simp] theorem State.tick_mem (a b : Operand) : (s.tick a b).mem = s.mem := by
  unfold State.tick; split <;> rfl
@[simp] theorem State.tick_v (a b : Operand) : (s.tick a b).v = s.v := by
  unfold State.tick; split <;> rfl
@[simp] theorem State.tick_vl (a b : Operand) : (s.tick a b).vl = s.vl := by
  unfold State.tick; split <;> rfl
@[simp] theorem State.tick_sew (a b : Operand) : (s.tick a b).sew = s.sew := by
  unfold State.tick; split <;> rfl
@[simp] theorem State.tick_cr (a b : Operand) : (s.tick a b).cr = s.cr := by
  unfold State.tick; split <;> rfl
@[simp] theorem State.tick_iobuf (a b : Operand) : (s.tick a b).iobuf = s.iobuf := by
  unfold State.tick; split <;> rfl
@[simp] theorem State.tick_aceerror (a b : Operand) : (s.tick a b).aceerror = s.aceerror := by
  unfold State.tick; split <;> rfl
@[simp] theorem State.tick_acestart (a b : Operand) : (s.tick a b).acestart = s.acestart := by
  unfold State.tick; split <;> rfl
@[simp] theorem State.tick_aceiobuflen (a b : Operand) : (s.tick a b).aceiobuflen = s.aceiobuflen := by
  unfold State.tick; split <;> rfl
@[simp] theorem State.tick_aceiobuftop (a b : Operand) : (s.tick a b).aceiobuftop = s.aceiobuftop := by
  unfold State.tick; split <;> rfl
@[simp] theorem State.tick_acesequence (a b : Operand) : (s.tick a b).acesequence = s.acesequence := by
  unfold State.tick; split <;> rfl
@[simp] theorem State.tick_aceactivecr (a b : Operand) : (s.tick a b).aceactivecr = s.aceactivecr := by
  unfold State.tick; split <;> rfl
@[simp] theorem State.tick_acehtrapmask (a b : Operand) : (s.tick a b).acehtrapmask = s.acehtrapmask := by
  unfold State.tick; split <;> rfl
@[simp] theorem State.tick_acehtrapvector (a b : Operand) : (s.tick a b).acehtrapvector = s.acehtrapvector := by
  unfold State.tick; split <;> rfl
@[simp] theorem State.tick_csk (a b : Operand) : (s.tick a b).csk = s.csk := by
  unfold State.tick; split <;> rfl
@[simp] theorem State.tick_lst (a b : Operand) : (s.tick a b).lst = s.lst := by
  unfold State.tick; split <;> rfl
@[simp] theorem State.tick_skt (a b : Operand) : (s.tick a b).skt = s.skt := by
  unfold State.tick; split <;> rfl
@[simp] theorem State.tick_nowHours (a b : Operand) : (s.tick a b).nowHours = s.nowHours := by
  unfold State.tick; split <;> rfl
@[simp] theorem State.tick_rngPos (a b : Operand) : (s.tick a b).rngPos = s.rngPos := by
  unfold State.tick; split <;> rfl
@[simp] theorem State.tick_trap (a b : Operand) : (s.tick a b).trap = s.trap := by
  unfold State.tick; split <;> rfl
@[simp] theorem State.tick_events (a b : Operand) : (s.tick a b).events = s.events := by
  unfold State.tick; split <;> rfl

/-! ### `writeOperand` -/

@[simp] theorem State.writeOperand_cfg (o : Operand) (n w : Nat) : (s.writeOperand o n w).cfg = s.cfg := by
  cases o <;> simp only [State.writeOperand, State.writeVec, State.setBufBytes]
@[simp] theorem State.writeOperand_x (o : Operand) (n w : Nat) : (s.writeOperand o n w).x = s.x := by
  cases o <;> simp only [State.writeOperand, State.writeVec, State.setBufBytes]
@[simp] theorem State.writeOperand_pc (o : Operand) (n w : Nat) : (s.writeOperand o n w).pc = s.pc := by
  cases o <;> simp only [State.writeOperand, State.writeVec, State.setBufBytes]
@[simp] theorem State.writeOperand_mode (o : Operand) (n w : Nat) : (s.writeOperand o n w).mode = s.mode := by
  cases o <;> simp only [State.writeOperand, State.writeVec, State.setBufBytes]
@[simp] theorem State.writeOperand_hEnabled (o : Operand) (n w : Nat) : (s.writeOperand o n w).hEnabled = s.hEnabled := by
  cases o <;> simp only [State.writeOperand, State.writeVec, State.setBufBytes]
@[simp] theorem State.writeOperand_virt (o : Operand) (n w : Nat) : (s.writeOperand o n w).virt = s.virt := by
  cases o <;> simp only [State.writeOperand, State.writeVec, State.setBufBytes]
@[simp] theorem State.writeOperand_mem (o : Operand) (n w : Nat) : (s.writeOperand o n w).mem = s.mem := by
  cases o <;> simp only [State.writeOperand, State.writeVec, State.setBufBytes]
@[simp] theorem State.writeOperand_vl (o : Operand) (n w : Nat) : (s.writeOperand o n w).vl = s.vl := by
  cases o <;> simp only [State.writeOperand, State.writeVec, State.setBufBytes]
@[simp] theorem State.writeOperand_sew (o : Operand) (n w : Nat) : (s.writeOperand o n w).sew = s.sew := by
  cases o <;> simp only [State.writeOperand, State.writeVec, State.setBufBytes]
@[simp] theorem State.writeOperand_cr (o : Operand) (n w : Nat) : (s.writeOperand o n w).cr = s.cr := by
  cases o <;> simp only [State.writeOperand, State.writeVec, State.setBufBytes]
@[simp] theorem State.writeOperand_aceerror (o : Operand) (n w : Nat) : (s.writeOperand o n w).aceerror = s.aceerror := by
  cases o <;> simp only [State.writeOperand, State.writeVec, State.setBufBytes]
@[simp] theorem State.writeOperand_acestart (o : Operand) (n w : Nat) : (s.writeOperand o n w).acestart = s.acestart := by
  cases o <;> simp only [State.writeOperand, State.writeVec, State.setBufBytes]
@[simp] theorem State.writeOperand_aceiobuflen (o : Operand) (n w : Nat) : (s.writeOperand o n w).aceiobuflen = s.aceiobuflen := by
  cases o <;> simp only [State.writeOperand, State.writeVec, State.setBufBytes]
@[simp] theorem State.writeOperand_aceiobuftop (o : Operand) (n w : Nat) : (s.writeOperand o n w).aceiobuftop = s.aceiobuftop := by
  cases o <;> simp only [State.writeOperand, State.writeVec, State.setBufBytes]
@[simp] theorem State.writeOperand_acesequence (o : Operand) (n w : Nat) : (s.writeOperand o n w).acesequence = s.acesequence := by
  cases o <;> simp only [State.writeOperand, State.writeVec, State.setBufBytes]
@[simp] theorem State.writeOperand_aceactivecr (o : Operand) (n w : Nat) : (s.writeOperand o n w).aceactivecr = s.aceactivecr := by
  cases o <;> simp only [State.writeOperand, State.writeVec, State.setBufBytes]
@[simp] theorem State.writeOperand_acehtrapmask (o : Operand) (n w : Nat) : (s.writeOperand o n w).acehtrapmask = s.acehtrapmask := by
  cases o <;> simp only [State.writeOperand, State.writeVec, State.setBufBytes]
@[simp] theorem State.writeOperand_acehtrapvector (o : Operand) (n w : Nat) : (s.writeOperand o n w).acehtrapvector = s.acehtrapvector := by
  cases o <;> simp only [State.writeOperand, State.writeVec, State.setBufBytes]
@[simp] theorem State.writeOperand_csk (o : Operand) (n w : Nat) : (s.writeOperand o n w).csk = s.csk := by
  cases o <;> simp only [State.writeOperand, State.writeVec, State.setBufBytes]
@[simp] theorem State.writeOperand_lst (o : Operand) (n w : Nat) : (s.writeOperand o n w).lst = s.lst := by
  cases o <;> simp only [State.writeOperand, State.writeVec, State.setBufBytes]
@[simp] theorem State.writeOperand_skt (o : Operand) (n w : Nat) : (s.writeOperand o n w).skt = s.skt := by
  cases o <;> simp only [State.writeOperand, State.writeVec, State.setBufBytes]
@[simp] theorem State.writeOperand_nowHours (o : Operand) (n w : Nat) : (s.writeOperand o n w).nowHours = s.nowHours := by
  cases o <;> simp only [State.writeOperand, State.writeVec, State.setBufBytes]
@[simp] theorem State.writeOperand_rngPos (o : Operand) (n w : Nat) : (s.writeOperand o n w).rngPos = s.rngPos := by
  cases o <;> simp only [State.writeOperand, State.writeVec, State.setBufBytes]
@[simp] theorem State.writeOperand_freeTick (o : Operand) (n w : Nat) : (s.writeOperand o n w).freeTick = s.freeTick := by
  cases o <;> simp only [State.writeOperand, State.writeVec, State.setBufBytes]
@[simp] theorem State.writeOperand_trap (o : Operand) (n w : Nat) : (s.writeOperand o n w).trap = s.trap := by
  cases o <;> simp only [State.writeOperand, State.writeVec, State.setBufBytes]
@[simp] theorem State.writeOperand_events (o : Operand) (n w : Nat) : (s.writeOperand o n w).events = s.events := by
  cases o <;> simp only [State.writeOperand, State.writeVec, State.setBufBytes]

/-! ### `writeBytes` -/

@[simp] theorem State.writeBytes_cfg (a : Nat) (bs : List Byte) : (s.writeBytes a bs).cfg = s.cfg := by
  induction bs generalizing s a with
  | nil => rfl
  | cons b bs ih => exact ih _ _
@[simp] theorem State.writeBytes_x (a : Nat) (bs : List Byte) : (s.writeBytes a bs).x = s.x := by
  induction bs generalizing s a with
  | nil => rfl
  | cons b bs ih => exact ih _ _
@[simp] theorem State.writeBytes_pc (a : Nat) (bs : List Byte) : (s.writeBytes a bs).pc = s.pc := by
  induction bs generalizing s a with
  | nil => rfl
  | cons b bs ih => exact ih _ _
@[simp] theorem State.writeBytes_mode (a : Nat) (bs : List Byte) : (s.writeBytes a bs).mode = s.mode := by
  induction bs generalizing s a with
  | nil => rfl
  | cons b bs ih => exact ih _ _
@[simp] theorem State.writeBytes_hEnabled (a : Nat) (bs : List Byte) : (s.writeBytes a bs).hEnabled = s.hEnabled := by
  induction bs generalizing s a with
  | nil => rfl
  | cons b bs ih => exact ih _ _
@[simp] theorem State.writeBytes_virt (a : Nat) (bs : List Byte) : (s.writeBytes a bs).virt = s.virt := by
  induction bs generalizing s a with
  | nil => rfl
  | cons b bs ih => exact ih _ _
@[simp] theorem State.writeBytes_v (a : Nat) (bs : List Byte) : (s.writeBytes a bs).v = s.v := by
  induction bs generalizing s a with
  | nil => rfl
  | cons b bs ih => exact ih _ _
@[simp] theorem State.writeBytes_vl (a : Nat) (bs : List Byte) : (s.writeBytes a bs).vl = s.vl := by
  induction bs generalizing s a with
  | nil => rfl
  | cons b bs ih => exact ih _ _
@[simp] theorem State.writeBytes_sew (a : Nat) (bs : List Byte) : (s.writeBytes a bs).sew = s.sew := by
  induction bs generalizing s a with
  | nil => rfl
  | cons b bs ih => exact ih _ _
@[simp] theorem State.writeBytes_cr (a : Nat) (bs : List Byte) : (s.writeBytes a bs).cr = s.cr := by
  induction bs generalizing s a with
  | nil => rfl
  | cons b bs ih => exact ih _ _
@[simp] theorem State.writeBytes_iobuf (a : Nat) (bs : List Byte) : (s.writeBytes a bs).iobuf = s.iobuf := by
  induction bs generalizing s a with
  | nil => rfl
  | cons b bs ih => exact ih _ _
@[simp] theorem State.writeBytes_aceerror (a : Nat) (bs : List Byte) : (s.writeBytes a bs).aceerror = s.aceerror := by
  induction bs generalizing s a with
  | nil => rfl
  | cons b bs ih => exact ih _ _
@[simp] theorem State.writeBytes_acestart (a : Nat) (bs : List Byte) : (s.writeBytes a bs).acestart = s.acestart := by
  induction bs generalizing s a with
  | nil => rfl
  | cons b bs ih => exact ih _ _
@[simp] theorem State.writeBytes_aceiobuflen (a : Nat) (bs : List Byte) : (s.writeBytes a bs).aceiobuflen = s.aceiobuflen := by
  induction bs generalizing s a with
  | nil => rfl
  | cons b bs ih => exact ih _ _
@[simp] theorem State.writeBytes_aceiobuftop (a : Nat) (bs : List Byte) : (s.writeBytes a bs).aceiobuftop = s.aceiobuftop := by
  induction bs generalizing s a with
  | nil => rfl
  | cons b bs ih => exact ih _ _
@[simp] theorem State.writeBytes_acesequence (a : Nat) (bs : List Byte) : (s.writeBytes a bs).acesequence = s.acesequence := by
  induction bs generalizing s a with
  | nil => rfl
  | cons b bs ih => exact ih _ _
@[simp] theorem State.writeBytes_aceactivecr (a : Nat) (bs : List Byte) : (s.writeBytes a bs).aceactivecr = s.aceactivecr := by
  induction bs generalizing s a with
  | nil => rfl
  | cons b bs ih => exact ih _ _
@[simp] theorem State.writeBytes_acehtrapmask (a : Nat) (bs : List Byte) : (s.writeBytes a bs).acehtrapmask = s.acehtrapmask := by
  induction bs generalizing s a with
  | nil => rfl
  | cons b bs ih => exact ih _ _
@[simp] theorem State.writeBytes_acehtrapvector (a : Nat) (bs : List Byte) : (s.writeBytes a bs).acehtrapvector = s.acehtrapvector := by
  induction bs generalizing s a with
  | nil => rfl
  | cons b bs ih => exact ih _ _
@[simp] theorem State.writeBytes_csk (a : Nat) (bs : List Byte) : (s.writeBytes a bs).csk = s.csk := by
  induction bs generalizing s a with
  | nil => rfl
  | cons b bs ih => exact ih _ _
@[simp] theorem State.writeBytes_lst (a : Nat) (bs : List Byte) : (s.writeBytes a bs).lst = s.lst := by
  induction bs generalizing s a with
  | nil => rfl
  | cons b bs ih => exact ih _ _
@[simp] theorem State.writeBytes_skt (a : Nat) (bs : List Byte) : (s.writeBytes a bs).skt = s.skt := by
  induction bs generalizing s a with
  | nil => rfl
  | cons b bs ih => exact ih _ _
@[simp] theorem State.writeBytes_nowHours (a : Nat) (bs : List Byte) : (s.writeBytes a bs).nowHours = s.nowHours := by
  induction bs generalizing s a with
  | nil => rfl
  | cons b bs ih => exact ih _ _
@[simp] theorem State.writeBytes_rngPos (a : Nat) (bs : List Byte) : (s.writeBytes a bs).rngPos = s.rngPos := by
  induction bs generalizing s a with
  | nil => rfl
  | cons b bs ih => exact ih _ _
@[simp] theorem State.writeBytes_freeTick (a : Nat) (bs : List Byte) : (s.writeBytes a bs).freeTick = s.freeTick := by
  induction bs generalizing s a with
  | nil => rfl
  | cons b bs ih => exact ih _ _
@[simp] theorem State.writeBytes_trap (a : Nat) (bs : List Byte) : (s.writeBytes a bs).trap = s.trap := by
  induction bs generalizing s a with
  | nil => rfl
  | cons b bs ih => exact ih _ _
@[simp] theorem State.writeBytes_events (a : Nat) (bs : List Byte) : (s.writeBytes a bs).events = s.events := by
  induction bs generalizing s a with
  | nil => rfl
  | cons b bs ih => exact ih _ _

/-! ### `writeVec` -/

@[simp] theorem State.writeVec_cfg (r : Reg) (new : Nat) : (s.writeVec r new).cfg = s.cfg := by unfold State.writeVec; rfl
@[simp] theorem State.writeVec_x (r : Reg) (new : Nat) : (s.writeVec r new).x = s.x := by unfold State.writeVec; rfl
@[simp] theorem State.writeVec_pc (r : Reg) (new : Nat) : (s.writeVec r new).pc = s.pc := by unfold State.writeVec; rfl
@[simp] theorem State.writeVec_mode (r : Reg) (new : Nat) : (s.writeVec r new).mode = s.mode := by unfold State.writeVec; rfl
@[simp] theorem State.writeVec_hEnabled (r : Reg) (new : Nat) : (s.writeVec r new).hEnabled = s.hEnabled := by unfold State.writeVec; rfl
@[simp] theorem State.writeVec_virt (r : Reg) (new : Nat) : (s.writeVec r new).virt = s.virt := by unfold State.writeVec; rfl
@[simp] theorem State.writeVec_mem (r : Reg) (new : Nat) : (s.writeVec r new).mem = s.mem := by unfold State.writeVec; rfl
@[simp] theorem State.writeVec_vl (r : Reg) (new : Nat) : (s.writeVec r new).vl = s.vl := by unfold State.writeVec; rfl
@[simp] theorem State.writeVec_sew (r : Reg) (new : Nat) : (s.writeVec r new).sew = s.sew := by unfold State.writeVec; rfl
@[simp] theorem State.writeVec_cr (r : Reg) (new : Nat) : (s.writeVec r new).cr = s.cr := by unfold State.writeVec; rfl
@[simp] theorem State.writeVec_iobuf (r : Reg) (new : Nat) : (s.writeVec r new).iobuf = s.iobuf := by unfold State.writeVec; rfl
@[simp] theorem State.writeVec_aceerror (r : Reg) (new : Nat) : (s.writeVec r new).aceerror = s.aceerror := by unfold State.writeVec; rfl
@[simp] theorem State.writeVec_acestart (r : Reg) (new : Nat) : (s.writeVec r new).acestart = s.acestart := by unfold State.writeVec; rfl
@[simp] theorem State.writeVec_aceiobuflen (r : Reg) (new : Nat) : (s.writeVec r new).aceiobuflen = s.aceiobuflen := by unfold State.writeVec; rfl
@[simp] theorem State.writeVec_aceiobuftop (r : Reg) (new : Nat) : (s.writeVec r new).aceiobuftop = s.aceiobuftop := by unfold State.writeVec; rfl
@[simp] theorem State.writeVec_acesequence (r : Reg) (new : Nat) : (s.writeVec r new).acesequence = s.acesequence := by unfold State.writeVec; rfl
@[simp] theorem State.writeVec_aceactivecr (r : Reg) (new : Nat) : (s.writeVec r new).aceactivecr = s.aceactivecr := by unfold State.writeVec; rfl
@[simp] theorem State.writeVec_acehtrapmask (r : Reg) (new : Nat) : (s.writeVec r new).acehtrapmask = s.acehtrapmask := by unfold State.writeVec; rfl
@[simp] theorem State.writeVec_acehtrapvector (r : Reg) (new : Nat) : (s.writeVec r new).acehtrapvector = s.acehtrapvector := by unfold State.writeVec; rfl
@[simp] theorem State.writeVec_csk (r : Reg) (new : Nat) : (s.writeVec r new).csk = s.csk := by unfold State.writeVec; rfl
@[simp] theorem State.writeVec_lst (r : Reg) (new : Nat) : (s.writeVec r new).lst = s.lst := by unfold State.writeVec; rfl
@[simp] theorem State.writeVec_skt (r : Reg) (new : Nat) : (s.writeVec r new).skt = s.skt := by unfold State.writeVec; rfl
@[simp] theorem State.writeVec_nowHours (r : Reg) (new : Nat) : (s.writeVec r new).nowHours = s.nowHours := by unfold State.writeVec; rfl
@[simp] theorem State.writeVec_rngPos (r : Reg) (new : Nat) : (s.writeVec r new).rngPos = s.rngPos := by unfold State.writeVec; rfl
@[simp] theorem State.writeVec_freeTick (r : Reg) (new : Nat) : (s.writeVec r new).freeTick = s.freeTick := by unfold State.writeVec; rfl
@[simp] theorem State.writeVec_trap (r : Reg) (new : Nat) : (s.writeVec r new).trap = s.trap := by unfold State.writeVec; rfl
@[simp] theorem State.writeVec_events (r : Reg) (new : Nat) : (s.writeVec r new).events = s.events := by unfold State.writeVec; rfl

end Sys2Proof.Machine
end

