-- ==== Sys2Proof/Laws/Memory.lean ====
section
/-! SUPPORT. Laws of the memory: what a read finds after a write, and that every operation keeps the canonical form. -/
namespace Sys2Proof.Machine
set_option Elab.async false

/-! ### One byte -/

/-- An address below every listed one reads as unlisted. -/
theorem Memory.read_below {m : List Host.Cell} {a : Nat} (h : ∀ c ∈ m, a < c.1) : Memory.read m a = 0 := by
  induction m with
  | nil => rfl
  | cons d m ih =>
    have h1 := h d (by simp)
    have : a ≠ d.1 := by omega
    simp only [Memory.read, this, if_false]
    exact ih fun c hc => h c (by simp [hc])

theorem Memory.read_write_same {m : List Host.Cell} (h : Memory.wf m = true) (a : Nat) (b : Byte) :
    Memory.read (Memory.write m a b) a = b := by
  induction m with
  | nil => simp only [Memory.write]; split <;> simp_all [Memory.read]
  | cons c m ih =>
    obtain ⟨k, v⟩ := c
    simp only [Memory.wf, Bool.and_eq_true, decide_eq_true_eq, List.pairwise_cons, List.all_cons] at h ih
    obtain ⟨⟨hlt, hp⟩, hv, ha⟩ := h
    simp only [Memory.write]
    split
    · split
      · rename_i hak hb
        have : a ≠ k := by omega
        subst hb
        simp only [Memory.read, this, if_false]
        exact Memory.read_below fun c hc => by have := hlt c hc; omega
      · simp [Memory.read]
    · split
      · rename_i hk
        subst hk
        split
        · rename_i hb
          subst hb
          exact Memory.read_below fun c hc => hlt c hc
        · simp [Memory.read]
      · rename_i h1 h2
        simp only [Memory.read, h2, if_false]
        exact ih ⟨hp, ha⟩

theorem Memory.read_write_other (m : List Host.Cell) {a a' : Nat} (b : Byte) (h : a' ≠ a) :
    Memory.read (Memory.write m a b) a' = Memory.read m a' := by
  induction m with
  | nil => simp only [Memory.write]; split <;> simp [Memory.read, h]
  | cons c m ih =>
    obtain ⟨k, v⟩ := c
    simp only [Memory.write]
    split
    · split
      · rfl
      · simp [Memory.read, h]
    · split
      · rename_i hk
        subst hk
        split <;> simp [Memory.read, h]
      · simp only [Memory.read]
        split
        · rfl
        · exact ih

/-- Every address a write leaves in the list was there or is the one written. -/
theorem Memory.mem_write {m : List Host.Cell} {a : Nat} {b : Byte} {c : Host.Cell} (h : c ∈ Memory.write m a b) :
    c ∈ m ∨ (c = (a, b) ∧ b ≠ 0) := by
  induction m with
  | nil =>
    simp only [Memory.write] at h
    split at h
    · simp at h
    · rename_i hb; simp at h; exact .inr ⟨h, hb⟩
  | cons d m ih =>
    obtain ⟨k, v⟩ := d
    simp only [Memory.write] at h
    split at h
    · split at h
      · exact .inl h
      · rename_i hb
        simp only [List.mem_cons] at h ⊢
        rcases h with h | h
        · exact .inr ⟨h, hb⟩
        · exact .inl h
    · split at h
      · split at h
        · exact .inl (by simp [h])
        · rename_i hb
          simp only [List.mem_cons] at h ⊢
          rcases h with h | h
          · exact .inr ⟨h, hb⟩
          · exact .inl (.inr h)
      · simp only [List.mem_cons] at h ⊢
        rcases h with h | h
        · exact .inl (.inl h)
        · rcases ih h with h | h
          · exact .inl (.inr h)
          · exact .inr h

theorem Memory.write_wf {m : List Host.Cell} (h : Memory.wf m = true) (a : Nat) (b : Byte) :
    Memory.wf (Memory.write m a b) = true := by
  simp only [Memory.wf, Bool.and_eq_true, decide_eq_true_eq, List.all_eq_true] at h ⊢
  obtain ⟨hp, ha⟩ := h
  refine ⟨?_, ?_⟩
  · induction m with
    | nil => simp only [Memory.write]; split <;> simp
    | cons d m ih =>
      obtain ⟨k, v⟩ := d
      rw [List.pairwise_cons] at hp
      simp only [Memory.write]
      split
      · rename_i hk
        split
        · exact List.pairwise_cons.2 hp
        · refine List.pairwise_cons.2 ⟨?_, List.pairwise_cons.2 hp⟩
          intro c hc
          simp only [List.mem_cons] at hc
          rcases hc with rfl | hc
          · exact hk
          · exact Nat.lt_trans hk (hp.1 c hc)
      · split
        · rename_i hk
          subst hk
          split
          · exact hp.2
          · exact List.pairwise_cons.2 hp
        · rename_i h1 h2
          refine List.pairwise_cons.2 ⟨?_, ih hp.2 fun c hc => ha c (by simp [hc])⟩
          intro c hc
          rcases Memory.mem_write hc with hc | hc
          · exact hp.1 c hc
          · rw [hc.1]; simp only; omega
  · intro c hc
    rcases Memory.mem_write hc with hc | hc
    · exact ha c hc
    · rw [hc.1]; simpa using hc.2

/-! ### Runs of bytes -/

@[simp] theorem State.readBytes_length (s : State) (a n : Nat) : (s.readBytes a n).length = n := by
  induction n generalizing a with
  | zero => rfl
  | succ n ih => simp [State.readBytes, ih]

/-- What is read depends on the memory and `XLEN` alone. -/
theorem State.readBytes_congr {s t : State} (hm : t.mem = s.mem) (hc : t.cfg = s.cfg) (a n : Nat) :
    t.readBytes a n = s.readBytes a n := by
  induction n generalizing a with
  | zero => rfl
  | succ n ih => simp [State.readBytes, ih, hm, hc]

theorem State.writeBytes_wf {s : State} (h : s.MemInv) (a : Nat) (bs : List Byte) : (s.writeBytes a bs).MemInv := by
  induction bs generalizing s a with
  | nil => exact h
  | cons b bs ih =>
    exact ih (s := { s with mem := Memory.write s.mem (byteAddr s.cfg a) b }) (Memory.write_wf h _ _) (a + 1)

theorem State.writeBytes_outside (s : State) (ea : Nat) (bs : List Byte) (a : Nat)
    (h : s.Outside ea bs.length a) : Memory.read (s.writeBytes ea bs).mem a = Memory.read s.mem a := by
  induction bs generalizing s ea with
  | nil => rfl
  | cons b bs ih =>
    have h0 := h 0 (by simp)
    rw [State.writeBytes, ih]
    · exact Memory.read_write_other _ _ (by simpa [byteAddr] using h0)
    · intro i hi
      have := h (i + 1) (by simpa using hi)
      have e : ea + 1 + i = ea + (i + 1) := by omega
      simpa [e] using this

end Sys2Proof.Machine
end

