-- ==== Sys2Proof/Laws/Header.lean ====
section
/-! SUPPORT. What setting one field of a Metadata Header does to each bit and each field. -/
namespace Sys2Proof.Machine
set_option Elab.async false

/-- A bit of a header after a field is set. -/
theorem getLsbD_setField (mh : BitVec 64) (lo : Nat) {w : Nat} (v : BitVec w) (i : Nat) (hi : i < 64) :
    (setField mh lo v).getLsbD i = if lo ≤ i ∧ i < lo + w then v.getLsbD (i - lo) else mh.getLsbD i := by
  unfold setField
  simp only [BitVec.getLsbD_or, BitVec.getLsbD_and, BitVec.getLsbD_not, BitVec.getLsbD_shiftLeft,
    BitVec.getLsbD_setWidth, BitVec.getLsbD_allOnes, hi, decide_true, Bool.true_and]
  have h64 : i - lo < 64 := by omega
  by_cases h1 : lo ≤ i
  · by_cases h2 : i < lo + w
    · have : i - lo < w := by omega
      rw [if_pos ⟨h1, h2⟩]
      simp [h64, this, Nat.not_lt.2 h1]
    · have : ¬ i - lo < w := by omega
      simp [h1, h2, this, BitVec.getLsbD_of_ge v (i - lo) (by omega)]
  · simp [h1, (by omega : i < lo)]

/-- A field other than the one set keeps its value. -/
theorem extract_setField_other (mh : BitVec 64) (lo : Nat) {w : Nat} (v : BitVec w) (lo' w' : Nat) (h : lo' + w' ≤ 64)
    (hd : lo' + w' ≤ lo ∨ lo + w ≤ lo') : (setField mh lo v).extractLsb' lo' w' = mh.extractLsb' lo' w' := by
  apply BitVec.eq_of_getLsbD_eq
  intro i hi
  simp only [BitVec.getLsbD_extractLsb', hi, decide_true, Bool.true_and]
  rw [getLsbD_setField _ _ _ _ (by omega), if_neg (by omega)]

/-- The field set takes the value. -/
theorem extract_setField_same (mh : BitVec 64) (lo : Nat) {w : Nat} (v : BitVec w) (h : lo + w ≤ 64) :
    (setField mh lo v).extractLsb' lo w = v := by
  apply BitVec.eq_of_getLsbD_eq
  intro i hi
  simp only [BitVec.getLsbD_extractLsb', hi, decide_true, Bool.true_and]
  rw [getLsbD_setField _ _ _ _ (by omega), if_pos (by omega)]
  congr 1
  omega

/-- Setting a field to the value it has changes nothing. -/
theorem setField_extract (mh : BitVec 64) (lo w : Nat) :
    setField mh lo (mh.extractLsb' lo w) = mh := by
  apply BitVec.eq_of_getLsbD_eq
  intro i hi
  rw [getLsbD_setField _ _ _ _ hi]
  split
  · simp only [BitVec.getLsbD_extractLsb', (by omega : i - lo < w), decide_true, Bool.true_and]
    congr 1
    omega
  · rfl

/-- The fields of a header after its _StateNumber_ is set. -/
theorem mhSetState_fields (mh : BitVec 64) (sn : BitVec 4) :
    mhFormat (mhSetState mh sn) = mhFormat mh ∧ mhAlgorithm (mhSetState mh sn) = mhAlgorithm mh ∧
      mhPolicy (mhSetState mh sn) = mhPolicy mh ∧ mhProtection (mhSetState mh sn) = mhProtection mh ∧
      mhKeyType (mhSetState mh sn) = mhKeyType mh ∧ mhLocality (mhSetState mh sn) = mhLocality mh ∧
      mhUsage (mhSetState mh sn) = mhUsage mh ∧ mhAdditional (mhSetState mh sn) = mhAdditional mh ∧
      mhExpiration (mhSetState mh sn) = mhExpiration mh ∧ mhState (mhSetState mh sn) = sn := by
  unfold mhSetState
  refine ⟨?_, ?_, ?_, ?_, ?_, ?_, ?_, ?_, ?_, extract_setField_same _ _ _ (by omega)⟩
  case refine_5 =>
    unfold mhKeyType
    rw [getLsbD_setField _ _ _ _ (by omega), if_neg (by omega)]
  all_goals exact extract_setField_other _ _ _ _ _ (by omega) (by omega)

/-- Setting the _StateNumber_ a header has changes nothing. -/
@[simp] theorem mhSetState_self (mh : BitVec 64) : mhSetState mh (mhState mh) = mh :=
  setField_extract mh 17 4

/-- The fields of a header after its _AdditionalData_ is set. -/
theorem mhSetAdditional_fields (mh : BitVec 64) (n : BitVec 14) :
    mhFormat (mhSetAdditional mh n) = mhFormat mh ∧ mhAlgorithm (mhSetAdditional mh n) = mhAlgorithm mh ∧
      mhPolicy (mhSetAdditional mh n) = mhPolicy mh ∧ mhProtection (mhSetAdditional mh n) = mhProtection mh ∧
      mhKeyType (mhSetAdditional mh n) = mhKeyType mh ∧ mhLocality (mhSetAdditional mh n) = mhLocality mh ∧
      mhUsage (mhSetAdditional mh n) = mhUsage mh ∧ mhState (mhSetAdditional mh n) = mhState mh ∧
      mhExpiration (mhSetAdditional mh n) = mhExpiration mh ∧ mhAdditional (mhSetAdditional mh n) = n := by
  unfold mhSetAdditional
  refine ⟨?_, ?_, ?_, ?_, ?_, ?_, ?_, ?_, ?_, extract_setField_same _ _ _ (by omega)⟩
  case refine_5 =>
    unfold mhKeyType
    rw [getLsbD_setField _ _ _ _ (by omega), if_neg (by omega)]
  all_goals exact extract_setField_other _ _ _ _ _ (by omega) (by omega)

/-- `CR_cost` depends on three fields. -/
theorem crCost_of_fields {c : Config} {m m' : BitVec 64} (ha : mhAlgorithm m' = mhAlgorithm m)
    (hp : mhProtection m' = mhProtection m) (hk : mhKeyType m' = mhKeyType m) : crCost c m' = crCost c m := by
  unfold crCost
  rw [ha, hp, hk]

/-- The algorithm of a header depends on two fields. -/
theorem algEntry_of_fields {c : Config} {m m' : BitVec 64} (ha : mhAlgorithm m' = mhAlgorithm m)
    (hp : mhPolicy m' = mhPolicy m) : algEntry c m' = algEntry c m := by
  unfold algEntry
  rw [ha, hp]

end Sys2Proof.Machine
end

