-- ==== Sys2Proof/Laws/Ops.lean ====
section
/-! SUPPORT. For each shared operation, what it answers and when. -/
namespace Sys2Proof.Machine
set_option Elab.async false

/-! ### `Except` -/

@[simp] theorem bind_ok {σ α β : Type} (a : α) (f : α → Except σ β) : (Except.ok a >>= f) = f a := rfl

@[simp] theorem bind_error {σ α β : Type} (e : σ) (f : α → Except σ β) : (Except.error e >>= f) = .error e := rfl

@[simp] theorem pure_eq {σ α : Type} (a : α) : (pure a : Except σ α) = .ok a := rfl

@[simp] theorem finish_ok (s : State) : finish (.ok s) = .next s := rfl

@[simp] theorem finish_error (s : State) : finish (.error s) = .next s := rfl

/-- An instruction over the common steps always has a next state. -/
theorem finish_next (r : Except State State) : ∃ t, finish r = .next t := by cases r <;> exact ⟨_, rfl⟩

/-- A computation with a first part ends in the first part's end or goes on with its value. -/
theorem bind_cases {σ α β : Type} {x : Except σ α} {f : α → Except σ β} {P : Except σ β → Prop}
    (he : ∀ e, x = .error e → P (.error e)) (ho : ∀ a, x = .ok a → P (f a)) : P (x >>= f) := by
  cases x with
  | error e => exact he e rfl
  | ok a => exact ho a rfl

/-! ### Widths -/

theorem truncX_lt (c : Config) (w : Word) : (truncX c w).toNat < 2 ^ c.xlen := by
  unfold truncX Config.xlen
  split
  · exact w.isLt
  · rw [BitVec.toNat_setWidth_of_le (by omega)]
    exact BitVec.isLt _

@[simp] theorem truncX_truncX (c : Config) (w : Word) : truncX c (truncX c w) = truncX c w := by
  unfold truncX
  split
  · rfl
  · ext i hi
    simp only [BitVec.getElem_setWidth, BitVec.getLsbD_setWidth]
    by_cases h : i < 32 <;> simp [h]
    omega

theorem addX_lt (c : Config) (a b : Word) : (addX c a b).toNat < 2 ^ c.xlen := truncX_lt c _

/-! ### Registers and CRs -/

@[simp] theorem State.readX_zero (s : State) : s.readX 0 = 0 := rfl

@[simp] theorem State.writeX_zero (s : State) (v : Word) : s.writeX 0 v = s := rfl

theorem State.readX_writeX_same (s : State) {r : Reg} (h : r ≠ 0) (v : Word) :
    (s.writeX r v).readX r = truncX s.cfg v := by
  simp only [State.readX, State.writeX, if_neg h, Vector.getElem_set_self, truncX_truncX]

theorem State.readX_writeX_other (s : State) {r q : Reg} (h : q ≠ r) (v : Word) :
    (s.writeX r v).readX q = s.readX q := by
  unfold State.readX State.writeX
  by_cases hr : r = 0
  · simp [hr]
  · by_cases hq : q = 0
    · simp [hq]
    · have : r.toNat ≠ q.toNat := fun e => h (BitVec.eq_of_toNat_eq e.symm)
      simp only [hr, hq, if_false]
      rw [Vector.getElem_set_ne _ _ this]

@[simp] theorem State.getCR_setCR_same (s : State) (n : Fin 32) (c : CR) : (s.setCR n c).getCR n = c := by
  simp [State.getCR]

theorem State.getCR_setCR_other (s : State) {n m : Fin 32} (h : m ≠ n) (c : CR) :
    (s.setCR n c).getCR m = s.getCR m := by
  have : n.val ≠ m.val := fun e => h (Fin.ext e.symm)
  simp [State.getCR, Vector.getElem_set_ne _ _ this]

/-- What `invalidate` leaves in a CR. -/
theorem State.getCR_invalidate (s : State) (n m : Fin 32) :
    (s.invalidate n).getCR m =
      if m = n then
        match s.getCR n with
        | .unconfigured => .unconfigured
        | .configured cc => .configured (ccInvalid cc)
      else s.getCR m := by
  unfold State.invalidate
  by_cases e : m = n
  · subst e
    cases h : s.getCR m <;> simp [h]
  · cases h : s.getCR n with
    | unconfigured => simp [e]
    | configured cc => simp only [e, if_false]; exact State.getCR_setCR_other s e _

/-! ### Naming a CR -/

/-- `resolve` answers exactly the CR the operand names. -/
theorem State.resolve_ok_iff (s : State) (w : InstrWord) (ind : Bool) (field : Reg) (n : Fin 32) :
    s.resolve w ind field = .ok n ↔ s.Names ind field n := by
  unfold State.resolve State.Names
  cases ind with
  | false =>
    simp only [Bool.false_eq_true, false_and, if_false]
    have hf := field.isLt
    by_cases h : field.toNat < 32 ∧ field.toNat < s.cfg.numCR
    · simp only [h, and_self, dite_true, Except.ok.injEq, Fin.ext_iff]
      constructor
      · intro e; exact ⟨e, by omega⟩
      · intro e; exact e.1
    · simp only [h, dite_false, reduceCtorEq, false_iff]
      rintro ⟨e, l⟩
      exact h ⟨by omega, by omega⟩
  | true =>
    simp only [true_and, if_true]
    by_cases h0 : field = 0
    · simp [h0]
    · simp only [h0, if_false]
      by_cases h : (s.readX field).toNat < 32 ∧ (s.readX field).toNat < s.cfg.numCR
      · simp only [h, and_self, dite_true, Except.ok.injEq, Fin.ext_iff]
        constructor
        · intro e; exact ⟨⟨h0, e⟩, by omega⟩
        · intro e; exact e.1.2
      · simp only [h, dite_false, reduceCtorEq, false_iff]
        rintro ⟨⟨_, e⟩, l⟩
        exact h ⟨by omega, by omega⟩

/-- `resolve` fails with an illegal-instruction exception, with `aceerror` 2 when the index is out of range. -/
theorem State.resolve_error {s : State} {w : InstrWord} {ind : Bool} {field : Reg} {t : State}
    (h : s.resolve w ind field = .error t) :
    t = s.illegal w ∨ t = { s with aceerror := errUnconfCR }.illegal w := by
  unfold State.resolve at h
  split at h
  · exact .inl (Except.error.inj h).symm
  · cases ind <;> simp only [if_true, Bool.false_eq_true, if_false] at h <;> split at h <;>
      first
        | exact .inr (Except.error.inj h).symm
        | cases h

theorem State.checkActive_ok_iff (s : State) (w : InstrWord) (n : Fin 32) :
    s.checkActive w n = .ok () ↔ s.Unbound n := by
  unfold State.checkActive State.Unbound
  by_cases h1 : s.aceactivecr = 32
  · rw [if_neg fun h => h.1 h1]; exact ⟨fun _ => .inl h1, fun _ => rfl⟩
  · by_cases h2 : s.aceactivecr.toNat = n.val
    · rw [if_neg fun h => h.2 h2]; exact ⟨fun _ => .inr h2, fun _ => rfl⟩
    · rw [if_pos ⟨h1, h2⟩]
      constructor
      · intro h; cases h
      · rintro (h | h) <;> contradiction

theorem State.nameCR_ok_iff (s : State) (w : InstrWord) (ind : Bool) (field : Reg) (n : Fin 32) :
    s.nameCR w ind field = .ok n ↔ s.Names ind field n ∧ s.Unbound n := by
  unfold State.nameCR
  constructor
  · intro h
    cases hr : s.resolve w ind field with
    | error e => simp [hr] at h
    | ok m =>
      cases hc : s.checkActive w m with
      | error e => simp [hr, hc] at h
      | ok u =>
        simp only [hr, hc, bind_ok, pure_eq, Except.ok.injEq] at h
        subst h
        exact ⟨(s.resolve_ok_iff w ind field m).1 hr, (s.checkActive_ok_iff w m).1 hc⟩
  · rintro ⟨hn, hu⟩
    rw [(s.resolve_ok_iff w ind field n).2 hn, bind_ok, (s.checkActive_ok_iff w n).2 hu, bind_ok, pure_eq]

/-! ### Status -/

/-- A usable CR passes every status check. -/
theorem State.source_of_usable {s : State} {n : Fin 32} {cc : Context} (h : s.Usable n cc) (want : Want) :
    s.source n want = .ok cc := by
  obtain ⟨hc, hi, hs, he, hu⟩ := h
  have h14 : inState cc.mh 14 = false := by
    simp only [inState, decide_eq_false_iff_not]
    intro e
    exact hs (BitVec.eq_of_toNat_eq (by simpa using e))
  simp [State.source, hc, State.statusError, hi, h14, he, hu]

/-- `source` answers the context the CR holds. -/
theorem State.source_ok {s : State} {n : Fin 32} {want : Want} {cc : Context} (h : s.source n want = .ok cc) :
    s.getCR n = .configured cc ∧ s.statusError want cc = none := by
  unfold State.source at h
  split at h
  · cases h
  · rename_i c hc
    split at h
    · cases h
    · rename_i he
      cases h
      exact ⟨hc, he⟩

/-- A status error leaves everything but `aceerror`, `acestart` and `pc`. -/
theorem State.source_error {s : State} {n : Fin 32} {want : Want} {t : State} (h : s.source n want = .error t) :
    ∃ code, t = s.endWith code := by
  unfold State.source at h
  split at h
  · exact ⟨_, (Except.error.inj h).symm⟩
  · split at h
    · exact ⟨_, (Except.error.inj h).symm⟩
    · cases h

/-! ### Memory accesses -/

theorem State.load_ok_iff (s : State) (a n : Nat) (bs : List Byte) :
    s.load a n = .ok bs ↔ s.Accessible false a n ∧ bs = s.readBytes a n := by
  unfold State.load State.Accessible
  split
  · rename_i h; simp [h]
  · rename_i h; simp [h, eq_comm]

theorem State.store_ok_iff (s : State) (a : Nat) (bs : List Byte) (t : State) :
    s.store a bs = .ok t ↔ s.Accessible true a bs.length ∧ t = s.writeBytes a bs := by
  unfold State.store State.Accessible
  split
  · rename_i h; simp [h]
  · rename_i h; simp [h, eq_comm]

/-- A failing access is the exception of its first failing byte. -/
theorem State.load_error {s : State} {a n : Nat} {t : State} (h : s.load a n = .error t) :
    ∃ c addr, s.firstFault false a n = some (c, addr) ∧ t = s.raise c (BitVec.ofNat 64 addr) := by
  unfold State.load at h
  split at h
  · rename_i c addr hf; exact ⟨c, addr, hf, (Except.error.inj h).symm⟩
  · cases h

theorem State.store_error {s : State} {a : Nat} {bs : List Byte} {t : State} (h : s.store a bs = .error t) :
    ∃ c addr, s.firstFault true a bs.length = some (c, addr) ∧ t = s.raise c (BitVec.ofNat 64 addr) := by
  unfold State.store at h
  split at h
  · rename_i c addr hf; exact ⟨c, addr, hf, (Except.error.inj h).symm⟩
  · cases h

/-- Whether an access faults depends on the configuration and the privilege. -/
theorem State.firstFault_congr {s t : State} (hc : t.cfg = s.cfg) (hm : t.privilege = s.privilege) (store : Bool)
    (a n : Nat) : t.firstFault store a n = s.firstFault store a n := by
  induction n generalizing a with
  | zero => rfl
  | succ n ih => simp only [State.firstFault, State.memFault, hc, hm, ih]

theorem State.accessible_congr {s t : State} (hc : t.cfg = s.cfg) (hm : t.privilege = s.privilege) {store : Bool}
    {a n : Nat} (h : s.Accessible store a n) : t.Accessible store a n := by
  unfold State.Accessible at h ⊢
  rw [State.firstFault_congr hc hm, h]

/-- Every access succeeds where the host stops none. -/
theorem State.accessible_of_no_regions {s : State} (h : s.cfg.memFaults = []) (store : Bool) (a n : Nat) :
    s.Accessible store a n := by
  unfold State.Accessible
  induction n generalizing a with
  | zero => rfl
  | succ n ih => simp [State.firstFault, State.memFault, h, ih]

/-- An access that succeeds succeeds on each part. -/
theorem State.accessible_parts {s : State} {store : Bool} {a n k : Nat} (h : s.Accessible store a (n + k)) :
    s.Accessible store a n ∧ s.Accessible store (a + n) k := by
  unfold State.Accessible at h ⊢
  induction n generalizing a with
  | zero => exact ⟨rfl, by simpa using h⟩
  | succ n ih =>
    rw [(by omega : n + 1 + k = (n + k) + 1)] at h
    simp only [State.firstFault] at h ⊢
    split at h
    · cases h
    · obtain ⟨h1, h2⟩ := ih h
      exact ⟨h1, by rw [(by omega : a + (n + 1) = a + 1 + n)]; exact h2⟩

/-! ### Byte strings -/

@[simp] theorem natLE_length (n v : Nat) : (natLE n v).length = n := by
  induction n generalizing v with
  | zero => rfl
  | succ n ih => simp [natLE, ih]

theorem leNat_natLE (n v : Nat) : leNat (natLE n v) = v % 256 ^ n := by
  induction n generalizing v with
  | zero => simp [natLE, leNat, Nat.mod_one]
  | succ n ih =>
    simp only [natLE, leNat, ih, BitVec.toNat_ofNat]
    have e : 256 ^ (n + 1) = 256 * 256 ^ n := by rw [Nat.pow_succ, Nat.mul_comm]
    rw [e, Nat.mod_mul]

theorem leNat_lt (bs : List Byte) : leNat bs < 256 ^ bs.length := by
  induction bs with
  | nil => simp [leNat]
  | cons b bs ih =>
    simp only [leNat, List.length_cons, Nat.pow_succ]
    have := b.isLt
    omega

theorem natLE_leNat (bs : List Byte) : natLE bs.length (leNat bs) = bs := by
  induction bs with
  | nil => rfl
  | cons b bs ih =>
    have hb := b.isLt
    have e1 : (b.toNat + 256 * leNat bs) / 256 = leNat bs := by omega
    have e2 : BitVec.ofNat 8 (b.toNat + 256 * leNat bs) = b := by
      apply BitVec.eq_of_toNat_eq
      rw [BitVec.toNat_ofNat]
      omega
    simp only [List.length_cons, leNat, natLE, e1, e2, ih]

@[simp] theorem padBytes_length (n : Nat) (bs : List Byte) (h : bs.length ≤ n) : (padBytes n bs).length = n := by
  simp only [padBytes, List.length_append, List.length_replicate]
  omega

end Sys2Proof.Machine
end

