-- ==== Sys2Proof/Laws/Instr.lean ====
section
/-! SUPPORT. For each instruction with several outcomes, every state it can end in. -/
namespace Sys2Proof.Machine
set_option Elab.async false

/-! ### Sequencing -/

/-- A computation in two parts ends in the end of its first part or goes on. -/
theorem finish_bind {α : Type} {x : Except State α} {f : α → Except State State} {t : State}
    (h : finish (x >>= f) = .next t) : x = .error t ∨ ∃ a, x = .ok a ∧ finish (f a) = .next t := by
  cases x with
  | error e => exact .inl (by simpa [finish] using h)
  | ok a => exact .inr ⟨a, rfl, h⟩

theorem finish_error_iff {s t : State} : finish (.error s) = .next t ↔ t = s :=
  ⟨fun h => by injection h with h; exact h.symm, fun h => by rw [h]; rfl⟩

theorem finish_ok_iff {s t : State} : finish (.ok s) = .next t ↔ t = s :=
  ⟨fun h => by injection h with h; exact h.symm, fun h => by rw [h]; rfl⟩

/-! ### The ends of the common steps -/

/-- The end of an instruction that cannot name its CR. -/
def State.NameFail (s : State) (w : InstrWord) (t : State) : Prop :=
  t = s.illegal w ∨ t = { s with aceerror := errUnconfCR }.illegal w

theorem State.checkActive_error {s : State} {w : InstrWord} {n : Fin 32} {t : State}
    (h : s.checkActive w n = .error t) : t = s.illegal w := by
  unfold State.checkActive at h
  split at h
  · exact (Except.error.inj h).symm
  · cases h

theorem State.nameCR_error {s : State} {w : InstrWord} {ind : Bool} {field : Reg} {t : State}
    (h : s.nameCR w ind field = .error t) : s.NameFail w t := by
  unfold State.nameCR at h
  cases hr : s.resolve w ind field with
  | error e =>
    rw [hr, bind_error] at h
    cases h
    exact State.resolve_error hr
  | ok n =>
    rw [hr, bind_ok] at h
    cases hc : s.checkActive w n with
    | error e =>
      rw [hc, bind_error] at h
      cases h
      exact .inl (State.checkActive_error hc)
    | ok u => rw [hc, bind_ok, pure_eq] at h; cases h

theorem State.checkAligned_error {s : State} {c : Cause} {ea : Word} {t : State}
    (h : s.checkAligned c ea = .error t) : t = s.raise c ea ∧ ea.toNat % 8 ≠ 0 := by
  unfold State.checkAligned at h
  split at h
  · exact ⟨(Except.error.inj h).symm, ‹_›⟩
  · cases h

theorem State.checkAligned_ok_iff (s : State) (c : Cause) (ea : Word) :
    s.checkAligned c ea = .ok () ↔ ea.toNat % 8 = 0 := by
  unfold State.checkAligned
  by_cases h : ea.toNat % 8 = 0 <;> simp [h]

theorem State.checkCapacity_error {s : State} {mh : BitVec 64} {t : State} (h : s.checkCapacity mh = .error t) :
    t = s.endWith errMemory ∧ s.cfg.crfCapacity < s.crfUsed + crCost s.cfg mh := by
  unfold State.checkCapacity at h
  split at h
  · exact ⟨(Except.error.inj h).symm, ‹_›⟩
  · cases h

theorem State.checkCapacity_ok_iff (s : State) (mh : BitVec 64) :
    s.checkCapacity mh = .ok () ↔ s.crfUsed + crCost s.cfg mh ≤ s.cfg.crfCapacity := by
  unfold State.checkCapacity
  by_cases h : s.cfg.crfCapacity < s.crfUsed + crCost s.cfg mh
  · simp [h]
  · simp only [h, if_false, true_iff]; omega

/-- A header that is not accepted ends the instruction with an error. -/
theorem State.checkMetadata_error {s : State} {pi : Bool} {mh : BitVec 64} {t : State}
    (h : s.checkMetadata pi mh = .error t) : ∃ code, t = s.endWith code := by
  unfold State.checkMetadata at h
  split at h
  · exact ⟨_, (Except.error.inj h).symm⟩
  · split at h
    · exact ⟨_, (Except.error.inj h).symm⟩
    · split at h
      · exact ⟨_, (Except.error.inj h).symm⟩
      · cases hc : s.checkCapacity mh with
        | error e =>
          rw [hc, bind_error] at h
          cases h
          exact ⟨_, (State.checkCapacity_error hc).1⟩
        | ok u => rw [hc, bind_ok, pure_eq] at h; cases h

/-- An accepted header is valid, its algorithm is in the table, and its context fits. -/
theorem State.checkMetadata_ok {s : State} {pi : Bool} {mh : BitVec 64} {d : AlgDef}
    (h : s.checkMetadata pi mh = .ok d) :
    s.badHeader pi mh = false ∧ supportedHeader s.cfg mh = true ∧
      (∃ e, algEntry s.cfg mh = some e ∧ e.algDef = d) ∧ s.crfUsed + crCost s.cfg mh ≤ s.cfg.crfCapacity := by
  unfold State.checkMetadata at h
  split at h
  · cases h
  · rename_i hb
    split at h
    · cases h
    · rename_i hs
      split at h
      · cases h
      · rename_i e he
        cases hc : s.checkCapacity mh with
        | error x => rw [hc, bind_error] at h; cases h
        | ok u =>
          rw [hc, bind_ok, pure_eq] at h
          cases h
          exact ⟨by simpa using hb, by simpa using hs, ⟨e, he, rfl⟩, (State.checkCapacity_ok_iff s mh).1 hc⟩

/-- A header the CR accepts passes every check once the CR is released. -/
theorem State.checkMetadata_of_accepts {s : State} {n : Fin 32} {pi : Bool} {mh : BitVec 64} {e : AlgEntry}
    (h : s.Accepts n pi mh e) : (s.release n).checkMetadata pi mh = .ok e.algDef := by
  obtain ⟨hf, hl, hp, hs, he, hc⟩ := h
  have hl' : (s.release n).localityOk (mhLocality mh) = true := hl
  have hb : (s.release n).badHeader pi mh = false := by
    cases pi with
    | false => simp [State.badHeader, hf, hl']
    | true => simp [State.badHeader, hf, hl', (hp rfl).1, (hp rfl).2]
  unfold State.checkMetadata
  rw [hb]
  simp [hs, he, (State.checkCapacity_ok_iff (s.release n) mh).2 hc]

/-! ### Provisioning and import -/

/-- The ends of an instruction that reads a context into CR `n`, once it has named it. -/
def State.Loaded (s : State) (n : Fin 32) (t : State) : Prop :=
  (∃ c v, t = s.raise c v) ∨ (∃ c v, t = (s.release n).raise c v) ∨ (∃ code, t = (s.release n).endWith code) ∨
    ∃ cc : Context, t = ((s.release n).setCR n (.configured cc)).done ∧
      (s.release n).crfUsed + crCost s.cfg cc.mh ≤ s.cfg.crfCapacity ∧ cc.exporting = false ∧
      cc.incomplete = false ∧ cc.ad.length = 8 * (mhAdditional cc.mh).toNat

theorem State.provisionAlg_ok {s : State} {d : AlgDef} {mh : BitVec 64} {c : List Byte} {cc : Context}
    (h : s.provisionAlg d mh c = some cc) :
    cc.mh = mhSetState mh snInitial ∧ cc.ad = [] ∧ cc.exporting = false ∧ cc.incomplete = false := by
  unfold State.provisionAlg at h
  dsimp only at h
  split at h
  · cases h
  · cases h; exact ⟨rfl, rfl, rfl, rfl⟩

theorem State.deserialize_ok {s : State} {d : AlgDef} {mh : BitVec 64} {c : List Byte} {cc : Context}
    (h : s.deserialize d mh c = some cc) :
    cc.mh = mh ∧ cc.ad = c.drop (sccContentSize d (mhKeyType mh)) ∧ cc.exporting = false ∧ cc.incomplete = false := by
  unfold State.deserialize at h
  dsimp only at h
  split at h
  · cases h
  split at h
  · cases h
  split at h
  · cases h
  · cases h; exact ⟨rfl, rfl, rfl, rfl⟩

theorem chunks_flatten_length (k : Nat) (hk : 0 < k) (fuel : Nat) (bs : List Byte) (h : bs.length ≤ fuel) :
    ((chunks k fuel bs).map List.length).sum = bs.length := by
  induction fuel generalizing bs with
  | zero => cases bs <;> simp_all [chunks]
  | succ n ih =>
    cases bs with
    | nil => simp [chunks]
    | cons b bs =>
      simp only [chunks, List.map_cons, List.sum_cons]
      rw [ih]
      · simp only [List.length_take, List.length_drop, List.length_cons]; omega
      · simp only [List.length_drop, List.length_cons] at h ⊢; omega

theorem sealStream_length (key siv i : Nat) (bs : List (List Byte)) :
    (sealStream key siv i bs).length = (bs.map List.length).sum := by
  induction bs generalizing i with
  | nil => rfl
  | cons b bs ih => simp [sealStream, ih]

/-- Sealing does not change the length of a content. -/
@[simp] theorem State.sealCrypt_length (s : State) (siv : Nat) (c : List Byte) : (s.sealCrypt siv c).length = c.length := by
  unfold State.sealCrypt
  rw [sealStream_length, chunks_flatten_length 16 (by omega) _ _ (by omega)]

theorem State.unseal_length {s : State} {mh : BitVec 64} {siv : Nat} {ct c : List Byte}
    (h : s.unseal mh siv ct = some c) : c.length = ct.length := by
  unfold State.unseal at h
  dsimp only at h
  split at h
  · cases h; simp
  · cases h

/-- Every end of `ace.prov`. -/
theorem State.prov_cases {s : State} {w : InstrWord} {ind : Bool} {field : Reg} {off : Imm12} {base : Reg} {t : State}
    (h : finish (s.prov w ind field off base) = .next t) :
    s.NameFail w t ∨ ∃ n, s.Names ind field n ∧ s.Unbound n ∧ s.Loaded n t := by
  unfold State.prov at h
  rcases finish_bind h with he | ⟨n, hn, h⟩
  · exact .inl (State.nameCR_error he)
  refine .inr ⟨n, ((s.nameCR_ok_iff w ind field n).1 hn).1, ((s.nameCR_ok_iff w ind field n).1 hn).2, ?_⟩
  rcases finish_bind h with he | ⟨_, _, h⟩
  · exact .inl ⟨_, _, (State.checkAligned_error he).1⟩
  unfold State.provLoad at h
  rcases finish_bind h with he | ⟨header, _, h⟩
  · obtain ⟨c, a, _, e⟩ := State.load_error he
    exact .inr (.inl ⟨_, _, e⟩)
  rcases finish_bind h with he | ⟨d, hd, h⟩
  · exact .inr (.inr (.inl (State.checkMetadata_error he)))
  rcases finish_bind h with he | ⟨content, _, h⟩
  · obtain ⟨c, a, _, e⟩ := State.load_error he
    exact .inr (.inl ⟨_, _, e⟩)
  split at h
  · exact .inr (.inr (.inl ⟨_, finish_error_iff.1 h⟩))
  · rename_i cc hcc
    obtain ⟨hm, ha, hx, hi⟩ := State.provisionAlg_ok hcc
    obtain ⟨hb, _, _, hcap⟩ := State.checkMetadata_ok hd
    refine .inr (.inr (.inr ⟨cc, finish_ok_iff.1 h, ?_, hx, hi, ?_⟩))
    · obtain ⟨_, f2, _, f4, f5, _⟩ := mhSetState_fields (BitVec.ofNat 64 (leNat header)) snInitial
      rw [hm, crCost_of_fields f2 f4 f5]
      exact hcap
    · rw [ha, hm, (mhSetState_fields _ _).2.2.2.2.2.2.2.1]
      simp only [State.badHeader, Bool.true_and, Bool.or_eq_false_iff, decide_eq_false_iff_not, Decidable.not_not] at hb
      rw [hb.2]
      rfl

/-- Every end of `ace.import`. -/
theorem State.importCR_cases {s : State} {w : InstrWord} {ind : Bool} {field : Reg} {off : Imm12} {base : Reg}
    {t : State} (h : finish (s.importCR w ind field off base) = .next t) :
    s.NameFail w t ∨ ∃ n, s.Names ind field n ∧ s.Unbound n ∧ s.Loaded n t := by
  unfold State.importCR at h
  rcases finish_bind h with he | ⟨n, hn, h⟩
  · exact .inl (State.nameCR_error he)
  refine .inr ⟨n, ((s.nameCR_ok_iff w ind field n).1 hn).1, ((s.nameCR_ok_iff w ind field n).1 hn).2, ?_⟩
  rcases finish_bind h with he | ⟨_, _, h⟩
  · exact .inl ⟨_, _, (State.checkAligned_error he).1⟩
  unfold State.importLoad at h
  rcases finish_bind h with he | ⟨header, _, h⟩
  · obtain ⟨c, a, _, e⟩ := State.load_error he
    exact .inr (.inl ⟨_, _, e⟩)
  rcases finish_bind h with he | ⟨d, hd, h⟩
  · exact .inr (.inr (.inl (State.checkMetadata_error he)))
  rcases finish_bind h with he | ⟨siv, _, h⟩
  · obtain ⟨c, a, _, e⟩ := State.load_error he
    exact .inr (.inl ⟨_, _, e⟩)
  rcases finish_bind h with he | ⟨ct, hct, h⟩
  · obtain ⟨c, a, _, e⟩ := State.load_error he
    exact .inr (.inl ⟨_, _, e⟩)
  split at h
  · exact .inr (.inr (.inl ⟨_, finish_error_iff.1 h⟩))
  · rename_i content hu
    split at h
    · exact .inr (.inr (.inl ⟨_, finish_error_iff.1 h⟩))
    · rename_i cc hcc
      obtain ⟨hm, ha, hx, hi⟩ := State.deserialize_ok hcc
      obtain ⟨_, _, _, hcap⟩ := State.checkMetadata_ok hd
      refine .inr (.inr (.inr ⟨cc, finish_ok_iff.1 h, by rw [hm]; exact hcap, hx, hi, ?_⟩))
      have hl := State.unseal_length hu
      rw [((State.load_ok_iff _ _ _ _).1 hct).2, State.readBytes_length] at hl
      rw [ha, hm, List.length_drop, hl]
      simp only [contentSize]
      omega

/-- Every end of `ace.import.S`. -/
theorem State.importS_cases {s : State} {w : InstrWord} {ind : Bool} {field : Reg} {off : Imm12} {base : Reg}
    {t : State} (h : finish (s.importS w ind field off base) = .next t) :
    s.NameFail w t ∨ ∃ n, s.Names ind field n ∧ s.Unbound n ∧ s.Loaded n t := by
  unfold State.importS at h
  split at h
  · exact .inl (.inl (finish_error_iff.1 h))
  rcases finish_bind h with he | ⟨n, hn, h⟩
  · exact .inl (State.nameCR_error he)
  refine .inr ⟨n, ((s.nameCR_ok_iff w ind field n).1 hn).1, ((s.nameCR_ok_iff w ind field n).1 hn).2, ?_⟩
  rcases finish_bind h with he | ⟨_, _, h⟩
  · exact .inl ⟨_, _, (State.checkAligned_error he).1⟩
  unfold State.systemLoad at h
  rcases finish_bind h with he | ⟨_, _, h⟩
  · obtain ⟨c, a, _, e⟩ := State.load_error he
    exact .inr (.inl ⟨_, _, e⟩)
  split at h
  · exact .inr (.inr (.inl ⟨_, finish_error_iff.1 h⟩))
  · rcases finish_bind h with he | ⟨d, hd, h⟩
    · exact .inr (.inr (.inl (State.checkMetadata_error he)))
    split at h
    · exact .inr (.inr (.inl ⟨_, finish_error_iff.1 h⟩))
    · rename_i cc hcc
      obtain ⟨hm, ha, hx, hi⟩ := State.deserialize_ok hcc
      obtain ⟨_, _, _, hcap⟩ := State.checkMetadata_ok hd
      refine .inr (.inr (.inr ⟨cc, finish_ok_iff.1 h, by rw [hm]; exact hcap, hx, hi, ?_⟩))
      rw [ha, hm, List.length_drop, padBytes_length _ _ (List.length_take_le _ _)]
      simp only [contentSize]
      omega

/-! ### The other CR management instructions -/

/-- Every end of `ace.clear`. -/
theorem State.clear_cases {s : State} {w : InstrWord} {ind : Bool} {field : Reg} {t : State}
    (h : finish (s.clear w ind field) = .next t) :
    s.NameFail w t ∨ ∃ n, s.Names ind field n ∧ s.Unbound n ∧ t = (s.release n).done := by
  unfold State.clear at h
  rcases finish_bind h with he | ⟨n, hn, h⟩
  · exact .inl (State.nameCR_error he)
  · exact .inr ⟨n, ((s.nameCR_ok_iff w ind field n).1 hn).1, ((s.nameCR_ok_iff w ind field n).1 hn).2,
      finish_ok_iff.1 h⟩

/-- Every end of `ace.export`. -/
theorem State.exportCR_cases {s : State} {w : InstrWord} {ind : Bool} {field : Reg} {off : Imm12} {base : Reg}
    {t : State} (h : finish (s.exportCR w ind field off base) = .next t) :
    s.NameFail w t ∨ (∃ code, t = s.endWith code) ∨ (∃ c v, t = s.raise c v) ∨
      ∃ (n : Fin 32) (cc : Context) (e : AlgEntry), s.Names ind field n ∧ s.Unbound n ∧
        s.getCR n = .configured cc ∧ cc.incomplete = false ∧ algEntry s.cfg cc.mh = some e ∧
        t = ((s.writeBytes (s.effAddr base off).toNat (s.sealContext e.algDef cc)).setCR n
          (.configured { cc with exporting := false })).done := by
  unfold State.exportCR at h
  rcases finish_bind h with he | ⟨n, hn, h⟩
  · exact .inl (State.nameCR_error he)
  refine .inr ?_
  rcases finish_bind h with he | ⟨cc, hcc, h⟩
  · exact .inl (State.source_error he)
  rcases finish_bind h with he | ⟨_, _, h⟩
  · exact .inr (.inl ⟨_, _, (State.checkAligned_error he).1⟩)
  split at h
  · exact .inl ⟨_, finish_error_iff.1 h⟩
  · rename_i e he
    rcases finish_bind h with hx | ⟨s', hs', h⟩
    · obtain ⟨c, a, _, e⟩ := State.store_error hx
      exact .inr (.inl ⟨_, _, e⟩)
    · have := finish_ok_iff.1 h
      rw [((State.store_ok_iff _ _ _ _).1 hs').2] at this
      obtain ⟨hc, hst⟩ := State.source_ok hcc
      refine .inr (.inr ⟨n, cc, e, ((s.nameCR_ok_iff w ind field n).1 hn).1,
        ((s.nameCR_ok_iff w ind field n).1 hn).2, hc, ?_, he, this⟩)
      unfold State.statusError at hst
      cases hi : cc.incomplete with
      | false => rfl
      | true => simp [hi] at hst

/-- Every end of `ace.clone`. -/
theorem State.clone_cases {s : State} {w : InstrWord} {dInd : Bool} {dst : Reg} {sInd : Bool} {src : Reg} {t : State}
    (h : finish (s.clone w dInd dst sInd src) = .next t) :
    s.NameFail w t ∨ (∃ code, t = s.endWith code) ∨
      ∃ (n d : Fin 32) (cc : Context), s.Names sInd src n ∧ s.Names dInd dst d ∧ s.Unbound n ∧
        s.getCR n = .configured cc ∧ n ≠ d ∧
        ((∃ code, t = (s.release d).endWith code) ∨
          ((s.release d).crfUsed + crCost s.cfg cc.mh ≤ s.cfg.crfCapacity ∧
            t = ((s.release d).setCR d (.configured cc.copy)).done)) := by
  unfold State.clone at h
  rcases finish_bind h with he | ⟨n, hn, h⟩
  · exact .inl (State.resolve_error he)
  rcases finish_bind h with he | ⟨d, hd, h⟩
  · exact .inl (State.resolve_error he)
  rcases finish_bind h with he | ⟨_, hu, h⟩
  · exact .inl (.inl (State.checkActive_error he))
  refine .inr ?_
  rcases finish_bind h with he | ⟨cc, hcc, h⟩
  · exact .inl (State.source_error he)
  split at h
  · exact .inl ⟨errNone, finish_ok_iff.1 h⟩
  · rename_i hne
    refine .inr ⟨n, d, cc, (s.resolve_ok_iff w sInd src n).1 hn, (s.resolve_ok_iff w dInd dst d).1 hd,
      (s.checkActive_ok_iff w n).1 hu, (State.source_ok hcc).1, hne, ?_⟩
    rcases finish_bind h with he | ⟨_, hc, h⟩
    · exact .inl ⟨_, (State.checkCapacity_error he).1⟩
    · exact .inr ⟨(State.checkCapacity_ok_iff _ _).1 hc, finish_ok_iff.1 h⟩

/-- Every end of Form A of `ace.size`. -/
theorem State.sizeOf_cases {s : State} {w : InstrWord} {rd : Reg} {ind : Bool} {field : Reg} {t : State}
    (h : finish (s.sizeOf w rd ind field) = .next t) : s.NameFail w t ∨ ∃ v, t = (s.writeX rd v).done := by
  unfold State.sizeOf at h
  rcases finish_bind h with he | ⟨n, _, h⟩
  · exact .inl (State.nameCR_error he)
  · split at h
    · exact .inr ⟨_, finish_ok_iff.1 h⟩
    · exact .inr ⟨_, finish_ok_iff.1 h⟩

theorem State.restrictOperand_error {s : State} {w : InstrWord} {r : Reg} {t : State}
    (h : s.restrictOperand w r = .error t) : t = s.illegal w := by
  unfold State.restrictOperand at h
  split at h
  · cases h
  · split at h
    · exact (Except.error.inj h).symm
    · split at h <;> cases h

/-- Every end of `ace.restrict`. -/
theorem State.restrict_cases {s : State} {w : InstrWord} {ind : Bool} {field src : Reg} {t : State}
    (h : finish (s.restrict w ind field src) = .next t) :
    s.NameFail w t ∨ (∃ code, t = s.endWith code) ∨
      ∃ (n : Fin 32) (cc : Context) (op mh : BitVec 64), s.Names ind field n ∧ s.Unbound n ∧
        s.getCR n = .configured cc ∧ s.restrictHeader cc.mh op = some mh ∧
        s.crfUsed - crCost s.cfg cc.mh + crCost s.cfg mh ≤ s.cfg.crfCapacity ∧
        t = (s.setCR n (.configured { cc with mh := mh, exporting := false })).done := by
  unfold State.restrict at h
  rcases finish_bind h with he | ⟨n, hn, h⟩
  · exact .inl (State.nameCR_error he)
  rcases finish_bind h with he | ⟨op, _, h⟩
  · exact .inl (.inl (State.restrictOperand_error he))
  rcases finish_bind h with he | ⟨cc, hcc, h⟩
  · exact .inr (.inl (State.source_error he))
  split at h
  · exact .inl (.inl (finish_error_iff.1 h))
  · split at h
    · exact .inr (.inl ⟨_, finish_error_iff.1 h⟩)
    · rename_i mh hm
      split at h
      · exact .inr (.inl ⟨_, finish_error_iff.1 h⟩)
      · rename_i hc
        exact .inr (.inr ⟨n, cc, op, mh, ((s.nameCR_ok_iff w ind field n).1 hn).1,
          ((s.nameCR_ok_iff w ind field n).1 hn).2, (State.source_ok hcc).1, hm, Nat.le_of_not_lt hc,
          finish_ok_iff.1 h⟩)

/-! ### `ace.exec` and `ace.state` -/

/-- What a vector register group reads as depends on the vector registers and the counter of free values. -/
theorem State.readVec_congr {s t : State} (hc : t.cfg = s.cfg) (hv : t.v = s.v) (hl : t.vl = s.vl) (hw : t.sew = s.sew)
    (hf : t.freeTick = s.freeTick) (r : Reg) : t.readVec r = s.readVec r := by
  have hb : t.vecBits = s.vecBits := by simp [State.vecBits, hl, hw]
  have hr : t.vecRegs = s.vecRegs := by simp [State.vecRegs, hb, hc]
  have hj : ∀ n, t.vecJoin r.toNat n = s.vecJoin r.toNat n := by
    intro n
    induction n with
    | zero => rfl
    | succ n ih => simp [State.vecJoin, State.vecPart, ih, hc, hv, hf]
  simp [State.readVec, hb, hr, hj]

theorem State.writeVec_congr {s t : State} (hc : t.cfg = s.cfg) (hv : t.v = s.v) (hl : t.vl = s.vl)
    (hw : t.sew = s.sew) (hf : t.freeTick = s.freeTick) (r : Reg) (new : Nat) :
    (t.writeVec r new).v = (s.writeVec r new).v := by
  have hb : t.vecBits = s.vecBits := by simp [State.vecBits, hl, hw]
  have hr : t.vecRegs = s.vecRegs := by simp [State.vecRegs, hb, hc]
  have hn : ∀ j, t.vecNew r.toNat new j = s.vecNew r.toNat new j := by
    intro j
    simp [State.vecNew, hb, hc, hf]
  simp only [State.writeVec, hr, hn, hv]

/-- A write of an operand changes the vector registers or the buffer. -/
theorem State.writeOperand_eq (s : State) (o : Operand) (out n : Nat) :
    s.writeOperand o out n =
      { s with v := (s.writeOperand o out n).v, iobuf := (s.writeOperand o out n).iobuf } := by
  apply State.ext <;> simp

theorem State.tick_eq (s : State) (a b : Operand) : s.tick a b = { s with freeTick := (s.tick a b).freeTick } := by
  apply State.ext <;> simp

/-- The state after a step or a transition that completes or reports a failed verification. -/
theorem State.applyStep_done {s : State} {n : Fin 32} {cc : Context} {q : BitVec 2} {src dst : Operand} {r : Step}
    {code : BitVec 4} (h : r.outcome = .ok ∧ code = 0 ∨ r.outcome = .err code) :
    s.applyStep n cc q src dst r =
      { s with
        cr := s.cr.set n.val (.configured (ccAfter s.cfg cc r)) n.isLt
        v := (s.writeOperand dst r.out r.written).v
        iobuf := (s.writeOperand dst r.out r.written).iobuf
        acesequence := q
        rngPos := s.rngPos + r.draws
        freeTick := (s.tick src dst).freeTick
        aceerror := code
        acestart := 0
        pc := addX s.cfg s.pc 4 } := by
  have hv : ((s.commit n cc q r).writeOperand dst r.out r.written).v = (s.writeOperand dst r.out r.written).v := by
    cases dst with
    | none => rfl
    | buffer => rfl
    | vector x =>
      simp only [State.writeOperand]
      rw [State.readVec_congr (s := s) (t := s.commit n cc q r) rfl rfl rfl rfl rfl,
        State.writeVec_congr (s := s) (t := s.commit n cc q r) rfl rfl rfl rfl rfl]
      rfl
  have hi : ((s.commit n cc q r).writeOperand dst r.out r.written).iobuf =
      (s.writeOperand dst r.out r.written).iobuf := by cases dst <;> rfl
  have hc : s.applyStep n cc q src dst r =
      (((s.commit n cc q r).writeOperand dst r.out r.written).tick src dst).endWith code := by
    unfold State.applyStep
    rcases h with ⟨h, rfl⟩ | h <;> rw [h] <;> rfl
  rw [hc]
  have ht : (((s.commit n cc q r).writeOperand dst r.out r.written).tick src dst).freeTick =
      (s.tick src dst).freeTick := by
    have e : ((s.commit n cc q r).writeOperand dst r.out r.written).freeTick = s.freeTick := by simp [State.commit]
    cases dst <;> cases src <;> simp [State.tick, State.commit]
  apply State.ext <;> simp [hv, hi, ht] <;> simp [State.commit, State.setCR]

/-- The state after a step that invalidates the CR. -/
theorem State.applyStep_invalidate {s : State} {n : Fin 32} {cc cc' : Context} {q : BitVec 2} {src dst : Operand}
    {r : Step} {code : BitVec 4} (h : r.outcome = .invalidate code) (hc : s.getCR n = .configured cc') :
    s.applyStep n cc q src dst r =
      { s with
        cr := s.cr.set n.val (.configured (ccInvalid cc')) n.isLt
        freeTick := (s.tick src dst).freeTick
        aceerror := code
        acestart := 0
        pc := addX s.cfg s.pc 4 } := by
  unfold State.applyStep
  rw [h]
  dsimp only [State.invalidateWith, State.invalidate]
  rw [hc]
  cases src <;> cases dst <;> rfl

theorem State.window_error {s : State} {o : Operand} {t : State} (h : s.window o = .error t) :
    ∃ code, t = s.endWith code := by
  unfold State.window at h
  split at h
  · cases h
  · split at h
    · exact ⟨_, (Except.error.inj h).symm⟩
    · cases h
  · split at h
    · exact ⟨_, (Except.error.inj h).symm⟩
    · split at h
      · exact ⟨_, (Except.error.inj h).symm⟩
      · cases h

/-- The buffer has a window when it is an operand. -/
theorem State.window_buffer {s : State} {n : Nat} (h : s.window .buffer = .ok n) :
    s.aceiobuflen ≠ 0 ∧ s.acestart.toNat < s.aceiobuftop.toNat ∧ n = 8 * (s.aceiobuftop.toNat - s.acestart.toNat) := by
  unfold State.window at h
  dsimp only at h
  split at h
  · cases h
  · split at h
    · cases h
    · rename_i h1 h2
      injection h with h
      exact ⟨h1, by omega, h.symm⟩

/-- The plans of `ace.exec`: a vector Form names its own registers, Form D at most the buffer. -/
theorem execPlan_cases {f : Form} {vd vs : Reg} {seq : BitVec 2} {allowed : Option Form} {bound : Bool} {p : ExecPlan}
    (h : execPlan f vd vs seq allowed bound = some (some p)) :
    (f ≠ .D ∧ seq = 0 ∧ allowed = some f ∧ p = vectorPlan f vd vs) ∨
      (f = .D ∧ (p.src = .none ∨ p.src = .buffer) ∧ (p.dst = .none ∨ p.dst = .buffer)) := by
  unfold execPlan at h
  split at h
  · rename_i hf
    refine .inr ⟨hf, ?_⟩
    unfold formDPlan at h
    split at h
    · split at h
      · cases h; exact ⟨.inl rfl, .inl rfl⟩
      · split at h
        · cases h; exact ⟨.inl rfl, .inr rfl⟩
        · cases h
      · cases h
    · split at h
      · split at h
        · cases h; exact ⟨.inr rfl, .inr rfl⟩
        · cases h; exact ⟨.inr rfl, .inl rfl⟩
        · cases h
      · cases h
  · rename_i hf
    split at h
    · cases h
    · rename_i hs
      split at h
      · rename_i ha
        cases h
        exact .inl ⟨hf, by simpa using hs, ha, rfl⟩
      · cases h

/-- Every end of `ace.exec`. -/
theorem State.aceExec_cases {s : State} {w : InstrWord} {f : Form} {ind : Bool} {field vd vs : Reg} {t : State}
    (h : finish (s.aceExec w f ind field vd vs) = .next t) :
    s.NameFail w t ∨ (∃ code, t = s.endWith code) ∨
      ∃ (n : Fin 32) (cc : Context), s.Names ind field n ∧ s.Unbound n ∧ s.getCR n = .configured cc ∧
        cc.incomplete = false ∧
        (t = (s.invalidate n).illegal w ∨
          ∃ (p : ExecPlan) (row : ExecRow) (iolen : Nat),
            execPlan f vd vs s.acesequence (execForm s.cfg s.env cc) (s.aceactivecr.toNat = n.val) = some (some p) ∧
            ccExec s.cfg s.env cc = some row ∧
            ((p.src = .buffer ∨ p.dst = .buffer) →
              s.aceiobuflen ≠ 0 ∧ s.acestart.toNat < s.aceiobuftop.toNat) ∧
            t = s.applyStep n cc p.seq p.src p.dst (row.step (s.readOperand p.src) iolen)) := by
  unfold State.aceExec at h
  split at h
  · exact .inl (.inl (finish_error_iff.1 h))
  rcases finish_bind h with he | ⟨n, hn, h⟩
  · exact .inl (State.nameCR_error he)
  rcases finish_bind h with he | ⟨cc, hcc, h⟩
  · exact .inr (.inl (State.source_error he))
  obtain ⟨hN, hU⟩ := (s.nameCR_ok_iff w ind field n).1 hn
  obtain ⟨hc, hst⟩ := State.source_ok hcc
  have hi : cc.incomplete = false := by
    cases hi : cc.incomplete with
    | false => rfl
    | true => simp [State.statusError, hi] at hst
  have hform : finish (Except.error (s.formNotAllowed w n cc)) = .next t →
      t = (s.invalidate n).illegal w ∨ t = s.illegal w := by
    intro h
    have := finish_error_iff.1 h
    unfold State.formNotAllowed at this
    split at this
    · exact .inl this
    · exact .inr this
  split at h
  · exact .inr (.inr ⟨n, cc, hN, hU, hc, hi, .inl (finish_error_iff.1 h)⟩)
  · rename_i p row hp hrow
    unfold State.runExec at h
    rcases finish_bind h with he | ⟨iolen, hw, h⟩
    · refine .inr (.inl ?_)
      unfold State.planWindow at he
      split at he
      · exact State.window_error he
      · exact State.window_error he
    · split at h
      · exact .inr (.inl ⟨_, finish_error_iff.1 h⟩)
      · refine .inr (.inr ⟨n, cc, hN, hU, hc, hi, .inr ⟨p, row, iolen, hp, hrow, ?_, finish_ok_iff.1 h⟩⟩)
        unfold State.planWindow at hw
        split at hw
        · rename_i hs
          rintro (hb | hb)
          · rw [hs] at hb; cases hb
          · rw [hb] at hw; exact ⟨(State.window_buffer hw).1, (State.window_buffer hw).2.1⟩
        · rename_i hs
          rintro (hb | hb)
          · rw [hb] at hw; exact ⟨(State.window_buffer hw).1, (State.window_buffer hw).2.1⟩
          · rcases execPlan_cases hp with ⟨hf, _, _, rfl⟩ | ⟨_, hsrc, _⟩
            · cases f <;> simp_all [vectorPlan]
            · rcases hsrc with hsrc | hsrc
              · exact absurd hsrc hs
              · rw [hsrc] at hw; exact ⟨(State.window_buffer hw).1, (State.window_buffer hw).2.1⟩
  · rcases hform h with e | e
    · exact .inr (.inr ⟨n, cc, hN, hU, hc, hi, .inl e⟩)
    · exact .inl (.inl e)

/-- Every end of `ace.state`. -/
theorem State.aceState_cases {s : State} {w : InstrWord} {f : Form} {field : Reg} {k : Nat} {r : Reg} {t : State}
    (h : finish (s.aceState w f field k r) = .next t) :
    s.NameFail w t ∨ (∃ code, t = s.endWith code) ∨
      ∃ (n : Fin 32) (cc : Context), s.Names false field n ∧ s.Unbound n ∧ s.getCR n = .configured cc ∧
        cc.incomplete = false ∧
        (t = (s.invalidate n).illegal w ∨ t = s.invalidateWith n errUnimpl ∨
          ∃ (o : Operand) (row : Row) (aux : Nat), row ∈ ccRows s.cfg s.env cc k ∧ t = s.applyStep n cc 0 o .none (row.act aux)) := by
  unfold State.aceState at h
  split at h
  · exact .inl (.inl (finish_error_iff.1 h))
  rcases finish_bind h with he | ⟨n, hn, h⟩
  · exact .inl (State.nameCR_error he)
  rcases finish_bind h with he | ⟨cc, hcc, h⟩
  · exact .inr (.inl (State.source_error he))
  obtain ⟨hN, hU⟩ := (s.nameCR_ok_iff w false field n).1 hn
  obtain ⟨hc, hst⟩ := State.source_ok hcc
  have hi : cc.incomplete = false := by
    cases hi : cc.incomplete with
    | false => rfl
    | true => simp [State.statusError, hi] at hst
  split at h
  · exact .inr (.inr ⟨n, cc, hN, hU, hc, hi, .inl (finish_error_iff.1 h)⟩)
  · split at h
    · exact .inr (.inr ⟨n, cc, hN, hU, hc, hi, .inr (.inl (finish_error_iff.1 h))⟩)
    · split at h
      · have := finish_error_iff.1 h
        split at this
        · exact .inr (.inr ⟨n, cc, hN, hU, hc, hi, .inl this⟩)
        · exact .inl (.inl this)
      · rename_i row hrow
        unfold State.runRow at h
        rcases finish_bind h with he | ⟨iolen, _, h⟩
        · exact .inr (.inl (State.window_error he))
        · split at h
          · exact .inr (.inl ⟨_, finish_error_iff.1 h⟩)
          · exact .inr (.inr ⟨n, cc, hN, hU, hc, hi,
              .inr (.inr ⟨_, row, _, List.mem_of_find?_eq_some hrow, finish_ok_iff.1 h⟩)⟩)

/-! ### `ace.input` and `ace.output` -/

theorem State.checkBound_error {s : State} {w : InstrWord} {p : Context → Bool} {t : State}
    (h : s.checkBound w p = .error t) :
    s.NameFail w t ∨ (∃ code, t = s.endWith code) ∨
      ∃ n : Fin 32, s.aceactivecr.toNat = n.val ∧ t = (s.invalidate n).illegal w := by
  unfold State.checkBound at h
  split at h
  · cases h
  · split at h
    · rename_i hr
      cases hs : s.source ⟨s.aceactivecr.toNat, hr.1⟩ Want.all with
      | error e =>
        rw [hs, bind_error] at h
        cases h
        exact .inr (.inl (State.source_error hs))
      | ok cc =>
        rw [hs, bind_ok] at h
        split at h
        · cases h
        · exact .inr (.inr ⟨⟨_, hr.1⟩, rfl, (Except.error.inj h).symm⟩)
    · exact .inl (.inr (Except.error.inj h).symm)

/-- A transfer may go on exactly when nothing is bound or the bound CR allows it. -/
theorem State.checkBound_ok_iff (s : State) (w : InstrWord) (p : Context → Bool) :
    s.checkBound w p = .ok () ↔ s.aceactivecr = 32 ∨
      ∃ (n : Fin 32) (cc : Context), s.aceactivecr.toNat = n.val ∧ n.val < s.cfg.numCR ∧
        s.source n Want.all = .ok cc ∧ p cc = true := by
  unfold State.checkBound
  by_cases h0 : s.aceactivecr = 32
  · simp [h0]
  · rw [if_neg h0]
    by_cases hr : s.aceactivecr.toNat < 32 ∧ s.aceactivecr.toNat < s.cfg.numCR
    · rw [dif_pos hr]
      constructor
      · intro h
        cases hs : s.source ⟨s.aceactivecr.toNat, hr.1⟩ Want.all with
        | error e => rw [hs, bind_error] at h; cases h
        | ok cc =>
          rw [hs, bind_ok] at h
          split at h
          · rename_i hp; exact .inr ⟨⟨_, hr.1⟩, cc, rfl, hr.2, hs, hp⟩
          · cases h
      · rintro (h | ⟨n, cc, hn, _, hs, hp⟩)
        · exact absurd h h0
        · have e : (⟨s.aceactivecr.toNat, hr.1⟩ : Fin 32) = n := Fin.ext hn
          rw [e, hs, bind_ok, if_pos hp]
    · rw [dif_neg hr]
      constructor
      · intro h; cases h
      · rintro (h | ⟨n, cc, hn, hl, _⟩)
        · exact absurd h h0
        · exact absurd ⟨by omega, by omega⟩ hr

theorem State.checkTransfer_error {s : State} {len : Nat} {t : State} (h : s.checkTransfer len = .error t) :
    ∃ code, t = s.endWith code := by
  unfold State.checkTransfer at h
  split at h
  · exact ⟨_, (Except.error.inj h).symm⟩
  · split at h
    · exact ⟨_, (Except.error.inj h).symm⟩
    · cases h

theorem State.checkTransfer_ok_iff (s : State) (len : Nat) : s.checkTransfer len = .ok () ↔ s.HasRoom len := by
  unfold State.checkTransfer State.HasRoom
  by_cases h0 : s.aceiobuflen = 0
  · simp [h0]
  · rw [if_neg h0]
    split
    · rename_i h
      simp only [reduceCtorEq, false_iff]
      omega
    · rename_i h
      simp only [true_iff]
      exact ⟨h0, by omega, by omega⟩

/-- Every end of `ace.input`. -/
theorem State.aceInput_cases {s : State} {w : InstrWord} {ea : Word} {len : Nat} {t : State}
    (h : finish (s.aceInput w ea len) = .next t) :
    s.NameFail w t ∨ (∃ code, t = s.endWith code) ∨ (∃ c v, t = s.raise c v) ∨
      (∃ n : Fin 32, s.aceactivecr.toNat = n.val ∧ t = (s.invalidate n).illegal w) ∨
      (s.HasRoom len ∧ t = ((s.setBufBytes s.acestart.toNat (s.readBytes ea.toNat len)).setSequence 1).done) := by
  unfold State.aceInput at h
  rcases finish_bind h with he | ⟨_, _, h⟩
  · rcases State.checkBound_error he with h | h | h
    · exact .inl h
    · exact .inr (.inl h)
    · exact .inr (.inr (.inr (.inl h)))
  rcases finish_bind h with he | ⟨_, hr, h⟩
  · exact .inr (.inl (State.checkTransfer_error he))
  rcases finish_bind h with he | ⟨bs, hb, h⟩
  · obtain ⟨c, a, _, e⟩ := State.load_error he
    exact .inr (.inr (.inl ⟨_, _, e⟩))
  · refine .inr (.inr (.inr (.inr ⟨(State.checkTransfer_ok_iff s len).1 hr, ?_⟩)))
    rw [← ((State.load_ok_iff _ _ _ _).1 hb).2]
    exact finish_ok_iff.1 h

/-- Every end of `ace.output`. -/
theorem State.aceOutput_cases {s : State} {w : InstrWord} {ea : Word} {len : Nat} {t : State}
    (h : finish (s.aceOutput w ea len) = .next t) :
    s.NameFail w t ∨ (∃ code, t = s.endWith code) ∨ (∃ c v, t = s.raise c v) ∨
      (∃ n : Fin 32, s.aceactivecr.toNat = n.val ∧ t = (s.invalidate n).illegal w) ∨
      (s.HasRoom len ∧ t = ((s.writeBytes ea.toNat
        (s.bufBytes s.acestart.toNat (s.acestart.toNat + len))).setSequence 0).done) := by
  unfold State.aceOutput at h
  rcases finish_bind h with he | ⟨_, _, h⟩
  · rcases State.checkBound_error he with h | h | h
    · exact .inl h
    · exact .inr (.inl h)
    · exact .inr (.inr (.inr (.inl h)))
  rcases finish_bind h with he | ⟨_, hr, h⟩
  · exact .inr (.inl (State.checkTransfer_error he))
  rcases finish_bind h with he | ⟨s', hs', h⟩
  · obtain ⟨c, a, _, e⟩ := State.store_error he
    exact .inr (.inr (.inl ⟨_, _, e⟩))
  · have := finish_ok_iff.1 h
    rw [((State.store_ok_iff _ _ _ _).1 hs').2] at this
    exact .inr (.inr (.inr (.inr ⟨(State.checkTransfer_ok_iff s len).1 hr, this⟩)))

end Sys2Proof.Machine
end

