-- ==== Sys2Proof/Laws/Exec.lean ====
section
/-! SUPPORT. Every state an instruction can end in, in one list. -/
namespace Sys2Proof.Machine
set_option Elab.async false

/-- Instruction `i` may change CR `n`: it names the CR, as its operand or as the destination of `ace.clone`. -/
def State.Targets (s : State) (i : Instr) (n : Fin 32) : Prop :=
  ∃ ind field, (i.crOperand = some (ind, field) ∨ i.cloneTarget = some (ind, field)) ∧ s.Names ind field n

/-- The ends of an instruction. -/
inductive Ends (i : Instr) (s : State) : State → Prop where
  /-- An exception that changes nothing. -/
  | trap (c : Cause) (v : Word) : Ends i s (s.raise c v)
  /-- A CR number out of range. -/
  | range (w : InstrWord) : Ends i s ({ s with aceerror := errUnconfCR }.illegal w)
  /-- A memory exception of an instruction that has released its CR. -/
  | releasedTrap (n : Fin 32) (c : Cause) (v : Word) (hi : i.replaces = true) (hn : s.Targets i n) :
      Ends i s ((s.release n).raise c v)
  /-- An illegal-instruction exception that invalidates a CR. -/
  | invalidTrap (n : Fin 32) (w : InstrWord) (hi : i.sequenced = true)
      (hn : s.Targets i n ∨ (i.crOperand = none ∧ s.aceactivecr.toNat = n.val)) : Ends i s ((s.invalidate n).illegal w)
  /-- Completion without another effect, with or without an error. -/
  | code (code : BitVec 4) : Ends i s (s.endWith code)
  /-- An error of an instruction that has released its CR, and `ace.clear`. -/
  | released (n : Fin 32) (code : BitVec 4) (hi : i.replaces = true) (hn : s.Targets i n) :
      Ends i s ((s.release n).endWith code)
  /-- A context put into a released CR: `ace.prov`, `ace.import`, `ace.import.S`. -/
  | loaded (n : Fin 32) (cc : Context) (hi : i.replaces = true) (hn : s.Targets i n)
      (hc : (s.release n).crfUsed + crCost s.cfg cc.mh ≤ s.cfg.crfCapacity) (he : cc.exporting = false)
      (hp : cc.incomplete = false) (ha : cc.ad.length = 8 * (mhAdditional cc.mh).toNat) :
      Ends i s ((s.release n).setCR n (.configured cc)).done
  /-- `ace.clone`. -/
  | cloned (n d : Fin 32) (cc : Context) (hi : i.replaces = true) (hn : s.Targets i d)
      (hs : s.getCR n = .configured cc) (hne : n ≠ d)
      (hc : (s.release d).crfUsed + crCost s.cfg cc.mh ≤ s.cfg.crfCapacity) :
      Ends i s ((s.release d).setCR d (.configured cc.copy)).done
  /-- `ace.export`. -/
  | exported (n : Fin 32) (cc : Context) (e : AlgEntry) (ind : Bool) (field : Reg) (off : Imm12) (base : Reg)
      (hi : i = if ind then .exportX off base field else .exportK off base field) (hn : s.Names ind field n)
      (hs : s.getCR n = .configured cc) (he : algEntry s.cfg cc.mh = some e) :
      Ends i s ((s.writeBytes (s.effAddr base off).toNat (s.sealContext e.algDef cc)).setCR n
        (.configured { cc with exporting := false })).done
  /-- `ace.restrict`. -/
  | restricted (n : Fin 32) (cc : Context) (op mh : BitVec 64) (hn : s.Targets i n)
      (hs : s.getCR n = .configured cc) (hh : s.restrictHeader cc.mh op = some mh)
      (hc : s.crfUsed - crCost s.cfg cc.mh + crCost s.cfg mh ≤ s.cfg.crfCapacity) :
      Ends i s (s.setCR n (.configured { cc with mh := mh, exporting := false })).done
  /-- `ace.size` and `ace.avail`. -/
  | sized (rd : Reg) (v : Word) (code : BitVec 4) (hi : i.destReg = some rd) :
      Ends i s ((s.writeX rd v).endWith code)
  /-- `ace.error`. -/
  | errorRead (rd : Reg) (v : Word) (hi : i = .aceError rd) : Ends i s (s.writeX rd v).advance
  /-- `ace.reset`. -/
  | reset (hi : i = .aceReset ∨ i = .clearX 0) : Ends i s s.resetAce
  /-- A step of `ace.exec` or a transition of `ace.state`. -/
  | applied (n : Fin 32) (cc : Context) (q : BitVec 2) (src dst : Operand) (r : Step) (hi : i.sequenced = true)
      (hn : s.Targets i n) (hs : s.getCR n = .configured cc) (hp : cc.incomplete = false)
      (hv : ∀ vd, dst = .vector vd → i.destVec = some vd)
      (hb : dst = .buffer → s.aceiobuflen ≠ 0 ∧ s.acestart.toNat < s.aceiobuftop.toNat) :
      Ends i s (s.applyStep n cc q src dst r)
  /-- A non-allowed transition of `ace.state`. -/
  | invalid (n : Fin 32) (code : BitVec 4) (hi : i.sequenced = true) (hn : s.Targets i n) :
      Ends i s (s.invalidateWith n code)
  /-- A transfer of no bytes. -/
  | nop (off : Imm12) (x xl : Reg) (hi : i = .input off x xl ∨ i = .output off x xl) (hz : s.readX xl = 0) :
      Ends i s s.advance
  /-- `ace.input`. -/
  | input (off : Imm12) (xs xl : Reg) (hi : i = .input off xs xl) (hr : s.HasRoom (s.readX xl).toNat) :
      Ends i s ((s.setBufBytes s.acestart.toNat
        (s.readBytes (s.effAddr xs off).toNat (s.readX xl).toNat)).setSequence 1).done
  /-- `ace.output`. -/
  | output (off : Imm12) (xd xl : Reg) (hi : i = .output off xd xl) (hr : s.HasRoom (s.readX xl).toNat) :
      Ends i s ((s.writeBytes (s.effAddr xd off).toNat
        (s.bufBytes s.acestart.toNat (s.acestart.toNat + (s.readX xl).toNat))).setSequence 0).done

theorem ends_of_nameFail {i : Instr} {s t : State} {w : InstrWord} (h : s.NameFail w t) : Ends i s t := by
  rcases h with rfl | rfl
  · exact .trap _ _
  · exact .range w

theorem ends_of_loaded {i : Instr} {s t : State} {n : Fin 32} (hi : i.replaces = true) (hn : s.Targets i n)
    (h : s.Loaded n t) : Ends i s t := by
  rcases h with ⟨c, v, rfl⟩ | ⟨c, v, rfl⟩ | ⟨code, rfl⟩ | ⟨cc, rfl, hc, he, hp, ha⟩
  · exact .trap c v
  · exact .releasedTrap n c v hi hn
  · exact .released n code hi hn
  · exact .loaded n cc hi hn hc he hp ha

theorem ends_of_prov {i : Instr} {s t : State} {w : InstrWord} {ind : Bool} {field : Reg} {off : Imm12} {base : Reg}
    (hi : i.replaces = true) (hf : i.crOperand = some (ind, field))
    (h : finish (s.prov w ind field off base) = .next t) : Ends i s t := by
  rcases State.prov_cases h with h | ⟨n, hn, _, h⟩
  · exact ends_of_nameFail h
  · exact ends_of_loaded hi ⟨ind, field, .inl hf, hn⟩ h

theorem ends_of_import {i : Instr} {s t : State} {w : InstrWord} {ind : Bool} {field : Reg} {off : Imm12} {base : Reg}
    (hi : i.replaces = true) (hf : i.crOperand = some (ind, field))
    (h : finish (s.importCR w ind field off base) = .next t) : Ends i s t := by
  rcases State.importCR_cases h with h | ⟨n, hn, _, h⟩
  · exact ends_of_nameFail h
  · exact ends_of_loaded hi ⟨ind, field, .inl hf, hn⟩ h

theorem ends_of_importS {i : Instr} {s t : State} {w : InstrWord} {ind : Bool} {field : Reg} {off : Imm12} {base : Reg}
    (hi : i.replaces = true) (hf : i.crOperand = some (ind, field))
    (h : finish (s.importS w ind field off base) = .next t) : Ends i s t := by
  rcases State.importS_cases h with h | ⟨n, hn, _, h⟩
  · exact ends_of_nameFail h
  · exact ends_of_loaded hi ⟨ind, field, .inl hf, hn⟩ h

theorem ends_of_clear {i : Instr} {s t : State} {w : InstrWord} {ind : Bool} {field : Reg} (hi : i.replaces = true)
    (hf : i.crOperand = some (ind, field)) (h : finish (s.clear w ind field) = .next t) : Ends i s t := by
  rcases State.clear_cases h with h | ⟨n, hn, _, rfl⟩
  · exact ends_of_nameFail h
  · exact .released n errNone hi ⟨ind, field, .inl hf, hn⟩

theorem ends_of_export {i : Instr} {s t : State} {w : InstrWord} {ind : Bool} {field : Reg} {off : Imm12} {base : Reg}
    (hi : i = if ind then .exportX off base field else .exportK off base field)
    (h : finish (s.exportCR w ind field off base) = .next t) : Ends i s t := by
  rcases State.exportCR_cases h with h | ⟨c, rfl⟩ | ⟨c, v, rfl⟩ | ⟨n, cc, e, hn, _, hs, _, he, rfl⟩
  · exact ends_of_nameFail h
  · exact .code c
  · exact .trap c v
  · exact .exported n cc e ind field off base hi hn hs he

theorem ends_of_clone {i : Instr} {s t : State} {w : InstrWord} {dInd : Bool} {dst : Reg} {sInd : Bool} {src : Reg}
    (hi : i.replaces = true) (hf : i.cloneTarget = some (dInd, dst))
    (h : finish (s.clone w dInd dst sInd src) = .next t) : Ends i s t := by
  rcases State.clone_cases h with h | ⟨c, rfl⟩ | ⟨n, d, cc, _, hd, _, hs, hne, ⟨c, rfl⟩ | ⟨hc, rfl⟩⟩
  · exact ends_of_nameFail h
  · exact .code c
  · exact .released d c hi ⟨dInd, dst, .inr hf, hd⟩
  · exact .cloned n d cc hi ⟨dInd, dst, .inr hf, hd⟩ hs hne hc

theorem ends_of_restrict {i : Instr} {s t : State} {w : InstrWord} {ind : Bool} {field src : Reg}
    (hf : i.crOperand = some (ind, field)) (h : finish (s.restrict w ind field src) = .next t) : Ends i s t := by
  rcases State.restrict_cases h with h | ⟨c, rfl⟩ | ⟨n, cc, op, mh, hn, _, hs, hh, hc, rfl⟩
  · exact ends_of_nameFail h
  · exact .code c
  · exact .restricted n cc op mh ⟨ind, field, .inl hf, hn⟩ hs hh hc

theorem ends_of_size {i : Instr} {s t : State} {w : InstrWord} {rd : Reg} {ind : Bool} {field : Reg}
    (hi : i.destReg = some rd) (h : finish (s.sizeOf w rd ind field) = .next t) : Ends i s t := by
  rcases State.sizeOf_cases h with h | ⟨v, rfl⟩
  · exact ends_of_nameFail h
  · exact .sized rd v errNone hi

theorem ends_of_exec {i : Instr} {s t : State} {w : InstrWord} {f : Form} {ind : Bool} {field vd vs : Reg}
    (hi : i.sequenced = true) (hf : i.crOperand = some (ind, field))
    (hd : f = .A ∨ f = .C → i.destVec = some vd) (h : finish (s.aceExec w f ind field vd vs) = .next t) :
    Ends i s t := by
  rcases State.aceExec_cases h with h | ⟨c, rfl⟩ | ⟨n, cc, hn, _, hs, hp, rfl | ⟨p, row, l, hplan, _, hb, rfl⟩⟩
  · exact ends_of_nameFail h
  · exact .code c
  · exact .invalidTrap n w hi (.inl ⟨ind, field, .inl hf, hn⟩)
  · refine .applied n cc p.seq p.src p.dst _ hi ⟨ind, field, .inl hf, hn⟩ hs hp ?_ (fun h => hb (.inr h))
    intro v hv
    rcases execPlan_cases hplan with ⟨_, _, _, rfl⟩ | ⟨_, _, hdst⟩
    · cases f with
      | A => cases hv; exact hd (.inl rfl)
      | B => cases hv
      | C => cases hv; exact hd (.inr rfl)
      | D => cases hv
    · rcases hdst with h | h <;> rw [h] at hv <;> cases hv

theorem ends_of_state {i : Instr} {s t : State} {w : InstrWord} {f : Form} {field : Reg} {k : Nat} {r : Reg}
    (hi : i.sequenced = true) (hf : i.crOperand = some (false, field))
    (h : finish (s.aceState w f field k r) = .next t) : Ends i s t := by
  rcases State.aceState_cases h with h | ⟨c, rfl⟩ | ⟨n, cc, hn, _, hs, hp, rfl | rfl | ⟨o, row, aux, _, rfl⟩⟩
  · exact ends_of_nameFail h
  · exact .code c
  · exact .invalidTrap n w hi (.inl ⟨false, field, .inl hf, hn⟩)
  · exact .invalid n _ hi ⟨false, field, .inl hf, hn⟩
  · exact .applied n cc 0 o .none _ hi ⟨false, field, .inl hf, hn⟩ hs hp (fun _ h => by cases h) (fun h => by cases h)

/-- What `exec` answers is one of the ends. -/
theorem exec_ends {i : Instr} {s t : State} (h : exec i s = .next t) : Ends i s t := by
  cases i with
  | provK kd off xs => exact ends_of_prov rfl rfl h
  | provX xd off xs => exact ends_of_prov rfl rfl h
  | clearK kd => exact ends_of_clear rfl rfl h
  | clearX xd =>
    simp only [exec, execClearX] at h
    split at h
    · rename_i e
      cases h
      exact .reset (.inr (by rw [e]))
    · exact ends_of_clear rfl rfl h
  | aceReset => cases h; exact .reset (.inl rfl)
  | exportK off xd ks => exact ends_of_export (ind := false) rfl h
  | exportX off xd xs => exact ends_of_export (ind := true) rfl h
  | importK kd off xn => exact ends_of_import rfl rfl h
  | importSK kd off xn => exact ends_of_importS rfl rfl h
  | importX xd off xn => exact ends_of_import rfl rfl h
  | importSX xd off xn => exact ends_of_importS rfl rfl h
  | input off xs xl =>
    simp only [exec, execInput] at h
    split at h
    · rename_i hz
      cases h
      exact .nop off xs xl (.inl rfl) hz
    · rcases State.aceInput_cases h with h | ⟨c, rfl⟩ | ⟨c, v, rfl⟩ | ⟨n, ha, rfl⟩ | ⟨hr, rfl⟩
      · exact ends_of_nameFail h
      · exact .code c
      · exact .trap c v
      · exact .invalidTrap n _ rfl (.inr ⟨rfl, ha⟩)
      · exact .input off xs xl rfl hr
  | output off xd xl =>
    simp only [exec, execOutput] at h
    split at h
    · rename_i hz
      cases h
      exact .nop off xd xl (.inr rfl) hz
    · rcases State.aceOutput_cases h with h | ⟨c, rfl⟩ | ⟨c, v, rfl⟩ | ⟨n, ha, rfl⟩ | ⟨hr, rfl⟩
      · exact ends_of_nameFail h
      · exact .code c
      · exact .trap c v
      · exact .invalidTrap n _ rfl (.inr ⟨rfl, ha⟩)
      · exact .output off xd xl rfl hr
  | execAK vd kn vs => exact ends_of_exec rfl rfl (fun _ => rfl) h
  | execBK kn vs => exact ends_of_exec rfl rfl (by rintro (h | h) <;> cases h) h
  | execCK vd kn => exact ends_of_exec rfl rfl (fun _ => rfl) h
  | execDK kn => exact ends_of_exec rfl rfl (by rintro (h | h) <;> cases h) h
  | execAX vd xn vs => exact ends_of_exec rfl rfl (fun _ => rfl) h
  | execBX xn vs => exact ends_of_exec rfl rfl (by rintro (h | h) <;> cases h) h
  | execCX vd xn => exact ends_of_exec rfl rfl (fun _ => rfl) h
  | execDX xn => exact ends_of_exec rfl rfl (by rintro (h | h) <;> cases h) h
  | stateA kd imm => exact ends_of_state rfl rfl h
  | stateB kd imm xs => exact ends_of_state rfl rfl h
  | stateC kd imm vs => exact ends_of_state rfl rfl h
  | aceError xd => cases h; exact .errorRead xd _ rfl
  | sizeK xd ks => exact ends_of_size rfl h
  | sizeX xd xs => exact ends_of_size rfl h
  | sizeHeader xd xs => cases h; exact .sized xd _ _ rfl
  | sizeInternal xd xs =>
    simp only [exec, execSizeInternal] at h
    split at h <;> cases h <;> exact .sized xd _ _ rfl
  | sizeIobuf xd xs => cases h; exact .sized xd _ _ rfl
  | avail xd xs => cases h; exact .sized xd _ _ rfl
  | restrictK kd xs1 => exact ends_of_restrict rfl h
  | restrictX xd xs1 => exact ends_of_restrict rfl h
  | cloneKK kd ks => exact ends_of_clone rfl rfl h
  | cloneXK xd ks => exact ends_of_clone rfl rfl h
  | cloneKX kd xs => exact ends_of_clone rfl rfl h
  | cloneXX xd xs => exact ends_of_clone rfl rfl h

end Sys2Proof.Machine
end

