-- ==== Sys2Proof/Laws/PerInstr.lean ====
section
/-! SUPPORT. A property of every instruction, one lemma for each constructor. -/
namespace Sys2Proof.Laws.Opcode
set_option Elab.async false

/-- The word of an instruction has one of the four opcodes of the ACE figures, whatever the encoding parameters
(30_encoding.md R139, R146). -/
def Statement (i : Instr) : Prop :=
  ∀ p : EncParams, fieldOpcode (encode p i) ∈ [(0x0b : BitVec 7), 0x27, 0x5b, 0x73]

theorem provK (kd : Reg) (off : Imm12) (xs : Reg) : Statement (.provK kd off xs) := fun p => by simp [encode, asmI]
theorem provX (xd : Reg) (off : Imm12) (xs : Reg) : Statement (.provX xd off xs) := fun p => by simp [encode, asmI]
theorem clearK (kd : Reg) : Statement (.clearK kd) := fun p => by simp [encode]
theorem clearX (xd : Reg) : Statement (.clearX xd) := fun p => by simp [encode]
theorem aceReset : Statement (.aceReset) := fun p => by simp [encode]
theorem exportK (off : Imm12) (xd : Reg) (ks : Reg) : Statement (.exportK off xd ks) := fun p => by simp [encode, asmS]
theorem exportX (off : Imm12) (xd : Reg) (xs : Reg) : Statement (.exportX off xd xs) := fun p => by simp [encode, asmS]
theorem importK (kd : Reg) (off : Imm12) (xn : Reg) : Statement (.importK kd off xn) := fun p => by simp [encode, asmI]
theorem importSK (kd : Reg) (off : Imm12) (xn : Reg) : Statement (.importSK kd off xn) := fun p => by simp [encode, asmI]
theorem importX (xd : Reg) (off : Imm12) (xn : Reg) : Statement (.importX xd off xn) := fun p => by simp [encode, asmI]
theorem importSX (xd : Reg) (off : Imm12) (xn : Reg) : Statement (.importSX xd off xn) := fun p => by simp [encode, asmI]
theorem input (off : Imm12) (xs : Reg) (xl : Reg) : Statement (.input off xs xl) := fun p => by simp [encode, asmS]
theorem output (off : Imm12) (xd : Reg) (xl : Reg) : Statement (.output off xd xl) := fun p => by simp [encode, asmI]
theorem execAK (vd : Reg) (kn : Reg) (vs : Reg) : Statement (.execAK vd kn vs) := fun p => by simp [encode]
theorem execBK (kn : Reg) (vs : Reg) : Statement (.execBK kn vs) := fun p => by simp [encode]
theorem execCK (vd : Reg) (kn : Reg) : Statement (.execCK vd kn) := fun p => by simp [encode]
theorem execDK (kn : Reg) : Statement (.execDK kn) := fun p => by simp [encode]
theorem execAX (vd : Reg) (xn : Reg) (vs : Reg) : Statement (.execAX vd xn vs) := fun p => by simp [encode]
theorem execBX (xn : Reg) (vs : Reg) : Statement (.execBX xn vs) := fun p => by simp [encode]
theorem execCX (vd : Reg) (xn : Reg) : Statement (.execCX vd xn) := fun p => by simp [encode]
theorem execDX (xn : Reg) : Statement (.execDX xn) := fun p => by simp [encode]
theorem stateA (kd : Reg) (imm : BitVec 7) : Statement (.stateA kd imm) := fun p => by simp [encode]
theorem stateB (kd : Reg) (imm : BitVec 7) (xs : Reg) : Statement (.stateB kd imm xs) := fun p => by simp [encode]
theorem stateC (kd : Reg) (imm : BitVec 7) (vs : Reg) : Statement (.stateC kd imm vs) := fun p => by simp [encode]
theorem aceError (xd : Reg) : Statement (.aceError xd) := fun p => by simp [encode, asmI]
theorem sizeK (xd : Reg) (ks : Reg) : Statement (.sizeK xd ks) := fun p => by simp [encode]
theorem sizeX (xd : Reg) (xs : Reg) : Statement (.sizeX xd xs) := fun p => by simp [encode]
theorem sizeHeader (xd : Reg) (xs : Reg) : Statement (.sizeHeader xd xs) := fun p => by simp [encode]
theorem sizeInternal (xd : Reg) (xs : Reg) : Statement (.sizeInternal xd xs) := fun p => by simp [encode]
theorem sizeIobuf (xd : Reg) (xs : Reg) : Statement (.sizeIobuf xd xs) := fun p => by simp [encode]
theorem avail (xd : Reg) (xs : Reg) : Statement (.avail xd xs) := fun p => by simp [encode]
theorem restrictK (kd : Reg) (xs1 : Reg) : Statement (.restrictK kd xs1) := fun p => by simp [encode]
theorem restrictX (xd : Reg) (xs1 : Reg) : Statement (.restrictX xd xs1) := fun p => by simp [encode]
theorem cloneKK (kd : Reg) (ks : Reg) : Statement (.cloneKK kd ks) := fun p => by simp [encode]
theorem cloneXK (xd : Reg) (ks : Reg) : Statement (.cloneXK xd ks) := fun p => by simp [encode]
theorem cloneKX (kd : Reg) (xs : Reg) : Statement (.cloneKX kd xs) := fun p => by simp [encode]
theorem cloneXX (xd : Reg) (xs : Reg) : Statement (.cloneXX xd xs) := fun p => by simp [encode]

end Sys2Proof.Laws.Opcode
end

