-- ==== Sys2Proof/Tests/Slice0.lean ====
section
/-! SUPPORT. Tests of single words and single steps, and for every statement with hypotheses a state and operands that
meet them. Expected values are those of 95_test_vectors.md and of the worked examples that file points to. -/
namespace Sys2Proof.Tests
open Sys2Proof Sys2Proof.Machine
set_option Elab.async false

/-! ### Well-formedness: each check refuses an ill-formed term -/

theorem test_clearX_of_x0_is_ill_formed : (Instr.clearX 0).wellFormed = false := by decide

theorem test_clearX_of_x1_is_well_formed : (Instr.clearX 1).wellFormed = true := by decide

theorem test_encoding_parameters_of_t0 : EncParams.t0.wellFormed = true := by decide

theorem test_input_funct3_must_be_free : ({ EncParams.t0 with inputF3 := 5 } : EncParams).wellFormed = false := by
  decide

theorem test_csr_numbers_must_differ : ({ EncParams.t0 with csrError := 0x801 } : EncParams).wellFormed = false := by
  decide

theorem test_csr_number_of_vstart_is_taken : ({ EncParams.t0 with csrError := 0x008 } : EncParams).wellFormed = false := by
  decide

theorem test_cipher_sizes_are_bytes : (Cipher.custom 0 65 128).wellFormed = false ∧
    (Cipher.custom 0 0 128).wellFormed = false ∧ (Cipher.custom 0 64 7).wellFormed = false := by decide

theorem test_ctr_sizes_fill_a_block : (AlgDef.keystream .aes128 96 24 false none).wellFormed = false ∧
    (AlgDef.keystream .aes128 96 32 true none).wellFormed = false := by decide

theorem test_hash_tag_fits_a_block :
    ({ (default : HashDef) with b := 64, t := 128, n := 128, useBlock := true } : HashDef).wellFormed = false := by decide

theorem test_tables_refuse_bad_sizes : (AlgDef.tbc 0 0 128 64).wellFormed = false ∧
    (AlgDef.gcm .aes128 128 false 0x87).wellFormed = false ∧
    (AlgDef.gcmSiv .aes192 false (.galois 0x87)).wellFormed = false ∧
    (AlgDef.ocb (.custom 0 96 96)).wellFormed = false ∧ (AlgDef.sha3 1608 256 false 2 2).wellFormed = false := by decide

theorem test_reference_configuration : Config.reference.wf = true ∧ (Config.t0 false).wf = true := by decide +kernel

theorem test_configuration_needs_registers_or_buffer :
    ({ Config.t0 false with hasIobuf := false, iobufMax := 0 } : Config).wf = false := by decide +kernel

theorem test_configuration_needs_gcm_siv :
    ({ Config.reference with algTable := [.plain 0x600 true (.ecb .aes128)] } : Config).wf = false := by decide +kernel

theorem test_configuration_needs_room_for_pairs : ({ Config.reference with crfCapacity := 200 } : Config).wf = false := by
  decide +kernel

theorem test_configuration_needs_a_cr : ({ Config.reference with numCR := 0 } : Config).wf = false ∧
    ({ Config.reference with numCR := 33 } : Config).wf = false := by decide +kernel

/-! ### Decoding: words of 95_test_vectors.md section 3.1, and words written out from the figures -/

/-- What the decoder with the parameters of T0 makes of a word. -/
def dec (w : InstrWord) : Decoded := decode EncParams.t0 w

/-- E1, E2. -/
theorem test_decode_prov : dec 0x0005418b = .ace (.provK 3 0 10) ∧ dec 0xff85530b = .ace (.provX 6 0xff8 10) := by decide

/-- E3 to E5. -/
theorem test_decode_clear : dec 0x000041db = .ace (.clearK 3) ∧ dec 0x0000535b = .ace (.clearX 6) ∧
    dec 0x0000505b = .ace .aceReset := by decide

/-- E6 to E8: the immediate is in two parts. -/
theorem test_decode_export : dec 0x00058027 = .ace (.exportK 0 11 0) ∧ dec 0x02659427 = .ace (.exportX 40 11 6) ∧
    dec 0xfff58427 = .ace (.exportK 0xfe8 11 31) := by decide

/-- E9 to E12. -/
theorem test_decode_import : dec 0x0005838b = .ace (.importK 7 0 11) ∧ dec 0x0005938b = .ace (.importSK 7 0 11) ∧
    dec 0x0005a30b = .ace (.importX 6 0 11) ∧ dec 0x7f85b30b = .ace (.importSX 6 0x7f8 11) := by decide

/-- E13 to E16: the swapped fields of the two transfers. -/
theorem test_decode_transfer : dec 0x00c5e00b = .ace (.input 0 12 11) ∧ dec 0xfec5ef8b = .ace (.input 0xfff 12 11) ∧
    dec 0x0005c6a7 = .ace (.output 0 13 11) ∧ dec 0x0105c6a7 = .ace (.output 16 13 11) := by decide

/-- E17 to E20. -/
theorem test_decode_exec_direct : dec 0x0011815b = .ace (.execAK 2 3 1) ∧ dec 0x1011805b = .ace (.execBK 3 1) ∧
    dec 0x2001815b = .ace (.execCK 2 3) ∧ dec 0x3001805b = .ace (.execDK 3) := by decide

/-- E22, E21, and Forms B and C with `r = 1` written out from the figure of R144: `Form`, zeros, `r`, zero, then
`rs2`, `rs1`, `funct3`, `rd`, `opcode`. -/
theorem test_decode_exec_indirect : dec 0x0413015b = .ace (.execAX 2 6 1) ∧
    dec 0b00010100000100110000000001011011 = .ace (.execBX 6 1) ∧
    dec 0b00100100000000110000000101011011 = .ace (.execCX 2 6) ∧ dec 0x3403005b = .ace (.execDX 6) := by decide

/-- E23 to E26. -/
theorem test_decode_state : dec 0x0c0011db = .ace (.stateA 3 6) ∧ dec 0x000011db = .ace (.stateA 3 0) ∧
    dec 0x18e021db = .ace (.stateB 3 12 14) ∧ dec 0x024031db = .ace (.stateC 3 1 4) := by decide

/-- E27. -/
theorem test_decode_error : dec 0x800022f3 = .ace (.aceError 5) := by decide

/-- E28 to E32; the word of `ace.avail` is that of Form B. -/
theorem test_decode_size : dec 0x020002db = .ace (.sizeK 5 0) ∧ dec 0x060302db = .ace (.sizeX 5 6) ∧
    dec 0x120702db = .ace (.sizeHeader 5 14) ∧ dec 0x220702db = .ace (.sizeInternal 5 14) ∧
    dec 0x320702db = .ace (.sizeIobuf 5 14) ∧ encode EncParams.t0 (.avail 5 14) = 0x120702db := by decide

/-- E33, E34. -/
theorem test_decode_restrict : dec 0x42c000db = .ace (.restrictK 1 12) ∧ dec 0x46c0035b = .ace (.restrictX 6 12) := by
  decide

/-- E35 to E38. -/
theorem test_decode_clone : dec 0x820380db = .ace (.cloneKK 1 7) ∧ dec 0x8603835b = .ace (.cloneXK 6 7) ∧
    dec 0x8a0380db = .ace (.cloneKX 1 7) ∧ dec 0x8e03835b = .ace (.cloneXX 6 7) := by decide

/-- E39, E41, E43, E46. -/
theorem test_decode_csr : dec 0x80159073 = .csr ⟨.write, false, 0, 11, 0x801⟩ ∧
    dec 0x8041d073 = .csr ⟨.write, true, 0, 3, 0x804⟩ ∧ dec 0x804022f3 = .csr ⟨.setBits, false, 5, 0, 0x804⟩ ∧
    dec 0x00859073 = .csr ⟨.write, false, 0, 11, 8⟩ := by decide

/-- X2 to X10. -/
theorem test_decode_rejects : ([0x300180db, 0x0811815b, 0xc20100db, 0x0000700b, 0x00002027, 0x0000605b, 0x0c1011db,
    0x001041db, 0x160702db] : List InstrWord).all (fun w => decide (dec w = .reservedAce)) = true := by decide

theorem test_decode_host_words : dec 0x00000013 = .hostWord ∧ dec 0x00000073 = .hostWord ∧
    decodeBytes EncParams.t0 [1, 2, 3] = .truncated := by decide

theorem test_table_word : decodeTableWord 32 0x0005418b = some (.provK 3 0 10) ∧
    decodeTableWord 32 0x00000013 = none := by decide

/-! ### States the tests start from -/

/-- Bytes as the spec writes them, lowest address first, as the number they denote. -/
def num (n hex : Nat) : Nat := leNat (natLE n hex).reverse

/-- Bytes as the spec writes them, lowest address first. -/
def bytes (n hex : Nat) : List Byte := (natLE n hex).reverse

/-- The key bytes `00 01 .. 0f`. -/
def key0 : Nat := num 16 0x000102030405060708090a0b0c0d0e0f

/-- The bytes `00 11 .. ff`. -/
def plain0 : Nat := num 16 0x00112233445566778899aabbccddeeff

/-- A configured CR. -/
def ctx (mh : BitVec 64) (ist : Ist) : Context :=
  { mh := mh, keyIndex := 0, ist := ist, ad := [], exporting := false, savedSN := 0, incomplete := false }

/-- A SHA3-256 context as provisioned. -/
def sha : Ist := .sha3 ⟨0, 0, 0⟩

/-- T0 with vector registers, in U-mode. -/
def base : State := { State.reset with mode := .user }

/-- With one general register set. -/
def setX (r : Reg) (v : Word) (s : State) : State := s.writeX r v

/-- With a CR configured. -/
def setK (n : Fin 32) (mh : BitVec 64) (ist : Ist) (s : State) : State := s.setCR n (.configured (ctx mh ist))

/-- With bytes in memory. -/
def setMem (a n hex : Nat) (s : State) : State := s.writeBytes a (bytes n hex)

/-- With a buffer of the given bytes, its window the whole of it. -/
def setBuf (n hex : Nat) (s : State) : State :=
  { s with iobuf := bytes n hex, aceiobuflen := BitVec.ofNat 64 n, aceiobuftop := BitVec.ofNat 64 n }

/-- The next state, if there is one. -/
def nextOf : Result → Option State
  | .next t => some t
  | _ => none

/-- The state after one step on a word at `pc`. -/
def after (w : Nat) (s : State) : Option State := nextOf (step (s.withFetchWord 32 w))

/-- What a CR holds. -/
def held (n : Fin 32) (s : State) : Option (BitVec 64 × Ist) :=
  match s.getCR n with
  | .unconfigured => none
  | .configured cc => some (cc.mh, cc.ist)

/-- Cause, pc and trap value of the exception taken. -/
def trapped (s : State) : Option (Nat × Word × Word) := s.trap.map fun t => (t.cause.code, t.pc, t.tval)

/-- The start of the `M` vectors. -/
def mStart : State := setX 10 0x2000 (setX 11 0x2300 (setMem 0x2000 24
  0x003c000000000000000102030405060708090a0b0c0d0e0f base))

/-- After vector M1, with `x10` and `x11` as there. -/
def m1 : State := setK 3 0x3c00 (.ecb key0) mStart

/-- A page fault on reading address 0x2008. -/
def pageAt2008 : MemRegion := ⟨0x2008, 1, true, false, [⟨.user, false, false⟩], true⟩

/-- An access fault on reading address 0x2105. -/
def accessAt2105 : MemRegion := ⟨0x2105, 1, true, false, [⟨.user, false, false⟩], false⟩

/-- The start of the `A`, `B` and `I` vectors. -/
def aStart : State := setX 11 16 (setX 12 0x2100 (setX 13 0x2200 (setK 3 0xc3c00 (.ecb key0) (setBuf 16 0
  (setMem 0x2100 16 0x00112233445566778899aabbccddeeff base)))))

/-- Four SHA3-256 contexts, which take 832 bytes (vector M15). -/
def m15 : State := setK 0 0xc18 sha (setK 1 0xc18 sha (setK 2 0xc18 sha (setK 3 0xc18 sha base)))

/-! ### CR management (95_test_vectors.md sections 4.3 and 4.5) -/

/-- M1. -/
theorem test_prov : (after 0x0005418b mStart).map (fun t => (held 3 t, t.aceerror, t.pc, t.crfUsed)) =
    some (some (0x3c00, .ecb key0), 0, 0x1004, 16) := by decide +kernel

/-- M3: the fault comes after the release. -/
theorem test_prov_fault : (after 0x0005418b { m1 with cfg.memFaults := [pageAt2008] }).map
    (fun t => (trapped t, held 3 t)) = some (some (13, 0x1000, 0x2008), none) := by decide +kernel

/-- E2 from 0x2000 - 8 + 8. -/
theorem test_prov_indirect : (after 0xff85530b (setX 6 9 (setX 10 0x2008 mStart))).map (held 9) =
    some (some (0x3c00, .ecb key0)) := by decide +kernel

/-- M14: an invalid header ranks above an unknown algorithm. -/
theorem test_prov_priority : (after 0xff85530b (setX 6 3 (setX 10 0x2008
    (setMem 0x2000 8 0xff3f000000000000 m1)))).map (fun t => (held 3 t, t.aceerror)) = some (none, 8) := by decide +kernel

/-- M19. -/
theorem test_clear_unbound : (after 0x0000425b (setK 4 0x3c00 (.ecb 0) { base with aceactivecr := 3 })).map
    (fun t => (trapped t, held 4 t, t.aceerror)) = some (some (2, 0x1000, 0x425b), some (0x3c00, .ecb 0), 0) := by
  decide +kernel

/-- M17. -/
theorem test_clear_index : (after 0x0000535b (setX 6 32 base)).map (fun t => (trapped t, t.aceerror)) =
    some (some (2, 0x1000, 0x535b), 2) := by decide +kernel

/-- M21. -/
theorem test_reset : (after 0x0000505b { m1 with aceactivecr := 3, acesequence := 2, aceerror := 8 }).map
    (fun t => (held 3 t, t.aceactivecr, t.acesequence, t.aceerror)) = some (none, 3, 2, 0) := by decide +kernel

/-- M24, S8. -/
theorem test_export : (after 0x00358027 m1).map (fun t => (t.readBytes 0x2300 40, held 3 t)) =
    some (bytes 40 0x003c0000000000005dc8dfc982b066f85869d0bf69252c056600b6eb061071ddfa7597a55e536194,
      some (0x3c00, .ecb key0)) := by decide +kernel

/-- M23. -/
theorem test_export_misaligned : (after 0x00358027 (setX 11 0x2304 m1)).map trapped =
    some (some (6, 0x1000, 0x2304)) := by decide +kernel

/-- S7, a context with a Locality. -/
theorem test_export_indirect : (after 0x00659027 (setX 6 1 (setX 11 0x2300 (setK 1 0x603c00 (.ecb key0) base)))).map
    (fun t => t.readBytes 0x2300 40) =
    some (bytes 40 0x003c600000000000277c67832d5012bb2631617c86aff67ed573f341e0bd34e970ce5fc2b4b6a242) := by
  decide +kernel

/-- M25, S8. -/
theorem test_import : (after 0x0005838b (setX 11 0x2300 (setMem 0x2300 40
    0x003c0000000000005dc8dfc982b066f85869d0bf69252c056600b6eb061071ddfa7597a55e536194 base))).map
    (fun t => (held 7 t, t.aceerror)) = some (some (0x3c00, .ecb key0), 0) := by decide +kernel

/-- M26. -/
theorem test_import_forged : (after 0x0005838b (setX 11 0x2300 (setMem 0x2300 40
    0x003c0000000000005dc8dfc982b066f85869d0bf69252c056600b6eb061071ddfa7597a55e536195 base))).map
    (fun t => (held 7 t, t.aceerror)) = some (none, 1) := by decide +kernel

/-- M28, S5: a context in state _invalid_. -/
theorem test_import_indirect : (after 0x0005a30b (setX 6 7 (setX 11 0x2300 (setMem 0x2300 40
    0x001c1c0000000000c799d551130f315cc92efe19428126606eb4668e0ded889acdd1b9d77e4f332d base)))).map (held 7) =
    some (some (0x1c1c00, .ecb key0)) := by decide +kernel

/-- X13. -/
theorem test_system_import_absent : (after 0x0005938b m1).map trapped = some (some (2, 0x1000, 0x0005938b)) ∧
    (after 0x7f85b30b m1).map trapped = some (some (2, 0x1000, 0x7f85b30b)) := by decide +kernel

/-- M29. -/
theorem test_clone_to_itself : (after 0x820181db m1).map (fun t => (held 3 t, t.aceerror)) =
    some (some (0x3c00, .ecb key0), 0) := by decide +kernel

/-- M32. -/
theorem test_clone_too_big : (after 0x820002db (setK 5 0x3c00 (.ecb key0) m15)).map
    (fun t => (held 5 t, t.aceerror, t.crfUsed)) = some (none, 6, 832) := by decide +kernel

/-- M31, with the destination in a register. -/
theorem test_clone_invalid : (after 0x8601835b (setX 6 1 (setK 3 0x1c1c00 (.ecb key0) base))).map
    (fun t => (held 1 t, t.aceerror)) = some (none, 4) := by decide +kernel

/-- Program P2, the word at 0x102c. -/
theorem test_clone_from_bound : (after 0x8a0300db (setX 6 7 (setK 7 0xc3c00 (.ecb 5) { base with aceactivecr := 7 }))).map
    (fun t => (held 1 t, t.crfUsed)) = some (some (0xc3c00, .ecb 5), 32) := by decide +kernel

/-- R212 with both operands in registers. -/
theorem test_clone_indirect : (after 0x8e03835b (setX 6 1 (setX 7 3 m1))).map (held 1) =
    some (some (0x3c00, .ecb key0)) := by decide +kernel

/-- M34. -/
theorem test_size : (after 0x020182db m1).map (fun t => t.readX 5) = some 40 := by decide +kernel

/-- M35. -/
theorem test_size_indirect : (after 0x060302db (setX 6 4 (setK 4 0xc18 sha base))).map (fun t => t.readX 5) =
    some 232 := by decide +kernel

/-- M36: H6, and H7, whose algorithm is unknown. -/
theorem test_size_of_header : (after 0x120702db (setX 14 0x400003c28 base)).map (fun t => t.readX 5) = some 160 ∧
    (after 0x120702db (setX 14 0x3ffe base)).map (fun t => t.readX 5) = some 0 := by decide +kernel

/-- M37: on RV32 the upper half of the header reads as 0. -/
theorem test_avail : (nextOf (exec (.avail 5 14) { setX 14 0x400003c28 base with cfg.xlen64 := false })).map
    (fun t => t.readX 5) = some 128 := by decide +kernel

/-- M39. -/
theorem test_size_internal_free : (after 0x220702db (setX 14 0x1c0000 m15)).map (fun t => (t.readX 5, t.aceerror)) =
    some (192, 0) := by decide +kernel

/-- M41. -/
theorem test_size_internal_invalid : (after 0x220702db (setX 14 0x3c00 m15)).map (fun t => (t.readX 5, t.aceerror)) =
    some (0, 8) := by decide +kernel

/-- M44. -/
theorem test_size_of_buffer : (after 0x320702db (setX 14 100 base)).map (fun t => t.readX 5) = some 100 := by decide +kernel

/-- T11, in M-mode. -/
theorem test_restrict_accumulates : (after 0x42c000db (setX 12 0x40003000
    (setK 1 0x19000020003c00 (.ecb key0) { base with mode := .machine }))).map (held 1) =
    some (some (0x19000060003c00, .ecb key0)) := by decide +kernel

/-- T10. -/
theorem test_restrict_expiration_once : (after 0x42c000db (setX 12 0x000c800000003000
    (setK 1 0x19000020003c00 (.ecb key0) { base with mode := .machine }))).map (fun t => (held 1 t, t.aceerror)) =
    some (some (0x19000020003c00, .ecb key0), 8) := by decide +kernel

/-- T5, through a register. -/
theorem test_restrict_indirect : (after 0x46c0035b (setX 6 1 (setX 12 0x603000 (setK 1 0x3c00 (.ecb key0) base)))).map
    (held 1) = some (some (0x603c00, .ecb key0)) := by decide +kernel

/-! ### CSRs (95_test_vectors.md section 4.2) -/

/-- Q13. -/
theorem test_error : (after 0x800022f3 { base with aceerror := 8, acestart := 5 }).map
    (fun t => (t.readX 5, t.aceerror, t.acestart)) = some (8, 8, 5) := by decide +kernel

/-- Q1: the value read is the old length. -/
theorem test_iobuflen_cut : (after 0x801592f3 (setX 11 (-1) (setX 5 7 base))).map
    (fun t => (t.readX 5, t.aceiobuflen, t.aceiobuftop, t.aceerror, t.iobuf.length)) = some (0, 256, 256, 6, 256) := by
  decide +kernel

/-- Q6. -/
theorem test_iobuftop_below_start : (after 0x80259073 (setX 11 2 { setBuf 16 0 base with acestart := 4 })).map
    (fun t => (t.aceiobuftop, t.aceerror)) = some (16, 8) := by decide +kernel

/-- Q7, Q8. -/
theorem test_activecr : (after 0x80479073 (setX 15 33 base)).map (fun t => (t.aceactivecr, t.aceerror)) = some (32, 8) ∧
    (after 0x80479073 (setX 15 0x43 base)).map (fun t => (t.aceactivecr, t.aceerror)) = some (3, 0) := by decide +kernel

/-- Q9. -/
theorem test_activecr_in_sequence : (after 0x8041d073 { base with acesequence := 1, aceactivecr := 3 }).map trapped =
    some (some (2, 0x1000, 0x8041d073)) := by decide +kernel

/-- Q15. -/
theorem test_marchid_is_read_only : (after 0xcc059073 base).map trapped = some (some (2, 0x1000, 0xcc059073)) := by
  decide +kernel

/-! ### `ace.exec`, `ace.state`, `ace.input`, `ace.output` (sections 4.4 and 4.6) -/

/-- I4. -/
theorem test_input : (after 0x00c5e00b (setX 11 8 { aStart with acestart := 8 })).map
    (fun t => (t.iobuf, t.acestart, t.acesequence)) =
    some (bytes 16 0x00000000000000000011223344556677, 0, 0) := by decide +kernel

/-- A11. -/
theorem test_input_twice : (after 0x00c5e00b { aStart with aceactivecr := 3, acesequence := 1 }).map
    (fun t => (held 3 t, trapped t)) = some (some (0x1c3c00, .ecb key0), some (2, 0x1000, 0x00c5e00b)) := by decide +kernel

/-- I7, I10. -/
theorem test_output : (after 0x0005c6a7 (setX 13 0x2201 { setBuf 16 0x00112233445566778899aabbccddeeff aStart with
    acesequence := 3 })).map (fun t => (t.readBytes 0x2200 18, t.acesequence)) =
    some (bytes 18 0x0000112233445566778899aabbccddeeff00, 3) := by decide +kernel

/-- A10. -/
theorem test_output_too_early : (after 0x0005c6a7 { aStart with aceactivecr := 3 }).map
    (fun t => (held 3 t, trapped t)) = some (some (0x1c3c00, .ecb key0), some (2, 0x1000, 0x0005c6a7)) := by decide +kernel

/-- A1, the second word. -/
theorem test_execD_on_buffer : (after 0x3001805b { setBuf 16 0x00112233445566778899aabbccddeeff aStart with
    aceactivecr := 3, acesequence := 1 }).map (fun t => (t.iobuf, t.acesequence)) =
    some (bytes 16 0x69c4e0d86a7b0430d8cdb78070b4c55a, 2) := by decide +kernel

/-- A9. -/
theorem test_execD_out_of_order : (after 0x3001805b { aStart with aceactivecr := 3, acesequence := 2 }).map
    (fun t => (held 3 t, t.acesequence, trapped t)) =
    some (some (0x1c3c00, .ecb key0), 2, some (2, 0x1000, 0x3001805b)) := by decide +kernel

/-- A4, through a register: AES-256. -/
theorem test_execD_aes256 : (after 0x3403005b (setX 6 2 (setK 2 0xc3c02
    (.ecb (num 32 0x000102030405060708090a0b0c0d0e0f101112131415161718191a1b1c1d1e1f))
    { setBuf 16 0x00112233445566778899aabbccddeeff aStart with aceactivecr := 2, acesequence := 1 }))).map
    (fun t => t.iobuf) = some (bytes 16 0x8ea2b7ca516745bfeafc49904b496089) := by decide +kernel

/-- A13: the status comes before the Form. -/
theorem test_execD_unconfigured : (after 0x3403005b (setX 6 3 base)).map (fun t => (t.aceerror, trapped t)) =
    some (2, none) := by decide +kernel

/-- The register `v1` set. -/
def setV1 (v : Nat) (s : State) : State := { s with v := s.v.set 1 v }

/-- The GCM context of R365 with a counter and a tag. -/
def gcmOf (ctr tag : Nat) : Ist :=
  .gcm ⟨key0, ctr, num 12 0xa0a1a2a3a4a5a6a7a8a9aaab, num 16 0xc6a13b37878f5b826f4f8162a1c8d879, tag⟩

/-- R365: GCM encryption on vector registers. -/
theorem test_execA_gcm : (after 0x0011815b (setV1 plain0 (setK 3 0xc3c0c
    (gcmOf 1 (num 16 0x730db6521ee8439d7575300133145210)) base))).map (fun t => (t.v[2], held 3 t)) =
    some (num 16 0x2659882ccb6a6feacaa07e4c42fef295,
      some (0xc3c0c, gcmOf 2 (num 16 0xcc2ce341acb78f5ccfaede4bd392d79e))) := by decide +kernel

/-- X11. -/
theorem test_execA_without_vectors : (after 0x0011815b { aStart with cfg := Config.t0 false }).map trapped =
    some (some (2, 0x1000, 0x0011815b)) := by decide +kernel

/-- R337: XTS of 32 bytes, with `v1` and `v2` as the source; the second register of `v2`'s group is `v3`. -/
theorem test_execA_xts : (after 0x0413015b (setX 6 3 (setK 3 0xc3c08 (.xex 0 0 (num 16 0x66e94bd4ef8a2c3b884cfa59ca342b2e))
    { base with vl := 8 }))).map (fun t => (t.v[2], t.v[3])) =
    some (num 16 0x917cf69ebd68b2ec9b9fe9a3eadda692, num 16 0xcd43d2f59598ed858c02c2652fbf922e) := by decide +kernel

/-- R424 (a): the last block of CMAC. -/
theorem test_execB_cmac : (after 0x1011805b (setV1 (num 16 0x101112131415161718191a1b1c1d1e1f) (setK 3 0x43c16
    (.cmac key0 (num 16 0x69c4e0d86a7b0430d8cdb78070b4c55a) 128) base))).map (held 3) =
    some (some (0xa3c16, .cmac key0 (num 16 0x1ed3848574bce04e5994ad8ebda6282e) 128)) := by decide +kernel

/-- The Ascon-AEAD128 context of R466 with a state. -/
def asconOf (w0 w1 w2 w3 w4 : BitVec 64) : Ist := .asconAead ⟨key0, 0, 0, ⟨w0, w1, w2, w3, w4⟩, 128, 0⟩

/-- R466: Ascon-AEAD128 absorbs associated data. -/
theorem test_execB_ascon : (after 0b00010100000100110000000001011011
    (setX 6 3 (setV1 (num 16 0x202122232425262728292a2b2c2d2e2f) (setK 3 0x23c1c (asconOf 0xcde34900cdfce2c8
      0x948cba141a58c1cb 0x1fec9b5dae69b43a 0x65039cf8da2adaac 0x323c9da505d9b927) base)))).map (held 3) =
    some (some (0x23c1c, asconOf 0x487c422647fba44f 0x05cb65ceaa9a3d40 0x88f71ddf0cd4f7a0 0x8ec0fba7d96c6445
      0xa985ec38fd75285e)) := by decide +kernel

/-- R333: the keystream of CTR. -/
theorem test_execC_ctr : (after 0x2001815b (setK 3 0x20c04 (.keystream key0 (num 12 0xa0a1a2a3a4a5a6a7a8a9aaab) 0)
    base)).map (fun t => (t.v[2], (held 3 t).map fun c => c.2)) =
    some (num 16 0x182d13da5127e53d40e690d79cb4fd08,
      some (.keystream key0 (num 12 0xa0a1a2a3a4a5a6a7a8a9aaab) 1)) := by decide +kernel

/-- R191, with the operand in a register. -/
theorem test_execC_unbound : (after 0b00100100000000110000000101011011 (setX 6 3
    (setK 3 0x20c04 (.keystream key0 0 0) { base with aceactivecr := 4 }))).map trapped =
    some (some (2, 0x1000, 0x2403015b)) := by decide +kernel

/-- B1. -/
theorem test_stateA : (after 0x0c0011db (setK 3 0x3c00 (.ecb key0) base)).map (fun t => (held 3 t, t.aceerror)) =
    some (some (0xc3c00, .ecb key0), 0) := by decide +kernel

/-- B4. -/
theorem test_stateA_forbidden : (after 0x0e0011db (setK 3 0x1c00 (.ecb key0) base)).map
    (fun t => (held 3 t, t.aceerror)) = some (some (0x1c1c00, .ecb key0), 7) := by decide +kernel

/-- Program P5, the word at 0x100c: 24 bits of last block. -/
theorem test_stateB : (after 0x0500225b (setX 16 24 (setK 4 0x20c18 sha base))).map (held 4) =
    some (some (0x40c18, .sha3 ⟨0, 24, 0⟩)) := by decide +kernel

/-- B8. -/
theorem test_stateB_wrong_form : (after 0x0ce021db (setK 3 0x3c00 (.ecb key0) base)).map
    (fun t => (held 3 t, trapped t)) = some (some (0x3c00, .ecb key0), some (2, 0x1000, 0x0ce021db)) := by decide +kernel

/-- R466: the nonce of Ascon-AEAD128. -/
theorem test_stateC_nonce : (after 0x021031db (setV1 (num 16 0x101112131415161718191a1b1c1d1e1f)
    (setK 3 0x3c1c (asconOf 0x00001000808c0001 0x0706050403020100 0x0f0e0d0c0b0a0908 0 0) base))).map (held 3) =
    some (some (0x23c1c, asconOf 0xcde34900cdfce2c8 0x948cba141a58c1cb 0x1fec9b5dae69b43a 0x65039cf8da2adaac
      0x323c9da505d9b927)) := by decide +kernel

/-- X12. -/
theorem test_stateC_without_vectors : (after 0x024031db { aStart with cfg := Config.t0 false }).map trapped =
    some (some (2, 0x1000, 0x024031db)) := by decide +kernel

/-! ### Witnesses: states and operands that meet the hypotheses of each statement -/

theorem next_of_nextOf {r : Result} {t : State} (h : nextOf r = some t) : r = .next t := by
  cases r <;> simp_all [nextOf]

/-- A next state with a property that can be evaluated. -/
theorem next_of_any {r : Result} {p : State → Bool} (h : (nextOf r).any p = true) :
    ∃ t, r = .next t ∧ p t = true := by
  cases hr : nextOf r with
  | none => simp [hr] at h
  | some t => exact ⟨t, next_of_nextOf hr, by simpa [hr] using h⟩

theorem some_of_any {α : Type} {o : Option α} {p : α → Bool} (h : o.any p = true) : ∃ x, o = some x ∧ p x = true := by
  cases o with
  | none => simp at h
  | some x => exact ⟨x, rfl, by simpa using h⟩

/-- A context of every kind of the tests: three encryption contexts and a hash. -/
def full : State := setX 6 31 (setX 7 0x2000 (setK 31 0xc3c00 (.ecb key0) (setK 1 0xc18 sha m1)))

theorem witness_DecodeOfEncode : EncParams.t0.wellFormed = true ∧ (Instr.clearX 31).wellFormed = true ∧
    (Instr.avail 31 0).wellFormed = true := by decide

theorem witness_EncodeOfDecode : EncParams.t0.wellFormed = true ∧
    decode EncParams.t0 0xfff58427 = .ace (.exportK 0xfe8 11 31) := by decide

theorem witness_StepRunsDecoded : ∃ s : State, s.applyEvents.trap = none ∧ s.applyEvents.pc.toNat % 4 = 0 ∧
    decodeBytes s.applyEvents.cfg.enc (s.applyEvents.readBytes s.applyEvents.pc.toNat 4) = .ace (.provK 3 0 10) ∧
    s.events = [] := ⟨mStart.withFetchWord 32 0x0005418b, by decide +kernel⟩

theorem witness_StepReservedWordTraps : ∃ s : State, s.events = [] ∧ s.trap = none ∧ s.pc.toNat % 4 = 0 ∧
    s.fetched = .reservedAce := ⟨base.withFetchWord 32 0x300180db, by decide +kernel⟩

theorem witness_HandlerReturns : ∃ (s : State) (t : Trap) (a : Word), s.events = [[.hostReturn a]] ∧ s.trap = some t :=
  ⟨{ base with events := [[.hostReturn 0x2000]], trap := some ⟨.illegalInstruction, 0x1000, 0⟩ }, _, _, rfl, rfl⟩

/-- What `State.Inv` asks of a CR, as a check. -/
def soundCR (s : State) (n : Fin 32) : Bool :=
  match s.getCR n with
  | .unconfigured => true
  | .configured cc => n.val < s.cfg.numCR && !cc.exporting && !cc.incomplete && cc.ad.length = 8 * (mhAdditional cc.mh).toNat

theorem inv_of_checks {s : State}
    (h : (s.cfg.wf = true ∧ Memory.wf s.mem = true ∧ (∀ r : Fin 32, s.x[r.val].toNat < 2 ^ s.cfg.xlen) ∧
        s.pc.toNat < 2 ^ s.cfg.xlen) ∧ s.aceactivecr.toNat ≤ 32 ∧
      (s.iobuf.length = s.aceiobuflen.toNat ∧ s.aceiobuftop.toNat ≤ s.aceiobuflen.toNat ∧
        s.aceiobuflen.toNat ≤ s.cfg.iobufMax) ∧ s.crfUsed ≤ s.cfg.crfCapacity ∧
      (s.lst[2].isSome = true ∧ s.lst[5].isSome = true) ∧ ∀ n, soundCR s n = true) : s.Inv := by
  obtain ⟨⟨config, mem, x, pc⟩, active, buffer, capacity, secrets, sound⟩ := h
  have held (n : Fin 32) (cc : Context) (h : s.getCR n = .configured cc) := by
    have := sound n
    simp only [soundCR, h, Bool.and_eq_true, Bool.not_eq_true', decide_eq_true_eq] at this
    exact this
  refine ⟨config, mem, ⟨x, pc⟩, fun n hn => ?_, active, buffer, capacity, fun n cc h => ?_, fun n cc h => ?_, secrets⟩
  · cases h : s.getCR n with
    | unconfigured => rfl
    | configured cc => have := (held n cc h).1.1.1; omega
  · exact ⟨(held n cc h).1.1.2, (held n cc h).1.2⟩
  · exact (held n cc h).2

/-- A state with contexts, a buffer and an instruction that completes has every invariant and a next state. -/
theorem witness_StepKeepsInvariants : ∃ s t : State, s.Inv ∧ step s = .next t ∧ s ≠ State.reset := by
  obtain ⟨t, ht, -⟩ := next_of_any (r := step (aStart.withFetchWord 32 0x3001805b)) (p := fun _ => true)
    (by decide +kernel)
  exact ⟨_, t, inv_of_checks (by decide +kernel), ht, by decide +kernel⟩

theorem witness_StepKeepsMemory : ∃ s t : State, s.MemInv ∧ step s = .next t ∧ t.mem ≠ s.mem := by
  obtain ⟨t, ht, hp⟩ := next_of_any (r := step (m1.withFetchWord 32 0x00358027))
    (p := fun t => decide (t.mem ≠ (m1.withFetchWord 32 0x00358027).mem)) (by decide +kernel)
  exact ⟨_, t, by unfold State.MemInv; decide +kernel, ht, by simpa using hp⟩

theorem witness_HostStateKept : ∃ t, exec (.provK 3 0 10) mStart = .next t ∧ decide (t ≠ mStart) = true :=
  next_of_any (by decide +kernel)

/-- A general register on both sides of the one that is written, `X0` as the destination, and vector registers on both
sides of the one that is written. -/
theorem witness_RegistersKept : (∃ t, exec (.sizeK 5 3) m1 = .next t ∧ decide (t.readX 5 = 40) = true) ∧
    (Instr.sizeK 5 3).destReg ≠ some 4 ∧ (Instr.sizeK 5 3).destReg ≠ some 6 ∧
    (∃ t, exec (.sizeK 0 3) m1 = .next t ∧ decide (t.aceerror = 0) = true) ∧
    (∃ t, exec (.execAK 2 3 1) aStart = .next t ∧ decide (t.v[2] ≠ aStart.v[2]) = true) ∧ aStart.vecRegs = 1 ∧
    (Instr.execAK 2 3 1).destVec = some 2 :=
  ⟨next_of_any (by decide +kernel), by decide, by decide, next_of_any (by decide +kernel),
    next_of_any (by decide +kernel), by decide +kernel, rfl⟩

/-- The byte before and the byte after what is stored. -/
theorem witness_MemoryKept : (∃ t, exec (.exportK 0 11 3) m1 = .next t ∧ decide (t.mem ≠ m1.mem) = true) ∧
    (m1.Outside 0x2300 40 0x22ff ∧ m1.Outside 0x2300 40 0x2328) ∧
    (m1.sealContext (.ecb .aes128) (ctx 0x3c00 (.ecb key0))).length = 40 ∧
    (∃ t, exec (.exportX 0 11 6) (setX 6 3 m1) = .next t ∧ decide (t.mem ≠ m1.mem) = true) ∧
    (∃ t, exec (.output 0 13 11) { aStart with iobuf := bytes 16 1 } = .next t ∧ decide (t.mem ≠ aStart.mem) = true) ∧
    (aStart.Outside 0x2200 16 0x21ff ∧ aStart.Outside 0x2200 16 0x2210) ∧
    ∃ t, exec (.provK 3 0 10) mStart = .next t ∧ decide (t.mem = mStart.mem) = true := by
  refine ⟨next_of_any (by decide +kernel), ?_, by decide +kernel, next_of_any (by decide +kernel),
    next_of_any (by decide +kernel), ?_, next_of_any (by decide +kernel)⟩ <;> unfold State.Outside <;> decide +kernel

theorem witness_OtherCRsKept : (∃ t, exec (.cloneKK 1 3) m1 = .next t ∧ decide (t.getCR 1 ≠ m1.getCR 1) = true) ∧
    (∀ ind field, (Instr.cloneKK 1 3).crOperand = some (ind, field) → ¬ m1.Names ind field 0) ∧
    (∀ ind field, (Instr.cloneKK 1 3).cloneTarget = some (ind, field) → ¬ m1.Names ind field 0 ∧ ¬ m1.Names ind field 2) ∧
    (Instr.cloneKK 1 3).sequenced = false := by
  refine ⟨next_of_any (by decide +kernel), fun _ _ h => by simp [Instr.crOperand] at h, fun ind field h => ?_, rfl⟩
  simp only [Instr.cloneTarget, Option.some.injEq, Prod.mk.injEq] at h
  obtain ⟨rfl, rfl⟩ := h
  unfold State.Names
  decide +kernel

theorem witness_SequenceKept : (∃ t, exec (.clearK 3) m1 = .next t ∧ decide (t ≠ m1) = true) ∧
    (Instr.clearK 3).sequenced = false := ⟨next_of_any (by decide +kernel), rfl⟩

/-- One exception with `aceerror` set and one without. -/
theorem witness_ExceptionKeepsState : (m1.trap = none ∧
    ∃ t, exec (.clearX 6) (setX 6 32 m1) = .next t ∧ (t.trap.isSome && decide (t.aceerror = 2)) = true) ∧
    ∃ t, exec (.provK 3 4 10) m1 = .next t ∧ (t.trap.isSome && decide (t.aceerror = 0)) = true :=
  ⟨⟨rfl, next_of_any (by decide +kernel)⟩, next_of_any (by decide +kernel)⟩

/-- A completion, and a transfer of no bytes that keeps `acestart`. -/
theorem witness_CompletionClearsStart : (∃ t, exec (.clearK 3) { m1 with acestart := 5 } = .next t ∧
      (t.trap.isNone && decide (t.acestart = 0)) = true) ∧
    ∃ t, exec (.input 0 12 9) { m1 with acestart := 5 } = .next t ∧
      (t.trap.isNone && decide (t.acestart = 5)) = true :=
  ⟨next_of_any (by decide +kernel), next_of_any (by decide +kernel)⟩

theorem witness_PoliciesOnlyTighten : (∃ t, exec (.restrictK 3 12) (setX 12 0x20001000 m1) = .next t ∧
      decide (held 3 t = some (0x20001c00, .ecb key0)) = true) ∧ (Instr.restrictK 3 12).replaces = false ∧
    m1.getCR 3 = .configured (ctx 0x3c00 (.ecb key0)) := ⟨next_of_any (by decide +kernel), rfl, by decide +kernel⟩

/-- Index 32, an index equal to `NUM_CR`, a direct one equal to `NUM_CR`, and each operand of `ace.clone`. -/
theorem witness_BadIndexTraps : (Instr.clearX 6).crOperand = some (true, 6) ∧ (Instr.clearX 6).wellFormed = true ∧
    (Instr.clearX 6).present base.cfg = true ∧ 31 < ((setX 6 32 base).readX 6).toNat ∧
    ({ setX 6 4 base with cfg.numCR := 4 } : State).cfg.numCR ≤ (({ setX 6 4 base with cfg.numCR := 4 } : State).readX 6).toNat ∧
    (Instr.sizeX 5 0).crOperand = some (true, 0) ∧ (Instr.sizeX 5 0).wellFormed = true ∧
    (Instr.clearK 4).crOperand = some (false, 4) ∧
    ({ base with cfg.numCR := 4 } : State).cfg.numCR ≤ (4 : Reg).toNat ∧
    (Instr.cloneXX 6 0).cloneSource = some (true, 0) ∧ (Instr.cloneXK 6 3).cloneTarget = some (true, 6) ∧
    (Instr.cloneXK 6 3).cloneSource = some (false, 3) ∧ base.Names false 3 3 := by
  unfold State.Names
  decide +kernel

theorem witness_UnboundCRTraps : ∃ s : State, (Instr.clearK 31).crOperand = some (false, 31) ∧
    (Instr.cloneKX 1 6).cloneSource = some (true, 6) ∧ s.Names false 31 31 ∧ s.Names true 6 31 ∧ s.Names false 1 1 ∧
    s.aceactivecr ≠ 32 ∧ s.aceactivecr.toNat ≠ 31 := by
  refine ⟨{ full with aceactivecr := 0 }, ?_⟩
  unfold State.Names
  decide +kernel

/-- One state for each of the four errors, and for each set of checks an instruction. -/
theorem witness_StatusErrors : base.Names false 3 3 ∧ base.Unbound 3 ∧ base.getCR 3 = .unconfigured ∧
    (Instr.execDK 3).present base.cfg = true ∧ base.Names false 1 1 ∧ base.cfg.xlen64 = true ∧
    ((setX 11 1 { base with aceactivecr := 3 }).readX 11 ≠ 0 ∧ ({ base with aceactivecr := 3 } : State).Unbound 3 ∧
      3 < base.cfg.numCR) ∧
    mhState 0x1c3c00 = 14 ∧ base.expired (ctx 0x1c3c00 (.ecb 0)) = false ∧
    (setK 3 0x1c3c00 (.ecb 0) base).getCR 3 = .configured (ctx 0x1c3c00 (.ecb 0)) ∧
    ({ base with nowHours := 100 } : State).expired (ctx 0x19000020003c00 (.ecb 0)) = true ∧
    ({ base with nowHours := 99 } : State).expired (ctx 0x19000020003c00 (.ecb 0)) = false ∧
    base.usageAllowed (mhUsage 0x19000020003c00) = false := by
  unfold State.Names State.Unbound
  decide +kernel

theorem witness_MisalignedTraps : full.Names false 31 31 ∧ full.Unbound 31 ∧ (full.effAddr 10 1).toNat % 8 = 1 ∧
    (full.effAddr 10 7).toNat % 8 = 7 ∧ full.getCR 31 = .configured (ctx 0xc3c00 (.ecb key0)) := by
  unfold State.Names State.Unbound
  decide +kernel

theorem witness_ClearCompletes : full.Names false 31 31 ∧ full.Names true 6 31 ∧ full.Unbound 31 := by
  unfold State.Names State.Unbound
  decide +kernel

theorem accepts_pi : mStart.Accepts 3 true 0x3c00 (.plain 0x600 true (.ecb .aes128)) := by
  unfold State.Accepts
  decide +kernel

theorem witness_ProvisionCompletes : mStart.Names false 3 3 ∧ mStart.Unbound 3 ∧ (mStart.effAddr 10 0).toNat = 0x2000 ∧
    mStart.Accessible false 0x2000 8 ∧ BitVec.ofNat 64 (leNat (mStart.readBytes 0x2000 8)) = 0x3c00 ∧
    mStart.Accepts 3 true 0x3c00 (.plain 0x600 true (.ecb .aes128)) ∧
    mStart.Accessible false 0x2008 (piContentSize (.ecb .aes128) false) ∧
    mStart.provisionAlg (.ecb .aes128) 0x3c00 (mStart.readBytes 0x2008 (piContentSize (.ecb .aes128) false)) =
      some (ctx 0x3c00 (.ecb key0)) := by
  unfold State.Names State.Unbound State.Accessible State.Accepts
  decide +kernel

theorem witness_ProvisionTakesEcbKey : mStart.Names false 3 3 ∧ mStart.Unbound 3 ∧
    (mStart.effAddr 10 0).toNat = 0x2000 ∧ mStart.Accessible false 0x2000 8 ∧
    BitVec.ofNat 64 (leNat (mStart.readBytes 0x2000 8)) = 0x3c00 ∧
    mStart.Accepts 3 true 0x3c00 (.plain 0x600 true (.ecb .aes128)) ∧ mhKeyType 0x3c00 = false ∧
    mStart.Accessible false 0x2008 (piContentSize (.ecb .aes128) false) := by
  unfold State.Names State.Unbound State.Accessible State.Accepts
  decide +kernel

/-- One header for each error: a _StateNumber_, an unknown algorithm, one byte too much for the CR file, and a System Key
index in an empty table. -/
theorem witness_ProvisionErrors : m1.Names false 3 3 ∧ m1.Unbound 3 ∧ (m1.effAddr 10 0).toNat = 0x2000 ∧
    m1.Accessible false 0x2000 8 ∧
    BitVec.ofNat 64 (leNat ((setMem 0x2000 8 0x003c020000000000 m1).readBytes 0x2000 8)) = 0x23c00 ∧
    mhState 0x23c00 ≠ 0 ∧
    BitVec.ofNat 64 (leNat ((setMem 0x2000 8 0xfe3f000000000000 m1).readBytes 0x2000 8)) = 0x3ffe ∧
    (mhFormat 0x3ffe = 0 ∧ m1.localityOk (mhLocality 0x3ffe) = true ∧ mhState 0x3ffe = 0 ∧ mhAdditional 0x3ffe = 0) ∧
    supportedHeader m1.cfg 0x3ffe = false ∧ supportedHeader m15.cfg 0xc18 = true ∧
    ({ m15 with cfg.crfCapacity := 1039 } : State).cfg.crfCapacity <
      (({ m15 with cfg.crfCapacity := 1039 } : State).release 4).crfUsed + crCost m15.cfg 0xc18 ∧
    BitVec.ofNat 64 (leNat ((setMem 0x2000 8 0x003c010000000000 m1).readBytes 0x2000 8)) = 0x13c00 ∧
    (algEntry m1.cfg 0x13c00 = some (.plain 0x600 true (.ecb .aes128)) ∧ keyWidths (.ecb .aes128) ≠ [] ∧
      mhKeyType 0x13c00 = true ∧ supportedHeader m1.cfg 0x13c00 = true ∧ m1.skt = []) ∧
    m1.Accessible false 0x2008 (piContentSize (.ecb .aes128) true) := by
  unfold State.Names State.Unbound State.Accessible
  decide +kernel

theorem witness_ExportCompletes : full.MemInv ∧ full.Names true 6 31 ∧ full.Unbound 31 ∧
    full.getCR 31 = .configured (ctx 0xc3c00 (.ecb key0)) ∧
    algEntry full.cfg 0xc3c00 = some (.plain 0x600 true (.ecb .aes128)) ∧ (full.effAddr 7 0).toNat = 0x2000 ∧
    (full.sealContext (.ecb .aes128) (ctx 0xc3c00 (.ecb key0))).length = 40 ∧ full.Accessible true 0x2000 40 := by
  unfold State.MemInv State.Names State.Unbound State.Accessible
  decide +kernel

/-- Vector S8 in memory. -/
def sealed : State := setX 11 0x2300 (setMem 0x2300 40
  0x003c0000000000005dc8dfc982b066f85869d0bf69252c056600b6eb061071ddfa7597a55e536194 base)

/-- What both statements on `ace.import` ask of its operands. -/
theorem import_operands : sealed.Names false 7 7 ∧ sealed.Unbound 7 ∧ (sealed.effAddr 11 0).toNat = 0x2300 ∧
    sealed.Accessible false 0x2300 8 ∧ BitVec.ofNat 64 (leNat (sealed.readBytes 0x2300 8)) = 0x3c00 ∧
    sealed.Accepts 7 false 0x3c00 (.plain 0x600 true (.ecb .aes128)) ∧ sealed.Accessible false 0x2308 16 ∧
    sealed.Accessible false 0x2318 (contentSize (.ecb .aes128) 0x3c00) := by
  unfold State.Names State.Unbound State.Accessible State.Accepts
  decide +kernel

theorem witness_ImportCompletes : (sealed.Names false 7 7 ∧ sealed.Unbound 7 ∧ (sealed.effAddr 11 0).toNat = 0x2300 ∧
    sealed.Accessible false 0x2300 8 ∧ BitVec.ofNat 64 (leNat (sealed.readBytes 0x2300 8)) = 0x3c00 ∧
    sealed.Accepts 7 false 0x3c00 (.plain 0x600 true (.ecb .aes128)) ∧ sealed.Accessible false 0x2308 16 ∧
    sealed.Accessible false 0x2318 (contentSize (.ecb .aes128) 0x3c00)) ∧
    sealed.unseal 0x3c00 (leNat (sealed.readBytes 0x2308 16)) (sealed.readBytes 0x2318 16) = some (natLE 16 key0) ∧
    sealed.deserialize (.ecb .aes128) 0x3c00 (natLE 16 key0) = some (ctx 0x3c00 (.ecb key0)) :=
  ⟨import_operands, by decide +kernel⟩

/-- A sealed context with a System Key index, which no System Keys Table holds. -/
def sealedIndex : State :=
  let tag := base.sealTag 0x13c00 (natLE 8 5)
  setX 11 0x2300 (base.writeBytes 0x2300 (natLE 8 0x13c00 ++ natLE 16 tag ++ base.sealCrypt tag (natLE 8 5)))

/-- A header for each error as in `ace.prov`, a context that does not authenticate, and one that does with a content
that is not accepted. -/
theorem witness_ImportErrors : (sealed.Names false 7 7 ∧ sealed.Unbound 7 ∧ (sealed.effAddr 11 0).toNat = 0x2300 ∧
    sealed.Accessible false 0x2300 8 ∧ BitVec.ofNat 64 (leNat (sealed.readBytes 0x2300 8)) = 0x3c00 ∧
    sealed.Accepts 7 false 0x3c00 (.plain 0x600 true (.ecb .aes128)) ∧ sealed.Accessible false 0x2308 16 ∧
    sealed.Accessible false 0x2318 (contentSize (.ecb .aes128) 0x3c00)) ∧
    (mhFormat 0x3c01 = 1 ∧ supportedHeader sealed.cfg 0x3ffe = false) ∧
    ({ sealed with csk := 0 } : State).unseal 0x3c00 (leNat (sealed.readBytes 0x2308 16)) (sealed.readBytes 0x2318 16) =
      none ∧
    (BitVec.ofNat 64 (leNat (sealedIndex.readBytes 0x2300 8)) = 0x13c00 ∧
      sealedIndex.unseal 0x13c00 (leNat (sealedIndex.readBytes 0x2308 16)) (sealedIndex.readBytes 0x2318 8) =
        some (natLE 8 5) ∧ sealedIndex.deserialize (.ecb .aes128) 0x13c00 (natLE 8 5) = none) :=
  ⟨import_operands, by decide +kernel⟩

theorem witness_ImportOfExport : m1.MemInv ∧ m1.aceactivecr = 32 ∧ m1.Names false 3 3 ∧ m1.Names false 31 31 ∧
    m1.getCR 3 = .configured (ctx 0x3c00 (.ecb key0)) ∧
    m1.Accepts 31 false 0x3c00 (.plain 0x600 true (.ecb .aes128)) ∧ mhKeyType 0x3c00 = false ∧
    key0 < 2 ^ Cipher.aes128.keyBits ∧ Cipher.aes128.keyBits % 8 = 0 ∧ mhAdditional 0x3c00 = 0 ∧
    (m1.effAddr 11 0).toNat = 0x2300 ∧ m1.Accessible true 0x2300 (24 + contentSize (.ecb .aes128) 0x3c00) ∧
    m1.Accessible false 0x2300 (24 + contentSize (.ecb .aes128) 0x3c00) := by
  unfold State.MemInv State.Names State.Accessible State.Accepts
  decide +kernel

theorem witness_SystemImportCompletes : ∃ s : State, s.cfg.hasSystemImport = true ∧ s.Names false 31 31 ∧
    s.Unbound 31 ∧ (s.effAddr 7 0).toNat % 8 = 0 ∧
    s.Accessible false (s.effAddr 7 0).toNat (Config.systemImport s.mem (s.effAddr 7 0)).1 := by
  refine ⟨{ full with cfg.hasSystemImport := true }, rfl, ?_, ?_, by decide +kernel, State.accessible_of_no_regions rfl _ _ _⟩
  · unfold State.Names; decide +kernel
  · unfold State.Unbound; decide +kernel

theorem witness_AbsentInstructionTraps : full.cfg.hasSystemImport = false ∧ (Config.t0 false).hasV = false := ⟨rfl, rfl⟩

/-- Source and destination the same, a copy that fits, and one that does not. -/
theorem witness_CloneCompletes : m15.Names false 3 3 ∧ m15.Unbound 3 ∧
    m15.getCR 3 = .configured (ctx 0xc18 sha) ∧ mhState 0xc18 ≠ 14 ∧ m15.Names false 31 31 ∧
    m15.cfg.crfCapacity < (m15.release 31).crfUsed + crCost m15.cfg 0xc18 ∧
    (m15.release 2).crfUsed + crCost m15.cfg 0xc18 ≤ m15.cfg.crfCapacity ∧
    ({ m15 with nowHours := 100 } : State).expired (ctx 0x190000001c0c18 sha) = true := by
  unfold State.Names State.Unbound
  decide +kernel

/-- A restriction, an operand that is none, on RV32 an even register and an odd one, and a completed CR. -/
theorem witness_RestrictCompletes : m1.Names false 3 3 ∧ m1.Unbound 3 ∧ m1.Usable 3 (ctx 0x3c00 (.ecb key0)) ∧
    mhState 0x3c00 ≠ 15 ∧ m1.cfg.xlen64 = true ∧ m1.restrictHeader 0x3c00 0x1000 = some 0x1c00 ∧
    m1.restrictHeader 0x3c00 0 = none ∧ (30 : Reg).toNat % 2 = 0 ∧ (31 : Reg).toNat % 2 = 1 ∧
    ({ m1 with cfg.xlen64 := false } : State).cfg.xlen64 = false ∧ (0 : Reg).toNat % 2 = 0 ∧ mhState 0x1e3c00 = 15 ∧
    (setK 3 0x1e3c00 (.ecb key0) m1).Usable 3 (ctx 0x1e3c00 (.ecb key0)) := by
  unfold State.Names State.Unbound State.Usable
  decide +kernel

/-- Fields taken over, and per group of the _Locality_ one that may be repeated and one that may not be changed. -/
theorem witness_RestrictedHeader : m1.restrictHeader 0x3c00 0x0019000020603000 = some 0x0019000020603c00 ∧
    m1.restrictHeader 0x603c00 0x603000 = some 0x603c00 ∧ m1.restrictHeader 0x603c00 0x403000 = none := by
  decide +kernel

theorem witness_SizeOfCRCompletes : m1.Names false 3 3 ∧ m1.Unbound 3 ∧
    m1.getCR 3 = .configured (ctx 0x3c00 (.ecb key0)) ∧
    algEntry m1.cfg 0x3c00 = some (.plain 0x600 true (.ecb .aes128)) ∧ m1.Names false 0 0 ∧ m1.getCR 0 = .unconfigured := by
  unfold State.Names State.Unbound
  decide +kernel

/-- A supported header and one that is not. -/
theorem witness_SizeOfHeaderCompletes : supportedHeader base.cfg 0x400003c28 = true ∧
    algEntry base.cfg 0x400003c28 = some (.plain 0x614 true (.ecc .p256)) ∧ supportedHeader base.cfg 0x7c00 = false := by
  decide +kernel

/-- A supported combination and one that is not, both of a size that fits. -/
theorem witness_AvailIsSizeFormB : (31 : Reg) ≠ 0 ∧ supportedHeader base.cfg 0x400003c28 = true ∧
    sccTotalSize base.cfg 0x400003c28 < 2 ^ base.cfg.xlen ∧ supportedHeader base.cfg 0x7c00 = false ∧
    sccTotalSize base.cfg 0x7c00 < 2 ^ base.cfg.xlen := by decide +kernel

/-- Each of the four kinds of operand of Form C. -/
theorem witness_SizeInternalCompletes : mhSetState 0 15 = 0x1e0000 ∧ mhSetState 0 14 = 0x1c0000 ∧
    ((setX 14 0xc00 base).readX 14 = 0xc00 ∧ mhState 0xc00 = 0 ∧ supported base.cfg (mhAlgorithm 0xc00) 3 0 false = true) ∧
    mhPolicy 0x3c00 ≠ 0 := by decide +kernel

/-- A free transfer that fills the window to its bound, and one of a bound CR. -/
theorem witness_InputCompletes : (aStart.readX 11).toNat = 16 ∧ (aStart.effAddr 12 0).toNat = 0x2100 ∧
    aStart.TransferAllowed (fun cc => aStart.acesequence = 0 ∧ inputExpected aStart.cfg aStart.env cc = true) ∧
    aStart.HasRoom 16 ∧ aStart.Accessible false 0x2100 16 ∧
    ({ aStart with aceactivecr := 3 } : State).TransferAllowed
      (fun cc => aStart.acesequence = 0 ∧ inputExpected aStart.cfg aStart.env cc = true) := by
  refine ⟨by decide +kernel, by decide +kernel, .inl rfl, ?_, ?_, .inr ⟨3, ctx 0xc3c00 (.ecb key0), ?_⟩⟩
  · unfold State.HasRoom; decide +kernel
  · unfold State.Accessible; decide +kernel
  · unfold State.Usable; decide +kernel

/-- A free transfer of the whole window, and one of a bound CR. -/
theorem witness_OutputCompletes : aStart.MemInv ∧ aStart.BufferInv ∧ (aStart.readX 11).toNat = 16 ∧
    (aStart.effAddr 13 0).toNat = 0x2200 ∧ aStart.TransferAllowed (fun _ => aStart.acesequence = 1 ∨ aStart.acesequence = 2) ∧
    aStart.HasRoom 16 ∧ aStart.Accessible true 0x2200 16 ∧
    ({ aStart with aceactivecr := 3, acesequence := 2 } : State).TransferAllowed
      (fun _ => (2 : BitVec 2) = 1 ∨ (2 : BitVec 2) = 2) := by
  refine ⟨?_, ?_, by decide +kernel, by decide +kernel, .inl rfl, ?_, ?_, .inr ⟨3, ctx 0xc3c00 (.ecb key0), ?_⟩⟩
  · unfold State.MemInv; decide +kernel
  · unfold State.BufferInv; decide +kernel
  · unfold State.HasRoom; decide +kernel
  · unfold State.Accessible; decide +kernel
  · unfold State.Usable; decide +kernel

theorem witness_EmptyTransferIsNop : base.readX 31 = 0 ∧ base.readX 0 = 0 := by decide +kernel

/-- `m1` with an access to one address stopped. -/
def stopped (a : Nat) : State := { m1 with cfg.memFaults := [⟨a, 1, true, true, [⟨.user, false, false⟩], true⟩] }

/-- A byte in the middle of a read faults, and the last byte of a write; the first byte and the last of what each
instruction on a context reads or stores. -/
theorem witness_MemoryFaults : (aStart.HasRoom 16 ∧ aStart.BufferInv ∧
    ({ aStart with cfg.memFaults := [accessAt2105] } : State).firstFault false 0x2100 16 = some (.loadAccess, 0x2105) ∧
    ({ aStart with cfg.memFaults := [⟨0x220f, 1, false, true, [⟨.user, false, false⟩], true⟩] } : State).firstFault true
      0x2200 16 = some (.storePage, 0x220f) ∧
    ({ aStart with cfg.memFaults := [accessAt2105] } : State).aceactivecr = 32) ∧
    (m1.Names false 3 3 ∧ m1.Unbound 3 ∧ (m1.effAddr 10 0).toNat = 0x2000 ∧ (m1.effAddr 11 0).toNat = 0x2300 ∧
      (stopped 0x2000).firstFault false 0x2000 8 = some (.loadPage, 0x2000) ∧
      (stopped 0x2017).Accessible false 0x2000 8 ∧
      (stopped 0x2017).Accepts 3 true 0x3c00 (.plain 0x600 true (.ecb .aes128)) ∧
      (stopped 0x2017).firstFault false 0x2008 (piContentSize (.ecb .aes128) false) = some (.loadPage, 0x2017) ∧
      (stopped 0x2027).Accepts 3 false 0x3c00 (.plain 0x600 true (.ecb .aes128)) ∧
      (stopped 0x2027).firstFault false 0x2008 (16 + contentSize (.ecb .aes128) 0x3c00) = some (.loadPage, 0x2027) ∧
      (stopped 0x2327).firstFault true 0x2300
        ((stopped 0x2327).sealContext (.ecb .aes128) (ctx 0x3c00 (.ecb key0))).length = some (.storePage, 0x2327)) := by
  unfold State.HasRoom State.BufferInv State.Names State.Unbound State.Accessible State.Accepts
  decide +kernel

/-- A row of `ace.exec` for a window that is not empty, whose step ends with an outcome. -/
def rowEnds (s : State) (cc : Context) (f : Form) (p : Place) (inp : Nat) (o : AlgOutcome) : Bool :=
  decide (s.aceiobuflen ≠ 0 ∧ s.acestart.toNat < s.vl ∧ s.acestart.toNat < s.aceiobuftop.toNat) &&
    (ccExec s.cfg s.env cc).any fun row =>
      decide (row.form = f) && row.size.valid (s.iolen p) && decide ((row.step inp (s.iolen p)).outcome = o)

/-- What the statements on `ace.exec` ask of a row and its window. -/
def ExecEnds (s : State) (n : Fin 32) (cc : Context) (f : Form) (p : Place) (inp : Nat) (o : AlgOutcome) : Prop :=
  ∃ row, s.ExecReady n cc f row ∧ s.WindowOk p row.size ∧ (row.step inp (s.iolen p)).outcome = o

theorem exec_ends_of {s : State} {n : Fin 32} {cc : Context} {f : Form} {p : Place} {inp : Nat} {o : AlgOutcome}
    (hu : s.Unbound n ∧ s.Usable n cc) (h : rowEnds s cc f p inp o = true) : ExecEnds s n cc f p inp o := by
  simp only [rowEnds, Bool.and_eq_true, decide_eq_true_eq] at h
  obtain ⟨⟨hl, hv, hb⟩, h⟩ := h
  obtain ⟨row, hr, hp⟩ := some_of_any h
  simp only [Bool.and_eq_true, decide_eq_true_eq] at hp
  exact ⟨row, ⟨hu.1, hu.2, hr, hp.1.1⟩, ⟨fun _ => hl, by cases p <;> assumption, hp.1.2⟩, hp.2⟩

/-- An ECB context for Form A. -/
def ccA : Context := ctx 0xc3c00 (.ecb key0)

/-- A CMAC context that absorbs, for Form B. -/
def ccB : Context := ctx 0x23c16 (.cmac key0 0 0)

/-- A CTR context that makes keystream, for Form C. -/
def ccC : Context := ctx 0x20c04 (.keystream key0 0 0)

/-- A context of P-256 ready to multiply, for Form D; the scalar is 2 and the point the generator. -/
def ccD : Context := ctx 0x83c28 (.ecc { eccInit with
  hasGenerator := true
  hasScalar := true
  scalar := 2
  generator := 0x4fe342e2fe1a7f9b8ee7eb4a7c0f9e162bce33576b315ececbb6406837bf51f56b17d1f2e12c4247f8bce6e563a440f277037d812deb33a0f4a13945d898c296 })

/-- A hash context in state _hash_verify_ of Ascon-AEAD128 whose tag does not match, for an error with effects. -/
def ccErr : Context := ctx 0x83c1c (asconOf 0 0 0 1 0)

/-- The four contexts in CRs 0 to 3 and the fifth in CR 4. -/
def execStart : State :=
  [ccA, ccB, ccC, ccD, ccErr].zipIdx.foldl (fun s c => s.setCR (Fin.ofNat 32 c.2) (.configured c.1))
    (setX 6 31 (setBuf 16 0 base))

/-- `execStart` with CR `n` bound and `acesequence` at a value. -/
def bound (n : BitVec 6) (q : BitVec 2) : State := { execStart with aceactivecr := n, acesequence := q }

/-- What the statements on `ace.exec` ask of a CR and its operand. -/
theorem exec_operands : (execStart.cfg.hasV = true ∧ execStart.acesequence = 0) ∧
    (execStart.Names false 0 0 ∧ execStart.Names false 1 1 ∧ execStart.Names false 2 2 ∧ execStart.Names false 3 3 ∧
      execStart.Names false 4 4) ∧
    (execStart.Unbound 0 ∧ execStart.Usable 0 ccA) ∧ (execStart.Unbound 1 ∧ execStart.Usable 1 ccB) ∧
    (execStart.Unbound 2 ∧ execStart.Usable 2 ccC) ∧ (execStart.Unbound 3 ∧ execStart.Usable 3 ccD) ∧
    (execStart.Unbound 4 ∧ execStart.Usable 4 ccErr) := by
  unfold State.Names State.Unbound State.Usable
  decide +kernel

theorem witness_ExecVectorCompletes : ExecEnds execStart 0 ccA .A .vectors (execStart.inputAt 1 .vectors) .ok ∧
    ExecEnds execStart 1 ccB .B .vectors (execStart.inputAt 1 .vectors) .ok ∧
    ExecEnds execStart 2 ccC .C .vectors 0 .ok ∧
    ExecEnds execStart 4 ccErr .B .vectors (execStart.inputAt 1 .vectors) (.err 10) := by
  obtain ⟨-, -, hA, hB, hC, -, hE⟩ := exec_operands
  refine ⟨exec_ends_of hA ?_, exec_ends_of hB ?_, exec_ends_of hC ?_, exec_ends_of hE ?_⟩ <;> decide +kernel

/-- The bound CR of each Form at its place in a sequence. -/
theorem bound_operands : ((bound 2 0).StandsFor 2 .C 1 ∧ (bound 2 0).Unbound 2 ∧ (bound 2 0).Usable 2 ccC) ∧
    ((bound 0 1).StandsFor 0 .A 2 ∧ (bound 0 1).Unbound 0 ∧ (bound 0 1).Usable 0 ccA) ∧
    ((bound 1 1).StandsFor 1 .B 0 ∧ (bound 1 1).Unbound 1 ∧ (bound 1 1).Usable 1 ccB) := by
  unfold State.StandsFor State.Unbound State.Usable
  decide +kernel

/-- Form D on its own, and in place of Forms C, A and B on a buffer whose window is the whole of it. -/
theorem witness_ExecBufferCompletes : (∃ row, ccExec execStart.cfg execStart.env ccD = some row ∧
      (decide (row.form = .D) && row.size.valid 0 && decide ((row.step 0 0).outcome = .ok)) = true) ∧
    ExecEnds (bound 2 0) 2 ccC .C .buffer 0 .ok ∧ ExecEnds (bound 0 1) 0 ccA .A .buffer 0 .ok ∧
    ExecEnds (bound 1 1) 1 ccB .B .buffer 0 .ok ∧ execStart.inputAt 0 .buffer = 0 ∧ execStart.BufferInv := by
  obtain ⟨hC, hA, hB⟩ := bound_operands
  refine ⟨some_of_any (by decide +kernel), exec_ends_of hC.2 ?_, exec_ends_of hA.2 ?_, exec_ends_of hB.2 ?_, ?_⟩
  case refine_4 => unfold State.BufferInv; decide +kernel
  all_goals decide +kernel

theorem witness_EcbProcessesBlocks : execStart.Names false 0 0 ∧ execStart.Unbound 0 ∧ execStart.Usable 0 ccA ∧
    execStart.acestart = 0 ∧ algEntry execStart.cfg ccA.mh = some (.plain 0x600 true (.ecb .aes128)) ∧ mhState ccA.mh = 6 ∧
    ccA.ist = .ecb key0 ∧ execStart.vl * execStart.sew = 1 * Cipher.aes128.blockBits ∧ 0 < execStart.cfg.vlen ∧
    (31 : Reg).toNat + execStart.vecRegs ≤ 32 := by
  unfold State.Names State.Unbound State.Usable
  decide +kernel

/-- What the statements on `ace.state` ask of a row and its operand. -/
def StateEnds (s : State) (i : Instr) (n : Fin 32) (cc : Context) (o : Option Place) (aux : Nat) (out : AlgOutcome) :
    Prop :=
  ∃ row, s.StateReady i n cc row o aux ∧ (∀ p, o = some p → s.WindowOk p row.size) ∧ (row.act aux).outcome = out

/-- A transition row of a Form for a window that is not empty, whose action ends with an outcome. -/
def transitionEnds (s : State) (cc : Context) (t : Nat) (f : Form) (o : Option Place) (aux : Nat) (out : AlgOutcome) :
    Bool :=
  decide (s.aceiobuflen ≠ 0 ∧ s.acestart.toNat < s.vl ∧ s.acestart.toNat < s.aceiobuftop.toNat) &&
    ((ccRows s.cfg s.env cc t).find? fun x => decide (x.form = f)).any fun row =>
      (o.all fun p => row.size.valid (s.iolen p)) && decide ((row.act aux).outcome = out)

theorem state_ends_of {s : State} {i : Instr} {n : Fin 32} {cc : Context} {k r : Reg} {imm : BitVec 7} {f : Form}
    {o : Option Place} {aux : Nat} {out : AlgOutcome}
    (hu : s.Unbound n ∧ s.Names false k n ∧ s.Changeable n cc imm)
    (hi : (i = .stateA k imm ∧ f = .A ∧ s.acesequence = 0 ∧ o = none ∧ aux = 0) ∨
      (i = .stateB k imm r ∧ f = .B ∧ s.acesequence = 0 ∧ o = none ∧ aux = (s.readX r).toNat) ∨
      (i = .stateC k imm r ∧ f = .C ∧ s.cfg.hasV = true ∧ s.acesequence = 0 ∧ o = some .vectors ∧
        aux = s.inputAt r .vectors) ∨
      (i = .stateA k imm ∧ f = .C ∧ s.acesequence = 1 ∧ s.aceactivecr.toNat = n.val ∧ o = some .buffer ∧
        aux = s.inputAt 0 .buffer))
    (h : transitionEnds s cc imm.toNat f o aux out = true) : StateEnds s i n cc o aux out := by
  simp only [transitionEnds, Bool.and_eq_true, decide_eq_true_eq] at h
  obtain ⟨⟨hl, hv, hb⟩, h⟩ := h
  obtain ⟨row, hr, hp⟩ := some_of_any h
  simp only [Bool.and_eq_true, decide_eq_true_eq] at hp
  obtain rfl : row.form = f := by simpa using List.find?_some hr
  refine ⟨row, ⟨hu.1, k, r, imm, hu.2.1, hu.2.2, hr, hi⟩, fun p hp' => ⟨fun _ => hl, by cases p <;> assumption, ?_⟩, hp.2⟩
  subst hp'
  exact hp.1

/-- A GCM context whose counter is at its end. -/
def ccExhausted : Context := ctx 0xc3c0c (gcmOf 0xffffffff 0)

/-- The generator of P-256 times 0 is no point of the curve. -/
def ccInfinity : Context := ctx 0x83c28 (.ecc { eccInit with hasGenerator := true, hasScalar := true })

/-- A GCM step at the end of its counter, on vector registers and on the buffer; a product that is no point; and a last
block of CMAC longer than a block. -/
theorem witness_InvalidatingStep : ∃ s : State,
    s = setX 16 129 ((bound 5 1).setCR 5 (.configured ccExhausted)) ∧
      ExecEnds s 5 ccExhausted .A .buffer 0 (.invalidate 4) ∧ s.StandsFor 5 .A 2 ∧
    ∃ t : State, t = ({ s with aceactivecr := 32, acesequence := 0 } : State).setCR 6 (.configured ccInfinity) ∧
      ExecEnds t 5 ccExhausted .A .vectors (t.inputAt 1 .vectors) (.invalidate 4) ∧
      (t.Usable 6 ccInfinity ∧ t.Unbound 6) ∧
      (∃ row, ccExec t.cfg t.env ccInfinity = some row ∧ (decide (row.form = .D) && row.size.valid 0 &&
        decide ((row.step 0 0).outcome = .invalidate 8)) = true) ∧
      StateEnds t (.stateB 1 2 16) 1 ccB none 129 (.invalidate 4) := by
  refine ⟨_, rfl, exec_ends_of ?_ ?_, ?_, _, rfl, exec_ends_of ?_ ?_, ?_, some_of_any ?_,
    state_ends_of (k := 1) (r := 16) (imm := 2) (f := .B) ?_ (.inr (.inl ?_)) ?_⟩ <;>
    (try unfold State.StandsFor) <;> (try unfold State.Unbound) <;> (try unfold State.Usable) <;>
    (try unfold State.Changeable) <;> (try unfold State.Names) <;> decide +kernel

/-- A CTR context in state _initial_, which takes its IV by Form C. -/
def ccIv : Context := ctx 0xc04 (.keystream key0 0 0)

/-- `State.WindowError` as a check. -/
def refuses (s : State) (p : Place) (size : SizeClass) (code : BitVec 4) : Bool :=
  decide (if p = .buffer ∧ s.aceiobuflen = 0 then code = 3
    else
      code = 8 ∧ ((match p with
          | .vectors => s.vl
          | .buffer => s.aceiobuftop.toNat) ≤ s.acestart.toNat ∨ size.valid (s.iolen p) = false))

theorem window_error_of {s : State} {p : Place} {size : SizeClass} {code : BitVec 4} (h : refuses s p size code = true) :
    s.WindowError p size code := by
  unfold refuses at h
  unfold State.WindowError
  exact of_decide_eq_true h

/-- What the statement on windows asks of `ace.exec`. -/
def ExecRefused (s : State) (n : Fin 32) (cc : Context) (f : Form) (p : Place) (code : BitVec 4) : Prop :=
  ∃ row, s.ExecReady n cc f row ∧ s.WindowError p row.size code

theorem exec_refused_of {s : State} {n : Fin 32} {cc : Context} {f : Form} {p : Place} {code : BitVec 4}
    (hu : s.Unbound n ∧ s.Usable n cc)
    (h : ((ccExec s.cfg s.env cc).any fun row => decide (row.form = f) && refuses s p row.size code) = true) :
    ExecRefused s n cc f p code := by
  obtain ⟨row, hr, hp⟩ := some_of_any h
  simp only [Bool.and_eq_true, decide_eq_true_eq] at hp
  exact ⟨row, ⟨hu.1, hu.2, hr, hp.1⟩, window_error_of hp.2⟩

/-- An unconfigured buffer, an empty window, and sizes just off what a step takes, for each instruction with an
operand. -/
theorem witness_WindowErrors : ExecRefused { execStart with vl := 0 } 0 ccA .A .vectors 8 ∧
    ExecRefused { execStart with vl := 5 } 0 ccA .A .vectors 8 ∧
    ExecRefused { bound 0 1 with aceiobuflen := 0 } 0 ccA .A .buffer 3 ∧
    ExecRefused { bound 0 1 with acestart := 16 } 0 ccA .A .buffer 8 ∧
    ExecRefused { bound 0 1 with acestart := 1 } 0 ccA .A .buffer 8 ∧
    (∃ s : State, s = { execStart.setCR 7 (.configured ccIv) with vl := 2 } ∧
      ∃ row, s.StateReady (.stateC 7 1 1) 7 ccIv row (some .vectors) (s.inputAt 1 .vectors) ∧
        s.WindowError .vectors row.size 8) ∧
    ({ aStart with aceiobuflen := 0 } : State).aceiobuflen = 0 ∧ aStart.readX 11 ≠ 0 ∧
    ({ aStart with acestart := 17 } : State).aceiobuftop.toNat < ({ aStart with acestart := 17 } : State).acestart.toNat ∧
    ({ aStart with acestart := 1 } : State).aceiobuftop.toNat - ({ aStart with acestart := 1 } : State).acestart.toNat <
      (aStart.readX 11).toNat := by
  have hS (s : State) (h : s = { execStart.setCR 7 (.configured ccIv) with vl := 2 }) :
      (((ccRows s.cfg s.env ccIv 1).find? fun x => decide (x.form = .C)).any fun row =>
        decide (row.form = .C) && refuses s .vectors row.size 8) = true := by
    rw [h]; decide +kernel
  obtain ⟨row, hr, hp⟩ := some_of_any (hS _ rfl)
  simp only [Bool.and_eq_true, decide_eq_true_eq] at hp
  refine ⟨exec_refused_of ?_ ?_, exec_refused_of ?_ ?_, exec_refused_of ?_ ?_, exec_refused_of ?_ ?_,
    exec_refused_of ?_ ?_, ⟨_, rfl, row, ⟨?_, 7, 1, 1, ?_, ?_, by rw [hp.1]; exact hr,
      .inr (.inr (.inl ⟨rfl, hp.1, ?_, ?_, rfl, rfl⟩))⟩, window_error_of hp.2⟩, ?_⟩ <;>
    (try unfold State.Unbound) <;> (try unfold State.Usable) <;> (try unfold State.Names) <;>
    (try unfold State.Changeable) <;> decide +kernel

/-- A state without Form, a hash in state _initial_, Form D where only Form C is allowed and no CR is bound, and a state
that only Form A of `ace.state` leads to. -/
theorem witness_FormNotAllowedTraps : execForm base.cfg base.env (ctx 0x3c00 (.ecb key0)) ≠ some .A ∧
    m1.Usable 3 (ctx 0x3c00 (.ecb key0)) ∧ invalidatesOnBadExec base.cfg (ctx 0x3c00 (.ecb key0)) = false ∧
    execForm base.cfg base.env (ctx 0xc18 sha) ≠ some .B ∧ m15.Usable 3 (ctx 0xc18 sha) ∧
    invalidatesOnBadExec base.cfg (ctx 0xc18 sha) = true ∧ execForm base.cfg base.env ccC = some .C ∧
    execStart.aceactivecr.toNat ≠ 2 ∧ m1.Changeable 3 (ctx 0x3c00 (.ecb key0)) 6 ∧
    (ccRows m1.cfg m1.env (ctx 0x3c00 (.ecb key0)) 6).length = 1 ∧
    (∀ row ∈ ccRows m1.cfg m1.env (ctx 0x3c00 (.ecb key0)) 6, row.form ≠ .B) := by
  unfold State.Usable State.Changeable
  decide +kernel

/-- The bound CR in the middle of a sequence, before one, and in one where its state has no Form for the buffer. -/
theorem witness_OrderViolationInvalidates : ∃ s : State, s = { aStart with aceactivecr := 3, acesequence := 2 } ∧
    s.Usable 3 (ctx 0xc3c00 (.ecb key0)) ∧ s.Names false 3 3 ∧ s.Unbound 3 ∧ s.acesequence ≠ 0 ∧ s.acesequence = 2 ∧
    s.readX 11 ≠ 0 ∧ ({ s with acesequence := 0 } : State).acesequence = 0 ∧
    ({ s with acesequence := 3 } : State).acesequence = 3 ∧ s.aceactivecr.toNat = 3 ∧
    inputExpected s.cfg s.env (ctx 0x3c00 (.ecb key0)) = false ∧
    (setK 3 0x3c00 (.ecb key0) s).Usable 3 (ctx 0x3c00 (.ecb key0)) ∧
    (execForm s.cfg s.env (ctx 0x3c00 (.ecb key0)) ≠ some .A ∧ execForm s.cfg s.env (ctx 0x3c00 (.ecb key0)) ≠ some .B) ∧
    s.Changeable 3 (ctx 0xc3c00 (.ecb key0)) 0 ∧ (ccRows s.cfg s.env (ctx 0xc3c00 (.ecb key0)) 0).length = 1 ∧
    ∀ row ∈ ccRows s.cfg s.env (ctx 0xc3c00 (.ecb key0)) 0, row.form ≠ .C := by
  refine ⟨_, rfl, ?_⟩
  unfold State.Usable State.Names State.Unbound State.Changeable
  decide +kernel

/-- Form A from _initial_ and back from _invalid_, Form B, Form C on a vector register, and on the buffer by Form A. -/
theorem witness_StateCompletes : ∃ s : State, s = setX 16 128 ((setK 5 0x3c00 (.ecb key0)
      (setK 6 0x1c3c00 (.ecb key0) (execStart.setCR 7 (.configured ccIv))))) ∧
    StateEnds s (.stateA 5 6) 5 (ctx 0x3c00 (.ecb key0)) none 0 .ok ∧
    StateEnds s (.stateA 6 0) 6 (ctx 0x1c3c00 (.ecb key0)) none 0 .ok ∧
    StateEnds s (.stateB 1 2 16) 1 ccB none 128 .ok ∧
    StateEnds s (.stateC 7 1 1) 7 ccIv (some .vectors) (s.inputAt 1 .vectors) .ok ∧
    ∃ t : State, t = { s with aceactivecr := 7, acesequence := 1 } ∧
      StateEnds t (.stateA 7 1) 7 ccIv (some .buffer) (t.inputAt 0 .buffer) .ok := by
  refine ⟨_, rfl, state_ends_of (k := 5) (r := 0) (imm := 6) (f := .A) ?_ (.inl ?_) ?_,
    state_ends_of (k := 6) (r := 0) (imm := 0) (f := .A) ?_ (.inl ?_) ?_,
    state_ends_of (k := 1) (r := 16) (imm := 2) (f := .B) ?_ (.inr (.inl ?_)) ?_,
    state_ends_of (k := 7) (r := 1) (imm := 1) (f := .C) ?_ (.inr (.inr (.inl ?_))) ?_, _, rfl,
    state_ends_of (k := 7) (r := 0) (imm := 1) (f := .C) ?_ (.inr (.inr (.inr ?_))) ?_⟩ <;>
    (try unfold State.Unbound) <;> (try unfold State.Names) <;> (try unfold State.Changeable) <;> decide +kernel

theorem witness_StateNotAllowedInvalidates : m1.Names false 3 3 ∧ m1.Unbound 3 ∧
    m1.Changeable 3 (ctx 0x3c00 (.ecb key0)) 127 ∧ m1.acesequence = 0 ∧
    (ccRows m1.cfg m1.env (ctx 0x3c00 (.ecb key0)) 127).isEmpty = true ∧ (Instr.stateC 3 127 1).present m1.cfg = true ∧
    (({ m1 with aceactivecr := 3 } : State).aceactivecr.toNat = 3 ∧ ({ m1 with aceactivecr := 3 } : State).Unbound 3) := by
  unfold State.Names State.Unbound State.Changeable
  decide +kernel

/-- Each CSR of the statement, a number at which there is none, and an access of each kind. -/
theorem witness_PlainCsrsWritten : aceCsr EncParams.t0 0x800 = some .error ∧ aceCsr EncParams.t0 0x008 = some .start ∧
    aceCsr EncParams.t0 0x803 = some .sequence ∧ aceCsr EncParams.t0 0x805 = some .htrapmask ∧
    aceCsr EncParams.t0 0x806 = some .htrapvector ∧ aceCsr EncParams.t0 0xcc0 = some .marchid ∧
    (aceCsr EncParams.t0 0x807 = none ∧ Config.reference.hostCsrs = []) ∧
    (suppressed ⟨.setBits, true, 5, 0, 0x800⟩ = true ∧ suppressed ⟨.clearBits, true, 5, 1, 0x800⟩ = false ∧
      suppressed ⟨.write, false, 5, 0, 0x800⟩ = false) := by decide

/-- The least refused value, the greatest taken one, a bit cleared, and a sequence in progress. -/
theorem witness_ActiveCRWritten : EncParams.t0.wellFormed = true ∧ base.cfg.enc.csrActivecr = 0x804 ∧
    ((setX 15 33 base).csrWritten ⟨.write, false, 0, 15, 0x804⟩ 32).setWidth 6 = (33 : BitVec 6) ∧
    ((setX 15 32 base).csrWritten ⟨.write, false, 0, 15, 0x804⟩ 3).setWidth 6 = (32 : BitVec 6) ∧
    (base.csrWritten ⟨.clearBits, true, 0, 1, 0x804⟩ 3).setWidth 6 = (2 : BitVec 6) ∧
    suppressed ⟨.clearBits, true, 0, 1, 0x804⟩ = false ∧
    ({ base with acesequence := 1 } : State).acesequence ≠ 0 := by decide +kernel

/-- `m15` with the buffer in the CR file. -/
def shared : State := { m15 with cfg.iobufInCrf := true }

theorem shared_room : ∀ k : Fin 257, 192 < k.val → shared.cfg.crfCapacity < shared.crUsed + iobufCost shared.cfg k.val := by
  decide +kernel

/-- The greatest length that is not cut and the least that is, the bounds of the window, no buffer, and a buffer in the
CR file, of which four hashes leave 192 bytes. -/
theorem witness_BufferCsrsWritten : (base.cfg.enc.wellFormed = true ∧ base.cfg.iobufInCrf = false ∧
      base.cfg.hasIobuf = true ∧ base.cfg.iobufMax = 256 ∧
      ((setX 11 256 base).csrWritten ⟨.write, false, 0, 11, 0x801⟩ 0).toNat = 256 ∧
      ((setX 11 257 base).csrWritten ⟨.write, false, 0, 11, 0x801⟩ 0).toNat = 257 ∧
      (base.csrWritten ⟨.setBits, true, 0, 8, 0x802⟩ 16).toNat = 24 ∧ aStart.acestart.toNat ≤ 0 ∧
      aStart.aceiobuflen.toNat = 16 ∧ ({ base with cfg.hasIobuf := false } : State).cfg.hasIobuf = false ∧
      shared.cfg.hasIobuf = true ∧ shared.cfg.iobufInCrf = true ∧ shared.cfg.iobufMax = 256 ∧
      shared.crUsed + iobufCost shared.cfg 192 ≤ shared.cfg.crfCapacity) ∧
    ∀ k, 192 < k → k ≤ shared.cfg.iobufMax → shared.cfg.crfCapacity < shared.crUsed + iobufCost shared.cfg k :=
  ⟨by decide +kernel, fun k h1 (h2 : k ≤ 256) => shared_room ⟨k, by omega⟩ h1⟩

end Sys2Proof.Tests
end

/-! PROOF. What the invariants rest on: the length of the additional data, the capacity that CRs and the buffer take. -/
namespace Sys2Proof.Machine

/-! ### Headers -/

theorem mhAdditional_setField_other (mh : BitVec 64) (lo : Nat) {w : Nat} (v : BitVec w) (h : 46 ≤ lo ∨ lo + w ≤ 32) :
    mhAdditional (setField mh lo v) = mhAdditional mh :=
  extract_setField_other mh lo v 32 14 (by omega) h

@[simp] theorem mhAdditional_mhSetState (mh : BitVec 64) (sn : BitVec 4) :
    mhAdditional (mhSetState mh sn) = mhAdditional mh :=
  mhAdditional_setField_other mh 17 sn (by omega)

@[simp] theorem mhAdditional_mhSetAdditional (mh : BitVec 64) (n : BitVec 14) :
    mhAdditional (mhSetAdditional mh n) = n :=
  extract_setField_same mh 32 n (by omega)

@[simp] theorem crCost_mhSetState (c : Config) (mh : BitVec 64) (sn : BitVec 4) :
    crCost c (mhSetState mh sn) = crCost c mh := by
  obtain ⟨_, halg, _, hscp, hkt, _⟩ := mhSetState_fields mh sn
  exact crCost_of_fields halg hscp hkt

@[simp] theorem crCost_mhSetAdditional (c : Config) (mh : BitVec 64) (n : BitVec 14) :
    crCost c (mhSetAdditional mh n) = crCost c mh := by
  obtain ⟨_, halg, _, hscp, hkt, _⟩ := mhSetAdditional_fields mh n
  exact crCost_of_fields halg hscp hkt

/-- `ace.restrict` has no say in the length of the additional data (41_cr_management.md R220). -/
theorem State.restrictHeader_additional {s : State} {m op mh : BitVec 64} (h : s.restrictHeader m op = some mh) :
    mhAdditional mh = mhAdditional m := by
  unfold State.restrictHeader at h
  obtain ⟨_, h⟩ := Option.ite_none_left_eq_some.1 h
  obtain ⟨_, h⟩ := Option.ite_none_left_eq_some.1 h
  obtain ⟨_, h⟩ := Option.ite_none_left_eq_some.1 h
  split at h
  · obtain ⟨_, h⟩ := Option.ite_none_left_eq_some.1 h
    obtain rfl := Option.some.inj h
    rw [mhAdditional_setField_other _ 46 _ (by omega), mhAdditional_setField_other _ 29 _ (by omega),
      mhAdditional_setField_other _ 21 _ (by omega), mhAdditional_setField_other _ 14 _ (by omega),
      mhAdditional_setField_other _ 12 _ (by omega)]
  · cases h

/-! ### The additional data of an elliptic curve (48_alg_ecc.md R502) -/

@[simp] theorem eccOptional_length (present : Bool) (n v : Nat) :
    (eccOptional present n v).length = present.toNat * n := by
  cases present with
  | false => simp only [eccOptional, Bool.false_eq_true, if_false, List.length_nil, Bool.toNat_false, Nat.zero_mul]
  | true => simp only [eccOptional, if_true, natLE_length, Bool.toNat_true, Nat.one_mul]

/-- The bytes of the optional fields that are present. -/
def eccOptionalBytes (c : Curve) (e : EccIst) : Nat :=
  e.hasSecondPoint.toNat * (2 * c.bits / 8) + e.hasPublicKey.toNat * (2 * c.bits / 8) +
    e.hasSignature.toNat * (2 * c.bits / 8) + e.hasHash.toNat * (c.hashBits / 8) +
    e.hasRandomNumber.toNat * (c.hashBits / 8)

theorem eccVarLen_eq (c : Curve) (e : EccIst) :
    eccVarLen c e = if eccOptionalBytes c e = 0 then 0 else 8 + eccOptionalBytes c e := rfl

@[simp] theorem eccAd_length (archId : Word) (c : Curve) (e : EccIst) :
    (eccAd archId c e).length = eccVarLen c e := by
  unfold eccAd
  split
  · rename_i hlen
    rw [hlen, List.length_nil]
  · rename_i hlen
    have hopt : eccOptionalBytes c e ≠ 0 := fun h => hlen (by rw [eccVarLen_eq, if_pos h])
    rw [eccVarLen_eq, if_neg hopt]
    simp only [List.length_append, natLE_length, eccOptional_length, eccOptionalBytes]
    omega

/-- The optional fields are a whole number of 8-byte units. -/
theorem eccOptionalBytes_units (c : Curve) (e : EccIst) :
    eccOptionalBytes c e % 8 = 0 ∧ eccOptionalBytes c e ≤ 560 := by
  have := e.hasSecondPoint.toNat_le
  have := e.hasPublicKey.toNat_le
  have := e.hasSignature.toNat_le
  have := e.hasHash.toNat_le
  have := e.hasRandomNumber.toNat_le
  cases c <;> simp only [eccOptionalBytes, Curve.bits, Curve.hashBits] <;> omega

/-- The segment is a whole number of 8-byte units, few enough for _AdditionalData_. -/
theorem eccVarLen_units (c : Curve) (e : EccIst) : eccVarLen c e % 8 = 0 ∧ eccVarLen c e / 8 < 2 ^ 14 := by
  obtain ⟨hunits, hbound⟩ := eccOptionalBytes_units c e
  rw [eccVarLen_eq]
  split <;> omega

/-- What `ccSync` makes of a context: nothing, or the segment of its flags with its length in the header. -/
theorem ccSync_cases (c : Config) (cc : Context) :
    ccSync c cc = cc ∨ ∃ curve i, ccSync c cc =
      { cc with mh := mhSetAdditional cc.mh (BitVec.ofNat 14 (eccVarLen curve i / 8)), ad := eccAd (marchid c) curve i } := by
  unfold ccSync
  split
  · split
    · exact .inr ⟨_, _, rfl⟩
    · exact .inl rfl
  · exact .inl rfl

/-! ### Contexts -/

/-- What the invariants ask of a context in a CR (10_state.md R52, R64, R65). -/
structure Context.Sound (cc : Context) : Prop where
  exporting : cc.exporting = false
  incomplete : cc.incomplete = false
  segment : cc.ad.length = 8 * (mhAdditional cc.mh).toNat

theorem Context.Sound.copy {cc : Context} (h : cc.Sound) : cc.copy.Sound := ⟨rfl, rfl, h.segment⟩

/-- Another header and Internal State with the same segment. -/
theorem Context.Sound.setHeader {cc : Context} (h : cc.Sound) {mh : BitVec 64} {ist : Ist}
    (ha : mhAdditional mh = mhAdditional cc.mh) : Context.Sound { cc with mh := mh, ist := ist, exporting := false } :=
  ⟨rfl, h.incomplete, by rw [ha]; exact h.segment⟩

theorem Context.Sound.invalid {cc : Context} (h : cc.Sound) : (ccInvalid cc).Sound :=
  h.setHeader (mhAdditional_mhSetState _ _)

theorem Context.Sound.sync {cc : Context} (h : cc.Sound) (c : Config) : (ccSync c cc).Sound := by
  rcases ccSync_cases c cc with e | ⟨curve, i, e⟩
  · rwa [e]
  · obtain ⟨hunits, hbound⟩ := eccVarLen_units curve i
    rw [e]
    refine ⟨h.exporting, h.incomplete, ?_⟩
    simp only [eccAd_length, mhAdditional_mhSetAdditional, BitVec.toNat_ofNat, Nat.mod_eq_of_lt hbound]
    omega

theorem Context.Sound.after {cc : Context} (h : cc.Sound) (c : Config) (r : Step) : (ccAfter c cc r).Sound :=
  Context.Sound.sync (h.setHeader (mhAdditional_mhSetState _ _)) c

@[simp] theorem crCost_ccInvalid (c : Config) (cc : Context) : crCost c (ccInvalid cc).mh = crCost c cc.mh :=
  crCost_mhSetState _ _ _

@[simp] theorem crCost_ccSync (c c' : Config) (cc : Context) : crCost c (ccSync c' cc).mh = crCost c cc.mh := by
  rcases ccSync_cases c' cc with e | ⟨curve, i, e⟩
  · rw [e]
  · rw [e, crCost_mhSetAdditional]

@[simp] theorem crCost_ccAfter (c c' : Config) (cc : Context) (r : Step) :
    crCost c (ccAfter c' cc r).mh = crCost c cc.mh := by
  simp only [ccAfter, crCost_ccSync, crCost_mhSetState]

/-! ### The capacity CRs take (10_state.md R39) -/

theorem sum_set_add_getElem (l : List Nat) {i : Nat} (h : i < l.length) (a : Nat) :
    (l.set i a).sum + l[i] = l.sum + a := by
  induction l generalizing i with
  | nil => exact absurd h (Nat.not_lt_zero i)
  | cons b l ih =>
    cases i with
    | zero =>
      simp only [List.set_cons_zero, List.getElem_cons_zero, List.sum_cons]
      omega
    | succ i =>
      have := ih (Nat.lt_of_succ_lt_succ h)
      simp only [List.set_cons_succ, List.getElem_cons_succ, List.sum_cons]
      omega

theorem State.crUsed_setCR (s : State) (n : Fin 32) (c : CR) :
    (s.setCR n c).crUsed + (s.getCR n).cost s.cfg = s.crUsed + c.cost s.cfg := by
  have hn : n.val < (s.cr.toList.map (CR.cost s.cfg)).length := by
    simp only [List.length_map, Vector.length_toList, n.isLt]
  simpa only [State.crUsed, State.setCR_cfg, State.setCR_cr, Vector.toList_set, List.map_set, State.getCR,
    List.getElem_map, Vector.getElem_toList] using sum_set_add_getElem _ hn (c.cost s.cfg)

/-- The capacity the buffer takes. -/
def State.bufferUsed (s : State) : Nat := if s.cfg.iobufInCrf then iobufCost s.cfg s.aceiobuflen.toNat else 0

theorem State.crfUsed_eq (s : State) : s.crfUsed = s.crUsed + s.bufferUsed := rfl

@[simp] theorem State.bufferUsed_setCR (s : State) (n : Fin 32) (c : CR) : (s.setCR n c).bufferUsed = s.bufferUsed := rfl

/-- A CR that is written gives back what it took. -/
theorem State.crfUsed_setCR (s : State) (n : Fin 32) (c : CR) :
    (s.setCR n c).crfUsed + (s.getCR n).cost s.cfg = s.crfUsed + c.cost s.cfg := by
  have := s.crUsed_setCR n c
  rw [State.crfUsed_eq, State.crfUsed_eq, State.bufferUsed_setCR]
  omega

@[simp] theorem State.getCR_release (s : State) (n : Fin 32) : (s.release n).getCR n = .unconfigured :=
  s.getCR_setCR_same n _

theorem State.crfUsed_release_setCR (s : State) (n : Fin 32) (cc : Context) :
    ((s.release n).setCR n (.configured cc)).crfUsed = (s.release n).crfUsed + crCost s.cfg cc.mh := by
  simpa only [CR.cost, State.getCR_release, Nat.add_zero, State.release_cfg] using (s.release n).crfUsed_setCR n (.configured cc)

theorem State.crUsed_of_unconfigured {s : State} (h : s.cr = Vector.replicate 32 .unconfigured) : s.crUsed = 0 := by
  simp only [State.crUsed, h, Vector.toList_replicate, List.map_replicate, CR.cost, List.sum_replicate_nat, Nat.mul_zero]

theorem State.getCR_of_unconfigured {s : State} (h : s.cr = Vector.replicate 32 .unconfigured) (n : Fin 32) :
    s.getCR n = .unconfigured := by
  simp only [State.getCR, h, Vector.getElem_replicate]

/-! ### The capacity the buffer takes (log 17) -/

theorem bufferOk_of_wf {c : Config} (h : c.wf = true) : c.bufferOk = true := by
  simp only [Config.wf, Bool.and_eq_true] at h
  obtain ⟨⟨⟨⟨⟨⟨_, hbuffer⟩, _⟩, _⟩, _⟩, _⟩, _⟩ := h
  exact hbuffer

theorem iobufMax_lt {c : Config} (h : c.wf = true) : c.iobufMax < 2 ^ c.xlen := by
  have := bufferOk_of_wf h
  simp only [Config.bufferOk, Bool.and_eq_true, decide_eq_true_eq] at this
  obtain ⟨⟨⟨_, hlt⟩, _⟩, _⟩ := this
  exact hlt

theorem xlen_le (c : Config) : c.xlen ≤ 64 := by
  unfold Config.xlen
  split <;> omega

/-- With the buffer in the CR file, no buffer costs nothing and one more byte costs no less. -/
theorem iobufCost_of_wf {c : Config} (h : c.wf = true) (hcrf : c.iobufInCrf = true) :
    iobufCost c 0 = 0 ∧ ∀ n, n < c.iobufMax → iobufCost c n ≤ iobufCost c (n + 1) := by
  have := bufferOk_of_wf h
  simp only [Config.bufferOk, hcrf, Bool.not_true, Bool.false_or, Bool.and_eq_true, decide_eq_true_eq,
    List.all_eq_true, List.mem_range] at this
  exact this.2

theorem iobufCost_mono {c : Config} (h : c.wf = true) (hcrf : c.iobufInCrf = true) {m n : Nat} (hmn : m ≤ n)
    (hn : n ≤ c.iobufMax) : iobufCost c m ≤ iobufCost c n := by
  induction hmn with
  | refl => exact Nat.le_refl _
  | @step n _ ih => exact Nat.le_trans (ih (by omega)) ((iobufCost_of_wf h hcrf).2 n (by omega))

theorem largestUpTo_le (p : Nat → Bool) (n : Nat) : largestUpTo p n ≤ n := by
  induction n with
  | zero => exact Nat.le_refl 0
  | succ n ih => simp only [largestUpTo]; split <;> omega

theorem largestUpTo_passes (p : Nat → Bool) (n : Nat) : largestUpTo p n = 0 ∨ p (largestUpTo p n) = true := by
  induction n with
  | zero => exact .inl rfl
  | succ n ih =>
    simp only [largestUpTo]
    split
    · exact .inr ‹_›
    · exact ih

theorem State.iobufLimit_le (s : State) : s.iobufLimit ≤ s.cfg.iobufMax := by
  unfold State.iobufLimit
  split
  · exact Nat.zero_le _
  split
  · exact Nat.le_refl _
  · exact largestUpTo_le _ _

/-- The current maximum is 0 or a length that fits into the CR file. -/
theorem State.iobufLimit_fits (s : State) (hcrf : s.cfg.iobufInCrf = true) :
    s.iobufLimit = 0 ∨ s.crUsed + iobufCost s.cfg s.iobufLimit ≤ s.cfg.crfCapacity := by
  unfold State.iobufLimit
  split
  · exact .inl rfl
  split
  · rename_i hout
    rw [hcrf] at hout
    cases hout
  · exact (largestUpTo_passes _ _).imp_right of_decide_eq_true

end Sys2Proof.Machine

/-! PROOF. For each operation on the state, under which conditions it keeps the invariants. -/
namespace Sys2Proof.Machine

variable {s t : State}

/-! ### Fields no invariant reads -/

/-- The state with every field erased that no invariant reads. -/
def State.shape (s : State) : State :=
  { s with
    mode := .machine, hEnabled := false, virt := false, v := Vector.replicate 32 0, vl := 0, sew := 0, aceerror := 0
    acestart := 0, acesequence := 0, acehtrapmask := 0, acehtrapvector := 0, csk := 0, skt := [], nowHours := 0
    rngPos := 0, freeTick := 0, trap := none, events := [] }

theorem State.shape_inv_iff : s.shape.Inv ↔ s.Inv :=
  ⟨fun h => ⟨h.config, h.mem, h.width, h.file, h.active, h.buffer, h.capacity, h.hidden, h.segment, h.secrets⟩,
   fun h => ⟨h.config, h.mem, h.width, h.file, h.active, h.buffer, h.capacity, h.hidden, h.segment, h.secrets⟩⟩

theorem State.Inv.of_shape_eq (h : s.Inv) (e : t.shape = s.shape) : t.Inv :=
  State.shape_inv_iff.1 (e ▸ State.shape_inv_iff.2 h)

theorem State.Inv.raise (h : s.Inv) (c : Cause) (v : Word) : (s.raise c v).Inv := h.of_shape_eq rfl

theorem State.Inv.illegal (h : s.Inv) (w : InstrWord) : (s.illegal w).Inv := h.raise _ _

theorem State.Inv.setError (h : s.Inv) (code : BitVec 4) : State.Inv { s with aceerror := code } := h.of_shape_eq rfl

theorem State.Inv.setSequence (h : s.Inv) (q : BitVec 2) : (s.setSequence q).Inv := by
  unfold State.setSequence
  split
  · exact h
  · exact h.of_shape_eq rfl

theorem State.Inv.setVectors (h : s.Inv) (v : Vector Nat 32) : State.Inv { s with v := v } := h.of_shape_eq rfl

theorem State.Inv.writeVec (h : s.Inv) (r : Reg) (new : Nat) : (s.writeVec r new).Inv := by
  unfold State.writeVec
  exact h.setVectors _

theorem State.Inv.tick (h : s.Inv) (src dst : Operand) : (s.tick src dst).Inv := by
  rw [State.tick_eq]
  exact h.of_shape_eq rfl

/-! ### `pc`, registers, memory, secrets -/

theorem State.Inv.setPc (h : s.Inv) {p : Word} (hp : p.toNat < 2 ^ s.cfg.xlen) : State.Inv { s with pc := p } :=
  ⟨h.config, h.mem, ⟨h.width.1, hp⟩, h.file, h.active, h.buffer, h.capacity, h.hidden, h.segment, h.secrets⟩

theorem State.Inv.advance (h : s.Inv) : s.advance.Inv := h.setPc (addX_lt _ _ _)

theorem State.Inv.endWith (h : s.Inv) (code : BitVec 4) : (s.endWith code).Inv :=
  State.Inv.advance (s := { s with aceerror := code, acestart := 0 }) (h.of_shape_eq rfl)

theorem State.Inv.done (h : s.Inv) : s.done.Inv := h.endWith _

theorem State.Inv.hostReturn (h : s.Inv) (p : Word) : (s.hostReturn p).Inv :=
  State.Inv.setPc (s := { s with trap := none }) (h.of_shape_eq rfl) (truncX_lt _ _)

theorem State.Inv.writeX (h : s.Inv) (r : Reg) (v : Word) : (s.writeX r v).Inv := by
  unfold State.writeX
  split
  · exact h
  · refine ⟨h.config, h.mem, ⟨fun q => ?_, h.width.2⟩, h.file, h.active, h.buffer, h.capacity, h.hidden, h.segment,
      h.secrets⟩
    simp only [Vector.getElem_set]
    split
    · exact truncX_lt _ _
    · exact h.width.1 q

theorem State.Inv.setMem (h : s.Inv) {m : List Host.Cell} (hm : Memory.wf m = true) : State.Inv { s with mem := m } :=
  ⟨h.config, hm, h.width, h.file, h.active, h.buffer, h.capacity, h.hidden, h.segment, h.secrets⟩

theorem State.Inv.writeBytes (h : s.Inv) (a : Nat) (bs : List Byte) : (s.writeBytes a bs).Inv := by
  induction bs generalizing s a with
  | nil => exact h
  | cons b bs ih => exact ih (h.setMem (Memory.write_wf h.mem _ b)) (a + 1)

theorem State.Inv.setLST (h : s.Inv) (i : Fin 11) (v : Option (BitVec 128)) : (s.setLST i v).Inv := by
  unfold State.setLST
  split
  · exact h
  · rename_i hkept
    obtain ⟨hchip, hdevice⟩ := h.secrets
    have written (j : Nat) (hj : j < 11) (hfixed : j = 2 ∨ 5 ≤ j) (hs : s.lst[j].isSome = true) :
        (s.lst.set i.val v i.isLt)[j].isSome = true := by
      rw [Vector.getElem_set]
      split
      · rename_i e
        exact Option.isSome_iff_ne_none.2 fun hv => hkept ⟨hv, by omega⟩
      · exact hs
    exact ⟨h.config, h.mem, h.width, h.file, h.active, h.buffer, h.capacity, h.hidden, h.segment,
      written 2 (by omega) (by omega) hchip, written 5 (by omega) (by omega) hdevice⟩

/-! ### Cryptographic Registers -/

/-- A configured CR exists and holds a sound context. -/
def State.CRInv (s : State) : Prop :=
  ∀ (n : Fin 32) (cc : Context), s.getCR n = .configured cc → n.val < s.cfg.numCR ∧ cc.Sound

theorem State.crInv_iff : s.CRInv ↔ s.FileInv ∧ s.HiddenInv ∧ s.SegmentInv := by
  constructor
  · refine fun h => ⟨fun n hn => ?_, fun n cc hc => ?_, fun n cc hc => ?_⟩
    · cases hc : s.getCR n with
      | unconfigured => rfl
      | configured cc => exact absurd (h n cc hc).1 (by omega)
    · obtain ⟨_, hsound⟩ := h n cc hc
      exact ⟨hsound.exporting, hsound.incomplete⟩
    · exact (h n cc hc).2.segment
  · rintro ⟨hfile, hhidden, hsegment⟩ n cc hc
    obtain ⟨hexp, hinc⟩ := hhidden n cc hc
    refine ⟨Nat.lt_of_not_le fun hn => ?_, hexp, hinc, hsegment n cc hc⟩
    cases hc.symm.trans (hfile n hn)

theorem State.Inv.crInv (h : s.Inv) : s.CRInv := State.crInv_iff.2 ⟨h.file, h.hidden, h.segment⟩

theorem State.Inv.setCR (h : s.Inv) {n : Fin 32} {c : CR}
    (hc : ∀ cc, c = .configured cc → n.val < s.cfg.numCR ∧ cc.Sound)
    (hcap : (s.setCR n c).crfUsed ≤ s.cfg.crfCapacity) : (s.setCR n c).Inv := by
  have hcr : (s.setCR n c).CRInv := by
    intro m cc hm
    by_cases e : m = n
    · subst e
      exact hc cc (by simpa only [State.getCR_setCR_same] using hm)
    · rw [State.getCR_setCR_other s e] at hm
      exact h.crInv m cc hm
  obtain ⟨hfile, hhidden, hsegment⟩ := State.crInv_iff.1 hcr
  exact ⟨h.config, h.mem, h.width, hfile, h.active, h.buffer, hcap, hhidden, hsegment, h.secrets⟩

theorem State.Inv.release (h : s.Inv) (n : Fin 32) : (s.release n).Inv := by
  refine h.setCR (fun _ e => nomatch e) ?_
  have := s.crfUsed_setCR n .unconfigured
  have := h.capacity
  simp only [State.CapacityInv, CR.cost] at *
  omega

/-- A context put into a released CR. -/
theorem State.Inv.fill (h : s.Inv) {n : Fin 32} {cc : Context} (hn : n.val < s.cfg.numCR) (hc : cc.Sound)
    (hcap : (s.release n).crfUsed + crCost s.cfg cc.mh ≤ s.cfg.crfCapacity) :
    ((s.release n).setCR n (.configured cc)).Inv := by
  refine (h.release n).setCR (fun cc' e => ?_) (by rw [State.crfUsed_release_setCR]; exact hcap)
  cases e
  exact ⟨hn, hc⟩

/-- A context replaced by one that leaves room. -/
theorem State.Inv.replace (h : s.Inv) {n : Fin 32} {cc cc' : Context} (hs : s.getCR n = .configured cc) (hc : cc'.Sound)
    (hcap : s.crfUsed - crCost s.cfg cc.mh + crCost s.cfg cc'.mh ≤ s.cfg.crfCapacity) :
    (s.setCR n (.configured cc')).Inv := by
  refine h.setCR (fun x e => ?_) ?_
  · cases e
    exact ⟨(h.crInv n cc hs).1, hc⟩
  · have := s.crfUsed_setCR n (.configured cc')
    rw [hs] at this
    simp only [CR.cost] at this
    omega

theorem State.cost_le_crfUsed {n : Fin 32} {cc : Context} (hs : s.getCR n = .configured cc) :
    crCost s.cfg cc.mh ≤ s.crfUsed := by
  have := s.crfUsed_setCR n .unconfigured
  simp only [hs, CR.cost] at this
  omega

/-- A context replaced by one of the same cost. -/
theorem State.Inv.update (h : s.Inv) {n : Fin 32} {cc cc' : Context} (hs : s.getCR n = .configured cc) (hc : cc'.Sound)
    (hcost : crCost s.cfg cc'.mh = crCost s.cfg cc.mh) : (s.setCR n (.configured cc')).Inv := by
  refine h.replace hs hc ?_
  rw [hcost, Nat.sub_add_cancel (State.cost_le_crfUsed hs)]
  exact h.capacity

theorem State.Inv.invalidate (h : s.Inv) (n : Fin 32) : (s.invalidate n).Inv := by
  unfold State.invalidate
  split
  · exact h
  · rename_i cc hs
    exact h.update hs (h.crInv n cc hs).2.invalid (crCost_ccInvalid _ _)

theorem State.Inv.commit (h : s.Inv) {n : Fin 32} {cc : Context} (hs : s.getCR n = .configured cc) (q : BitVec 2)
    (r : Step) : (s.commit n cc q r).Inv :=
  (h.update hs ((h.crInv n cc hs).2.after s.cfg r) (crCost_ccAfter _ _ _ _)).of_shape_eq rfl

/-! ### The ACEIOBUF -/

theorem State.Inv.setBufBytes (h : s.Inv) {a : Nat} {bs : List Byte} (hroom : a + bs.length ≤ s.aceiobuflen.toNat) :
    (s.setBufBytes a bs).Inv := by
  obtain ⟨hlen, htop, hmax⟩ := h.buffer
  refine ⟨h.config, h.mem, h.width, h.file, h.active, ⟨?_, htop, hmax⟩, h.capacity, h.hidden, h.segment, h.secrets⟩
  simp only [State.setBufBytes_iobuf, State.setBufBytes_aceiobuflen, List.length_append, List.length_take,
    List.length_drop]
  omega

theorem State.Inv.writeOperand (h : s.Inv) {o : Operand} (hroom : o = .buffer → s.acestart.toNat < s.aceiobuftop.toNat)
    (out written : Nat) : (s.writeOperand o out written).Inv := by
  cases o with
  | none => exact h
  | vector r => exact h.writeVec r _
  | buffer =>
    have := hroom rfl
    obtain ⟨_, htop, _⟩ := h.buffer
    exact h.setBufBytes (by rw [natLE_length]; omega)

theorem State.Inv.crUsed_le (h : s.Inv) : s.crUsed ≤ s.cfg.crfCapacity := Nat.le_trans (Nat.le_add_right _ _) h.capacity

theorem State.Inv.setBuffer (h : s.Inv) {n : Nat} (hn : n ≤ s.cfg.iobufMax)
    (hcap : s.cfg.iobufInCrf = true → s.crUsed + iobufCost s.cfg n ≤ s.cfg.crfCapacity) : (s.setBuffer n).Inv := by
  have hword : (BitVec.ofNat 64 n).toNat = n := by
    have := iobufMax_lt h.config
    have := Nat.pow_le_pow_right (n := 2) (by omega) (xlen_le s.cfg)
    rw [BitVec.toNat_ofNat, Nat.mod_eq_of_lt (by omega)]
  refine ⟨h.config, h.mem, h.width, h.file, h.active, ?_, ?_, h.hidden, h.segment, h.secrets⟩
  · simp only [State.BufferInv, State.setBuffer_iobuf, List.length_replicate, State.setBuffer_aceiobuflen, hword,
      State.setBuffer_aceiobuftop, Nat.le_refl, State.setBuffer_cfg, hn, and_self]
  · have hsame : (s.setBuffer n).crUsed = s.crUsed := rfl
    simp only [State.CapacityInv, State.crfUsed, State.setBuffer_cfg, State.setBuffer_aceiobuflen, hword, hsame]
    split
    · exact hcap ‹_›
    · exact h.crUsed_le

/-- Any length up to the current maximum fits. -/
theorem State.Inv.setBuffer_of_le_limit (h : s.Inv) {n : Nat} (hn : n ≤ s.iobufLimit) : (s.setBuffer n).Inv := by
  refine h.setBuffer (Nat.le_trans hn s.iobufLimit_le) fun hcrf => ?_
  have hcost := iobufCost_mono h.config hcrf hn s.iobufLimit_le
  rcases s.iobufLimit_fits hcrf with hzero | hfits
  · have := h.crUsed_le
    rw [hzero, (iobufCost_of_wf h.config hcrf).1] at hcost
    omega
  · omega

theorem State.crInv_of_unconfigured (h : s.cr = Vector.replicate 32 .unconfigured) : s.CRInv := by
  intro n cc hc
  rw [State.getCR_of_unconfigured h] at hc
  cases hc

theorem State.Inv.unconfigureAll (h : s.Inv) : State.Inv { s with cr := Vector.replicate 32 .unconfigured } := by
  obtain ⟨hfile, hhidden, hsegment⟩ :=
    State.crInv_iff.1 (State.crInv_of_unconfigured (s := { s with cr := Vector.replicate 32 .unconfigured }) rfl)
  refine ⟨h.config, h.mem, h.width, hfile, h.active, h.buffer, ?_, hhidden, hsegment, h.secrets⟩
  rw [State.CapacityInv, State.crfUsed_eq, State.crUsed_of_unconfigured rfl, Nat.zero_add]
  exact Nat.le_trans (Nat.le_add_left _ _) h.capacity

theorem State.Inv.resetAce (h : s.Inv) : s.resetAce.Inv :=
  (h.unconfigureAll.setBuffer_of_le_limit (Nat.zero_le _)).done

/-! ### CSRs (40_csr_access.md) -/

theorem State.Inv.writeIobuflen (h : s.Inv) (v : Word) : (s.writeIobuflen v).Inv := by
  have hset := h.setBuffer_of_le_limit (Nat.min_le_right v.toNat s.iobufLimit)
  unfold State.writeIobuflen
  dsimp only
  split
  · exact hset.setError _
  · exact hset

theorem State.Inv.writeIobuftop (h : s.Inv) (v : Word) : (s.writeIobuftop v).Inv := by
  obtain ⟨hlen, _, hmax⟩ := h.buffer
  unfold State.writeIobuftop
  split
  · rename_i hv
    exact ⟨h.config, h.mem, h.width, h.file, h.active, ⟨hlen, hv.2, hmax⟩, h.capacity, h.hidden, h.segment, h.secrets⟩
  · exact h.setError _

theorem State.Inv.writeActivecr (h : s.Inv) (v : Word) : (s.writeActivecr v).Inv := by
  unfold State.writeActivecr
  split
  · exact h.setError _
  · rename_i hv
    exact ⟨h.config, h.mem, h.width, h.file, Nat.le_of_not_lt hv, h.buffer, h.capacity, h.hidden, h.segment, h.secrets⟩

theorem State.Inv.writeCsr (h : s.Inv) {c : AceCsr} {v : Word} (ht : s.writeCsr c v = some t) : t.Inv := by
  cases c with
  | marchid => cases ht
  | iobuflen => cases ht; exact h.writeIobuflen v
  | iobuftop => cases ht; exact h.writeIobuftop v
  | activecr =>
    simp only [State.writeCsr] at ht
    split at ht
    · cases ht
    · cases ht; exact h.writeActivecr v
  | error | start | sequence | htrapmask | htrapvector => cases ht; exact h.of_shape_eq rfl

theorem State.Inv.accessCsr (h : s.Inv) (i : CsrInstr) (c : AceCsr) : (s.accessCsr i c).Inv := by
  unfold State.accessCsr
  dsimp only
  split
  · exact (h.writeX _ _).advance
  · split
    · exact h.illegal _
    · rename_i u hu
      exact ((h.writeCsr hu).writeX _ _).advance

/-! ### Events of the environment (60_exceptions.md R556) -/

theorem State.Inv.applyEvent (h : s.Inv) (e : Event) : (s.applyEvent e).Inv := by
  cases e with
  | setLST i v => exact h.setLST i v
  | hostReturn p => exact h.hostReturn p
  | setSKT index material => cases material <;> exact h.of_shape_eq rfl
  | setCSK | advanceTime | setMode => exact h.of_shape_eq rfl

theorem State.Inv.applyEvents (h : s.Inv) : s.applyEvents.Inv := by
  unfold State.applyEvents
  split
  · exact h
  · exact List.foldlRecOn _ _ (h.of_shape_eq rfl) fun _ hu e _ => hu.applyEvent e

end Sys2Proof.Machine

/-! PROOF. The invariants hold after reset and every step keeps them. -/
namespace Sys2Proof.Machine

variable {s t : State}

/-! ### Instructions -/

theorem State.Targets.lt_numCR {i : Instr} {n : Fin 32} (h : s.Targets i n) : n.val < s.cfg.numCR := by
  obtain ⟨_, _, _, _, hn⟩ := h
  exact hn

theorem State.Inv.applyStep (h : s.Inv) {n : Fin 32} {cc : Context} (hs : s.getCR n = .configured cc) (q : BitVec 2)
    (src : Operand) {dst : Operand} (hroom : dst = .buffer → s.acestart.toNat < s.aceiobuftop.toNat) (r : Step) :
    (s.applyStep n cc q src dst r).Inv := by
  have hwritten := (h.commit hs q r).writeOperand hroom r.out r.written
  unfold State.applyStep
  split
  · exact (hwritten.tick src dst).done
  · exact (hwritten.tick src dst).endWith _
  · exact ((h.invalidate n).endWith _).tick src dst

/-- Every end of an instruction has the invariants. -/
theorem Ends.inv {i : Instr} (h : s.Inv) (he : Ends i s t) : t.Inv := by
  cases he with
  | trap c v => exact h.raise c v
  | range w => exact (h.setError _).illegal w
  | releasedTrap n c v => exact (h.release n).raise c v
  | invalidTrap n w => exact (h.invalidate n).illegal w
  | code code => exact h.endWith code
  | released n code => exact (h.release n).endWith code
  | loaded n cc _ hn hcap hexp hinc had => exact (h.fill hn.lt_numCR ⟨hexp, hinc, had⟩ hcap).done
  | cloned n d cc _ hd hs _ hcap => exact (h.fill hd.lt_numCR (h.crInv n cc hs).2.copy hcap).done
  | exported n cc e ind field off base _ _ hs _ =>
    have hw := h.writeBytes (s.effAddr base off).toNat (s.sealContext e.algDef cc)
    have hcr : (s.writeBytes (s.effAddr base off).toNat (s.sealContext e.algDef cc)).getCR n = .configured cc := by
      simpa only [State.getCR, State.writeBytes_cr] using hs
    exact (hw.update hcr ((h.crInv n cc hs).2.setHeader rfl) rfl).done
  | restricted n cc op mh _ hs hmh hcap =>
    exact (h.replace hs ((h.crInv n cc hs).2.setHeader (State.restrictHeader_additional hmh)) hcap).done
  | sized rd v code => exact (h.writeX rd v).endWith code
  | errorRead rd v => exact (h.writeX rd v).advance
  | reset => exact h.resetAce
  | applied n cc q src dst r _ _ hs _ _ hb => exact h.applyStep hs q src (fun e => (hb e).2) r
  | invalid n code => exact (h.invalidate n).endWith code
  | nop => exact h.advance
  | input off xs xl _ hr =>
    obtain ⟨_, hstart, hlen⟩ := hr
    obtain ⟨_, htop, _⟩ := h.buffer
    exact ((h.setBufBytes (by rw [State.readBytes_length]; omega)).setSequence 1).done
  | output => exact ((h.writeBytes _ _).setSequence 0).done

theorem exec_keeps_inv {i : Instr} (h : s.Inv) (ht : exec i s = .next t) : t.Inv := (exec_ends ht).inv h

theorem execCsr_keeps_inv {i : CsrInstr} (h : s.Inv) (ht : execCsr i s = .next t) : t.Inv := by
  unfold execCsr at ht
  split at ht
  · cases ht; exact h.accessCsr _ _
  · split at ht
    · cases ht
    · cases ht; exact h.illegal _

/-! ### Steps -/

theorem execDecoded_keeps_inv {d : Decoded} (h : s.Inv) (ht : execDecoded d s = .next t) : t.Inv := by
  cases d with
  | ace i => exact exec_keeps_inv h ht
  | csr i => exact execCsr_keeps_inv h ht
  | reservedAce => cases ht; exact h.illegal _
  | hostWord | truncated => cases ht

theorem runNext_keeps_inv (h : s.Inv) (ht : runNext s = .next t) : t.Inv := by
  unfold runNext at ht
  split at ht
  · cases ht
  · split at ht
    · exact execDecoded_keeps_inv h ht
    · cases ht

/-- Settles O10: the events keep the invariants, and then every end of the instruction does. -/
theorem stepKeepsInvariants : Obligations.StepKeepsInvariants :=
  fun _ _ hs ht => runNext_keeps_inv hs.applyEvents ht

/-! ### Reset -/

theorem reset_crfUsed : State.reset.crfUsed = 0 := by
  rw [State.crfUsed, State.crUsed_of_unconfigured rfl]
  rfl

/-- Settles O8: every CR is unconfigured, so the CR file is empty, and the other values are those of `State.reset`. -/
theorem resetValues : Obligations.ResetValues :=
  ⟨State.getCR_of_unconfigured rfl, reset_crfUsed, rfl, rfl, rfl, rfl, rfl, rfl, rfl, rfl, rfl, rfl, rfl⟩

theorem reference_wf : Config.reference.wf = true := by decide +kernel

/-- Settles O9: the reference parameters are allowed, no CR is configured and there is no buffer. -/
theorem resetKeepsInvariants : Obligations.ResetKeepsInvariants := by
  obtain ⟨hfile, hhidden, hsegment⟩ := State.crInv_iff.1 (State.crInv_of_unconfigured (s := State.reset) rfl)
  have hwidth : State.reset.WidthInv := by
    refine ⟨fun r => ?_, by decide⟩
    simp only [State.reset, Vector.getElem_replicate]
    exact Nat.two_pow_pos _
  exact ⟨reference_wf, rfl, hwidth, hfile, Nat.le_refl 32, ⟨rfl, Nat.le_refl 0, Nat.zero_le _⟩,
    by rw [State.CapacityInv, reset_crfUsed]; exact Nat.zero_le _, hhidden, hsegment, rfl, rfl⟩

end Sys2Proof.Machine

/-! PROOF. What each operation on the state does to memory, and that every step keeps its canonical form (log 2). -/
namespace Sys2Proof.Machine

variable {s t : State}

theorem State.MemInv.of_mem_eq (h : s.MemInv) (e : t.mem = s.mem) : t.MemInv := by
  rw [State.MemInv, e]
  exact h

/-! ### Instructions -/

@[simp] theorem State.resetAce_mem (s : State) : s.resetAce.mem = s.mem := rfl

@[simp] theorem State.commit_mem (s : State) (n : Fin 32) (cc : Context) (q : BitVec 2) (r : Step) :
    (s.commit n cc q r).mem = s.mem := rfl

@[simp] theorem State.invalidateWith_mem (s : State) (n : Fin 32) (code : BitVec 4) :
    (s.invalidateWith n code).mem = s.mem := s.invalidate_mem n

@[simp] theorem State.applyStep_mem (s : State) (n : Fin 32) (cc : Context) (q : BitVec 2) (src dst : Operand)
    (r : Step) : (s.applyStep n cc q src dst r).mem = s.mem := by
  unfold State.applyStep
  split <;> simp

/-- Only `ace.export` and `ace.output` store bytes; every other end leaves memory as it is (20_memory.md R95). -/
theorem Ends.memInv {i : Instr} (h : s.MemInv) (he : Ends i s t) : t.MemInv := by
  cases he with
  | exported n cc e ind field off base =>
    have hw := State.writeBytes_wf h (s.effAddr base off).toNat (s.sealContext e.algDef cc)
    exact hw.of_mem_eq (by simp only [State.done_mem, State.setCR_mem])
  | output off xd xl =>
    have hw := State.writeBytes_wf h (s.effAddr xd off).toNat
      (s.bufBytes s.acestart.toNat (s.acestart.toNat + (s.readX xl).toNat))
    exact hw.of_mem_eq (by simp only [State.done_mem, State.setSequence_mem])
  | trap | range | releasedTrap | code | released | loaded | cloned | restricted | reset | nop => exact h.of_mem_eq rfl
  | invalidTrap | sized | errorRead | applied | invalid | input => exact h.of_mem_eq (by simp)

/-! ### CSRs (40_csr_access.md) -/

theorem State.writeIobuflen_mem (s : State) (v : Word) : (s.writeIobuflen v).mem = s.mem := by
  unfold State.writeIobuflen
  dsimp only
  split <;> rfl

theorem State.writeIobuftop_mem (s : State) (v : Word) : (s.writeIobuftop v).mem = s.mem := by
  unfold State.writeIobuftop
  split <;> rfl

theorem State.writeActivecr_mem (s : State) (v : Word) : (s.writeActivecr v).mem = s.mem := by
  unfold State.writeActivecr
  split <;> rfl

theorem State.writeCsr_mem {c : AceCsr} {v : Word} (ht : s.writeCsr c v = some t) : t.mem = s.mem := by
  cases c with
  | marchid => cases ht
  | iobuflen => cases ht; exact s.writeIobuflen_mem v
  | iobuftop => cases ht; exact s.writeIobuftop_mem v
  | activecr =>
    simp only [State.writeCsr] at ht
    split at ht
    · cases ht
    · cases ht; exact s.writeActivecr_mem v
  | error | start | sequence | htrapmask | htrapvector => cases ht; rfl

@[simp] theorem State.accessCsr_mem (s : State) (i : CsrInstr) (c : AceCsr) : (s.accessCsr i c).mem = s.mem := by
  unfold State.accessCsr
  dsimp only
  split
  · simp
  · split
    · rfl
    · rename_i u hu
      simp [State.writeCsr_mem hu]

theorem execCsr_mem {i : CsrInstr} (ht : execCsr i s = .next t) : t.mem = s.mem := by
  unfold execCsr at ht
  split at ht
  · cases ht; exact s.accessCsr_mem i _
  · split at ht
    · cases ht
    · cases ht; rfl

/-! ### Events of the environment (60_exceptions.md R556) -/

@[simp] theorem State.setLST_mem (s : State) (i : Fin 11) (v : Option (BitVec 128)) : (s.setLST i v).mem = s.mem := by
  unfold State.setLST
  split <;> rfl

@[simp] theorem State.applyEvent_mem (s : State) (e : Event) : (s.applyEvent e).mem = s.mem := by
  cases e with
  | setLST i v => exact s.setLST_mem i v
  | setSKT index material => cases material <;> rfl
  | setCSK | advanceTime | setMode | hostReturn => rfl

@[simp] theorem State.applyEvents_mem (s : State) : s.applyEvents.mem = s.mem := by
  unfold State.applyEvents
  split
  · rfl
  · exact List.foldlRecOn (motive := fun u : State => u.mem = s.mem) _ _ rfl
      fun u hu e _ => (State.applyEvent_mem u e).trans hu

/-! ### Steps -/

theorem execDecoded_memInv {d : Decoded} (h : s.MemInv) (ht : execDecoded d s = .next t) : t.MemInv := by
  cases d with
  | ace i => exact (exec_ends ht).memInv h
  | csr i => exact h.of_mem_eq (execCsr_mem ht)
  | reservedAce => cases ht; exact h.of_mem_eq rfl
  | hostWord | truncated => cases ht

theorem runNext_memInv (h : s.MemInv) (ht : runNext s = .next t) : t.MemInv := by
  unfold runNext at ht
  split at ht
  · cases ht
  · split at ht
    · exact execDecoded_memInv h ht
    · cases ht

/-- Settles O11: events leave memory as it is, and what an instruction stores is written byte by byte. -/
theorem stepKeepsMemory : Obligations.StepKeepsMemory :=
  fun s _ hs ht => runNext_memInv (hs.of_mem_eq s.applyEvents_mem) ht

end Sys2Proof.Machine

/-! PROOF. The alignment of a Provisioning Input and of a Sealed Cryptographic Context (20_memory.md R93). -/
namespace Sys2Proof.Machine

variable {s : State}

/-! ### The direct and the indirect form of an instruction -/

theorem exec_prov (s : State) (ind : Bool) (field : Reg) (off : Imm12) (base : Reg) :
    exec (if ind then .provX field off base else .provK field off base) s =
      finish (s.prov (s.word (if ind then .provX field off base else .provK field off base)) ind field off base) := by
  cases ind <;> rfl

theorem exec_import (s : State) (ind : Bool) (field : Reg) (off : Imm12) (base : Reg) :
    exec (if ind then .importX field off base else .importK field off base) s =
      finish (s.importCR (s.word (if ind then .importX field off base else .importK field off base)) ind field off
        base) := by
  cases ind <;> rfl

theorem exec_importS (s : State) (ind : Bool) (field : Reg) (off : Imm12) (base : Reg) :
    exec (if ind then .importSX field off base else .importSK field off base) s =
      finish (s.importS (s.word (if ind then .importSX field off base else .importSK field off base)) ind field off
        base) := by
  cases ind <;> rfl

theorem exec_export (s : State) (ind : Bool) (field : Reg) (off : Imm12) (base : Reg) :
    exec (if ind then .exportX off base field else .exportK off base field) s =
      finish (s.exportCR (s.word (if ind then .exportX off base field else .exportK off base field)) ind field off
        base) := by
  cases ind <;> rfl

/-! ### What precedes the access -/

theorem State.checkAligned_misaligned (s : State) (c : Cause) {ea : Word} (h : ea.toNat % 8 ≠ 0) :
    s.checkAligned c ea = .error (s.raise c ea) := if_pos h

/-- The status check of `ace.export` refuses no complete context (41_cr_management.md R205). -/
theorem State.source_of_complete {n : Fin 32} {cc : Context} (hc : s.getCR n = .configured cc)
    (hi : cc.incomplete = false) : s.source n ⟨false, false, false⟩ = .ok cc := by
  simp [State.source, hc, State.statusError, hi]

section
variable {ind : Bool} {field base : Reg} {n : Fin 32} {off : Imm12} (w : InstrWord) (hn : s.Names ind field n)
  (hu : s.Unbound n) (ha : (s.effAddr base off).toNat % 8 ≠ 0)
include hn hu ha

theorem State.prov_misaligned :
    s.prov w ind field off base = .error (s.raise .loadMisaligned (s.effAddr base off)) := by
  simp only [State.prov, (s.nameCR_ok_iff w ind field n).2 ⟨hn, hu⟩, bind_ok, s.checkAligned_misaligned _ ha,
    bind_error]

theorem State.importCR_misaligned :
    s.importCR w ind field off base = .error (s.raise .loadMisaligned (s.effAddr base off)) := by
  simp only [State.importCR, (s.nameCR_ok_iff w ind field n).2 ⟨hn, hu⟩, bind_ok, s.checkAligned_misaligned _ ha,
    bind_error]

theorem State.importS_misaligned (hs : s.cfg.hasSystemImport = true) :
    s.importS w ind field off base = .error (s.raise .loadMisaligned (s.effAddr base off)) := by
  simp only [State.importS, hs, Bool.not_true, Bool.false_eq_true, if_false,
    (s.nameCR_ok_iff w ind field n).2 ⟨hn, hu⟩, bind_ok, s.checkAligned_misaligned _ ha, bind_error]

theorem State.exportCR_misaligned {cc : Context} (hc : s.getCR n = .configured cc) (hi : cc.incomplete = false) :
    s.exportCR w ind field off base = .error (s.raise .storeMisaligned (s.effAddr base off)) := by
  simp only [State.exportCR, (s.nameCR_ok_iff w ind field n).2 ⟨hn, hu⟩, State.source_of_complete hc hi, bind_ok,
    s.checkAligned_misaligned _ ha, bind_error]

end

/-- Settles O23: each of the four checks the alignment before it releases its CR or accesses memory. -/
theorem misalignedTraps : Obligations.MisalignedTraps := by
  intro s ind field n off base hn hu ha
  refine ⟨?_, ?_, fun hs => ?_, fun cc hc hi => ?_⟩
  · rw [exec_prov, State.prov_misaligned _ hn hu ha]; rfl
  · rw [exec_import, State.importCR_misaligned _ hn hu ha]; rfl
  · rw [exec_importS, State.importS_misaligned _ hn hu ha hs]; rfl
  · rw [exec_export, State.exportCR_misaligned _ hn hu ha hc hi]; rfl

end Sys2Proof.Machine

/-! PROOF. The decoder and the encoder are inverse to each other (30_encoding.md R140 to R156). -/
namespace Sys2Proof

variable (f7 : BitVec 7) (rs2 rs1 rd : Reg) (f3 : BitVec 3) (op : BitVec 7)

/-! ### Words, their fields and their immediates -/

/-- A word is assembled from its own fields (30_encoding.md R131, R132). -/
theorem asmR_fields (w : InstrWord) :
    asmR (fieldFunct7 w) (fieldRs2 w) (fieldRs1 w) (fieldFunct3 w) (fieldRd w) (fieldOpcode w) = w := by
  unfold asmR fieldFunct7 fieldRs2 fieldRs1 fieldFunct3 fieldRd fieldOpcode
  iterate 5 rw [BitVec.extractLsb'_append_extractLsb'_eq_extractLsb' (by decide)]
  exact BitVec.extractLsb'_eq_self

@[simp] theorem asmI_immI : asmI (immI f7 rs2) rs1 f3 rd op = asmR f7 rs2 rs1 f3 rd op := by
  rw [asmI, immI, BitVec.extractLsb'_append_eq_left, BitVec.extractLsb'_append_eq_right]

@[simp] theorem asmS_immS : asmS (immS f7 rd) rs2 rs1 f3 op = asmR f7 rs2 rs1 f3 rd op := by
  rw [asmS, immS, BitVec.extractLsb'_append_eq_left, BitVec.extractLsb'_append_eq_right]

variable {p : EncParams} {f7 rs2 rs1 rd f3 op}

/-! ### From an instruction to its word and back -/

theorem EncParams.inputF3_of_wellFormed (hp : p.wellFormed = true) : p.inputF3 = 6 ∨ p.inputF3 = 7 := by
  unfold EncParams.wellFormed at hp
  simp only [Bool.and_eq_true, Bool.or_eq_true, decide_eq_true_eq] at hp
  exact hp.1

/-- `ACE_INPUT_F3` is none of the six `funct3` values the opcode has for CRs (30_encoding.md R147, R153). -/
theorem decodeLoad_inputF3 (hp : p.wellFormed = true) :
    decodeLoad p f7 rs2 rs1 p.inputF3 rd = .ace (.input (immS f7 rd) rs2 rs1) := by
  unfold decodeLoad
  obtain h | h := EncParams.inputF3_of_wellFormed hp <;> rw [h] <;> rfl

/-- Settles O1, by format: the fields of the assembled word choose the branch the instruction came from. -/
theorem decodeOfEncode : Obligations.DecodeOfEncode := by
  intro p i hp hi
  cases i with
  | provK | provX | importK | importSK | importX | importSX =>
    simp [encode, asmI, decode_asmR, decodeFields, decodeLoad, Instr.canon]
  | input off xs xl => simp [encode, asmS, decode_asmR, decodeFields, decodeLoad_inputF3 hp, Instr.canon]
  | exportK | exportX | output => simp [encode, asmI, asmS, decode_asmR, decodeFields, decodeStore, Instr.canon]
  | aceError xd => simp [encode, asmI, decode_asmR, decodeFields, decodeSystem, Instr.canon]
  | clearX xd =>
    have hxd : xd ≠ 0 := of_decide_eq_true hi
    simpa [encode, decode_asmR, decodeFields, decodeOp, Instr.canon] using hxd
  | clearK | aceReset | stateA | stateB | stateC => simp [encode, decode_asmR, decodeFields, decodeOp, Instr.canon]
  | execAK | execBK | execCK | execDK | execAX | execBX | execCX | execDX | sizeK | sizeX | sizeHeader | sizeInternal
  | sizeIobuf | avail | restrictK | restrictX | cloneKK | cloneXK | cloneKX | cloneXX =>
    simp [encode, decode_asmR, decodeFields, decodeOp, decodeGroup, Instr.canon]

/-! ### From a word to its instruction and back -/

/-- An ACE instruction a decoder answers is well formed and has the word `w`. -/
def Decoded.Encodes (p : EncParams) (w : InstrWord) : Decoded → Prop
  | .ace i => encode p i = w ∧ i.wellFormed = true
  | _ => True

section
variable {w : InstrWord} {c : Prop} [Decidable c] {d e : Decoded} {i : Instr}

/-- One test of a decoder: each side may use its outcome. -/
theorem Decoded.Encodes.ite (hd : c → d.Encodes p w) (he : ¬c → e.Encodes p w) : (if c then d else e).Encodes p w := by
  by_cases h : c
  · rw [if_pos h]; exact hd h
  · rw [if_neg h]; exact he h

/-- The last test for an instruction: `c` says the fields its figure fixes (30_encoding.md R156). -/
theorem Decoded.Encodes.fixed (h : c → encode p i = w ∧ i.wellFormed = true) :
    Decoded.Encodes p w (if c then .ace i else .reservedAce) :=
  .ite h fun _ => trivial

end

theorem decodeLoad_encodes : (decodeLoad p f7 rs2 rs1 f3 rd).Encodes p (asmR f7 rs2 rs1 f3 rd 0x0b) := by
  unfold decodeLoad
  iterate 6 refine .ite (by rintro rfl; exact ⟨asmI_immI .., rfl⟩) fun _ => ?_
  exact .fixed (by rintro rfl; exact ⟨asmS_immS .., rfl⟩)

theorem decodeStore_encodes : (decodeStore f7 rs2 rs1 f3 rd).Encodes p (asmR f7 rs2 rs1 f3 rd 0x27) := by
  unfold decodeStore
  iterate 2 refine .ite (by rintro rfl; exact ⟨asmS_immS .., rfl⟩) fun _ => ?_
  exact .fixed (by rintro rfl; exact ⟨asmI_immI .., rfl⟩)

/-- The branches come in runs of one shape: Form A of `ace.exec`, which fixes no further field, then Forms B and C, which
fix one, then Form D, which fixes two, then the remaining instructions, which fix one. -/
theorem decodeGroup_encodes : (decodeGroup f7 rs2 rs1 rd).Encodes p (asmR f7 rs2 rs1 0 rd 0x5b) := by
  unfold decodeGroup
  iterate 2 refine .ite (by rintro rfl; exact ⟨rfl, rfl⟩) fun _ => ?_
  iterate 4 refine .ite (by rintro rfl; exact .fixed (by rintro rfl; exact ⟨rfl, rfl⟩)) fun _ => ?_
  iterate 2 refine .ite (by rintro rfl; exact .fixed (by rintro ⟨rfl, rfl⟩; exact ⟨rfl, rfl⟩)) fun _ => ?_
  iterate 11 refine .ite (by rintro rfl; exact .fixed (by rintro rfl; exact ⟨rfl, rfl⟩)) fun _ => ?_
  trivial

theorem decodeOp_encodes : (decodeOp f7 rs2 rs1 f3 rd).Encodes p (asmR f7 rs2 rs1 f3 rd 0x5b) := by
  unfold decodeOp
  refine .ite (by rintro rfl; exact decodeGroup_encodes) fun _ => ?_
  refine .ite (by rintro rfl; exact .fixed (by rintro ⟨rfl, rfl⟩; exact ⟨rfl, rfl⟩)) fun _ => ?_
  iterate 2 refine .ite (by rintro rfl; exact .fixed (by rintro rfl; exact ⟨rfl, rfl⟩)) fun _ => ?_
  refine .ite (by rintro rfl; exact .fixed (by rintro ⟨rfl, rfl, rfl⟩; exact ⟨rfl, rfl⟩)) fun _ => ?_
  refine .ite ?_ fun _ => trivial
  rintro rfl
  refine .ite ?_ fun _ => trivial
  rintro ⟨rfl, rfl, rfl⟩
  exact .ite (by rintro rfl; exact ⟨rfl, rfl⟩) fun hrd => ⟨rfl, decide_eq_true hrd⟩

theorem decodeSystem_encodes : (decodeSystem p f7 rs2 rs1 f3 rd).Encodes p (asmR f7 rs2 rs1 f3 rd 0x73) := by
  unfold decodeSystem
  refine .ite (fun _ => trivial) fun _ => .ite ?_ fun _ => ?_
  · rintro rfl
    refine .ite ?_ fun _ => trivial
    rintro ⟨rfl, hcsr⟩
    refine ⟨?_, rfl⟩
    rw [encode, ← hcsr, asmI_immI]
  · iterate 4 refine .ite (fun _ => trivial) fun _ => ?_
    trivial

theorem decodeFields_encodes : (decodeFields p f7 rs2 rs1 f3 rd op).Encodes p (asmR f7 rs2 rs1 f3 rd op) := by
  unfold decodeFields
  refine .ite (by rintro rfl; exact decodeLoad_encodes) fun _ => ?_
  refine .ite (by rintro rfl; exact decodeStore_encodes) fun _ => ?_
  refine .ite (by rintro rfl; exact decodeOp_encodes) fun _ => ?_
  exact .ite (by rintro rfl; exact decodeSystem_encodes) fun _ => trivial

theorem decode_encodes (p : EncParams) (w : InstrWord) : (decode p w).Encodes p w := by
  rw [← asmR_fields w, decode_asmR]
  exact decodeFields_encodes

/-- Settles O2: every branch of the decoder answers an instruction with the word's own fields, and has tested the fields
the figure fixes. -/
theorem encodeOfDecode : Obligations.EncodeOfDecode := by
  intro p w i _ h
  have henc := decode_encodes p w
  rwa [h] at henc

/-! ### Words of the figures -/

/-- Settles O4: the word has `funct3` 4 or 5 under opcode `0x5b`, where the decoder tests the other fields for 0. -/
theorem clearAndResetDecode : Obligations.ClearAndResetDecode := by
  intro p f7 rs2 rs1 rd
  have hfixed : (f7 = 0 ∧ rs2 = 0 ∧ rs1 = 0) ↔ (rs1 = 0 ∧ rs2 = 0 ∧ f7 = 0) :=
    ⟨fun ⟨h7, h2, h1⟩ => ⟨h1, h2, h7⟩, fun ⟨h1, h2, h7⟩ => ⟨h7, h2, h1⟩⟩
  simp only [hfixed, decode_asmR]
  exact ⟨rfl, rfl⟩

/-- The word of an instruction other than `ace.avail` decodes to it, where a figure gives the word. -/
theorem decode_eq_ace {w : InstrWord} {i : Instr} (hp : p.wellFormed = true)
    (h : i.wellFormed = true ∧ i.canon = i ∧ encode p i = w) : decode p w = .ace i := by
  obtain ⟨hi, hcanon, rfl⟩ := h
  rw [decodeOfEncode p i hp hi, hcanon]

/-- Settles O3: nine words are those of their instructions, so O1 applies; the tenth has the `funct7` of Form D of
`ace.exec`, but its `rd` is not 0. -/
theorem wordsDecode : Obligations.WordsDecode := by
  have ht : EncParams.t0.wellFormed = true := by decide
  refine ⟨?_, ?_, ?_, ?_, ?_, ?_, ?_, ?_, ?_, by decide⟩
  all_goals exact decode_eq_ace ht (by decide)

end Sys2Proof

/-! PROOF. A word that is no instruction (30_encoding.md R156). -/
namespace Sys2Proof.Machine

variable {s : State}

/-- Nothing happens before a step for which no event is queued (log 8). -/
theorem State.applyEvents_of_nil (h : s.events = []) : s.applyEvents = s := by
  unfold State.applyEvents
  rw [h]

/-- A step with no event and no pending exception runs what the word at an aligned `pc` decodes to. -/
theorem step_eq_execDecoded (he : s.events = []) (ht : s.trap = none) (hpc : s.pc.toNat % 4 = 0) :
    step s = execDecoded s.fetched s := by
  have haligned : s.pcAligned = true := decide_eq_true hpc
  rw [step, State.applyEvents_of_nil he, runNext, ht]
  exact if_pos haligned

/-- The word at `pc` as a trap value has the bits of the bytes there and no others (60_exceptions.md R540). -/
theorem State.fetchWord_setWidth (s : State) : s.fetchWord.setWidth 64 = BitVec.ofNat 64 (leNat s.fetchBytes) := by
  have hlen : s.fetchBytes.length = 4 := s.readBytes_length _ 4
  have hlt : leNat s.fetchBytes < 2 ^ 32 := by simpa [hlen] using leNat_lt s.fetchBytes
  exact BitVec.setWidth_ofNat_of_le_of_lt (by omega) hlt

/-- Settles O6: the step runs the reserved word, which raises the exception with the word at `pc`. -/
theorem stepReservedWordTraps : Obligations.StepReservedWordTraps := by
  intro s he ht hpc hf
  rw [step_eq_execDecoded he ht hpc, hf, execDecoded, State.illegal, State.fetchWord_setWidth, State.raise]

end Sys2Proof.Machine

/-! PROOF. What a CSR instruction does to an ACE CSR, and `ace.error` (40_csr_access.md). -/
namespace Sys2Proof.Machine

variable {s t : State} {i : CsrInstr} {c : AceCsr}

/-! ### The register a CSR instruction writes -/

/-- An instruction that ends with a write to a general register and the next `pc`. -/
theorem State.writeX_advance_eq (hcfg : t.cfg = s.cfg) (hx : t.x = s.x) (hpc : t.pc = s.pc) (r : Reg) (v : Word) :
    (t.writeX r v).advance = { t with x := (s.writeX r v).x, pc := addX s.cfg s.pc 4 } := by
  unfold State.writeX State.advance
  split <;> simp only [hcfg, hx, hpc]

/-- The error code has four bits, so it fits a register of either `XLEN`. -/
theorem truncX_aceerror (s : State) : truncX s.cfg (s.aceerror.setWidth 64) = s.aceerror.setWidth 64 := by
  unfold truncX
  split
  · rfl
  · rw [BitVec.setWidth_setWidth_of_le _ (by decide : 32 ≤ 64), BitVec.setWidth_setWidth (by decide)]

/-! ### The value a CSR instruction writes (40_csr_access.md R170) -/

theorem csrNew_of_suppressed (h : suppressed i = true) (old src : Word) : csrNew i old src = none := by
  obtain ⟨hop, hsrc⟩ : i.op ≠ .write ∧ i.src = 0 := by simpa [suppressed] using h
  unfold csrNew
  cases hi : i.op with
  | write => exact absurd hi hop
  | setBits | clearBits => exact if_pos hsrc

theorem csrNew_of_not_suppressed (h : suppressed i = false) (s : State) (old : Word) :
    ∃ v, csrNew i old (s.csrSource i) = some v ∧ truncX s.cfg v = s.csrWritten i old := by
  have hsrc : i.op ≠ .write → i.src ≠ 0 := by simpa [suppressed] using h
  unfold csrNew State.csrWritten
  cases hi : i.op with
  | write => exact ⟨_, rfl, rfl⟩
  | setBits | clearBits => exact ⟨_, if_neg (hsrc (by rw [hi]; decide)), rfl⟩

/-! ### The write rule of each CSR (40_csr_access.md R172 to R180) -/

theorem State.writeIobuflen_eq (s : State) (v : Word) :
    s.writeIobuflen v =
      { s.setBuffer (min v.toNat s.iobufLimit) with
        aceerror := if s.iobufLimit < v.toNat then errMemory else s.aceerror } := by
  unfold State.writeIobuflen
  dsimp only
  split <;> rfl

/-- The write rule of a CSR leaves the general registers and `pc` to the instruction. -/
theorem State.writeCsr_frame {v : Word} (ht : s.writeCsr c v = some t) : t.cfg = s.cfg ∧ t.x = s.x ∧ t.pc = s.pc := by
  cases c with
  | marchid => cases ht
  | iobuflen =>
    cases ht
    rw [State.writeIobuflen_eq]
    exact ⟨rfl, rfl, rfl⟩
  | iobuftop =>
    cases ht
    unfold State.writeIobuftop
    split <;> exact ⟨rfl, rfl, rfl⟩
  | activecr =>
    obtain ⟨_, ht⟩ := Option.ite_none_left_eq_some.1 ht
    cases ht
    unfold State.writeActivecr
    split <;> exact ⟨rfl, rfl, rfl⟩
  | error | start | sequence | htrapmask | htrapvector => cases ht; exact ⟨rfl, rfl, rfl⟩

theorem State.writeCsr_activecr_refused (h : s.acesequence ≠ 0) (v : Word) : s.writeCsr .activecr v = none := if_pos h

section
variable {v : Word}

/-- The value has six bits when it is tested (decision D40). -/
theorem State.writeCsr_activecr_too_large (hseq : s.acesequence = 0) (hv : 32 < (v.setWidth 6).toNat) :
    s.writeCsr .activecr v = some { s with aceerror := 8 } := by
  rw [State.writeCsr, if_neg (not_not_intro hseq), State.writeActivecr, if_pos hv, errInvalidValue]

theorem State.writeCsr_activecr_taken (hseq : s.acesequence = 0) (hv : ¬32 < (v.setWidth 6).toNat) :
    s.writeCsr .activecr v = some { s with aceactivecr := v.setWidth 6 } := by
  rw [State.writeCsr, if_neg (not_not_intro hseq), State.writeActivecr, if_neg hv]

theorem State.writeCsr_iobuftop_inside (hv : s.acestart.toNat ≤ v.toNat ∧ v.toNat ≤ s.aceiobuflen.toNat) :
    s.writeCsr .iobuftop v = some { s with aceiobuftop := v } := by
  rw [State.writeCsr, State.writeIobuftop, if_pos hv]

/-- A refused bound is kept (decision D39). -/
theorem State.writeCsr_iobuftop_outside (hv : ¬(s.acestart.toNat ≤ v.toNat ∧ v.toNat ≤ s.aceiobuflen.toNat)) :
    s.writeCsr .iobuftop v = some { s with aceerror := 8 } := by
  rw [State.writeCsr, State.writeIobuftop, if_neg hv, errInvalidValue]

end

/-! ### The current maximum of `aceiobuflen` (40_csr_access.md R175) -/

/-- A value up to the bound that passes or is 0, and above which none passes, is the one `largestUpTo` finds. -/
theorem largestUpTo_eq {p : Nat → Bool} {m n : Nat} (hle : m ≤ n) (hpass : m = 0 ∨ p m = true)
    (hfail : ∀ k, m < k → k ≤ n → p k = false) : largestUpTo p n = m := by
  induction n with
  | zero => exact (Nat.le_zero.1 hle).symm
  | succ n ih =>
    unfold largestUpTo
    obtain hlt | rfl := Nat.lt_or_eq_of_le hle
    · rw [hfail (n + 1) hlt (Nat.le_refl _)]
      exact ih (Nat.le_of_lt_succ hlt) fun k hk hkn => hfail k hk (Nat.le_succ_of_le hkn)
    · exact if_pos (hpass.resolve_left (Nat.succ_ne_zero n))

theorem State.iobufLimit_of_no_buffer (h : s.cfg.hasIobuf = false) : s.iobufLimit = 0 := by
  simp [State.iobufLimit, h]

theorem State.iobufLimit_of_own_memory (h : s.cfg.hasIobuf = true) (hcrf : s.cfg.iobufInCrf = false) :
    s.iobufLimit = s.cfg.iobufMax := by
  simp [State.iobufLimit, h, hcrf]

/-- A buffer in the CR file takes what the CRs leave. -/
theorem State.iobufLimit_of_shared {m : Nat} (h : s.cfg.hasIobuf = true) (hcrf : s.cfg.iobufInCrf = true)
    (hle : m ≤ s.cfg.iobufMax) (hfits : m = 0 ∨ s.crUsed + iobufCost s.cfg m ≤ s.cfg.crfCapacity)
    (hmax : ∀ k, m < k → k ≤ s.cfg.iobufMax → s.cfg.crfCapacity < s.crUsed + iobufCost s.cfg k) :
    s.iobufLimit = m := by
  simp only [State.iobufLimit, h, hcrf, Bool.not_true, Bool.false_eq_true, if_false]
  exact largestUpTo_eq hle (hfits.imp_right fun hm => decide_eq_true hm)
    fun k hk hkn => decide_eq_false (Nat.not_le_of_lt (hmax k hk hkn))

/-! ### The CSR at a number (10_state.md R54) -/

/-- No two CSRs share a number, so the tests before that of `aceiobuflen`, `aceiobuftop` or `aceactivecr` fail at its
number. `hne` says so of a later number and an earlier one, in the order in which `aceCsr` compares them. -/
theorem aceCsr_of_wellFormed {p : EncParams} (hp : p.wellFormed = true) :
    aceCsr p p.csrIobuflen = some .iobuflen ∧ aceCsr p p.csrIobuftop = some .iobuftop ∧
      aceCsr p p.csrActivecr = some .activecr := by
  obtain ⟨_, hnodup⟩ := Bool.and_eq_true_iff.1 hp
  have hne := List.Pairwise.imp Ne.symm (of_decide_eq_true hnodup)
  simp only [List.pairwise_cons, List.mem_cons, forall_eq_or_imp, ne_eq] at hne
  simp [aceCsr, hne]

/-! ### The ends of a CSR instruction (40_csr_access.md R170, R171) -/

theorem execCsr_of_absent (hc : aceCsr s.cfg.enc i.csr = none) (hhost : i.csr ∉ s.cfg.hostCsrs) :
    execCsr i s = .next (s.illegal (encodeCsr i)) := by
  simp [execCsr, hc, hhost]

section
variable (hc : aceCsr s.cfg.enc i.csr = some c)
include hc

theorem execCsr_of_suppressed (hs : suppressed i = true) :
    execCsr i s = .next { s with x := (s.writeX i.rd (s.readCsr c)).x, pc := addX s.cfg s.pc 4 } := by
  simp only [execCsr, hc, State.accessCsr, csrNew_of_suppressed hs, State.writeX_advance_eq rfl rfl rfl]

theorem execCsr_of_refused (hs : suppressed i = false)
    (hw : s.writeCsr c (s.csrWritten i (s.readCsr c)) = none) : execCsr i s = .next (s.illegal (encodeCsr i)) := by
  obtain ⟨v, hv, htrunc⟩ := csrNew_of_not_suppressed hs s (s.readCsr c)
  simp only [execCsr, hc, State.accessCsr, hv, htrunc, hw]

theorem execCsr_of_taken (hs : suppressed i = false)
    (hw : s.writeCsr c (s.csrWritten i (s.readCsr c)) = some t) :
    execCsr i s = .next { t with x := (s.writeX i.rd (s.readCsr c)).x, pc := addX s.cfg s.pc 4 } := by
  obtain ⟨v, hv, htrunc⟩ := csrNew_of_not_suppressed hs s (s.readCsr c)
  obtain ⟨hcfg, hx, hpc⟩ := State.writeCsr_frame hw
  simp only [execCsr, hc, State.accessCsr, hv, htrunc, hw, State.writeX_advance_eq hcfg hx hpc]

end

/-! ### The obligations -/

/-- Settles O58: the write rules of these CSRs store the value, and that of `acemarchid` refuses it. -/
theorem plainCsrsWritten : Obligations.PlainCsrsWritten := by
  intro i s
  refine ⟨execCsr_of_absent, ?_⟩
  rintro c _ _ _ hc rfl rfl rfl
  split
  case isTrue hs => exact execCsr_of_suppressed hc hs
  case isFalse hs =>
    have hs : suppressed i = false := eq_false_of_ne_true hs
    cases c with
    | error | start | sequence | htrapmask | htrapvector => exact execCsr_of_taken hc hs rfl
    | marchid => exact execCsr_of_refused hc hs rfl
    | iobuflen | iobuftop | activecr => trivial

/-- Settles O59: the sequence is tested before the value, and the value has six bits when it is tested. -/
theorem activeCRWritten : Obligations.ActiveCRWritten := by
  rintro i s hcsr hp hs _ _ _ rfl rfl rfl
  obtain ⟨_, _, hc⟩ := aceCsr_of_wellFormed hp
  rw [← hcsr] at hc
  split
  case isTrue hseq => exact execCsr_of_refused hc hs (State.writeCsr_activecr_refused hseq _)
  case isFalse hseq =>
    have hseq : s.acesequence = 0 := Decidable.not_not.1 hseq
    split
    case isTrue hv => exact (execCsr_of_taken hc hs (State.writeCsr_activecr_too_large hseq hv) :)
    case isFalse hv => exact (execCsr_of_taken hc hs (State.writeCsr_activecr_taken hseq hv) :)

/-- Settles O60: each of the three descriptions of the maximum is that of `iobufLimit`, to which the write rule of
`aceiobuflen` cuts. -/
theorem bufferCsrsWritten : Obligations.BufferCsrsWritten := by
  intro i s v hp hs
  obtain ⟨hlen, htop, _⟩ := aceCsr_of_wellFormed hp
  constructor
  · rintro hcsr rfl max _ hmax rfl
    have hlimit : s.iobufLimit = max := by
      obtain ⟨hno, rfl⟩ | ⟨hbuf, hown, rfl⟩ | ⟨hbuf, hcrf, hle, hfits, habove⟩ := hmax
      · exact State.iobufLimit_of_no_buffer hno
      · exact State.iobufLimit_of_own_memory hbuf hown
      · exact State.iobufLimit_of_shared hbuf hcrf hle hfits habove
    rw [← hcsr] at hlen
    rw [execCsr_of_taken hlen hs rfl, State.writeIobuflen_eq, hlimit]
    rfl
  · rintro hcsr rfl
    rw [← hcsr] at htop
    split
    case isTrue hv => exact (execCsr_of_taken htop hs (State.writeCsr_iobuftop_inside hv) :)
    case isFalse hv => exact (execCsr_of_taken htop hs (State.writeCsr_iobuftop_outside hv) :)

/-- Settles O44: the one register written is `xd`, and `X0` takes no value. -/
theorem errorCompletes : Obligations.ErrorCompletes := by
  intro s xd
  refine ⟨_, rfl, fun hxd => ?_, fun r hr => s.readX_writeX_other hr _, State.writeX_advance_eq rfl rfl rfl _ _, ?_⟩
  · exact (s.readX_writeX_same hxd _).trans (truncX_aceerror s)
  · rintro rfl
    rfl

end Sys2Proof.Machine

/-! PROOF. What every instruction leaves as it is: registers, memory, the CRs it does not name. -/
namespace Sys2Proof.Machine

variable {s t : State} {i : Instr}

/-! ### Registers -/

theorem State.readX_congr (hcfg : t.cfg = s.cfg) (hx : t.x = s.x) (r : Reg) : t.readX r = s.readX r := by
  simp only [State.readX, hcfg, hx]

@[simp] theorem State.invalidateWith_cfg (s : State) (n : Fin 32) (code : BitVec 4) :
    (s.invalidateWith n code).cfg = s.cfg := s.invalidate_cfg n

@[simp] theorem State.invalidateWith_x (s : State) (n : Fin 32) (code : BitVec 4) :
    (s.invalidateWith n code).x = s.x := s.invalidate_x n

@[simp] theorem State.invalidateWith_v (s : State) (n : Fin 32) (code : BitVec 4) :
    (s.invalidateWith n code).v = s.v := s.invalidate_v n

@[simp] theorem State.applyStep_cfg (s : State) (n : Fin 32) (cc : Context) (q : BitVec 2) (src dst : Operand)
    (r : Step) : (s.applyStep n cc q src dst r).cfg = s.cfg := by
  unfold State.applyStep
  split <;> simp [State.commit]

@[simp] theorem State.applyStep_x (s : State) (n : Fin 32) (cc : Context) (q : BitVec 2) (src dst : Operand)
    (r : Step) : (s.applyStep n cc q src dst r).x = s.x := by
  unfold State.applyStep
  split <;> simp [State.commit]

/-- The outcome of a step is committed with a code in `aceerror`, or it invalidates the CR. -/
theorem Step.outcome_cases (r : Step) :
    (∃ code, r.outcome = .ok ∧ code = 0 ∨ r.outcome = .err code) ∨ ∃ code, r.outcome = .invalidate code := by
  cases h : r.outcome with
  | ok => exact .inl ⟨0, .inl ⟨rfl, rfl⟩⟩
  | err code => exact .inl ⟨code, .inr rfl⟩
  | invalidate code => exact .inr ⟨code, rfl⟩

/-- A vector register outside the group a step writes (42_exec_state_io.md R269). -/
theorem State.writeOperand_v_other (s : State) {dst : Operand} {j : Fin 32} (out written : Nat)
    (hout : ∀ vd, dst = .vector vd → j.val < vd.toNat ∨ vd.toNat + s.vecRegs ≤ j.val) :
    (s.writeOperand dst out written).v[j.val] = s.v[j.val] := by
  cases dst with
  | none | buffer => rfl
  | vector vd =>
    have hj := hout vd rfl
    simp only [State.writeOperand, State.writeVec, Vector.getElem_ofFn]
    exact if_neg (by omega)

theorem State.applyStep_v_other (s : State) {n : Fin 32} {cc : Context} (hc : s.getCR n = .configured cc) (q : BitVec 2)
    (src : Operand) {dst : Operand} (r : Step) {j : Fin 32}
    (hout : ∀ vd, dst = .vector vd → j.val < vd.toNat ∨ vd.toNat + s.vecRegs ≤ j.val) :
    (s.applyStep n cc q src dst r).v[j.val] = s.v[j.val] := by
  obtain ⟨code, h⟩ | ⟨code, h⟩ := r.outcome_cases
  · rw [State.applyStep_done h]
    exact s.writeOperand_v_other _ _ hout
  · rw [State.applyStep_invalidate h hc]

theorem Ends.cfg_eq (he : Ends i s t) : t.cfg = s.cfg := by
  cases he with
  | trap | range | releasedTrap | code | released | loaded | cloned | restricted | reset | nop => rfl
  | invalidTrap | exported | sized | errorRead | applied | invalid | input | output => simp

/-- Only `ace.error`, `ace.size` and `ace.avail` write a general register (41_cr_management.md R219). -/
theorem Ends.x_cases (he : Ends i s t) : t.x = s.x ∨ ∃ rd v, i.destReg = some rd ∧ t.x = (s.writeX rd v).x := by
  cases he with
  | sized rd v code hi => exact .inr ⟨rd, v, hi, rfl⟩
  | errorRead rd v hi => exact .inr ⟨rd, v, by rw [hi]; rfl, rfl⟩
  | trap | range | releasedTrap | code | released | loaded | cloned | restricted | reset | nop => exact .inl rfl
  | invalidTrap | exported | applied | invalid | input | output => exact .inl (by simp)

/-- `X0` and a register that is not the destination read as before. -/
theorem Ends.readX_other (he : Ends i s t) {r : Reg} (hr : i.destReg ≠ some r ∨ r = 0) : t.readX r = s.readX r := by
  obtain hx | ⟨rd, v, hi, hx⟩ := he.x_cases
  · exact State.readX_congr he.cfg_eq hx r
  · rw [State.readX_congr (s := s.writeX rd v) (he.cfg_eq.trans (s.writeX_cfg rd v).symm) hx]
    obtain hr | rfl := hr
    · exact s.readX_writeX_other (fun h => hr (hi.trans (congrArg some h.symm))) v
    · rfl

/-- Only Forms A and C of `ace.exec` write vector registers, those of the group they name
(42_exec_state_io.md R250, R252). -/
theorem Ends.v_other (he : Ends i s t) {j : Fin 32}
    (hj : ∀ vd, i.destVec = some vd → j.val < vd.toNat ∨ vd.toNat + s.vecRegs ≤ j.val) : t.v[j.val] = s.v[j.val] := by
  cases he with
  | applied n cc q src dst r _ _ hs _ hv _ => exact s.applyStep_v_other hs q src r fun vd h => hj vd (hv vd h)
  | trap | range | releasedTrap | code | released | loaded | cloned | restricted | reset | nop => rfl
  | invalidTrap | exported | sized | errorRead | invalid | input | output => simp

/-- Settles O13: by the ends of an instruction. -/
theorem registersKept : Obligations.RegistersKept :=
  fun _ _ _ h => ⟨fun _ => (exec_ends h).readX_other, fun _ => (exec_ends h).v_other⟩

/-! ### Memory -/

/-- The bytes an instruction stores: at an address, and no more than so many. -/
def State.Stores (s : State) (i : Instr) (ea len : Nat) : Prop :=
  (∃ (n : Fin 32) (cc : Context) (e : AlgEntry) (ind : Bool) (field : Reg) (off : Imm12) (base : Reg),
    i = (if ind then .exportX off base field else .exportK off base field) ∧ s.Names ind field n ∧
      s.getCR n = .configured cc ∧ algEntry s.cfg cc.mh = some e ∧ ea = (s.effAddr base off).toNat ∧
      len = (s.sealContext e.algDef cc).length) ∨
  ∃ (off : Imm12) (xd xl : Reg), i = .output off xd xl ∧ ea = (s.effAddr xd off).toNat ∧ len = (s.readX xl).toNat

theorem State.Outside.mono {ea len len' a : Nat} (h : s.Outside ea len a) (hle : len' ≤ len) : s.Outside ea len' a :=
  fun k hk => h k (Nat.lt_of_lt_of_le hk hle)

theorem State.bufBytes_length_le (s : State) (a len : Nat) : (s.bufBytes a (a + len)).length ≤ len := by
  rw [State.bufBytes, Nat.add_sub_cancel_left]
  exact List.length_take_le _ _

/-- A byte outside what an instruction stores is left as it is (20_memory.md R91, R95). -/
theorem Ends.read_outside (he : Ends i s t) {a : Nat} (hout : ∀ ea len, s.Stores i ea len → s.Outside ea len a) :
    Memory.read t.mem a = Memory.read s.mem a := by
  cases he with
  | exported n cc e ind field off base hi hn hs he =>
    simpa using s.writeBytes_outside _ _ _ (hout _ _ (.inl ⟨n, cc, e, ind, field, off, base, hi, hn, hs, he, rfl, rfl⟩))
  | output off xd xl hi =>
    have h := hout _ _ (.inr ⟨off, xd, xl, hi, rfl, rfl⟩)
    simpa using s.writeBytes_outside _ _ _ (h.mono (s.bufBytes_length_le s.acestart.toNat _))
  | trap | range | releasedTrap | code | released | loaded | cloned | restricted | reset | nop => rfl
  | invalidTrap | sized | errorRead | applied | invalid | input => simp

/-- `ace.export` stores the SCC of the CR it names. -/
theorem Ends.read_outside_export {ind : Bool} {field base : Reg} {off : Imm12} {a : Nat}
    (he : Ends (if ind then .exportX off base field else .exportK off base field) s t)
    (hout : ∀ (n : Fin 32) (cc : Context) (e : AlgEntry), s.Names ind field n → s.getCR n = .configured cc →
      algEntry s.cfg cc.mh = some e → s.Outside (s.effAddr base off).toNat (s.sealContext e.algDef cc).length a) :
    Memory.read t.mem a = Memory.read s.mem a := by
  refine he.read_outside ?_
  rintro _ _ (⟨n, cc, e, ind', _, _, _, hi, hn, hs, hentry, rfl, rfl⟩ | ⟨_, _, _, hi, _⟩)
  · cases ind <;> cases ind' <;> cases hi
    · exact hout n cc e hn hs hentry
    · exact hout n cc e hn hs hentry
  · cases ind <;> cases hi

/-- An instruction other than `ace.export` and `ace.output` stores nothing. -/
theorem State.not_stores {ea len : Nat} (hk : ∀ off base field, i ≠ .exportK off base field)
    (hx : ∀ off base field, i ≠ .exportX off base field) (ho : ∀ off xd xl, i ≠ .output off xd xl) :
    ¬ s.Stores i ea len := by
  rintro (⟨_, _, _, ind, field, off, base, hi, _⟩ | ⟨off, xd, xl, hi, _⟩)
  · cases ind with
    | false => exact hk off base field hi
    | true => exact hx off base field hi
  · exact ho off xd xl hi

/-- Settles O14: by the ends of an instruction, for each of the three that store bytes and for all others at once. -/
theorem memoryKept : Obligations.MemoryKept := by
  intro i s t a h
  split
  case h_1 => exact (exec_ends h).read_outside_export (ind := false)
  case h_2 => exact (exec_ends h).read_outside_export (ind := true)
  case h_3 off xd xl =>
    refine fun hout => (exec_ends h).read_outside ?_
    rintro _ _ (⟨_, _, _, ind, _, _, _, hi, _⟩ | ⟨_, _, _, hi, rfl, rfl⟩)
    · cases ind <;> cases hi
    · cases hi
      exact hout
  case h_4 hk hx ho =>
    exact (exec_ends h).read_outside fun ea len hs =>
      absurd hs (State.not_stores hk hx ho)

/-! ### Cryptographic Registers -/

theorem State.getCR_congr (h : t.cr = s.cr) (n : Fin 32) : t.getCR n = s.getCR n := by
  simp only [State.getCR, h]

theorem State.getCR_invalidate_other (s : State) {n m : Fin 32} (h : m ≠ n) :
    (s.invalidate n).getCR m = s.getCR m := by
  rw [State.getCR_invalidate, if_neg h]

theorem State.getCR_release_other (s : State) {n m : Fin 32} (h : m ≠ n) : (s.release n).getCR m = s.getCR m :=
  s.getCR_setCR_other h _

theorem State.getCR_applyStep_other (s : State) {n m : Fin 32} (h : m ≠ n) {cc : Context}
    (hc : s.getCR n = .configured cc) (q : BitVec 2) (src dst : Operand) (r : Step) :
    (s.applyStep n cc q src dst r).getCR m = s.getCR m := by
  obtain ⟨code, ho⟩ | ⟨code, ho⟩ := r.outcome_cases
  · rw [State.applyStep_done ho]
    exact s.getCR_setCR_other h _
  · rw [State.applyStep_invalidate ho hc]
    exact s.getCR_setCR_other h _

/-- A CR that an instruction neither names nor is bound to. -/
theorem Ends.getCR_other (he : Ends i s t) {m : Fin 32} (hreset : i ≠ .aceReset) (hclear : i ≠ .clearX 0)
    (hm : ¬ s.Targets i m) (hb : i.sequenced = true → i.crOperand = none → s.aceactivecr.toNat ≠ m.val) :
    t.getCR m = s.getCR m := by
  have other {n : Fin 32} (hn : s.Targets i n) : m ≠ n := fun e => hm (e ▸ hn)
  cases he with
  | trap | range | code | nop => rfl
  | sized | errorRead | input => exact State.getCR_congr (by simp) m
  | output => exact State.getCR_congr (by simp) m
  | reset hi => exact hi.elim (absurd · hreset) (absurd · hclear)
  | releasedTrap n c v _ hn => exact s.getCR_release_other (other hn)
  | released n code _ hn => exact s.getCR_release_other (other hn)
  | invalid n code _ hn => exact s.getCR_invalidate_other (other hn)
  | invalidTrap n w hi hn =>
    obtain hn | ⟨hnone, hact⟩ := hn
    · exact s.getCR_invalidate_other (other hn)
    · exact s.getCR_invalidate_other fun e => hb hi hnone (e ▸ hact)
  | loaded n cc _ hn =>
    exact ((s.release n).getCR_setCR_other (other hn) _).trans (s.getCR_release_other (other hn))
  | cloned n d cc _ hd =>
    exact ((s.release d).getCR_setCR_other (other hd) _).trans (s.getCR_release_other (other hd))
  | restricted n cc op mh hn => exact s.getCR_setCR_other (other hn) _
  | exported n cc e ind field off base hi hn =>
    have htarget : s.Targets i n := ⟨ind, field, .inl (by rw [hi]; cases ind <;> rfl), hn⟩
    rw [State.getCR_congr (State.done_cr _) m, State.getCR_setCR_other _ (other htarget)]
    exact State.getCR_congr (State.writeBytes_cr _ _ _) m
  | applied n cc q src dst r _ hn hs => exact s.getCR_applyStep_other (other hn) hs q src dst r

/-- Settles O15: by the ends of an instruction. -/
theorem otherCRsKept : Obligations.OtherCRsKept := by
  intro i s t m h hreset hclear hoperand htarget hbound
  refine (exec_ends h).getCR_other hreset hclear ?_ hbound
  rintro ⟨ind, field, hi | hi, hn⟩
  · exact hoperand ind field hi hn
  · exact htarget ind field hi hn

end Sys2Proof.Machine

/-! PROOF. The header after `ace.restrict` (41_cr_management.md R220), and that policies only tighten. -/
namespace Sys2Proof.Machine

variable {s t : State} {i : Instr}

/-! ### A header is what its fields are (10_state.md R41) -/

theorem getLsbD_eq_of_extract {m m' : BitVec 64} {lo w : Nat} (h : m'.extractLsb' lo w = m.extractLsb' lo w) {k : Nat}
    (hlo : lo ≤ k) (hhi : k < lo + w) : m'.getLsbD k = m.getLsbD k := by
  have hbit := congrArg (BitVec.getLsbD · (k - lo)) h
  simpa [BitVec.getLsbD_extractLsb', (by omega : k - lo < w), Nat.add_sub_cancel' hlo] using hbit

/-- Headers with the same fields are the same. -/
theorem header_ext {m m' : BitVec 64} (hformat : mhFormat m' = mhFormat m) (halg : mhAlgorithm m' = mhAlgorithm m)
    (hpolicy : mhPolicy m' = mhPolicy m) (hprot : mhProtection m' = mhProtection m)
    (hkt : mhKeyType m' = mhKeyType m) (hstate : mhState m' = mhState m) (hloc : mhLocality m' = mhLocality m)
    (husage : mhUsage m' = mhUsage m) (hadd : mhAdditional m' = mhAdditional m)
    (hexp : mhExpiration m' = mhExpiration m) : m' = m := by
  refine BitVec.eq_of_getLsbD_eq fun k hk => ?_
  obtain h | h | h | h | h | h | h | h | h | h : k < 1 ∨ (1 ≤ k ∧ k < 12) ∨ (12 ≤ k ∧ k < 14) ∨ (14 ≤ k ∧ k < 16) ∨
      k = 16 ∨ (17 ≤ k ∧ k < 21) ∨ (21 ≤ k ∧ k < 29) ∨ (29 ≤ k ∧ k < 32) ∨ (32 ≤ k ∧ k < 46) ∨ 46 ≤ k := by omega
  · exact getLsbD_eq_of_extract hformat (Nat.zero_le k) h
  · exact getLsbD_eq_of_extract halg h.1 h.2
  · exact getLsbD_eq_of_extract hpolicy h.1 h.2
  · exact getLsbD_eq_of_extract hprot h.1 h.2
  · rw [h]
    exact hkt
  · exact getLsbD_eq_of_extract hstate h.1 h.2
  · exact getLsbD_eq_of_extract hloc h.1 h.2
  · exact getLsbD_eq_of_extract husage h.1 h.2
  · exact getLsbD_eq_of_extract hadd h.1 h.2
  · exact getLsbD_eq_of_extract hexp h (by omega)

/-- A _Locality_ is its four groups and bit 7 (10_state.md R48). -/
theorem locality_ext {a b : BitVec 8} (h0 : b.extractLsb' 0 3 = a.extractLsb' 0 3)
    (h3 : b.extractLsb' 3 1 = a.extractLsb' 3 1) (h4 : b.extractLsb' 4 1 = a.extractLsb' 4 1)
    (h5 : b.extractLsb' 5 2 = a.extractLsb' 5 2) (h7 : b.extractLsb' 7 1 = a.extractLsb' 7 1) : b = a := by
  have eq (x : BitVec 8) : x = (x.extractLsb' 7 1 ++ (x.extractLsb' 5 2 ++ (x.extractLsb' 4 1 ++
      (x.extractLsb' 3 1 ++ x.extractLsb' 0 3))) : BitVec (1 + (2 + (1 + (1 + 3))))) := by
    revert x
    decide
  rw [eq a, eq b, h0, h3, h4, h5, h7]

/-- The groups of a _Locality_ put together from its groups and bit 7. -/
theorem locality_append_groups (g0 : BitVec 3) (g3 g4 : BitVec 1) (g5 : BitVec 2) (g7 : BitVec 1) (b : BitVec 8)
    (h : b = (g7 ++ (g5 ++ (g4 ++ (g3 ++ g0))) : BitVec (1 + (2 + (1 + (1 + 3)))))) :
    b.extractLsb' 0 3 = g0 ∧ b.extractLsb' 3 1 = g3 ∧ b.extractLsb' 4 1 = g4 ∧ b.extractLsb' 5 2 = g5 ∧
      b.extractLsb' 7 1 = g7 := by
  subst h
  revert g0 g3 g4 g5 g7
  decide

theorem extractLsb'_one_eq_iff (a b : BitVec 8) (k : Nat) :
    b.extractLsb' k 1 = a.extractLsb' k 1 ↔ b.getLsbD k = a.getLsbD k := by
  simp [BitVec.eq_of_getLsbD_eq_iff, BitVec.getLsbD_extractLsb']

/-! ### The parts of `ace.restrict` -/

theorem mergeGroup_eq_some_iff {w : Nat} (old new res : BitVec w) :
    mergeGroup old new = some res ↔ Merged old new res := by
  unfold mergeGroup Merged
  split
  · grind
  split
  · grind
  · grind

/-- Each group of the _Locality_ is merged and bit 7 stays. -/
theorem mergeLocality_eq_some_iff (old new res : BitVec 8) :
    mergeLocality old new = some res ↔
      Merged (old.extractLsb' 0 3) (new.extractLsb' 0 3) (res.extractLsb' 0 3) ∧
      Merged (old.extractLsb' 3 1) (new.extractLsb' 3 1) (res.extractLsb' 3 1) ∧
      Merged (old.extractLsb' 4 1) (new.extractLsb' 4 1) (res.extractLsb' 4 1) ∧
      Merged (old.extractLsb' 5 2) (new.extractLsb' 5 2) (res.extractLsb' 5 2) ∧
      res.getLsbD 7 = old.getLsbD 7 := by
  unfold mergeLocality
  constructor
  · intro h
    split at h
    · rename_i g0 g3 g4 g5 h0 h3 h4 h5
      obtain ⟨e0, e3, e4, e5, e7⟩ :=
        locality_append_groups g0 g3 g4 g5 (old.extractLsb' 7 1) res (Option.some.inj h).symm
      simp only [e0, e3, e4, e5, ← mergeGroup_eq_some_iff]
      exact ⟨h0, h3, h4, h5, (extractLsb'_one_eq_iff old res 7).1 e7⟩
    · cases h
  · rintro ⟨h0, h3, h4, h5, h7⟩
    rw [(mergeGroup_eq_some_iff _ _ _).2 h0, (mergeGroup_eq_some_iff _ _ _).2 h3, (mergeGroup_eq_some_iff _ _ _).2 h4,
      (mergeGroup_eq_some_iff _ _ _).2 h5]
    obtain ⟨e0, e3, e4, e5, e7⟩ := locality_append_groups _ _ _ _ _ _ rfl
    exact congrArg some (locality_ext e0 e3 e4 e5 (e7.trans ((extractLsb'_one_eq_iff old res 7).2 h7).symm))

theorem mergeExpiration_eq_some_iff (old new res : BitVec 18) :
    mergeExpiration old new = some res ↔ (new = 0 ∧ res = old) ∨ (new ≠ 0 ∧ old = 0 ∧ res = new) := by
  unfold mergeExpiration
  split
  · grind
  · grind

/-- The header with the policies `ace.restrict` may change. -/
def withPolicies (m : BitVec 64) (policy prot : BitVec 2) (loc : BitVec 8) (usage : BitVec 3) (exp : BitVec 18) :
    BitVec 64 :=
  setField (setField (setField (setField (setField m 12 policy) 14 prot) 21 loc) 29 usage) 46 exp

section
variable (m m' : BitVec 64) (policy prot : BitVec 2) (loc : BitVec 8) (usage : BitVec 3) (exp : BitVec 18)

theorem extract_withPolicies_other (lo w : Nat) (h : lo + w ≤ 12 ∨ (16 ≤ lo ∧ lo + w ≤ 21) ∨ (32 ≤ lo ∧ lo + w ≤ 46)) :
    (withPolicies m policy prot loc usage exp).extractLsb' lo w = m.extractLsb' lo w := by
  unfold withPolicies
  rw [extract_setField_other _ _ _ _ _ (by omega) (by omega), extract_setField_other _ _ _ _ _ (by omega) (by omega),
    extract_setField_other _ _ _ _ _ (by omega) (by omega), extract_setField_other _ _ _ _ _ (by omega) (by omega),
    extract_setField_other _ _ _ _ _ (by omega) (by omega)]

theorem mhPolicy_withPolicies : mhPolicy (withPolicies m policy prot loc usage exp) = policy := by
  unfold withPolicies mhPolicy
  rw [extract_setField_other _ _ _ _ _ (by omega) (by omega), extract_setField_other _ _ _ _ _ (by omega) (by omega),
    extract_setField_other _ _ _ _ _ (by omega) (by omega), extract_setField_other _ _ _ _ _ (by omega) (by omega),
    extract_setField_same _ _ _ (by omega)]

theorem mhProtection_withPolicies : mhProtection (withPolicies m policy prot loc usage exp) = prot := by
  unfold withPolicies mhProtection
  rw [extract_setField_other _ _ _ _ _ (by omega) (by omega), extract_setField_other _ _ _ _ _ (by omega) (by omega),
    extract_setField_other _ _ _ _ _ (by omega) (by omega), extract_setField_same _ _ _ (by omega)]

theorem mhLocality_withPolicies : mhLocality (withPolicies m policy prot loc usage exp) = loc := by
  unfold withPolicies mhLocality
  rw [extract_setField_other _ _ _ _ _ (by omega) (by omega), extract_setField_other _ _ _ _ _ (by omega) (by omega),
    extract_setField_same _ _ _ (by omega)]

theorem mhUsage_withPolicies : mhUsage (withPolicies m policy prot loc usage exp) = usage := by
  unfold withPolicies mhUsage
  rw [extract_setField_other _ _ _ _ _ (by omega) (by omega), extract_setField_same _ _ _ (by omega)]

theorem mhExpiration_withPolicies : mhExpiration (withPolicies m policy prot loc usage exp) = exp :=
  extract_setField_same _ _ _ (by omega)

theorem mhKeyType_eq_of_extract {m m' : BitVec 64} (h : m'.extractLsb' 16 1 = m.extractLsb' 16 1) :
    mhKeyType m' = mhKeyType m :=
  getLsbD_eq_of_extract h (Nat.le_refl 16) (by omega)

/-- A header with new policies is told by its fields. -/
theorem eq_withPolicies_iff : m' = withPolicies m policy prot loc usage exp ↔
    (mhFormat m' = mhFormat m ∧ mhAlgorithm m' = mhAlgorithm m ∧ mhKeyType m' = mhKeyType m ∧
      mhState m' = mhState m ∧ mhAdditional m' = mhAdditional m) ∧
    mhPolicy m' = policy ∧ mhProtection m' = prot ∧ mhLocality m' = loc ∧ mhUsage m' = usage ∧
      mhExpiration m' = exp := by
  have hother := extract_withPolicies_other m policy prot loc usage exp
  have hkt : mhKeyType (withPolicies m policy prot loc usage exp) = mhKeyType m :=
    mhKeyType_eq_of_extract (hother 16 1 (by omega))
  constructor
  · rintro rfl
    exact ⟨⟨hother 0 1 (by omega), hother 1 11 (by omega), hkt, hother 17 4 (by omega), hother 32 14 (by omega)⟩,
      mhPolicy_withPolicies .., mhProtection_withPolicies .., mhLocality_withPolicies .., mhUsage_withPolicies ..,
      mhExpiration_withPolicies ..⟩
  · rintro ⟨⟨hformat, halg, hkey, hstate, hadd⟩, hpolicy, hprot, hloc, husage, hexp⟩
    exact header_ext (hformat.trans (hother 0 1 (by omega)).symm) (halg.trans (hother 1 11 (by omega)).symm)
      (hpolicy.trans (mhPolicy_withPolicies ..).symm) (hprot.trans (mhProtection_withPolicies ..).symm)
      (hkey.trans hkt.symm) (hstate.trans (hother 17 4 (by omega)).symm)
      (hloc.trans (mhLocality_withPolicies ..).symm) (husage.trans (mhUsage_withPolicies ..).symm)
      (hadd.trans (hother 32 14 (by omega)).symm) (hexp.trans (mhExpiration_withPolicies ..).symm)

end

theorem apRestrictOk_iff (perm : Bool) (old new : BitVec 2) :
    apRestrictOk perm old new = true ↔ new = old ∨ (new ≠ 0 ∧ perm = true) := by
  simp [apRestrictOk, and_comm]

/-- The algorithm of a header has permission bits. -/
def Config.hasPermBits (c : Config) (m : BitVec 64) : Bool := (algEntry c m).any (·.permBits)

theorem hasPermBits_iff (c : Config) (m : BitVec 64) :
    Config.hasPermBits c m = true ↔ ∃ e, algEntry c m = some e ∧ e.permBits = true :=
  Option.any_eq_true ..

/-- When `ace.restrict` accepts its operand, and the header it makes. -/
theorem State.restrictHeader_eq_some_iff (s : State) (m op m' : BitVec 64) :
    s.restrictHeader m op = some m' ↔
      (mhFormat op = 0 ∧ mhAlgorithm op = 0 ∧ mhKeyType op = false ∧ mhState op = 0 ∧ mhAdditional op = 0) ∧
      (mhPolicy op &&& ~~~mhPolicy m = 0 ∧
        apRestrictOk (Config.hasPermBits s.cfg m) (mhPolicy m) (mhPolicy op) = true) ∧
      ((mhProtection m).toNat ≤ (mhProtection op).toNat ∧
        supported s.cfg (mhAlgorithm m) (mhPolicy op) (mhProtection op) (mhKeyType m) = true) ∧
      ∃ loc exp, mergeLocality (mhLocality m) (mhLocality op) = some loc ∧
        mergeExpiration (mhExpiration m) (mhExpiration op) = some exp ∧ (mhLocality op).getLsbD 7 = false ∧
        s.localityOk loc = true ∧
        m' = withPolicies m (mhPolicy op) (mhProtection op) loc (mhUsage m ||| mhUsage op) exp := by
  unfold State.restrictHeader
  simp only [Option.ite_none_left_eq_some]
  refine and_congr ?_ (and_congr ?_ (and_congr ?_ ?_))
  · simp
  · unfold Config.hasPermBits
    cases algEntry s.cfg m <;> simp
  · simp
  · cases hloc : mergeLocality (mhLocality m) (mhLocality op) with
    | none => simp
    | some loc =>
      cases hexp : mergeExpiration (mhExpiration m) (mhExpiration op) with
      | none => simp
      | some exp => simp [withPolicies, and_assoc, @eq_comm _ m']

/-- Settles O38: the header made is told by its fields, and each field by the rule that makes it. -/
theorem restrictedHeader : Obligations.RestrictedHeader := by
  intro s m op m'
  rw [State.restrictHeader_eq_some_iff]
  simp only [apRestrictOk_iff, hasPermBits_iff, eq_withPolicies_iff, mergeLocality_eq_some_iff,
    mergeExpiration_eq_some_iff]
  constructor
  · rintro ⟨hzero, ⟨hsub, hok⟩, ⟨hle, hsup⟩, loc, exp, ⟨h0, h3, h4, h5, h7⟩, hexp, hop7, hlok, hkept, hpolicy, hprot,
      rfl, husage, rfl⟩
    exact ⟨hzero, hkept, ⟨hpolicy, hsub, hok⟩, ⟨hprot, hle, hsup⟩, ⟨h0, h3, h4, h5, hop7, h7, hlok⟩, husage, hexp⟩
  · rintro ⟨hzero, hkept, ⟨hpolicy, hsub, hok⟩, ⟨hprot, hle, hsup⟩, ⟨h0, h3, h4, h5, hop7, h7, hlok⟩, husage, hexp⟩
    exact ⟨hzero, ⟨hsub, hok⟩, ⟨hle, hsup⟩, _, _, ⟨h0, h3, h4, h5, h7⟩, hexp, hop7, hlok, hkept, hpolicy, hprot, rfl,
      husage, rfl⟩

/-! ### Policies only tighten -/

/-- What no instruction relaxes in a header (41_cr_management.md R220, 10_state.md R51, R53). -/
structure Tightened (m m' : BitVec 64) : Prop where
  format : mhFormat m' = mhFormat m
  algorithm : mhAlgorithm m' = mhAlgorithm m
  keyType : mhKeyType m' = mhKeyType m
  usage : mhUsage m &&& ~~~mhUsage m' = 0
  policy : mhPolicy m' &&& ~~~mhPolicy m = 0
  protection : (mhProtection m).toNat ≤ (mhProtection m').toNat
  expiration : mhExpiration m ≠ 0 → mhExpiration m' = mhExpiration m
  group0 : (mhLocality m).extractLsb' 0 3 ≠ 0 → (mhLocality m').extractLsb' 0 3 = (mhLocality m).extractLsb' 0 3
  group3 : (mhLocality m).getLsbD 3 = true → (mhLocality m').getLsbD 3 = true
  group4 : (mhLocality m).getLsbD 4 = true → (mhLocality m').getLsbD 4 = true
  group5 : (mhLocality m).extractLsb' 5 2 ≠ 0 → (mhLocality m').extractLsb' 5 2 = (mhLocality m).extractLsb' 5 2

theorem Tightened.of_fields {m m' : BitVec 64} (hformat : mhFormat m' = mhFormat m)
    (halg : mhAlgorithm m' = mhAlgorithm m) (hpolicy : mhPolicy m' = mhPolicy m)
    (hprot : mhProtection m' = mhProtection m) (hkt : mhKeyType m' = mhKeyType m)
    (hloc : mhLocality m' = mhLocality m) (husage : mhUsage m' = mhUsage m)
    (hexp : mhExpiration m' = mhExpiration m) : Tightened m m' :=
  ⟨hformat, halg, hkt, by rw [husage, BitVec.and_not_self], by rw [hpolicy, BitVec.and_not_self],
    Nat.le_of_eq (by rw [hprot]), fun _ => hexp, fun _ => by rw [hloc], fun h => by rwa [hloc],
    fun h => by rwa [hloc], fun _ => by rw [hloc]⟩

theorem Tightened.refl (m : BitVec 64) : Tightened m m := .of_fields rfl rfl rfl rfl rfl rfl rfl rfl

theorem tightened_mhSetState (m : BitVec 64) (sn : BitVec 4) : Tightened m (mhSetState m sn) := by
  obtain ⟨hformat, halg, hpolicy, hprot, hkt, hloc, husage, _, hexp, _⟩ := mhSetState_fields m sn
  exact .of_fields hformat halg hpolicy hprot hkt hloc husage hexp

theorem tightened_mhSetAdditional {m m' : BitVec 64} (h : Tightened m m') (n : BitVec 14) :
    Tightened m (mhSetAdditional m' n) := by
  obtain ⟨hformat, halg, hpolicy, hprot, hkt, hloc, husage, _, hexp, _⟩ := mhSetAdditional_fields m' n
  exact {
    format := hformat.trans h.format
    algorithm := halg.trans h.algorithm
    keyType := hkt.trans h.keyType
    usage := by rw [husage]; exact h.usage
    policy := by rw [hpolicy]; exact h.policy
    protection := by rw [hprot]; exact h.protection
    expiration := by rw [hexp]; exact h.expiration
    group0 := by rw [hloc]; exact h.group0
    group3 := by rw [hloc]; exact h.group3
    group4 := by rw [hloc]; exact h.group4
    group5 := by rw [hloc]; exact h.group5 }

theorem tightened_ccAfter (c : Config) (cc : Context) (r : Step) : Tightened cc.mh (ccAfter c cc r).mh := by
  have hstate := tightened_mhSetState cc.mh r.sn
  obtain e | ⟨curve, j, e⟩ :=
    ccSync_cases c { cc with mh := mhSetState cc.mh r.sn, ist := r.ist, exporting := false }
  · rw [ccAfter, e]
    exact hstate
  · rw [ccAfter, e]
    exact tightened_mhSetAdditional hstate _

/-- A group or field that is taken over once keeps a value it has. -/
theorem Merged.keeps {w : Nat} {old new res : BitVec w} (h : Merged old new res) (ho : old ≠ 0) : res = old := by
  obtain ⟨_, h⟩ | ⟨_, h, _⟩ | ⟨_, _, h⟩ := h
  · exact h
  · exact absurd h ho
  · exact h

theorem Merged.keeps_bit {old new res : BitVec 8} {k : Nat}
    (h : Merged (old.extractLsb' k 1) (new.extractLsb' k 1) (res.extractLsb' k 1)) (ho : old.getLsbD k = true) :
    res.getLsbD k = true := by
  have hset : old.extractLsb' k 1 ≠ 0 := fun e => by
    simpa [BitVec.getLsbD_extractLsb', ho] using congrArg (BitVec.getLsbD · 0) e
  rw [(extractLsb'_one_eq_iff old res k).1 (h.keeps hset), ho]

theorem State.restrictHeader_tightened {m op m' : BitVec 64} (h : s.restrictHeader m op = some m') :
    Tightened m m' := by
  obtain ⟨_, ⟨hformat, halg, hkt, _⟩, ⟨hpolicy, hsub, _⟩, ⟨hprot, hle, _⟩, ⟨h0, h3, h4, h5, _⟩, husage, hexp⟩ :=
    (restrictedHeader s m op m').1 h
  refine ⟨hformat, halg, hkt, ?_, by rw [hpolicy, hsub], by rw [hprot]; exact hle, fun hne => ?_, h0.keeps,
    h3.keeps_bit, h4.keeps_bit, h5.keeps⟩
  · rw [husage]
    generalize mhUsage m = a
    generalize mhUsage op = b
    revert a b
    decide
  · obtain ⟨_, h⟩ | ⟨_, h, _⟩ := hexp
    · exact h
    · exact absurd h hne

/-- What holds of a CR after an instruction that leaves it in place. -/
def CR.Tightens (m : BitVec 64) (c : CR) : Prop := ∃ cc', c = .configured cc' ∧ Tightened m cc'.mh

theorem State.tightens_setCR {c : CR} {n k : Fin 32} {m : BitVec 64} (hk : CR.Tightens m (s.getCR k))
    (hc : n = k → CR.Tightens m c) : CR.Tightens m ((s.setCR n c).getCR k) := by
  by_cases e : k = n
  · rw [e, State.getCR_setCR_same]
    exact hc e.symm
  · rwa [State.getCR_setCR_other s e]

theorem State.tightens_invalidate {n k : Fin 32} {cc : Context} (hk : s.getCR k = .configured cc) :
    CR.Tightens cc.mh ((s.invalidate n).getCR k) := by
  rw [State.getCR_invalidate]
  split
  · rename_i e
    subst e
    rw [hk]
    exact ⟨_, rfl, tightened_mhSetState _ _⟩
  · exact ⟨cc, hk, .refl _⟩

theorem State.tightens_applyStep {n k : Fin 32} {cc cc' : Context} (hk : s.getCR k = .configured cc)
    (hn : s.getCR n = .configured cc') (q : BitVec 2) (src dst : Operand) (r : Step) :
    CR.Tightens cc.mh ((s.applyStep n cc' q src dst r).getCR k) := by
  have hsame : n = k → cc' = cc := fun e => by
    subst e
    exact CR.configured.inj (hn.symm.trans hk)
  have hset (new : Context) (htight : Tightened cc'.mh new.mh) :
      CR.Tightens cc.mh ((s.setCR n (.configured new)).getCR k) :=
    State.tightens_setCR ⟨cc, hk, .refl _⟩ fun e => ⟨new, rfl, hsame e ▸ htight⟩
  obtain ⟨code, ho⟩ | ⟨code, ho⟩ := r.outcome_cases
  · rw [State.applyStep_done ho]
    exact hset _ (tightened_ccAfter _ _ _)
  · rw [State.applyStep_invalidate ho hn]
    exact hset _ (tightened_mhSetState _ _)

/-- Every end of an instruction that does not replace the context. -/
theorem Ends.tightens (he : Ends i s t) (hi : i.replaces = false) {k : Fin 32} {cc : Context}
    (hk : s.getCR k = .configured cc) : CR.Tightens cc.mh (t.getCR k) := by
  have same : CR.Tightens cc.mh (s.getCR k) := ⟨cc, hk, .refl _⟩
  have impossible {p : Prop} (h : i.replaces = true) : p := by rw [hi] at h; cases h
  cases he with
  | trap | range | code | nop => exact same
  | sized | errorRead | input | output => rw [State.getCR_congr (s := s) (by simp) k]; exact same
  | releasedTrap _ _ _ h | released _ _ h | loaded _ _ h | cloned _ _ _ h => exact impossible h
  | reset h => exact impossible (by obtain rfl | rfl := h <;> rfl)
  | invalidTrap | invalid => exact State.tightens_invalidate hk
  | restricted n cc' op mh _ hs hmh =>
    refine State.tightens_setCR same fun e => ⟨_, rfl, ?_⟩
    subst e
    cases hs.symm.trans hk
    exact State.restrictHeader_tightened hmh
  | exported n cc' _ _ _ _ _ _ _ hs =>
    rw [State.getCR_congr (State.done_cr _) k]
    refine State.tightens_setCR (by rw [State.getCR_congr (State.writeBytes_cr _ _ _) k]; exact same) fun e => ?_
    subst e
    cases hs.symm.trans hk
    exact ⟨_, rfl, .refl _⟩
  | applied n cc' q src dst r _ _ hs => exact State.tightens_applyStep hk hs q src dst r

/-- Settles O19: by the ends of an instruction; `ace.restrict` tightens the header by its own rule. -/
theorem policiesOnlyTighten : Obligations.PoliciesOnlyTighten := by
  intro i s t n cc h hi hn
  obtain ⟨cc', hcc, ht⟩ := (exec_ends h).tightens hi hn
  exact ⟨cc', hcc, ht.format, ht.algorithm, ht.keyType, ht.usage, ht.policy, ht.protection, ht.expiration, ht.group0,
    ht.group3, ht.group4, ht.group5⟩

end Sys2Proof.Machine

/-! PROOF. What every instruction on a CR checks first: that it is there, the CR it names, the binding, the status
(41_cr_management.md R190 to R192). -/
namespace Sys2Proof.Machine

variable {s t : State} {i : Instr} {ind : Bool} {field : Reg} {w : InstrWord} {n : Fin 32}

/-! ### Instructions an implementation does not have (60_exceptions.md R531 cases 4 and 6) -/

theorem State.importS_absent (h : s.cfg.hasSystemImport = false) (off : Imm12) (base : Reg) :
    s.importS w ind field off base = .error (s.illegal w) := by
  simp [State.importS, h]

theorem State.aceExec_absent (h : s.cfg.hasV = false) {f : Form} (hf : f ≠ .D) (vd vs : Reg) :
    s.aceExec w f ind field vd vs = .error (s.illegal w) := by
  simp [State.aceExec, h, hf]

theorem State.aceState_absent (h : s.cfg.hasV = false) (k : Nat) (r : Reg) :
    s.aceState w .C field k r = .error (s.illegal w) := by
  simp [State.aceState, h]

/-- Settles O35: the test for the instruction precedes all others. -/
theorem absentInstructionTraps : Obligations.AbsentInstructionTraps := by
  intro s i h
  cases i with
  | importSK | importSX => exact congrArg finish (State.importS_absent h _ _)
  | execAK | execAX | execBK | execBX | execCK | execCX =>
    exact congrArg finish (State.aceExec_absent h (by decide) _ _)
  | stateC => exact congrArg finish (State.aceState_absent h _ _)
  | _ => exact h.elim

/-! ### What follows the naming of the CR -/

/-- A single-CR instruction the implementation has names its CR before it does anything else. -/
theorem exec_of_crOperand (hi : i.crOperand = some (ind, field)) (hw : i.wellFormed = true)
    (hp : i.present s.cfg = true) :
    ∃ f : Fin 32 → Except State State, exec i s = finish (s.nameCR (s.word i) ind field >>= f) := by
  have absent {p : Prop} (h : i.crOperand = none) : p := by rw [h] at hi; cases hi
  cases i with
  | aceReset | input | output | aceError | sizeHeader | sizeInternal | sizeIobuf | avail | cloneKK | cloneXK | cloneKX
  | cloneXX => exact absent rfl
  | clearX xd =>
    cases hi
    exact ⟨_, if_neg (of_decide_eq_true hw)⟩
  | importSK | importSX =>
    cases hi
    have hformat : s.cfg.hasSystemImport = true := hp
    exact ⟨_, congrArg finish (if_neg (by simp [hformat]))⟩
  | execAK | execAX | execBK | execBX | execCK | execCX | stateC =>
    cases hi
    have hV : s.cfg.hasV = true := hp
    exact ⟨_, congrArg finish (if_neg (by simp [hV]))⟩
  | execDK | execDX | stateA | stateB =>
    cases hi
    exact ⟨_, congrArg finish (if_neg (by simp))⟩
  | provK | provX | clearK | exportK | exportX | importK | importX | sizeK | sizeX | restrictK | restrictX =>
    cases hi
    exact ⟨_, rfl⟩

/-- `ace.clone` names its source, then its destination, then checks the source against the binding. -/
theorem exec_of_cloneSource (hi : i.cloneSource = some (ind, field)) :
    ∃ (dInd : Bool) (dst : Reg) (f : Fin 32 → Fin 32 → Except State State),
      i.cloneTarget = some (dInd, dst) ∧ exec i s = finish (s.resolve (s.word i) ind field >>= fun n =>
        s.resolve (s.word i) dInd dst >>= fun d => s.checkActive (s.word i) n >>= fun _ => f n d) := by
  cases i with
  | cloneKK | cloneXK | cloneKX | cloneXX =>
    cases hi
    exact ⟨_, _, _, rfl, rfl⟩
  | _ => cases hi

/-! ### A CR operand that names no CR (41_cr_management.md R190) -/

/-- The ends of `resolve` where the operand names no CR. -/
theorem State.resolve_bad (s : State) (w : InstrWord) (ind : Bool) (field : Reg) :
    (ind = true ∧ field = 0 → s.resolve w ind field = .error (s.illegal w)) ∧
    (ind = true ∧ field ≠ 0 ∧ (31 < (s.readX field).toNat ∨ s.cfg.numCR ≤ (s.readX field).toNat) →
      s.resolve w ind field = .error ({ s with aceerror := errUnconfCR }.illegal w)) ∧
    (ind = false ∧ s.cfg.numCR ≤ field.toNat →
      s.resolve w ind field = .error ({ s with aceerror := errUnconfCR }.illegal w)) := by
  refine ⟨fun h => if_pos h, ?_, ?_⟩
  · rintro ⟨rfl, hne, hrange⟩
    have hout : ¬((s.readX field).toNat < 32 ∧ (s.readX field).toNat < s.cfg.numCR) := by omega
    exact (if_neg fun h => hne h.2).trans (dif_neg hout)
  · rintro ⟨rfl, hrange⟩
    have hout : ¬(field.toNat < 32 ∧ field.toNat < s.cfg.numCR) := by omega
    exact (if_neg (by simp)).trans (dif_neg hout)

/-- What `resolve` ends with for an operand is what the instruction ends with. -/
theorem exec_of_resolve_error (hrole : i.crOperand = some (ind, field) ∨ i.cloneSource = some (ind, field) ∨
      (i.cloneTarget = some (ind, field) ∧
        ∃ sInd src n, i.cloneSource = some (sInd, src) ∧ s.Names sInd src n))
    (hw : i.wellFormed = true) (hp : i.present s.cfg = true) (ht : s.resolve (s.word i) ind field = .error t) :
    exec i s = .next t := by
  obtain hi | hi | ⟨hi, sInd, src, n, hsrc, hn⟩ := hrole
  · obtain ⟨f, hf⟩ := exec_of_crOperand (s := s) hi hw hp
    rw [hf, State.nameCR, ht]
    rfl
  · obtain ⟨_, _, f, _, hf⟩ := exec_of_cloneSource (s := s) hi
    rw [hf, ht]
    rfl
  · obtain ⟨dInd, dst, f, hdst, hf⟩ := exec_of_cloneSource (s := s) hsrc
    cases hdst.symm.trans hi
    rw [hf, (s.resolve_ok_iff _ sInd src n).2 hn, bind_ok, ht]
    rfl

/-- Settles O20: `resolve` raises the exception, and the instruction ends with it. -/
theorem badIndexTraps : Obligations.BadIndexTraps := by
  intro i s ind field hrole hw hp
  obtain ⟨hzero, hreg, hdirect⟩ := s.resolve_bad (s.word i) ind field
  exact ⟨fun h => exec_of_resolve_error hrole hw hp (hzero h), fun h => exec_of_resolve_error hrole hw hp (hreg h),
    fun h => exec_of_resolve_error hrole hw hp (hdirect h)⟩

/-! ### A CR that is not the bound one (41_cr_management.md R191) -/

theorem State.checkActive_other (s : State) (w : InstrWord) (hb : s.aceactivecr ≠ 32)
    (hn : s.aceactivecr.toNat ≠ n.val) : s.checkActive w n = .error (s.illegal w) :=
  if_pos ⟨hb, hn⟩

/-- Settles O21: `check_active` raises the exception, after both CRs of `ace.clone` are resolved. -/
theorem unboundCRTraps : Obligations.UnboundCRTraps := by
  intro i s ind field n hrole hw hp hn htarget hb hother
  have hactive := s.checkActive_other (s.word i) hb hother
  have hresolve := (s.resolve_ok_iff (s.word i) ind field n).2 hn
  obtain hi | hi := hrole
  · obtain ⟨f, hf⟩ := exec_of_crOperand (s := s) hi hw hp
    rw [hf, State.nameCR, hresolve, bind_ok, hactive]
    rfl
  · obtain ⟨dInd, dst, f, hdst, hf⟩ := exec_of_cloneSource (s := s) hi
    obtain ⟨d, hd⟩ := htarget dInd dst hdst
    rw [hf, hresolve, bind_ok, (s.resolve_ok_iff _ dInd dst d).2 hd, bind_ok, hactive]
    rfl

/-! ### A CR whose status is wrong (41_cr_management.md R192) -/

theorem inState_eq (mh : BitVec 64) {k : Nat} {sn : BitVec 4} (hk : sn.toNat = k) :
    inState mh k = decide (mhState mh = sn) := by
  simp only [inState, ← hk, BitVec.toNat_inj]

/-- What is wrong with the status of a CR, as `check_status` words it. -/
def State.StatusWrong (s : State) (n : Fin 32) (want : Want) (code : BitVec 4) : Prop :=
  match s.getCR n with
  | .unconfigured => code = 2
  | .configured cc =>
    if want.inv = true ∧ cc.incomplete = false ∧ mhState cc.mh = 14 ∧ s.expired cc = false then code = 4
    else if cc.incomplete then code = 2
    else if want.exp = true ∧ s.expired cc = true then code = 5
    else want.priv = true ∧ s.usageAllowed (mhUsage cc.mh) = false ∧ code = 9

/-- The checks of `check_status` in their order. -/
theorem State.source_of_statusWrong {want : Want} {code : BitVec 4} (h : s.StatusWrong n want code) :
    s.source n want = .error (s.endWith code) := by
  unfold State.StatusWrong at h
  unfold State.source
  cases hc : s.getCR n with
  | unconfigured =>
    rw [hc] at h
    rw [h]
    rfl
  | configured cc =>
    simp only [hc] at h
    have herr : s.statusError want cc = some code := by
      have hstate : inState cc.mh 14 = decide (mhState cc.mh = 14) := inState_eq cc.mh rfl
      simp only [State.statusError, hstate, Bool.and_eq_true, Bool.not_eq_true', decide_eq_true_eq, and_assoc]
      split at h
      next hinvalid => exact (if_pos hinvalid).trans (congrArg some h.symm)
      next hinvalid =>
        rw [if_neg hinvalid]
        split at h
        next hincomplete => exact (if_pos hincomplete).trans (congrArg some h.symm)
        next hincomplete =>
          rw [if_neg hincomplete]
          split at h
          next hexpired => exact (if_pos hexpired).trans (congrArg some h.symm)
          next hexpired =>
            obtain ⟨hpriv, husage, hcode⟩ := h
            exact (if_neg hexpired).trans ((if_pos ⟨hpriv, husage⟩).trans (congrArg some hcode.symm))
    simp only [herr]

section
variable {want : Want} (hn : s.Names ind field n) (hu : s.Unbound n) (hs : s.source n want = .error t)
include hn hu hs

theorem State.aceExec_status (hwant : want = Want.all) {f : Form} (hV : f ≠ .D → s.cfg.hasV = true) (vd vs : Reg) :
    s.aceExec w f ind field vd vs = .error t := by
  subst hwant
  rw [State.aceExec, if_neg fun h => by simp [hV h.1] at h, (s.nameCR_ok_iff w ind field n).2 ⟨hn, hu⟩, bind_ok, hs,
    bind_error]

theorem State.restrict_status (hwant : want = Want.all) {src : Reg}
    (hpair : s.cfg.xlen64 = true ∨ src.toNat % 2 = 0) : s.restrict w ind field src = .error t := by
  subst hwant
  obtain ⟨op, hop⟩ : ∃ op, s.restrictOperand w src = .ok op := by
    unfold State.restrictOperand
    split
    · exact ⟨_, rfl⟩
    · rw [if_neg (by simp_all)]
      split <;> exact ⟨_, rfl⟩
  rw [State.restrict, (s.nameCR_ok_iff w ind field n).2 ⟨hn, hu⟩, bind_ok, hop, bind_ok, hs, bind_error]

theorem State.exportCR_status (hwant : want = ⟨false, false, false⟩) (off : Imm12) (base : Reg) :
    s.exportCR w ind field off base = .error t := by
  subst hwant
  rw [State.exportCR, (s.nameCR_ok_iff w ind field n).2 ⟨hn, hu⟩, bind_ok, hs, bind_error]

theorem State.clone_status (hwant : want = ⟨true, false, false⟩) {dInd : Bool} {dst : Reg}
    (hd : ∃ m, s.Names dInd dst m) : s.clone w dInd dst ind field = .error t := by
  subst hwant
  obtain ⟨m, hm⟩ := hd
  rw [State.clone, (s.resolve_ok_iff w ind field n).2 hn, bind_ok, (s.resolve_ok_iff w dInd dst m).2 hm, bind_ok,
    (s.checkActive_ok_iff w n).2 hu, bind_ok, hs, bind_error]

end

theorem State.aceState_status (hn : s.Names false field n) (hu : s.Unbound n) {imm : BitVec 7}
    (hs : s.source n ⟨decide (imm ≠ 0), true, true⟩ = .error t) {f : Form} (hV : f = .C → s.cfg.hasV = true) (r : Reg) :
    s.aceState w f field imm.toNat r = .error t := by
  have hwant : ({ Want.all with inv := imm.toNat ≠ 0 } : Want) = ⟨decide (imm ≠ 0), true, true⟩ := by
    simp [Want.all, ← BitVec.toNat_inj]
  rw [State.aceState, if_neg fun h => by simp [hV h.1] at h, (s.nameCR_ok_iff w false field n).2 ⟨hn, hu⟩, bind_ok,
    hwant, hs, bind_error]

/-- A transfer while CR `n` is bound (42_exec_state_io.md R264, R265). -/
theorem State.checkBound_status (hb : s.aceactivecr.toNat = n.val) (hn : n.val < s.cfg.numCR)
    (hs : s.source n Want.all = .error t) (allowed : Context → Bool) : s.checkBound w allowed = .error t := by
  have hne : s.aceactivecr ≠ 32 := fun h => by
    rw [h] at hb
    exact absurd hb.symm (Nat.ne_of_lt n.isLt)
  have hcr : (⟨s.aceactivecr.toNat, hb ▸ n.isLt⟩ : Fin 32) = n := Fin.ext hb
  rw [State.checkBound, if_neg hne, dif_pos ⟨hb ▸ n.isLt, hb ▸ hn⟩, hcr, hs, bind_error]

/-- Settles O22: the status error ends the instruction right where it checks the CR it names. -/
theorem statusErrors : Obligations.StatusErrors := by
  intro i s n want code hp hu hi hwrong
  have hs : s.source n want = .error (s.endWith code) := State.source_of_statusWrong hwrong
  have hend {r : Except State State} (h : r = .error (s.endWith code)) : finish r = .next (s.endWith code) :=
    congrArg finish h
  cases i with
  | execAK | execAX | execBK | execBX | execCK | execCX =>
    obtain ⟨hn, hwant⟩ := hi
    exact hend (State.aceExec_status hn hu hs hwant (fun _ => hp) _ _)
  | execDK | execDX =>
    obtain ⟨hn, hwant⟩ := hi
    exact hend (State.aceExec_status hn hu hs hwant (absurd rfl) _ _)
  | stateA | stateB =>
    obtain ⟨hn, rfl⟩ := hi
    exact hend (State.aceState_status hn hu hs (by nofun) _)
  | stateC =>
    obtain ⟨hn, rfl⟩ := hi
    exact hend (State.aceState_status hn hu hs (fun _ => hp) _)
  | restrictK | restrictX =>
    obtain ⟨hn, hpair, hwant⟩ := hi
    exact hend (State.restrict_status hn hu hs hwant hpair)
  | exportK | exportX =>
    obtain ⟨hn, hwant⟩ := hi
    exact hend (State.exportCR_status hn hu hs hwant _ _)
  | cloneKK | cloneXK | cloneKX | cloneXX =>
    obtain ⟨hn, hd, hwant⟩ := hi
    exact hend (State.clone_status hn hu hs hwant hd)
  | input =>
    obtain ⟨hb, hn, hlen, rfl⟩ := hi
    exact (if_neg hlen).trans (hend (by rw [State.aceInput, State.checkBound_status hb hn hs, bind_error]))
  | output =>
    obtain ⟨hb, hn, hlen, rfl⟩ := hi
    exact (if_neg hlen).trans (hend (by rw [State.aceOutput, State.checkBound_status hb hn hs, bind_error]))
  | _ => exact hi.elim

end Sys2Proof.Machine

/-! PROOF. `ace.clear`, `ace.reset` and `ace.prov` (41_cr_management.md R197 to R200). -/
namespace Sys2Proof.Machine

variable {s t : State} {ind : Bool} {field base : Reg} {off : Imm12} {n : Fin 32} {w : InstrWord}

/-! ### Common steps that succeed -/

theorem bind_eq_of_ok {σ α β : Type} {x : Except σ α} {a : α} (h : x = .ok a) (f : α → Except σ β) :
    (x >>= f) = f a := by
  rw [h, bind_ok]

theorem State.nameCR_bind {α : Type} (hn : s.Names ind field n) (hu : s.Unbound n) (w : InstrWord)
    (f : Fin 32 → Except State α) : (s.nameCR w ind field >>= f) = f n :=
  bind_eq_of_ok ((s.nameCR_ok_iff w ind field n).2 ⟨hn, hu⟩) f

theorem State.checkAligned_bind {α : Type} {ea : Word} (h : ea.toNat % 8 = 0) (s : State) (c : Cause)
    (f : Unit → Except State α) : (s.checkAligned c ea >>= f) = f () :=
  bind_eq_of_ok ((s.checkAligned_ok_iff c ea).2 h) f

/-! ### `ace.clear` and `ace.reset` -/

theorem State.Names.ne_zero (h : s.Names true field n) : field ≠ 0 := h.1.1

theorem exec_clear (hn : s.Names ind field n) :
    exec (if ind then .clearX field else .clearK field) s =
      finish (s.clear (s.word (if ind then .clearX field else .clearK field)) ind field) := by
  cases ind with
  | false => rfl
  | true => exact if_neg hn.ne_zero

/-- Settles O24: the CR named is released, and nothing else is done. -/
theorem clearCompletes : Obligations.ClearCompletes := by
  intro s ind field n hn hu
  rw [exec_clear hn, State.clear, State.nameCR_bind hn hu]
  rfl

/-- Settles O25: both words run the same operation, and a buffer of no bytes is an unconfigured one. -/
theorem resetCompletes : Obligations.ResetCompletes := by
  rintro s i (rfl | rfl)
  · rfl
  · rfl

/-! ### What the release of a CR leaves as it is

`(rfl)` keeps `simp` from using these by definition, where the kernel would compare the ciphers. -/

@[simp] theorem State.readBytes_release (s : State) (n : Fin 32) (a k : Nat) :
    (s.release n).readBytes a k = s.readBytes a k := State.readBytes_congr (s := s) (t := s.release n) rfl rfl a k

theorem State.load_release_bind {α : Type} {a k : Nat} (h : s.Accessible false a k) (n : Fin 32)
    (f : List Byte → Except State α) : ((s.release n).load a k >>= f) = f (s.readBytes a k) :=
  bind_eq_of_ok (((s.release n).load_ok_iff a k _).2
    ⟨State.accessible_congr (s := s) (t := s.release n) rfl rfl h, (s.readBytes_release n a k).symm⟩) f

@[simp] theorem State.provisionAlg_release (s : State) (n : Fin 32) (d : AlgDef) (mh : BitVec 64) (c : List Byte) :
    (s.release n).provisionAlg d mh c = s.provisionAlg d mh c := (rfl)

@[simp] theorem State.deserialize_release (s : State) (n : Fin 32) (d : AlgDef) (mh : BitVec 64) (c : List Byte) :
    (s.release n).deserialize d mh c = s.deserialize d mh c := (rfl)

@[simp] theorem State.unseal_release (s : State) (n : Fin 32) (mh : BitVec 64) (siv : Nat) (ct : List Byte) :
    (s.release n).unseal mh siv ct = s.unseal mh siv ct := (rfl)

/-- A context put into a CR that was released is all that is left of the release. -/
theorem State.release_setCR_done (s : State) (n : Fin 32) (c : CR) :
    ((s.release n).setCR n c).done =
      { s with cr := s.cr.set n.val c n.isLt, aceerror := 0, acestart := 0, pc := addX s.cfg s.pc 4 } := by
  have hcr : ((s.release n).setCR n c).cr = s.cr.set n.val c n.isLt := Vector.set_set ..
  show { ((s.release n).setCR n c).done with cr := ((s.release n).setCR n c).cr } = _
  rw [hcr]
  rfl

/-- The end of an instruction that reads a context into a CR, once its algorithm has looked at the content: the context,
or error 8 for a content it does not accept (41_cr_management.md R198, R210). -/
def State.fill (s : State) (n : Fin 32) : Option Context → Except State State
  | none => .error ((s.release n).endWith 8)
  | some cc => .ok ((s.release n).setCR n (.configured cc)).done

theorem finish_fill_none (s : State) (n : Fin 32) :
    finish (s.fill n none) = .next { s with
      cr := s.cr.set n.val .unconfigured n.isLt, aceerror := 8, acestart := 0, pc := addX s.cfg s.pc 4 } := rfl

theorem finish_fill_some (s : State) (n : Fin 32) (cc : Context) :
    finish (s.fill n (some cc)) = .next { s with
      cr := s.cr.set n.val (.configured cc) n.isLt, aceerror := 0, acestart := 0, pc := addX s.cfg s.pc 4 } :=
  congrArg Host.Outcome.next (s.release_setCR_done n _)

/-! ### The header of a Provisioning Input or an SCC (41_cr_management.md R196) -/

theorem State.badHeader_iff (s : State) (pi : Bool) (mh : BitVec 64) :
    s.badHeader pi mh = true ↔ mhFormat mh = 1 ∨ s.localityOk (mhLocality mh) = false ∨
      (pi = true ∧ mhState mh ≠ 0) ∨ (pi = true ∧ mhAdditional mh ≠ 0) := by
  simp [State.badHeader, or_assoc]

theorem State.checkMetadata_bad {pi : Bool} {mh : BitVec 64} (h : s.badHeader pi mh = true) :
    s.checkMetadata pi mh = .error (s.endWith 8) := if_pos h

/-- A supported header has an algorithm (00_scope.md R11). -/
theorem algEntry_of_supported {c : Config} {mh : BitVec 64} (h : supportedHeader c mh = true) :
    ∃ e, algEntry c mh = some e := by
  unfold supportedHeader supported at h
  unfold algEntry
  split at h
  · exact ⟨_, ‹_›⟩
  · cases h

section
variable {pi : Bool} {mh : BitVec 64} (hgood : s.badHeader pi mh = false)
include hgood

theorem State.checkMetadata_unsupported (h : supportedHeader s.cfg mh = false) :
    s.checkMetadata pi mh = .error (s.endWith 7) := by
  rw [State.checkMetadata, if_neg (by simp [hgood]), if_pos (by simp [h])]
  rfl

theorem State.checkMetadata_too_big (hs : supportedHeader s.cfg mh = true)
    (hcap : s.cfg.crfCapacity < s.crfUsed + crCost s.cfg mh) : s.checkMetadata pi mh = .error (s.endWith 6) := by
  obtain ⟨e, he⟩ := algEntry_of_supported hs
  simp only [State.checkMetadata, hgood, hs, he, State.checkCapacity, if_pos hcap, Bool.not_true, Bool.false_eq_true,
    if_false, bind_error]
  rfl

end

theorem State.accepts_of_checks {pi : Bool} {mh : BitVec 64} {e : AlgEntry} (hgood : s.badHeader pi mh = false)
    (hs : supportedHeader s.cfg mh = true) (he : algEntry s.cfg mh = some e)
    (hcap : ¬ s.cfg.crfCapacity < (s.release n).crfUsed + crCost s.cfg mh) : s.Accepts n pi mh e := by
  have hgood := mt (s.badHeader_iff pi mh).2 (by simp [hgood])
  simp only [not_or, not_and, Decidable.not_not, Bool.not_eq_false] at hgood
  obtain ⟨hformat, hloc, hstate, hadd⟩ := hgood
  refine ⟨?_, hloc, fun hpi => ⟨hstate hpi, hadd hpi⟩, hs, he, Nat.le_of_not_lt hcap⟩
  generalize mhFormat mh = f at hformat ⊢
  revert f
  decide

/-- An accepted Provisioning Input has _StateNumber_ 0. -/
theorem State.Accepts.initial {mh : BitVec 64} {e : AlgEntry} (h : s.Accepts n true mh e) : mhState mh = 0 := by
  obtain ⟨_, _, hpi, _⟩ := h
  exact (hpi rfl).1

theorem State.Accepts.entry {pi : Bool} {mh : BitVec 64} {e : AlgEntry} (h : s.Accepts n pi mh e) :
    algEntry s.cfg mh = some e := by
  obtain ⟨_, _, _, _, he, _⟩ := h
  exact he

/-- The checks of a header for CR `n` in their order: it is refused with the code of the first that fails, or accepted.
`bad` says in other words when the header is an invalid value, `Q` is what else is known of one that is accepted. -/
theorem State.header_cases {pi : Bool} {mh : BitVec 64} {bad : Prop} [Decidable bad]
    (hbad : s.badHeader pi mh = true ↔ bad) {code : BitVec 4} {Q : Prop}
    (h : if bad then code = 8
      else if supportedHeader s.cfg mh = false then code = 7
      else if s.cfg.crfCapacity < (s.release n).crfUsed + crCost s.cfg mh then code = 6
      else Q) :
    (s.release n).checkMetadata pi mh = .error ((s.release n).endWith code) ∨
      ((∀ e, algEntry s.cfg mh = some e → s.Accepts n pi mh e) ∧ Q) := by
  split at h
  case isTrue hb =>
    rw [h]
    exact .inl (State.checkMetadata_bad (s := s.release n) (hbad.2 hb))
  case isFalse hb =>
    have hgood : s.badHeader pi mh = false := Bool.eq_false_iff.2 (mt hbad.1 hb)
    split at h
    case isTrue hs =>
      rw [h]
      exact .inl (State.checkMetadata_unsupported (s := s.release n) hgood hs)
    case isFalse hs =>
      have hs : supportedHeader s.cfg mh = true := eq_true_of_ne_false hs
      split at h
      case isTrue hcap =>
        rw [h]
        exact .inl (State.checkMetadata_too_big (s := s.release n) hgood hs hcap)
      case isFalse hcap => exact .inr ⟨fun e he => State.accepts_of_checks hgood hs he hcap, h⟩

/-! ### The ends of `ace.prov` (41_cr_management.md R197, R198) -/

section
variable {ea : Nat} {mh : BitVec 64} {e : AlgEntry} (hn : s.Names ind field n) (hu : s.Unbound n)
  (hea : ea = (s.effAddr base off).toNat) (hal : ea % 8 = 0) (hhead : s.Accessible false ea 8)
  (hmh : mh = BitVec.ofNat 64 (leNat (s.readBytes ea 8)))
include hn hu hea hal hhead hmh

theorem State.prov_refused (hr : (s.release n).checkMetadata true mh = .error t) :
    s.prov w ind field off base = .error t := by
  subst hea hmh
  simp only [State.prov, State.provLoad, State.nameCR_bind hn hu, State.checkAligned_bind hal,
    State.load_release_bind hhead, hr, bind_error]

variable (ha : s.Accepts n true mh e) (hrest : s.Accessible false (ea + 8) (piContentSize e.algDef (mhKeyType mh)))
include ha hrest

theorem State.prov_accepted :
    s.prov w ind field off base = s.fill n (s.provisionAlg e.algDef mh
      (s.readBytes (ea + 8) (piContentSize e.algDef (mhKeyType mh)))) := by
  subst hea hmh
  simp only [State.prov, State.provLoad, State.nameCR_bind hn hu, State.checkAligned_bind hal,
    State.load_release_bind hhead, bind_eq_of_ok (State.checkMetadata_of_accepts ha), State.load_release_bind hrest,
    State.provisionAlg_release, State.fill]
  generalize s.provisionAlg _ _ _ = o
  cases o <;> rfl

end

/-- Settles O26: the header is accepted and the algorithm accepts the content. -/
theorem provisionCompletes : Obligations.ProvisionCompletes := by
  intro s ind field n off base ea mh e cc hn hu hea hal hhead hmh ha hrest hc
  rw [exec_prov, State.prov_accepted hn hu hea hal hhead hmh ha hrest, hc]
  exact finish_fill_some s n cc

theorem mhSetState_of_state {mh : BitVec 64} {sn : BitVec 4} (h : mhState mh = sn) : mhSetState mh sn = mh := by
  rw [← h, mhSetState_self]

theorem State.take_readBytes (s : State) (a n k : Nat) : (s.readBytes a n).take k = s.readBytes a (min k n) := by
  induction n generalizing a k with
  | zero => rw [Nat.min_zero]; exact List.take_nil
  | succ n ih =>
    cases k with
    | zero => rw [Nat.zero_min]; rfl
    | succ k =>
      rw [Nat.succ_min_succ]
      exact congrArg _ (ih (a + 1) k)

theorem le_roundUp8 (n : Nat) : n ≤ roundUp8 n := by
  unfold roundUp8
  omega

/-- The Internal State ECB takes from a Provisioning Input with its own key (44_alg_block_modes.md R326). -/
theorem State.provisionAlg_ecb (s : State) {c : Cipher} {mh : BitVec 64} (hkt : mhKeyType mh = false)
    (hst : mhState mh = 0) (a : Nat) :
    s.provisionAlg (.ecb c) mh (s.readBytes a (piContentSize (.ecb c) false)) = some
      { mh := mh, keyIndex := 0, ist := .ecb (leNat (s.readBytes a (c.keyBits / 8))), ad := [], exporting := false,
        savedSN := 0, incomplete := false } := by
  have hsize : c.keyBits / 8 ≤ piContentSize (.ecb c) false := le_roundUp8 _
  have hmh : mhSetState mh snInitial = mh := mhSetState_of_state hst
  simp [State.provisionAlg, State.resolveKeys, keyBytes, keyWidths, hkt, parseFields, initProv, nth, hmh,
    State.take_readBytes, Nat.min_eq_left hsize]

/-- Settles O27: `ace.prov` completes, and the algorithm takes the key as it stands in the input. -/
theorem provisionTakesEcbKey : Obligations.ProvisionTakesEcbKey := by
  intro s ind field n off base ea mh e c hn hu hea hal hhead hmh ha he hkt hrest
  have hst := ha.initial
  rw [he] at hrest
  rw [exec_prov, State.prov_accepted hn hu hea hal hhead hmh ha (by rwa [he, hkt]), he, hkt,
    s.provisionAlg_ecb hkt hst]
  refine ⟨_, finish_fill_some s n _, s.getCR_setCR_same n _, rfl, fun m hm => s.getCR_setCR_other hm _⟩

/-! ### The errors of `ace.prov` -/

theorem sktFind_eq_none {skt : List (BitVec 64 × List Byte)} {index : BitVec 64} (h : ∀ m, (index, m) ∉ skt) :
    sktFind skt index = none := by
  induction skt with
  | nil => rfl
  | cons k skt ih =>
    have hk : k.1 ≠ index := fun e => h k.2 (by rw [← e]; exact List.mem_cons_self ..)
    exact (if_neg hk).trans (ih fun m hm => h m (List.mem_cons_of_mem _ hm))

/-- A System Key index without an entry (10_state.md R45, R68). -/
theorem State.provisionAlg_no_entry (s : State) {d : AlgDef} {mh : BitVec 64} (hd : keyWidths d ≠ [])
    (hkt : mhKeyType mh = true) {a : Nat} (h : ∀ m, (BitVec.ofNat 64 (leNat (s.readBytes a 8)), m) ∉ s.skt) :
    s.provisionAlg d mh (s.readBytes a (piContentSize d true)) = none := by
  have hbytes : keyBytes d true = 8 := by simp [keyBytes, hd]
  have hsize : 8 ≤ piContentSize d true := by
    have := le_roundUp8 (keyBytes d true + (piExtraWidths d).sum)
    unfold piContentSize
    omega
  simp [State.provisionAlg, State.resolveKeys, hd, hkt, hbytes, State.take_readBytes, Nat.min_eq_left hsize,
    sktFind_eq_none h]

/-- Settles O28: the header is refused for the first reason that applies, or the algorithm finds no key. -/
theorem provisionErrors : Obligations.ProvisionErrors := by
  intro s ind field n off base ea mh code hn hu hea hal hhead hmh hcode
  rw [exec_prov]
  obtain hr | ⟨haccepts, e, he, hkeys, hkt, hrest, hnone, rfl⟩ :=
    State.header_cases (by simpa using s.badHeader_iff true mh) hcode
  · rw [State.prov_refused hn hu hea hal hhead hmh hr]
    rfl
  · rw [State.prov_accepted hn hu hea hal hhead hmh (haccepts e he) (by rwa [hkt]), hkt,
      s.provisionAlg_no_entry hkeys hkt hnone]
    rfl

end Sys2Proof.Machine

/-! PROOF. Bytes that are stored and loaded again, and a content that is encrypted and decrypted (43_sealing.md R295 to
R299). -/
namespace Sys2Proof.Machine

/-! ### Bytes in memory -/

theorem State.readBytes_append (s : State) (a n k : Nat) :
    s.readBytes a (n + k) = s.readBytes a n ++ s.readBytes (a + n) k := by
  induction n generalizing a with
  | zero => rw [Nat.zero_add]; rfl
  | succ n ih =>
    rw [Nat.succ_add, State.readBytes, State.readBytes, ih, List.cons_append, (by omega : a + 1 + n = a + (n + 1))]

theorem State.writeBytes_eq (s : State) (a : Nat) (bs : List Byte) :
    s.writeBytes a bs = { s with mem := (s.writeBytes a bs).mem } := by
  apply State.ext <;> simp

/-- Addresses fewer than `m` apart are different modulo `m`. -/
theorem mod_ne_mod_add (a : Nat) {k m : Nat} (h0 : 0 < k) (hk : k < m) : a % m ≠ (a + k) % m := by
  intro h
  have hdiff := Nat.sub_mod_eq_zero_of_mod_eq h.symm
  rw [Nat.add_sub_cancel_left, Nat.mod_eq_of_lt hk] at hdiff
  omega

/-- Bytes stored are read back, when they do not wrap around onto themselves (20_memory.md R91, R95). -/
theorem State.readBytes_writeBytes {s : State} (hm : s.MemInv) (a : Nat) {bs : List Byte}
    (hlen : bs.length ≤ 2 ^ s.cfg.xlen) : (s.writeBytes a bs).readBytes a bs.length = bs := by
  induction bs generalizing s a with
  | nil => rfl
  | cons b bs ih =>
    have hlen' : bs.length < 2 ^ s.cfg.xlen := hlen
    rw [State.writeBytes, List.length_cons, State.readBytes, State.writeBytes_cfg]
    congr 1
    · rw [State.writeBytes_outside _ (a + 1) bs _ fun k hk => ?_]
      · exact Memory.read_write_same hm _ b
      · rw [Nat.add_assoc]
        exact mod_ne_mod_add a (by omega) (Nat.lt_of_le_of_lt (by omega : 1 + k ≤ bs.length) hlen')
    · exact ih (s := { s with mem := Memory.write s.mem (byteAddr s.cfg a) b }) (Memory.write_wf hm _ b) (a + 1)
        (Nat.le_of_lt hlen')

/-! ### Encryption (43_sealing.md R295, R296) -/

theorem natLE_mod (n v : Nat) : natLE n (v % 256 ^ n) = natLE n v := by
  rw [← leNat_natLE]
  simpa using natLE_leNat (natLE n v)

/-- Adding the keystream twice to a block gives the block back. -/
theorem natLE_xor_xor (blk : List Byte) (key : Nat) :
    natLE blk.length (leNat (natLE blk.length (leNat blk ^^^ key)) ^^^ key) = blk := by
  have hpow : 256 ^ blk.length = 2 ^ (8 * blk.length) := by rw [Nat.pow_mul]
  rw [← natLE_mod, leNat_natLE, hpow, Nat.xor_mod_two_pow, Nat.mod_mod, ← Nat.xor_mod_two_pow, Nat.xor_assoc,
    Nat.xor_self, Nat.xor_zero, ← hpow, natLE_mod, natLE_leNat]

/-- The stream of a byte string is that of its first block and that of the rest. -/
theorem sealStream_chunks_cons (key siv i fuel : Nat) {bs : List Byte} (h : bs ≠ []) :
    sealStream key siv i (chunks 16 (fuel + 1) bs) =
      natLE (bs.take 16).length (leNat (bs.take 16) ^^^ sealKeystream key siv i) ++
        sealStream key siv (i + 1) (chunks 16 fuel (bs.drop 16)) := by
  cases bs with
  | nil => exact absurd rfl h
  | cons b bs => rfl

theorem sealStream_chunks_length (key siv i : Nat) {fuel : Nat} {bs : List Byte} (h : bs.length ≤ fuel) :
    (sealStream key siv i (chunks 16 fuel bs)).length = bs.length := by
  rw [sealStream_length, chunks_flatten_length 16 (by omega) fuel bs h]

/-- Byte strings as long as the first 16 bytes and the rest of another one meet at the same place. -/
theorem take_drop_of_lengths {bs first tail : List Byte} (hfirst : first.length = (bs.take 16).length)
    (htail : tail.length = (bs.drop 16).length) :
    (first ++ tail).take 16 = first ∧ (first ++ tail).drop 16 = tail := by
  rw [List.length_take] at hfirst
  rw [List.length_drop] at htail
  by_cases hlong : 16 ≤ bs.length
  · exact ⟨List.take_left' (by omega), List.drop_left' (by omega)⟩
  · rw [List.eq_nil_of_length_eq_zero (l := tail) (by omega), List.append_nil]
    exact ⟨List.take_of_length_le (by omega), List.drop_of_length_le (by omega)⟩

/-- The stream of a stream is the byte string: the blocks fall at the same places both times. -/
theorem sealStream_sealStream (key siv i : Nat) {fuel : Nat} {bs : List Byte} (h : bs.length ≤ fuel) :
    sealStream key siv i (chunks 16 fuel (sealStream key siv i (chunks 16 fuel bs))) = bs := by
  induction fuel generalizing i bs with
  | zero => rw [List.eq_nil_of_length_eq_zero (Nat.le_zero.1 h)]; rfl
  | succ fuel ih =>
    by_cases hnil : bs = []
    · rw [hnil]; rfl
    have hpos : 0 < bs.length := List.length_pos_iff.2 hnil
    have hrest : (bs.drop 16).length ≤ fuel := by rw [List.length_drop]; omega
    have hstream : sealStream key siv i (chunks 16 (fuel + 1) bs) ≠ [] := fun e => by
      have hlen := sealStream_chunks_length key siv i h
      rw [e] at hlen
      exact absurd hlen.symm (Nat.ne_of_gt hpos)
    obtain ⟨htake, hdrop⟩ := take_drop_of_lengths (bs := bs)
      (natLE_length (bs.take 16).length (leNat (bs.take 16) ^^^ sealKeystream key siv i))
      (sealStream_chunks_length key siv (i + 1) hrest)
    rw [sealStream_chunks_cons _ _ _ _ hstream, sealStream_chunks_cons _ _ _ _ hnil, htake, hdrop, natLE_length,
      natLE_xor_xor, ih (i + 1) hrest, List.take_append_drop]

theorem State.sealCrypt_sealCrypt (s : State) (siv : Nat) (content : List Byte) :
    s.sealCrypt siv (s.sealCrypt siv content) = content := by
  have hlen := s.sealCrypt_length siv content
  unfold State.sealCrypt at hlen ⊢
  rw [hlen]
  exact sealStream_sealStream _ _ _ (Nat.le_refl _)

/-- What was encrypted under its own tag authenticates (43_sealing.md R299). -/
theorem State.unseal_sealCrypt (s : State) (mh : BitVec 64) (content : List Byte) :
    s.unseal mh (s.sealTag mh content) (s.sealCrypt (s.sealTag mh content) content) = some content := by
  rw [State.unseal, s.sealCrypt_sealCrypt]
  exact if_pos rfl

end Sys2Proof.Machine

/-! PROOF. `ace.export`, `ace.import` and `ace.import.S` (41_cr_management.md R205 to R211). -/
namespace Sys2Proof.Machine

variable {s t : State} {ind : Bool} {field base : Reg} {off : Imm12} {n : Fin 32} {w : InstrWord}

/-! ### `ace.export` -/

section
variable {ea : Nat} {cc : Context} {e : AlgEntry} (hn : s.Names ind field n) (hu : s.Unbound n)
  (hc : s.getCR n = .configured cc) (hi : cc.incomplete = false) (he : algEntry s.cfg cc.mh = some e)
  (hea : ea = (s.effAddr base off).toNat) (hal : ea % 8 = 0)
  (hst : s.Accessible true ea (s.sealContext e.algDef cc).length)
include hn hu hc hi he hea hal hst

theorem State.exportCR_done : s.exportCR w ind field off base =
    .ok ((s.writeBytes ea (s.sealContext e.algDef cc)).setCR n (.configured { cc with exporting := false })).done := by
  subst hea
  simp only [State.exportCR, State.nameCR_bind hn hu, bind_eq_of_ok (State.source_of_complete hc hi),
    State.checkAligned_bind hal, he, bind_eq_of_ok ((s.store_ok_iff _ _ _).2 ⟨hst, rfl⟩), pure_eq]

end

/-- Settles O29: the store succeeds, writes these bytes and no others, and the CR loses the mark of an export. -/
theorem exportCompletes : Obligations.ExportCompletes := by
  intro s ind field n off base cc e ea scc hm hn hu hc hi he hea hal hscc hlen hst
  subst hscc
  refine ⟨_, by rw [exec_export, State.exportCR_done hn hu hc hi he hea hal hst]; rfl, ?_, fun a hout => ?_, ?_⟩
  · rw [State.readBytes_congr (s := s.writeBytes ea (s.sealContext e.algDef cc)) (by simp) (by simp)]
    exact State.readBytes_writeBytes hm ea hlen
  · simpa using s.writeBytes_outside ea _ a hout
  · rw [s.writeBytes_eq]
    rfl

/-! ### `ace.import` -/

theorem State.importCR_of_named (hn : s.Names ind field n) (hu : s.Unbound n)
    (hal : (s.effAddr base off).toNat % 8 = 0) :
    s.importCR w ind field off base = (s.release n).importLoad n (s.effAddr base off).toNat := by
  simp only [State.importCR, State.nameCR_bind hn hu, State.checkAligned_bind hal]

section
variable {ea : Nat} {mh : BitVec 64} {e : AlgEntry} (hn : s.Names ind field n) (hu : s.Unbound n)
  (hea : ea = (s.effAddr base off).toNat) (hal : ea % 8 = 0) (hhead : s.Accessible false ea 8)
  (hmh : mh = BitVec.ofNat 64 (leNat (s.readBytes ea 8)))
include hn hu hea hal hhead hmh

theorem State.importCR_refused (hr : (s.release n).checkMetadata false mh = .error t) :
    s.importCR w ind field off base = .error t := by
  subst hea hmh
  simp only [State.importCR_of_named hn hu hal, State.importLoad, State.load_release_bind hhead, hr, bind_error]

variable (ha : s.Accepts n false mh e) (hsiv : s.Accessible false (ea + 8) 16)
  (hct : s.Accessible false (ea + 24) (contentSize e.algDef mh))
include ha hsiv hct

theorem State.importCR_forged (hf : s.unseal mh (leNat (s.readBytes (ea + 8) 16))
      (s.readBytes (ea + 24) (contentSize e.algDef mh)) = none) :
    s.importCR w ind field off base = .error ((s.release n).endWith 1) := by
  subst hea hmh
  simp only [State.importCR_of_named hn hu hal, State.importLoad, State.load_release_bind hhead,
    bind_eq_of_ok (State.checkMetadata_of_accepts ha), State.load_release_bind hsiv, State.load_release_bind hct,
    State.unseal_release, hf]
  rfl

theorem State.importCR_unsealed {content : List Byte} (hf : s.unseal mh (leNat (s.readBytes (ea + 8) 16))
      (s.readBytes (ea + 24) (contentSize e.algDef mh)) = some content) :
    s.importCR w ind field off base = s.fill n (s.deserialize e.algDef mh content) := by
  subst hea hmh
  simp only [State.importCR_of_named hn hu hal, State.importLoad, State.load_release_bind hhead,
    bind_eq_of_ok (State.checkMetadata_of_accepts ha), State.load_release_bind hsiv, State.load_release_bind hct,
    State.unseal_release, hf, State.deserialize_release]
  generalize s.deserialize _ _ _ = o
  cases o <;> rfl

end

/-- Settles O30: the header is accepted, the content authenticates and the algorithm accepts it. -/
theorem importCompletes : Obligations.ImportCompletes := by
  intro s ind field n off base ea mh e content cc hn hu hea hal hhead hmh ha hsiv hct hf hc
  rw [exec_import, State.importCR_unsealed hn hu hea hal hhead hmh ha hsiv hct hf, hc]
  exact finish_fill_some s n cc

/-- Settles O31: the header is refused for the first reason that applies, or the content does not authenticate, or the
algorithm does not accept it. -/
theorem importErrors : Obligations.ImportErrors := by
  intro s ind field n off base ea mh code hn hu hea hal hhead hmh hcode
  rw [exec_import]
  obtain hr | ⟨haccepts, e, he, hsiv, hct, hcontent⟩ :=
    State.header_cases (by simpa using s.badHeader_iff false mh) hcode
  · rw [State.importCR_refused hn hu hea hal hhead hmh hr]
    rfl
  · split at hcontent
    case h_1 hf =>
      rw [State.importCR_forged hn hu hea hal hhead hmh (haccepts e he) hsiv hct hf, hcontent]
      rfl
    case h_2 content hf =>
      obtain ⟨hnone, rfl⟩ := hcontent
      rw [State.importCR_unsealed hn hu hea hal hhead hmh (haccepts e he) hsiv hct hf, hnone]
      rfl

/-! ### `ace.import.S` -/

/-- The header of a system-defined context, with key type 0 (41_cr_management.md R211). -/
theorem ownKey_fields (h : BitVec 64) :
    mhFormat (setField h 16 (0 : BitVec 1)) = mhFormat h ∧ mhLocality (setField h 16 (0 : BitVec 1)) = mhLocality h ∧
      mhKeyType (setField h 16 (0 : BitVec 1)) = false := by
  refine ⟨extract_setField_other _ _ _ _ _ (by omega) (by omega),
    extract_setField_other _ _ _ _ _ (by omega) (by omega), ?_⟩
  unfold mhKeyType
  rw [getLsbD_setField _ _ _ _ (by omega)]
  rfl

theorem State.importS_of_named (hS : s.cfg.hasSystemImport = true) (hn : s.Names ind field n) (hu : s.Unbound n)
    (hal : (s.effAddr base off).toNat % 8 = 0) :
    s.importS w ind field off base = (s.release n).systemLoad n (s.effAddr base off) := by
  simp only [State.importS, hS, Bool.not_true, Bool.false_eq_true, if_false, State.nameCR_bind hn hu,
    State.checkAligned_bind hal]

section
variable {ea : Word} (hS : s.cfg.hasSystemImport = true) (hn : s.Names ind field n) (hu : s.Unbound n)
  (hea : ea = s.effAddr base off) (hal : ea.toNat % 8 = 0)
  (hld : s.Accessible false ea.toNat (Config.systemImport s.mem ea).1)
include hS hn hu hea hal hld

theorem State.importS_error {x : Fin 10} (hans : (Config.systemImport s.mem ea).2 = .error x) :
    s.importS w ind field off base = .error ((s.release n).endWith (BitVec.ofNat 4 (x.val + 1))) := by
  subst hea
  simp only [State.importS_of_named hS hn hu hal, State.systemLoad, State.release_mem, State.load_release_bind hld,
    hans]

variable {h : BitVec 64} {content : List Byte} (hans : (Config.systemImport s.mem ea).2 = .context h content)
include hans

theorem State.importS_refused (hr : (s.release n).checkMetadata false (setField h 16 (0 : BitVec 1)) = .error t) :
    s.importS w ind field off base = .error t := by
  subst hea
  simp only [State.importS_of_named hS hn hu hal, State.systemLoad, State.release_mem, State.load_release_bind hld,
    hans, hr, bind_error]

theorem State.importS_accepted {e : AlgEntry} {size : Nat} (ha : s.Accepts n false (setField h 16 (0 : BitVec 1)) e)
    (hsize : size = contentSize e.algDef (setField h 16 (0 : BitVec 1))) :
    s.importS w ind field off base =
      s.fill n (s.deserialize e.algDef (setField h 16 (0 : BitVec 1)) (padBytes size (content.take size))) := by
  subst hea hsize
  simp only [State.importS_of_named hS hn hu hal, State.systemLoad, State.release_mem, State.load_release_bind hld,
    hans, bind_eq_of_ok (State.checkMetadata_of_accepts ha), State.deserialize_release]
  generalize s.deserialize _ _ _ = o
  cases o <;> rfl

end

/-- Settles O34: the answer of the format is an error, or its header is refused for the first reason that applies, or
the algorithm decides on its content. -/
theorem systemImportCompletes : Obligations.SystemImportCompletes := by
  intro s ind field n off base ea hS hn hu hea hal hld
  rw [exec_importS]
  generalize s.word _ = w
  cases hans : (Config.systemImport s.mem ea).2 with
  | error x =>
    rw [State.importS_error hS hn hu hea hal hld hans]
    exact ⟨.unconfigured, _, rfl, rfl, rfl⟩
  | context h content =>
    obtain ⟨hformat, hloc, hkt⟩ := ownKey_fields h
    have hbad := s.badHeader_iff false (setField h 16 (0 : BitVec 1))
    simp only [hformat, hloc, Bool.false_eq_true, false_and, or_false] at hbad

    have refused {code : BitVec 4} (hr : (s.release n).checkMetadata false (setField h 16 (0 : BitVec 1)) =
        .error ((s.release n).endWith code)) :
        finish (s.importS w ind field off base) = .next ((s.release n).endWith code) := by
      rw [State.importS_refused hS hn hu hea hal hld hans hr, finish_error]
    dsimp only
    split
    next hb => exact ⟨_, 8, refused (State.checkMetadata_bad (s := s.release n) (hbad.2 hb)), rfl, rfl⟩
    next hb =>
      have hgood := Bool.eq_false_iff.2 fun h => hb (hbad.1 h)
      split
      next hs => exact ⟨_, 7, refused (State.checkMetadata_unsupported (s := s.release n) hgood hs), rfl, rfl⟩
      next hs =>
        have hs := eq_true_of_ne_false hs
        split
        next hc => exact ⟨_, 6, refused (State.checkMetadata_too_big (s := s.release n) hgood hs hc), rfl, rfl⟩
        next hc =>
          obtain ⟨e, he⟩ := algEntry_of_supported hs
          have haccept := State.accepts_of_checks (n := n) hgood hs he hc
          simp only [he]
          rw [State.importS_accepted hS hn hu hea hal hld hans haccept rfl]
          cases hcc : s.deserialize e.algDef (setField h 16 (0 : BitVec 1)) _ with
          | none => exact ⟨_, _, finish_fill_none s n, rfl, rfl⟩
          | some cc =>
            obtain ⟨hmh, _⟩ := State.deserialize_ok hcc
            exact ⟨_, _, finish_fill_some s n cc, rfl, rfl, by rw [hmh, hkt]⟩

/-! ### An ECB context exported and imported (43_sealing.md R299) -/

theorem serialize_ecb {c : Cipher} {cc : Context} {key : Nat} (hkt : mhKeyType cc.mh = false)
    (hist : cc.ist = .ecb key) (had : cc.ad = []) :
    serialize (.ecb c) cc = padBytes (sccContentSize (.ecb c) false) (natLE (c.keyBits / 8) key) := by
  simp [serialize, serializeKeys, keyWidths, keyValues, fieldWidths, fieldValues, emitFields, hkt, hist, had]

theorem keyBytes_le_sccContentSize_ecb (c : Cipher) : c.keyBits / 8 ≤ sccContentSize (.ecb c) false :=
  le_roundUp8 _

theorem serialize_ecb_length {c : Cipher} {cc : Context} {key : Nat} (hkt : mhKeyType cc.mh = false)
    (hist : cc.ist = .ecb key) (had : cc.ad = []) :
    (serialize (.ecb c) cc).length = sccContentSize (.ecb c) false := by
  rw [serialize_ecb hkt hist had]
  exact padBytes_length _ _ (by rw [natLE_length]; exact keyBytes_le_sccContentSize_ecb c)

/-- The key comes back from the content it was put into (41_cr_management.md R210). -/
theorem State.deserialize_serialize_ecb (s : State) {c : Cipher} {cc : Context} {key : Nat}
    (hkt : mhKeyType cc.mh = false) (hist : cc.ist = .ecb key) (had : cc.ad = []) (hkey : key < 2 ^ c.keyBits)
    (hbits : c.keyBits % 8 = 0) :
    s.deserialize (.ecb c) cc.mh (serialize (.ecb c) cc) = some
      { mh := cc.mh, keyIndex := 0, ist := .ecb key, ad := [], exporting := false, savedSN := mhState cc.mh,
        incomplete := false } := by
  have hrest : (serialize (.ecb c) cc).drop (sccContentSize (.ecb c) false) = [] :=
    List.drop_of_length_le (Nat.le_of_eq (serialize_ecb_length hkt hist had))
  have htake : (serialize (.ecb c) cc).take (c.keyBits / 8) = natLE (c.keyBits / 8) key := by
    rw [serialize_ecb hkt hist had]
    exact List.take_left' (natLE_length _ _)
  have hroom : key % 256 ^ (c.keyBits / 8) = key := by
    refine Nat.mod_eq_of_lt (Nat.lt_of_lt_of_eq hkey ?_)
    rw [(by decide : 256 = 2 ^ 8), ← Nat.pow_mul, Nat.mul_div_cancel' (Nat.dvd_of_mod_eq_zero hbits)]
  have htakeKey : (natLE (c.keyBits / 8) key).take (c.keyBits / 8) = natLE (c.keyBits / 8) key :=
    List.take_of_length_le (Nat.le_of_eq (natLE_length _ _))
  simp [State.deserialize, State.resolveKeys, keyBytes, keyWidths, hkt, htake, htakeKey, parseFields, leNat_natLE,
    hroom, reservedZero, withVariablePart, istOfFields, nth, hrest]

/-- The three parts of an SCC in memory (43_sealing.md R296). -/
theorem State.readBytes_parts (s : State) {ea k : Nat} {a b c : List Byte} (h : s.readBytes ea (24 + k) = a ++ b ++ c)
    (ha : a.length = 8) (hb : b.length = 16) :
    s.readBytes ea 8 = a ∧ s.readBytes (ea + 8) 16 = b ∧ s.readBytes (ea + 24) k = c := by
  rw [s.readBytes_append ea 24 k, s.readBytes_append ea 8 16] at h
  obtain ⟨hfront, hc⟩ := List.append_inj h (by simp [ha, hb])
  obtain ⟨hhead, hsiv⟩ := List.append_inj hfront (by simp [ha])
  exact ⟨hhead, hsiv, hc⟩

theorem ofNat_leNat_natLE (mh : BitVec 64) : BitVec.ofNat 64 (leNat (natLE 8 mh.toNat)) = mh := by
  rw [leNat_natLE, Nat.mod_eq_of_lt (by simpa using mh.isLt), BitVec.ofNat_toNat, BitVec.setWidth_eq]

theorem State.leNat_sealTag (s : State) (mh : BitVec 64) (content : List Byte) :
    leNat (natLE 16 (s.sealTag mh content)) = s.sealTag mh content := by
  rw [leNat_natLE]
  exact Nat.mod_mod _ _

theorem State.sealContext_length (s : State) (d : AlgDef) (cc : Context) :
    (s.sealContext d cc).length = 24 + (serialize d cc).length := by
  simp only [State.sealContext, List.length_append, natLE_length, State.sealCrypt_length]

/-- A CR that is written with one of the same cost leaves the rest of the CR file as full as it was. -/
theorem State.crfUsed_release_setCR_of_cost (s : State) {n : Fin 32} {c : CR} (m : Fin 32)
    (hcost : c.cost s.cfg = (s.getCR n).cost s.cfg) :
    ((s.setCR n c).release m).crfUsed = (s.release m).crfUsed := by
  have hset := s.crfUsed_setCR n c
  have hrelease := s.crfUsed_setCR m .unconfigured
  have hboth := (s.setCR n c).crfUsed_setCR m .unconfigured
  have hsame : ((s.setCR n c).getCR m).cost s.cfg = (s.getCR m).cost s.cfg := by
    by_cases e : m = n
    · rw [e, State.getCR_setCR_same, hcost]
    · rw [State.getCR_setCR_other s e]
  simp only [State.setCR_cfg, hsame] at hboth
  unfold State.release
  omega

/-- A sealed context in memory is imported as what its content is deserialized to (43_sealing.md R298). -/
theorem exec_import_of_scc {ea : Nat} {cc cc' : Context} {e : AlgEntry} (hn : s.Names ind field n) (hu : s.Unbound n)
    (hea : ea = (s.effAddr base off).toNat) (hal : ea % 8 = 0)
    (hld : s.Accessible false ea (24 + contentSize e.algDef cc.mh)) (ha : s.Accepts n false cc.mh e)
    (hread : s.readBytes ea (24 + contentSize e.algDef cc.mh) = s.sealContext e.algDef cc)
    (hcc : s.deserialize e.algDef cc.mh (serialize e.algDef cc) = some cc') :
    exec (if ind then .importX field off base else .importK field off base) s =
      .next { s with
        cr := s.cr.set n.val (.configured cc') n.isLt, aceerror := 0, acestart := 0, pc := addX s.cfg s.pc 4 } := by
  obtain ⟨hhead, hsiv, hct⟩ := s.readBytes_parts hread (natLE_length _ _) (natLE_length _ _)
  obtain ⟨hfront, hctOk⟩ := State.accessible_parts hld
  obtain ⟨hheadOk, hsivOk⟩ := State.accessible_parts (n := 8) (k := 16) hfront
  refine importCompletes s ind field n off base ea cc.mh e _ cc' hn hu hea hal hheadOk ?_ ha hsivOk hctOk ?_ hcc
  · rw [hhead, ofNat_leNat_natLE]
  · rw [hsiv, hct, State.leNat_sealTag, State.unseal_sealCrypt]

/-- The state `ace.export` leaves, with what it stored in memory. -/
def State.afterExport (s : State) (mem : List Host.Cell) (n : Fin 32) (cc : Context) : State :=
  { s with
    mem := mem, cr := s.cr.set n.val (.configured { cc with exporting := false }) n.isLt, aceerror := 0, acestart := 0,
    pc := addX s.cfg s.pc 4 }

theorem State.sealContext_afterExport (s : State) (mem : List Host.Cell) (n : Fin 32) (cc : Context) (d : AlgDef)
    (cc' : Context) : (s.afterExport mem n cc).sealContext d cc' = s.sealContext d cc' := (rfl)

/-- What a CR accepts before an export it accepts after it. -/
theorem State.Accepts.afterExport {pi : Bool} {m : Fin 32} {mh : BitVec 64} {e : AlgEntry} (h : s.Accepts m pi mh e)
    (mem : List Host.Cell) {cc : Context} (hc : s.getCR n = .configured cc) :
    (s.afterExport mem n cc).Accepts m pi mh e := by
  obtain ⟨hformat, hloc, hpi, hsup, halg, hcap⟩ := h
  refine ⟨hformat, hloc, hpi, hsup, halg, ?_⟩
  have hcost : CR.cost s.cfg (.configured { cc with exporting := false }) = (s.getCR n).cost s.cfg := by rw [hc]; rfl
  have hused : ((s.afterExport mem n cc).release m).crfUsed = (s.release m).crfUsed :=
    s.crfUsed_release_setCR_of_cost m hcost
  rw [hused]
  exact hcap

/-- An SCC of ECB is far smaller than the address space. -/
theorem contentSize_ecb_le {c : Cipher} {mh : BitVec 64} (hkt : mhKeyType mh = false) (hadd : mhAdditional mh = 0)
    (hbits : c.keyBits ≤ 256) (cfg : Config) : 24 + contentSize (.ecb c) mh ≤ 2 ^ cfg.xlen := by
  have hsize : contentSize (.ecb c) mh ≤ 40 := by
    have hkey : keyBytes (.ecb c) false = c.keyBits / 8 := List.sum_singleton
    have hfields : (fieldWidths (.ecb c)).sum = 0 := rfl
    have hnone : (0 : BitVec 14).toNat = 0 := rfl
    rw [contentSize, sccContentSize, roundUp8, hkt, hkey, hfields, hadd, hnone]
    omega
  have hxlen : 2 ^ 32 ≤ 2 ^ cfg.xlen := Nat.pow_le_pow_right (by omega) (by unfold Config.xlen; split <;> omega)
  omega

/-- Settles O33: `ace.import` finds the SCC that `ace.export` stored, and the key comes back from its content. -/
theorem importOfExport : Obligations.ImportOfExport := by
  intro s n m ks kd off base cc e c key ea hm hb hks hkd hc hi ha he hkt hist hkey hbits hmax had hadd hea hal hst hld
  have hscc : (s.sealContext e.algDef cc).length = 24 + contentSize e.algDef cc.mh := by
    rw [State.sealContext_length, he, serialize_ecb_length hkt hist had, contentSize, hkt, hadd]
    rfl
  have hwrap : (s.sealContext e.algDef cc).length ≤ 2 ^ s.cfg.xlen := by
    rw [hscc, he]
    exact contentSize_ecb_le hkt hadd hmax _
  obtain ⟨t, ht, hread, -, (heq : t = s.afterExport t.mem n cc)⟩ :=
    exportCompletes s false ks n off base cc e ea _ hm hks (.inl hb) hc hi ha.entry hea hal rfl hwrap (by rwa [hscc])
  generalize t.mem = mem at heq
  subst heq
  rw [hscc] at hread
  have hld : (s.afterExport mem n cc).Accessible false ea (24 + contentSize e.algDef cc.mh) :=
    State.accessible_congr (s := s) (t := s.afterExport mem n cc) rfl rfl hld
  have himport := exec_import_of_scc (s := s.afterExport mem n cc) (ind := false) (field := kd) (n := m) (cc := cc) hkd
    (.inl hb) hea hal hld (ha.afterExport mem hc) (hread.trans (s.sealContext_afterExport mem n cc _ cc).symm)
    (by rw [he]; exact State.deserialize_serialize_ecb _ hkt hist had hkey hbits)
  exact ⟨_, _, _, ht, himport, State.getCR_setCR_same _ _ _, rfl, hist.symm, had.symm, rfl⟩

end Sys2Proof.Machine

/-! PROOF. `ace.clone`, `ace.restrict`, `ace.size` and `ace.avail` (41_cr_management.md R212 to R220). -/
namespace Sys2Proof.Machine

variable {s t : State} {ind : Bool} {field base : Reg} {n : Fin 32} {w : InstrWord}

/-! ### `ace.clone` -/

/-- The four kinds of `ace.clone` are one operation. -/
theorem exec_clone {i : Instr} {dInd sInd : Bool} {dst src : Reg} (hi : i = (match dInd, sInd with
      | false, false => .cloneKK dst src
      | true, false => .cloneXK dst src
      | false, true => .cloneKX dst src
      | true, true => .cloneXX dst src)) (s : State) :
    exec i s = finish (s.clone (s.word i) dInd dst sInd src) := by
  subst hi
  cases dInd <;> cases sInd <;> rfl

/-- The source of `ace.clone` passes its two checks. -/
theorem State.source_of_cloneable {cc : Context} (hc : s.getCR n = .configured cc) (hi : cc.incomplete = false)
    (hx : mhState cc.mh = 14 → s.expired cc = true) : s.source n ⟨true, false, false⟩ = .ok cc := by
  have hstate : inState cc.mh 14 = decide (mhState cc.mh = 14) := inState_eq cc.mh rfl
  have herr : s.statusError ⟨true, false, false⟩ cc = none := by simpa [State.statusError, hi, hstate] using hx
  simp only [State.source, hc, herr]

theorem State.checkCapacity_too_big {mh : BitVec 64} (h : s.cfg.crfCapacity < s.crfUsed + crCost s.cfg mh) :
    s.checkCapacity mh = .error (s.endWith 6) := if_pos h

/-- Settles O36: source and destination are named, the source passes its checks, and the rest is whether they are the
same and whether the copy fits. -/
theorem cloneCompletes : Obligations.CloneCompletes := by
  intro s i dInd sInd dst src d n cc hi hd hn hu hc hinc hx
  rw [exec_clone hi, State.clone, bind_eq_of_ok ((s.resolve_ok_iff _ sInd src n).2 hn),
    bind_eq_of_ok ((s.resolve_ok_iff _ dInd dst d).2 hd), bind_eq_of_ok ((s.checkActive_ok_iff _ n).2 hu),
    bind_eq_of_ok (State.source_of_cloneable hc hinc hx)]
  by_cases hsame : n = d
  · rw [if_pos hsame, if_pos hsame]
    rfl
  · rw [if_neg hsame, if_neg hsame]
    dsimp only
    split
    next hcap =>
      rw [State.checkCapacity_too_big (s := s.release d) hcap]
      rfl
    next hcap =>
      rw [bind_eq_of_ok (((s.release d).checkCapacity_ok_iff _).2 (Nat.le_of_not_lt hcap))]
      exact congrArg Host.Outcome.next (s.release_setCR_done d _)

/-! ### `ace.restrict` -/

theorem exec_restrict {i : Instr} {src : Reg} (hi : i = (if ind then .restrictX field src else .restrictK field src))
    (s : State) : exec i s = finish (s.restrict (s.word i) ind field src) := by
  subst hi
  cases ind <;> rfl

theorem State.restrictOperand_odd (h32 : s.cfg.xlen64 = false) {r : Reg} (hodd : r.toNat % 2 = 1) (w : InstrWord) :
    s.restrictOperand w r = .error (s.illegal w) := by
  simp [State.restrictOperand, h32, hodd]

/-- The operand of `ace.restrict`: a register, or on RV32 a pair of registers (41_cr_management.md R220, log 45). -/
theorem State.restrictOperand_ok {r : Reg} {op : BitVec 64} (h : if s.cfg.xlen64 then op = s.readX r
      else r.toNat % 2 = 0 ∧ op = (if r = 0 then (0 : BitVec 64) else (s.readX (r + 1)) <<< 32 ||| s.readX r))
    (w : InstrWord) : s.restrictOperand w r = .ok op := by
  unfold State.restrictOperand
  by_cases h64 : s.cfg.xlen64 = true
  · rw [if_pos h64] at h ⊢
    rw [h]
  · rw [if_neg h64] at h ⊢
    obtain ⟨heven, rfl⟩ := h
    rw [if_neg (by omega), BitVec.setWidth_eq]
    split <;> rfl

/-- Settles O37: the CR is named and the operand read before anything else is looked at. -/
theorem restrictCompletes : Obligations.RestrictCompletes := by
  intro s i ind field src n hi hn hu
  rw [exec_restrict hi, State.restrict, State.nameCR_bind hn hu]
  refine ⟨fun h32 hodd => ?_, fun cc op hcc hop => ?_⟩
  · rw [State.restrictOperand_odd h32 hodd, bind_error]
    rfl
  · rw [bind_eq_of_ok (State.restrictOperand_ok hop _), bind_eq_of_ok (State.source_of_usable hcc _)]
    have hstate : inState cc.mh 15 = decide (mhState cc.mh = 15) := inState_eq cc.mh rfl
    simp only [hstate, decide_eq_true_eq]
    by_cases hcompleted : mhState cc.mh = 15
    · rw [if_pos hcompleted, if_pos hcompleted]
      rfl
    · rw [if_neg hcompleted, if_neg hcompleted]
      cases s.restrictHeader cc.mh op with
      | none => rfl
      | some mh =>
        dsimp only
        by_cases hcap : s.cfg.crfCapacity < s.crfUsed - crCost s.cfg cc.mh + crCost s.cfg mh
        · rw [if_pos hcap, if_pos hcap]
          rfl
        · rw [if_neg hcap, if_neg hcap]
          rfl

/-! ### `ace.size` and `ace.avail` -/

/-- An instruction that ends with a write to a general register. -/
theorem State.writeX_endWith (s : State) (r : Reg) (v : Word) (code : BitVec 4) :
    (s.writeX r v).endWith code =
      { s with x := (s.writeX r v).x, aceerror := code, acestart := 0, pc := addX s.cfg s.pc 4 } := by
  unfold State.writeX
  split <;> rfl

theorem exec_sizeOf (s : State) (ind : Bool) (xd field : Reg) :
    exec (if ind then .sizeX xd field else .sizeK xd field) s =
      finish (s.sizeOf (s.word (if ind then .sizeX xd field else .sizeK xd field)) xd ind field) := by
  cases ind <;> rfl

theorem sccTotalSize_of_entry {c : Config} {mh : BitVec 64} {e : AlgEntry} (he : algEntry c mh = some e) :
    sccTotalSize c mh = 24 + contentSize e.algDef mh := by
  simp only [sccTotalSize, he]

/-- Settles O39: the size is the total size of the context's SCC. -/
theorem sizeOfCRCompletes : Obligations.SizeOfCRCompletes := by
  intro s ind xd field n v hn hu hv halg
  rw [exec_sizeOf, State.sizeOf, State.nameCR_bind hn hu]
  cases hc : s.getCR n with
  | unconfigured =>
    simp only [hc] at hv
    rw [hv]
    exact congrArg Host.Outcome.next (s.writeX_endWith xd 0 0)
  | configured cc =>
    simp only [hc] at hv
    obtain ⟨e, he⟩ := Option.isSome_iff_exists.1 (halg cc hc)
    have hsize : sccTotalSize s.cfg cc.mh = v := by
      rw [sccTotalSize_of_entry he, hv e he, contentSize]
      omega
    dsimp only
    rw [hsize]
    exact congrArg Host.Outcome.next (s.writeX_endWith xd _ 0)

theorem headerSize_of_supported {c : Config} {mh : BitVec 64} (h : supportedHeader c mh = true) :
    headerSize c mh = sccTotalSize c mh := if_pos h

theorem headerSize_of_not_supported {c : Config} {mh : BitVec 64} (h : supportedHeader c mh = false) :
    headerSize c mh = 0 := if_neg (by simp [h])

/-- Both words end with the size for the header. -/
theorem exec_headerSize {i : Instr} {xd xs : Reg} (hi : i = .sizeHeader xd xs ∨ i = .avail xd xs) (s : State) :
    exec i s = .next { s with
      x := (s.writeX xd (BitVec.ofNat 64 (headerSize s.cfg (s.readX xs)))).x, aceerror := 0, acestart := 0,
      pc := addX s.cfg s.pc 4 } := by
  obtain rfl | rfl := hi
  · exact congrArg Host.Outcome.next (s.writeX_endWith xd _ 0)
  · exact congrArg Host.Outcome.next (s.writeX_endWith xd _ 0)

/-- Settles O40: a supported header has an algorithm, whose size function decides. -/
theorem sizeOfHeaderCompletes : Obligations.SizeOfHeaderCompletes := by
  intro s i xd xs v hi hv
  have hsize : headerSize s.cfg (s.readX xs) = v := by
    split at hv
    case isTrue h =>
      obtain ⟨e, he⟩ := algEntry_of_supported h
      rw [headerSize_of_supported h, sccTotalSize_of_entry he, hv e he]
    case isFalse h => rw [headerSize_of_not_supported (eq_false_of_ne_true h), hv]
  rw [exec_headerSize hi, hsize]

theorem sccTotalSize_pos (c : Config) (mh : BitVec 64) : 0 < sccTotalSize c mh := by
  unfold sccTotalSize
  split <;> omega

/-- A number that fits a general register is kept in it. -/
theorem truncX_ofNat_toNat {c : Config} {k : Nat} (h : k < 2 ^ c.xlen) : (truncX c (BitVec.ofNat 64 k)).toNat = k := by
  unfold truncX
  unfold Config.xlen at h
  split
  next h64 =>
    rw [if_pos h64] at h
    rw [BitVec.toNat_ofNat, Nat.mod_eq_of_lt h]
  next h64 =>
    rw [if_neg h64] at h
    rw [BitVec.toNat_setWidth, BitVec.toNat_setWidth, BitVec.toNat_ofNat]
    omega

theorem truncX_zero (c : Config) : truncX c 0 = 0 := by
  unfold truncX
  split <;> rfl

/-- Settles O41: the two are one operation and one word, and the size of a supported header is at least 24. -/
theorem availIsSizeFormB : Obligations.AvailIsSizeFormB := by
  refine fun p s xd xs => ⟨rfl, rfl, fun hxd hfits => ⟨_, rfl, ?_⟩⟩
  rw [State.readX_congr (s := s.writeX xd _) (State.done_cfg _) (State.done_x _), s.readX_writeX_same hxd]
  cases hs : supportedHeader s.cfg (s.readX xs) with
  | false =>
    rw [headerSize_of_not_supported hs]
    exact iff_of_false (fun h => h (truncX_zero s.cfg)) Bool.false_ne_true
  | true =>
    have hpos := sccTotalSize_pos s.cfg (s.readX xs)
    rw [headerSize_of_supported hs]
    refine iff_of_true (fun hzero => ?_) rfl
    have hval := truncX_ofNat_toNat hfits
    rw [hzero] at hval
    exact absurd hval (Nat.ne_of_lt hpos)

/-! ### Form C and Form D of `ace.size` -/

/-- Settles O43: the cost of a buffer of the length in the source register. -/
theorem sizeOfBufferCompletes : Obligations.SizeOfBufferCompletes :=
  fun s xd _ => congrArg Host.Outcome.next (s.writeX_endWith xd _ 0)

theorem supportedSome_iff (c : Config) (mh : BitVec 64) : supportedSome c mh = true ↔
    ∃ ap, supported c (mhAlgorithm mh) ap (mhProtection mh) (mhKeyType mh) = true := by
  have hall : ∀ ap : BitVec 2, ap ∈ [0, 1, 2, 3] := by decide
  simp only [supportedSome, List.any_eq_true]
  exact ⟨fun ⟨ap, _, h⟩ => ⟨ap, h⟩, fun ⟨ap, h⟩ => ⟨ap, hall ap, h⟩⟩

/-- The bits outside the mask of Form C are those of the other fields. -/
theorem outside_internalMask_iff (mh : BitVec 64) :
    mh &&& ~~~internalMask = 0 ↔ mhFormat mh = 0 ∧ mhPolicy mh = 0 ∧ mhLocality mh = 0 ∧ mhUsage mh = 0 ∧
      mhAdditional mh = 0 ∧ mhExpiration mh = 0 := by
  have part (lo w : Nat) : (mh &&& ~~~internalMask).extractLsb' lo w =
      mh.extractLsb' lo w &&& (~~~internalMask).extractLsb' lo w := BitVec.extractLsb'_and
  have inside (lo w : Nat) (h : (~~~internalMask).extractLsb' lo w = 0) :
      (mh &&& ~~~internalMask).extractLsb' lo w = 0 := (part lo w).trans (by rw [h]; exact BitVec.and_zero)
  have outside (lo w : Nat) (h : (~~~internalMask).extractLsb' lo w = BitVec.allOnes w) :
      (mh &&& ~~~internalMask).extractLsb' lo w = mh.extractLsb' lo w := by rw [part, h, BitVec.and_allOnes]
  have hformat := outside 0 1 (by decide)
  have hpolicy := outside 12 2 (by decide)
  have hloc := outside 21 8 (by decide)
  have husage := outside 29 3 (by decide)
  have hadd := outside 32 14 (by decide)
  have hexp := outside 46 18 (by decide)
  constructor
  · intro h
    rw [h] at hformat hpolicy hloc husage hadd hexp
    exact ⟨hformat.symm, hpolicy.symm, hloc.symm, husage.symm, hadd.symm, hexp.symm⟩
  · rintro ⟨zformat, zpolicy, zloc, zusage, zadd, zexp⟩
    exact header_ext (hformat.trans zformat) (inside 1 11 (by decide)) (hpolicy.trans zpolicy)
      (inside 14 2 (by decide)) (mhKeyType_eq_of_extract (inside 16 1 (by decide))) (inside 17 4 (by decide))
      (hloc.trans zloc) (husage.trans zusage) (hadd.trans zadd) (hexp.trans zexp)

section
variable (s : State) (xd xs : Reg)

theorem exec_sizeInternal_some {v : Nat} (h : s.internalSize (s.readX xs) = some v) :
    exec (.sizeInternal xd xs) s = .next { s with
      x := (s.writeX xd (BitVec.ofNat 64 v)).x, aceerror := 0, acestart := 0, pc := addX s.cfg s.pc 4 } := by
  simp only [exec, execSizeInternal, h]
  exact congrArg Host.Outcome.next (s.writeX_endWith xd _ 0)

theorem exec_sizeInternal_none (h : s.internalSize (s.readX xs) = none) :
    exec (.sizeInternal xd xs) s = .next { s with
      x := (s.writeX xd 0).x, aceerror := 8, acestart := 0, pc := addX s.cfg s.pc 4 } := by
  simp only [exec, execSizeInternal, h]
  exact congrArg Host.Outcome.next (s.writeX_endWith xd _ 8)

end

/-- Settles O42: the operand asks for a capacity, or is a header without the fields that do not decide the cost, or is
an invalid value. -/
theorem sizeInternalCompletes : Obligations.SizeInternalCompletes := by
  rintro s xd xs _ rfl
  have hfields : (s.readX xs &&& ~~~internalMask = 0 ∧ mhState (s.readX xs) = 0) ↔
      mhFormat (s.readX xs) = 0 ∧ mhPolicy (s.readX xs) = 0 ∧ mhState (s.readX xs) = 0 ∧ mhLocality (s.readX xs) = 0 ∧
        mhUsage (s.readX xs) = 0 ∧ mhAdditional (s.readX xs) = 0 ∧ mhExpiration (s.readX xs) = 0 := by
    rw [outside_internalMask_iff]
    exact ⟨fun ⟨⟨hformat, hpolicy, hloc, husage, hadd, hexp⟩, hstate⟩ =>
        ⟨hformat, hpolicy, hstate, hloc, husage, hadd, hexp⟩,
      fun ⟨hformat, hpolicy, hstate, hloc, husage, hadd, hexp⟩ =>
        ⟨⟨hformat, hpolicy, hloc, husage, hadd, hexp⟩, hstate⟩⟩
  split
  case isTrue hfull => exact exec_sizeInternal_some s xd xs (if_pos hfull)
  case isFalse hfull =>
    split
    case isTrue hfree => exact exec_sizeInternal_some s xd xs ((if_neg hfull).trans (if_pos hfree))
    case isFalse hfree =>
      split
      case isTrue hcost =>
        refine exec_sizeInternal_some s xd xs ((if_neg hfull).trans ((if_neg hfree).trans ?_))
        rw [if_pos (hfields.2 hcost), ite_congr (propext (supportedSome_iff _ _)) (fun _ => rfl) fun _ => rfl]
      case isFalse hcost =>
        exact exec_sizeInternal_none s xd xs
          ((if_neg hfull).trans ((if_neg hfree).trans (if_neg (mt hfields.1 hcost))))

end Sys2Proof.Machine

/-! PROOF. Which instructions touch a replacement sequence, and what a completed instruction leaves in `acestart` and
`pc` (42_exec_state_io.md R262, R268). -/
namespace Sys2Proof.Machine

variable {s t : State} {i : Instr}

/-- An instruction outside the replacement sequences keeps what they work on (42_exec_state_io.md R262). -/
theorem Ends.sequence_kept (he : Ends i s t) (hi : i.sequenced = false) :
    t.acesequence = s.acesequence ∧ t.rngPos = s.rngPos ∧ t.freeTick = s.freeTick ∧
      (i ≠ .aceReset → i ≠ .clearX 0 → t.iobuf = s.iobuf) := by
  have absent {p : Prop} (h : i.sequenced = true) : p := by rw [h] at hi; cases hi
  cases he with
  | trap | range | releasedTrap | code | released | loaded | cloned | restricted =>
    exact ⟨rfl, rfl, rfl, fun _ _ => rfl⟩
  | exported | sized | errorRead => simp
  | reset hreset => exact ⟨rfl, rfl, rfl, fun h h' => hreset.elim (absurd · h) (absurd · h')⟩
  | invalidTrap _ _ h | applied _ _ _ _ _ _ h | invalid _ _ h => exact absent h
  | nop _ _ _ h => exact absent (by rcases h with rfl | rfl <;> rfl)
  | input _ _ _ h | output _ _ _ h => exact absent (by rw [h]; rfl)

/-- Settles O16: by the ends of an instruction. -/
theorem sequenceKept : Obligations.SequenceKept :=
  fun _ _ _ h => (exec_ends h).sequence_kept

@[simp] theorem State.invalidateWith_pc (s : State) (n : Fin 32) (code : BitVec 4) :
    (s.invalidateWith n code).pc = addX s.cfg s.pc 4 := by
  simp [State.invalidateWith]

/-- Every outcome of a step completes the instruction (42_exec_state_io.md R249, R255, R270). -/
theorem State.applyStep_completes {n : Fin 32} {cc : Context} (hc : s.getCR n = .configured cc) (q : BitVec 2)
    (src dst : Operand) (r : Step) :
    (s.applyStep n cc q src dst r).pc = addX s.cfg s.pc 4 ∧ (s.applyStep n cc q src dst r).acestart = 0 := by
  obtain ⟨code, h⟩ | ⟨code, h⟩ := r.outcome_cases
  · rw [State.applyStep_done h]
    exact ⟨rfl, rfl⟩
  · rw [State.applyStep_invalidate h hc]
    exact ⟨rfl, rfl⟩

/-- An end without an exception is the end of a completed instruction (60_exceptions.md R530). -/
theorem Ends.completes (he : Ends i s t) (ht : t.trap = none) : t.pc = addX s.cfg s.pc 4 ∧
    (t.acestart = 0 ∨ t.acestart = s.acestart ∧ ((∃ xd, i = .aceError xd) ∨
      ∃ off x xl, (i = .input off x xl ∨ i = .output off x xl) ∧ s.readX xl = 0)) := by
  cases he with
  | trap | range | releasedTrap | invalidTrap => cases ht
  | code | released | loaded | cloned | restricted | reset => exact ⟨rfl, .inl rfl⟩
  | exported | sized | input | output | invalid => simp [State.invalidateWith]
  | applied n cc q src dst r _ _ hs =>
    obtain ⟨hpc, hstart⟩ := State.applyStep_completes hs q src dst r
    exact ⟨hpc, .inl hstart⟩
  | errorRead rd v hi => exact ⟨by simp, .inr ⟨by simp, .inl ⟨rd, hi⟩⟩⟩
  | nop off x xl hi hz => exact ⟨rfl, .inr ⟨rfl, .inr ⟨off, x, xl, hi, hz⟩⟩⟩

/-- Settles O18: by the ends of an instruction. -/
theorem completionClearsStart : Obligations.CompletionClearsStart := by
  intro i s t _ h ht
  obtain ⟨hpc, hstart | ⟨hstart, ⟨xd, rfl⟩ | ⟨off, x, xl, rfl | rfl, hz⟩⟩⟩ := (exec_ends h).completes ht
  · exact ⟨hpc, .inl hstart⟩
  · exact ⟨hpc, .inr ⟨hstart, trivial⟩⟩
  · exact ⟨hpc, .inr ⟨hstart, hz⟩⟩
  · exact ⟨hpc, .inr ⟨hstart, hz⟩⟩

end Sys2Proof.Machine

/-! PROOF. `ace.input` and `ace.output` (42_exec_state_io.md R264 to R267). -/
namespace Sys2Proof.Machine

variable {s : State} {n : Fin 32} {cc : Context} {w : InstrWord} {off : Imm12} {x xl : Reg}

/-! ### The checks before a transfer -/

/-- Nothing is bound, or the bound CR passes the status checks and is at the right point of its sequence. -/
theorem State.checkBound_of_allowed {p : Context → Bool} {allowed : Context → Prop} (h : s.TransferAllowed allowed)
    (hp : ∀ cc, allowed cc → p cc = true) (w : InstrWord) : s.checkBound w p = .ok () := by
  refine (s.checkBound_ok_iff w p).2 (h.imp_right ?_)
  rintro ⟨n, cc, hb, hn, hc, ha⟩
  exact ⟨n, cc, hb, hn, State.source_of_usable hc _, hp cc ha⟩

theorem State.checkBound_out_of_order (hb : s.aceactivecr.toNat = n.val) (hn : n.val < s.cfg.numCR)
    (hc : s.Usable n cc) {p : Context → Bool} (hp : p cc = false) (w : InstrWord) :
    s.checkBound w p = .error (s.seqViolation w n) := by
  have hne : s.aceactivecr ≠ 32 := fun h => by
    rw [h] at hb
    exact absurd hb.symm (Nat.ne_of_lt n.isLt)
  have hcr : (⟨s.aceactivecr.toNat, hb ▸ n.isLt⟩ : Fin 32) = n := Fin.ext hb
  rw [State.checkBound, if_neg hne, dif_pos ⟨hb ▸ n.isLt, hb ▸ hn⟩, hcr, State.source_of_usable hc, bind_ok, hp]
  rfl

/-- `ace.input` may stand first in a sequence of the bound CR (42_exec_state_io.md R264). -/
theorem State.inputAllowed_iff (s : State) (cc : Context) :
    s.inputAllowed cc = true ↔ s.acesequence = 0 ∧ inputExpected s.cfg s.env cc = true := by
  simp [State.inputAllowed]

theorem State.checkBound_input
    (h : s.TransferAllowed fun cc => s.acesequence = 0 ∧ inputExpected s.cfg s.env cc = true) (w : InstrWord) :
    s.checkBound w s.inputAllowed = .ok () :=
  State.checkBound_of_allowed h (fun cc => (s.inputAllowed_iff cc).2) w

theorem State.checkBound_output (h : s.TransferAllowed fun _ => s.acesequence = 1 ∨ s.acesequence = 2)
    (w : InstrWord) :
    s.checkBound w (fun _ => s.acesequence = 1 || s.acesequence = 2) = .ok () :=
  State.checkBound_of_allowed h (fun _ hq => by simpa using hq) w

/-- A buffer that is not configured, or a window too small for the bytes (42_exec_state_io.md R264, R265). -/
theorem State.checkTransfer_refused {len : Nat} {code : BitVec 4}
    (h : if s.aceiobuflen = 0 then code = 3
      else code = 8 ∧ (s.aceiobuftop.toNat < s.acestart.toNat ∨ s.aceiobuftop.toNat - s.acestart.toNat < len)) :
    s.checkTransfer len = .error (s.endWith code) := by
  unfold State.checkTransfer
  split at h
  case isTrue hzero => rw [if_pos hzero, h]; rfl
  case isFalse hzero => rw [if_neg hzero, if_pos h.2, h.1]; rfl

/-! ### The two instructions -/

theorem exec_input (h : s.readX xl ≠ 0) : exec (.input off x xl) s =
    finish (s.aceInput (s.word (.input off x xl)) (s.effAddr x off) (s.readX xl).toNat) := if_neg h

theorem exec_output (h : s.readX xl ≠ 0) : exec (.output off x xl) s =
    finish (s.aceOutput (s.word (.output off x xl)) (s.effAddr x off) (s.readX xl).toNat) := if_neg h

theorem State.readX_ne_zero {len : Nat} (hlen : len = (s.readX xl).toNat) (h : len ≠ 0) : s.readX xl ≠ 0 := by
  intro hzero
  rw [hlen, hzero] at h
  exact h rfl

theorem State.readX_le (s : State) (r : Reg) : (s.readX r).toNat ≤ 2 ^ s.cfg.xlen := by
  unfold State.readX
  split
  · exact Nat.zero_le _
  · exact Nat.le_of_lt (truncX_lt _ _)

theorem State.setSequence_acesequence (s : State) (q : BitVec 2) :
    (s.setSequence q).acesequence = if s.aceactivecr = 32 then s.acesequence else q := by
  unfold State.setSequence
  split <;> rfl

/-- Settles O47: the length is looked at before anything else. -/
theorem emptyTransferIsNop : Obligations.EmptyTransferIsNop := by
  rintro s i off x xl (rfl | rfl) h
  · exact if_pos h
  · exact if_pos h

/-- Settles O45: the checks pass, and the bytes read take their place in the window. -/
theorem inputCompletes : Obligations.InputCompletes := by
  intro s off xs xl ea len start hea hlen h0 hstart hallowed hroom hacc
  subst hea hstart
  rw [exec_input (s.readX_ne_zero hlen h0), ← hlen, State.aceInput,
    bind_eq_of_ok (State.checkBound_input hallowed _), bind_eq_of_ok ((s.checkTransfer_ok_iff len).2 hroom),
    bind_eq_of_ok ((s.load_ok_iff _ _ _).2 ⟨hacc, rfl⟩)]
  refine congrArg Host.Outcome.next ?_
  apply State.ext <;> simp [State.setSequence_acesequence, State.setBufBytes]

theorem State.bufBytes_length {a len : Nat} (h : a + len ≤ s.iobuf.length) :
    (s.bufBytes a (a + len)).length = len := by
  simp only [State.bufBytes, List.length_take, List.length_drop]
  omega

/-- Settles O46: the checks pass, and the bytes of the window are stored and nothing else. -/
theorem outputCompletes : Obligations.OutputCompletes := by
  intro s off xd xl ea len start hm hbuf hea hlen h0 hstart hallowed hroom hacc
  subst hstart
  have hsize : (s.bufBytes s.acestart.toNat (s.acestart.toNat + len)).length = len := by
    obtain ⟨hbuflen, htop, -⟩ := hbuf
    obtain ⟨-, hle, hfits⟩ := hroom
    exact State.bufBytes_length (by omega)
  have hbytes : s.bufBytes s.acestart.toNat (s.acestart.toNat + len) = (s.iobuf.drop s.acestart.toNat).take len := by
    rw [State.bufBytes, Nat.add_sub_cancel_left]
  rw [hbytes] at hsize
  have hexec : exec (.output off xd xl) s =
      .next ((s.writeBytes ea ((s.iobuf.drop s.acestart.toNat).take len)).setSequence 0).done := by
    rw [exec_output (s.readX_ne_zero hlen h0), ← hlen, ← hbytes, State.aceOutput, ← hea,
      bind_eq_of_ok (State.checkBound_output hallowed _), bind_eq_of_ok ((s.checkTransfer_ok_iff len).2 hroom),
      bind_eq_of_ok ((s.store_ok_iff _ _ _).2 ⟨by rwa [hbytes, hsize], rfl⟩)]
    rfl
  generalize (s.iobuf.drop s.acestart.toNat).take len = bs at hsize hexec ⊢
  subst hsize
  refine ⟨_, hexec, ?_, fun a hout => ?_, ?_⟩
  · rw [State.readBytes_congr (s := s.writeBytes ea bs) (by simp) (by simp)]
    exact State.readBytes_writeBytes hm ea (hlen ▸ s.readX_le xl)
  · simpa using s.writeBytes_outside ea bs a hout
  · apply State.ext <;> simp [State.setSequence_acesequence]

end Sys2Proof.Machine

/-! PROOF. The operands and the outcomes of `ace.exec` (42_exec_state_io.md R243 to R253, R262, R270). -/
namespace Sys2Proof.Machine

variable {s : State} {n : Fin 32} {cc : Context} {w : InstrWord} {f : Form} {ind : Bool} {field vd vs : Reg}
  {q : BitVec 2} {code : BitVec 4} {p : Place} {size : SizeClass} {row : ExecRow}

theorem State.Usable.configured (h : s.Usable n cc) : s.getCR n = .configured cc := h.1

theorem State.ExecReady.configured (h : s.ExecReady n cc f row) : s.getCR n = .configured cc := h.2.1.configured

/-- An instruction for vector registers is there where the implementation has them. -/
theorem not_absent {c : Config} {vector : Prop} (h : vector → c.hasV = true) : ¬(vector ∧ (!c.hasV) = true) := by
  rintro ⟨hvector, habsent⟩
  rw [h hvector] at habsent
  cases habsent

/-! ### An invalidated CR (42_exec_state_io.md R263, R270) -/

theorem State.invalidate_configured (hc : s.getCR n = .configured cc) :
    s.invalidate n = s.setCR n (.configured (ccInvalid cc)) := by
  rw [State.invalidate, hc]

theorem State.seqViolation_eq (hc : s.getCR n = .configured cc) (w : InstrWord) :
    s.seqViolation w n = { s with
      cr := s.cr.set n.val (.configured { cc with mh := mhSetState cc.mh 14, exporting := false }) n.isLt
      trap := some ⟨.illegalInstruction, s.pc, w.setWidth 64⟩ } := by
  rw [State.seqViolation, State.invalidate_configured hc]
  rfl

theorem State.invalidateWith_eq (hc : s.getCR n = .configured cc) (code : BitVec 4) :
    s.invalidateWith n code = { s with
      cr := s.cr.set n.val (.configured { cc with mh := mhSetState cc.mh 14, exporting := false }) n.isLt
      aceerror := code, acestart := 0, pc := addX s.cfg s.pc 4 } := by
  rw [State.invalidateWith, State.invalidate_configured hc]
  rfl

/-- A Form that is not allowed invalidates only a hash context in state _initial_ (42_exec_state_io.md R251). -/
theorem State.formNotAllowed_eq (hc : s.getCR n = .configured cc) (w : InstrWord) :
    s.formNotAllowed w n cc = { s with
      cr := if invalidatesOnBadExec s.cfg cc then
          s.cr.set n.val (.configured { cc with mh := mhSetState cc.mh 14, exporting := false }) n.isLt
        else s.cr
      trap := some ⟨.illegalInstruction, s.pc, w.setWidth 64⟩ } := by
  unfold State.formNotAllowed
  split
  · exact s.seqViolation_eq hc w
  · rfl

/-! ### The operand at a place (42_exec_state_io.md R246, R247) -/

/-- The operand of the model at a place: the vector register group that starts at `r`, or the window. -/
def Place.operand (p : Place) (r : Reg) : Operand :=
  match p with
  | .vectors => .vector r
  | .buffer => .buffer

theorem State.readOperand_operand (s : State) (p : Place) (r : Reg) : s.readOperand (p.operand r) = s.inputAt r p := by
  cases p <;> rfl

theorem State.window_of_windowOk (h : s.WindowOk p size) (r : Reg) : s.window (p.operand r) = .ok (s.iolen p) := by
  obtain ⟨hlen, hstart, -⟩ := h
  cases p with
  | vectors => exact if_neg (Nat.not_le.2 hstart)
  | buffer => exact (if_neg (hlen rfl)).trans (if_neg (Nat.not_le.2 hstart))

theorem State.WindowOk.valid (h : s.WindowOk p size) : size.valid (s.iolen p) = true := h.2.2

/-- An operand is refused for its window, or for a size that the step does not take. -/
theorem State.window_of_windowError (h : s.WindowError p size code) (r : Reg) :
    s.window (p.operand r) = .error (s.endWith code) ∨
      s.window (p.operand r) = .ok (s.iolen p) ∧ size.valid (s.iolen p) = false ∧ code = errInvalidValue := by
  cases p with
  | vectors =>
    unfold State.WindowError at h
    rw [if_neg nofun] at h
    obtain ⟨rfl, hwindow⟩ := h
    by_cases hempty : s.vl ≤ s.acestart.toNat
    · exact .inl (if_pos hempty)
    · exact .inr ⟨if_neg hempty, hwindow.resolve_left hempty, rfl⟩
  | buffer =>
    unfold State.WindowError at h
    by_cases hlen : s.aceiobuflen = 0
    · rw [if_pos ⟨rfl, hlen⟩] at h
      exact .inl ((if_pos hlen).trans (by rw [h]; rfl))
    · rw [if_neg fun hb => hlen hb.2] at h
      obtain ⟨rfl, hwindow⟩ := h
      by_cases hempty : s.aceiobuftop.toNat ≤ s.acestart.toNat
      · exact .inl ((if_neg hlen).trans (if_pos hempty))
      · exact .inr ⟨(if_neg hlen).trans (if_neg hempty), hwindow.resolve_left hempty, rfl⟩

/-! ### What a Form does with the operands of a place (42_exec_state_io.md R249, R250, R252, R253) -/

/-- The operands of Form `f` with both of them at a place: Forms A and B read one, Forms A and C write one. -/
def formPlan (f : Form) (p : Place) (vd vs : Reg) (q : BitVec 2) : ExecPlan where
  src := if f = .A ∨ f = .B then p.operand vs else .none
  dst := if f = .A ∨ f = .C then p.operand vd else .none
  seq := q

/-- `INPUT` of Form `f` at a place. -/
def State.formInput (s : State) (f : Form) (p : Place) (vs : Reg) : Nat :=
  if f = .A ∨ f = .B then s.inputAt vs p else 0

theorem State.formInput_eq (s : State) (hf : f ≠ .D) (p : Place) (vs : Reg) :
    s.formInput f p vs = if f = .C then 0 else s.inputAt vs p := by
  cases f with
  | A | B | C => rfl
  | D => exact absurd rfl hf

theorem State.readOperand_formPlan (s : State) (f : Form) (p : Place) (vd vs : Reg) (q : BitVec 2) :
    s.readOperand (formPlan f p vd vs q).src = s.formInput f p vs := by
  unfold formPlan State.formInput
  split
  · exact s.readOperand_operand p vs
  · rfl

/-- The one operand whose window counts is at the place of the plan. -/
theorem State.planWindow_formPlan (s : State) (hf : f ≠ .D) (p : Place) (vd vs : Reg) (q : BitVec 2) :
    ∃ r, s.planWindow (formPlan f p vd vs q) = s.window (p.operand r) := by
  cases f with
  | A | B => exact ⟨vs, by cases p <;> rfl⟩
  | C => exact ⟨vd, rfl⟩
  | D => exact absurd rfl hf

theorem State.runExec_eq {plan : ExecPlan} {iolen : Nat} (hw : s.planWindow plan = .ok iolen)
    (hv : row.size.valid iolen = true) :
    s.runExec n cc row plan =
      .ok (s.applyStep n cc plan.seq plan.src plan.dst (row.step (s.readOperand plan.src) iolen)) := by
  rw [State.runExec, bind_eq_of_ok hw, hv]
  rfl

theorem State.runExec_windowError (hf : f ≠ .D) (h : s.WindowError p row.size code) :
    s.runExec n cc row (formPlan f p vd vs q) = .error (s.endWith code) := by
  obtain ⟨r, hr⟩ := s.planWindow_formPlan hf p vd vs q
  rw [State.runExec, hr]
  obtain hw | ⟨hw, hv, rfl⟩ := State.window_of_windowError h r
  · rw [hw]
    rfl
  · rw [bind_eq_of_ok hw, hv]
    rfl

theorem State.runExec_windowOk (hf : f ≠ .D) (h : s.WindowOk p row.size) :
    s.runExec n cc row (formPlan f p vd vs q) =
      .ok (s.applyStep n cc q (formPlan f p vd vs q).src (formPlan f p vd vs q).dst
        (row.step (s.formInput f p vs) (s.iolen p))) := by
  obtain ⟨r, hr⟩ := s.planWindow_formPlan hf p vd vs q
  rw [State.runExec_eq (hr.trans (State.window_of_windowOk h r)) h.valid, State.readOperand_formPlan]
  rfl

theorem State.runExec_formD (hv : row.size.valid 0 = true) :
    s.runExec n cc row (formPlan .D .buffer vd vs q) = .ok (s.applyStep n cc q .none .none (row.step 0 0)) :=
  State.runExec_eq rfl hv

/-! ### The plan of an `ace.exec` (42_exec_state_io.md R262) -/

/-- The meaning of all Forms of `ace.exec`: what a Form has no operand for does not matter. -/
theorem exec_execInstr (s : State) (f : Form) (ind : Bool) (field vd vs : Reg) :
    exec (f.execInstr ind field vd vs) s =
      finish (s.aceExec (s.word (f.execInstr ind field vd vs)) f ind field vd vs) := by
  cases f <;> cases ind <;> rfl

theorem vectorPlan_eq (hf : f ≠ .D) : vectorPlan f vd vs = formPlan f .vectors vd vs 0 := by
  cases f with
  | A | B | C => rfl
  | D => exact absurd rfl hf

theorem execPlan_vector (hf : f ≠ .D) (bound : Bool) :
    execPlan f vd vs 0 (some f) bound = some (some (formPlan f .vectors vd vs 0)) := by
  rw [execPlan, if_neg hf, if_neg (by decide), if_pos rfl, vectorPlan_eq hf]

theorem execPlan_formD (bound : Bool) :
    execPlan .D vd vs 0 (some .D) bound = some (some (formPlan .D .buffer vd vs 0)) := rfl

theorem execPlan_standsFor (h : s.StandsFor n f q) : execPlan .D vd vs s.acesequence (some f)
    (s.aceactivecr.toNat = n.val) = some (some (formPlan f .buffer vd vs q)) := by
  obtain ⟨hb, h⟩ := h
  rw [decide_eq_true hb]
  obtain ⟨rfl, hq, rfl⟩ | ⟨rfl, hq, rfl⟩ | ⟨rfl, hq, rfl⟩ := h <;> rw [hq] <;> rfl

section
variable (hV : f ≠ .D → s.cfg.hasV = true) (hn : s.Names ind field n) (hu : s.Unbound n) (hc : s.Usable n cc)
include hV hn hu hc

theorem State.aceExec_runs {plan : ExecPlan} (hrow : ccExec s.cfg s.env cc = some row)
    (hp : execPlan f vd vs s.acesequence (some row.form) (s.aceactivecr.toNat = n.val) = some (some plan)) :
    s.aceExec w f ind field vd vs = s.runExec n cc row plan := by
  have hform : execForm s.cfg s.env cc = some row.form := by rw [execForm, hrow]; rfl
  rw [State.aceExec, if_neg (not_absent hV), State.nameCR_bind hn hu,
    bind_eq_of_ok (State.source_of_usable hc _), hform, hp, hrow]

theorem State.aceExec_out_of_order
    (hp : execPlan f vd vs s.acesequence (execForm s.cfg s.env cc) (s.aceactivecr.toNat = n.val) = none) :
    s.aceExec w f ind field vd vs = .error (s.seqViolation w n) := by
  rw [State.aceExec, if_neg (not_absent hV), State.nameCR_bind hn hu,
    bind_eq_of_ok (State.source_of_usable hc _), hp]

theorem State.aceExec_not_allowed
    (hp : execPlan f vd vs s.acesequence (execForm s.cfg s.env cc) (s.aceactivecr.toNat = n.val) = some none) :
    s.aceExec w f ind field vd vs = .error (s.formNotAllowed w n cc) := by
  rw [State.aceExec, if_neg (not_absent hV), State.nameCR_bind hn hu,
    bind_eq_of_ok (State.source_of_usable hc _), hp]

end

theorem exec_vectorForm (hn : s.Names ind field n) (hr : s.ExecReady n cc f row) (hf : f ≠ .D)
    (hV : s.cfg.hasV = true) (hq : s.acesequence = 0) :
    exec (f.execInstr ind field vd vs) s = finish (s.runExec n cc row (formPlan f .vectors vd vs 0)) := by
  obtain ⟨hu, hc, hrow, rfl⟩ := hr
  rw [exec_execInstr, State.aceExec_runs (fun _ => hV) hn hu hc hrow (by rw [hq]; exact execPlan_vector hf _)]

theorem exec_formD (hn : s.Names ind field n) (hr : s.ExecReady n cc .D row) (hq : s.acesequence = 0) :
    exec (Form.D.execInstr ind field vd vs) s = finish (s.runExec n cc row (formPlan .D .buffer vd vs 0)) := by
  obtain ⟨hu, hc, hrow, hform⟩ := hr
  rw [exec_execInstr, State.aceExec_runs (absurd rfl) hn hu hc hrow (by rw [hq, hform]; exact execPlan_formD _)]

theorem exec_standsFor (hn : s.Names ind field n) (hr : s.ExecReady n cc f row) (h : s.StandsFor n f q) :
    exec (Form.D.execInstr ind field vd vs) s = finish (s.runExec n cc row (formPlan f .buffer vd vs q)) := by
  obtain ⟨hu, hc, hrow, rfl⟩ := hr
  rw [exec_execInstr, State.aceExec_runs (absurd rfl) hn hu hc hrow (execPlan_standsFor h)]

/-! ### Steps that complete, and steps that invalidate the CR -/

/-- Only an operand in vector registers takes a free value (log 10). -/
theorem State.tick_formPlan (s : State) (hf : f ≠ .D) :
    (s.tick (formPlan f p vd vs q).src (formPlan f p vd vs q).dst).freeTick =
      if p = .vectors then s.freeTick + 1 else s.freeTick := by
  cases f with
  | A | B | C => cases p <;> rfl
  | D => exact absurd rfl hf

theorem State.StandsFor.ne_D (h : s.StandsFor n f q) : f ≠ .D := by
  rintro rfl
  simp [State.StandsFor] at h

/-- What Form `f` writes to vector registers (42_exec_state_io.md R250, R252). -/
theorem State.writeOperand_vectors (s : State) (hf : f ≠ .D) (vd vs : Reg) (q : BitVec 2) (out k : Nat) :
    (s.writeOperand (formPlan f .vectors vd vs q).dst out k).iobuf = s.iobuf ∧
    (s.writeOperand (formPlan f .vectors vd vs q).dst out k).v =
      if f = .B then s.v else (s.writeVec vd (splice (s.readVec vd) (s.acestart.toNat * s.sew) k out)).v := by
  cases f with
  | A | B | C => simp [formPlan, Place.operand, State.writeOperand]
  | D => exact absurd rfl hf

/-- What Form D writes to the buffer in place of Form `f` (42_exec_state_io.md R247, R253). -/
theorem State.writeOperand_buffer (s : State) (hwindow : s.acestart.toNat < s.aceiobuftop.toNat) (f : Form)
    (vd vs : Reg) (q : BitVec 2) (out k : Nat) :
    (s.writeOperand (formPlan f .buffer vd vs q).dst out k).v = s.v ∧
    (s.writeOperand (formPlan f .buffer vd vs q).dst out k).iobuf =
      if f = .A ∨ f = .C then
        s.iobuf.take s.acestart.toNat ++
          natLE (s.aceiobuftop.toNat - s.acestart.toNat)
            (splice (leNat ((s.iobuf.drop s.acestart.toNat).take (s.aceiobuftop.toNat - s.acestart.toNat))) 0 k out) ++
          s.iobuf.drop s.aceiobuftop.toNat
      else s.iobuf := by
  by_cases hout : f = .A ∨ f = .C
  · simp only [formPlan, if_pos hout, Place.operand, State.writeOperand, State.setBufBytes, State.bufBytes,
      natLE_length, Nat.add_sub_cancel' (Nat.le_of_lt hwindow), and_self]
  · simp only [formPlan, if_neg hout, State.writeOperand, and_self]

/-- Settles O50: the vector plan passes its window, and its step is applied. -/
theorem execVectorCompletes : Obligations.ExecVectorCompletes := by
  intro s f ind field vd vs n cc row inp r code hn hr hf hV hq hw hinp hstep hend
  have hinput : s.formInput f .vectors vs = inp := by rw [hinp, s.formInput_eq hf]
  obtain ⟨hiobuf, hv⟩ := s.writeOperand_vectors hf vd vs 0 r.out r.written
  rw [exec_vectorForm hn hr hf hV hq, State.runExec_windowOk hf hw, hinput, ← hstep, State.applyStep_done hend,
    s.tick_formPlan hf, hiobuf, hv]
  rfl

/-- Settles O51: Form D has no operand, or those of the Form it stands for in the window of the buffer. -/
theorem execBufferCompletes : Obligations.ExecBufferCompletes := by
  intro s ind field n cc f row q top start inp iolen r code hn hr htop hstart hmode hinp hstep hend
  subst htop hstart
  obtain ⟨rfl, hq, rfl, hv, rfl⟩ | ⟨hst, -, hw, rfl⟩ := hmode
  · have hstep : r = row.step 0 0 := by rw [hstep, hinp]; rfl
    rw [exec_formD hn hr hq, State.runExec_formD hv, ← hstep, State.applyStep_done hend]
    rfl
  · have hinput : s.formInput f .buffer 0 = inp := hinp.symm
    have ⟨_, hwindow, _⟩ := hw
    obtain ⟨hv, hiobuf⟩ := s.writeOperand_buffer hwindow f 0 0 q r.out r.written
    rw [exec_standsFor hn hr hst, State.runExec_windowOk hst.ne_D hw, hinput, ← hstep, State.applyStep_done hend,
      s.tick_formPlan hst.ne_D, hv, hiobuf]
    rfl

end Sys2Proof.Machine

/-! PROOF. The Forms of `ace.state` (42_exec_state_io.md R255 to R260, R262). -/
namespace Sys2Proof.Machine

variable {s : State} {n : Fin 32} {cc : Context} {w : InstrWord} {f e : Form} {field : Reg} {imm : BitVec 7}
  {r : Reg} {i : Instr} {row : Row} {o : Option Place} {aux reg : Nat} {code : BitVec 4} {p : Place}

/-! ### What `ace.state` does with the rows of the requested state -/

theorem State.Changeable.configured (h : s.Changeable n cc imm) : s.getCR n = .configured cc := h.1

/-- The status check of `ace.state` lets an invalid CR return to _initial_ (41_cr_management.md R192). -/
theorem State.source_of_changeable (h : s.Changeable n cc imm) :
    s.source n { Want.all with inv := imm.toNat ≠ 0 } = .ok cc := by
  obtain ⟨hc, hi, hinvalid, he, hu⟩ := h
  have htarget : mhState cc.mh = 14 → imm.toNat = 0 := fun h => by rw [hinvalid h]; rfl
  by_cases h14 : mhState cc.mh = 14
  · simp [State.source, hc, State.statusError, Want.all, hi, he, hu, htarget h14]
  · exact State.source_of_usable ⟨hc, hi, h14, he, hu⟩ _

section
variable {op : Operand} (hV : f = .C → s.cfg.hasV = true) (hn : s.Names false field n) (hu : s.Unbound n)
  (hc : s.Changeable n cc imm)
include hV hn hu hc

theorem State.aceState_out_of_order (hp : statePlan f r s.acesequence (s.aceactivecr.toNat = n.val) = none) :
    s.aceState w f field imm.toNat r = .error (s.seqViolation w n) := by
  rw [State.aceState, if_neg (not_absent hV), State.nameCR_bind hn hu,
    bind_eq_of_ok (State.source_of_changeable hc), hp]

variable (hp : statePlan f r s.acesequence (s.aceactivecr.toNat = n.val) = some (e, op))
include hp

theorem State.aceState_no_row (hrows : ccRows s.cfg s.env cc imm.toNat = []) :
    s.aceState w f field imm.toNat r = .error (s.invalidateWith n errUnimpl) := by
  rw [State.aceState, if_neg (not_absent hV), State.nameCR_bind hn hu,
    bind_eq_of_ok (State.source_of_changeable hc), hp, hrows]

theorem State.aceState_no_form (hrows : ccRows s.cfg s.env cc imm.toNat ≠ [])
    (hform : ∀ row ∈ ccRows s.cfg s.env cc imm.toNat, row.form ≠ e) :
    s.aceState w f field imm.toNat r =
      .error (if s.acesequence = 1 then s.seqViolation w n else s.illegal w) := by
  have hfind : (ccRows s.cfg s.env cc imm.toNat).find? (fun row => decide (row.form = e)) = none :=
    List.find?_eq_none.2 fun row hrow => by simpa using hform row hrow
  rw [State.aceState, if_neg (not_absent hV), State.nameCR_bind hn hu,
    bind_eq_of_ok (State.source_of_changeable hc), hp]
  dsimp only
  split
  next hnil => exact absurd hnil hrows
  next => rw [hfind]

theorem State.aceState_row
    (hrow : (ccRows s.cfg s.env cc imm.toNat).find? (fun row => decide (row.form = e)) = some row) :
    s.aceState w f field imm.toNat r = s.runRow n cc row op (if e = .B then (s.readX r).toNat else 0) := by
  rw [State.aceState, if_neg (not_absent hV), State.nameCR_bind hn hu,
    bind_eq_of_ok (State.source_of_changeable hc), hp]
  dsimp only
  split
  next hnil => rw [hnil] at hrow; cases hrow
  next => rw [hrow]

end

/-! ### The action of a row -/

/-- The operand of a row: none, or the one at a place. -/
def stateOperand (o : Option Place) (r : Reg) : Operand := o.elim .none (·.operand r)

theorem State.tick_stateOperand (s : State) (o : Option Place) (r : Reg) :
    (s.tick (stateOperand o r) .none).freeTick = if o = some .vectors then s.freeTick + 1 else s.freeTick := by
  obtain _ | _ | _ := o <;> rfl

theorem State.runRow_windowError (hform : row.form = .C) (h : s.WindowError p row.size code) :
    s.runRow n cc row (p.operand r) reg = .error (s.endWith code) := by
  rw [State.runRow]
  obtain hw | ⟨hw, hv, rfl⟩ := State.window_of_windowError h r
  · rw [hw]
    rfl
  · rw [bind_eq_of_ok hw, if_pos ⟨hform, by rw [hv]; rfl⟩]

theorem State.runRow_eq (ho : o.isSome = true ↔ row.form = .C) (h : ∀ p, o = some p → s.WindowOk p row.size) :
    s.runRow n cc row (stateOperand o r) reg = .ok (s.applyStep n cc 0 (stateOperand o r) .none
      (row.act (if row.form = .C then s.readOperand (stateOperand o r) else reg))) := by
  rw [State.runRow]
  cases o with
  | none =>
    have hform : row.form ≠ .C := fun hC => Bool.noConfusion (ho.2 hC)
    exact if_neg fun hbad => hform hbad.1
  | some p =>
    have hok := h p rfl
    rw [stateOperand, Option.elim_some, bind_eq_of_ok (State.window_of_windowOk hok r), hok.valid]
    exact if_neg fun hbad => Bool.noConfusion hbad.2

/-- Each of the four ways to request a row finds the row and its operand (42_exec_state_io.md R255 to R257, R262). -/
theorem exec_of_stateReady (h : s.StateReady i n cc row o aux) :
    s.getCR n = .configured cc ∧ (o.isSome = true ↔ row.form = .C) ∧
      ∃ (r : Reg) (reg : Nat), exec i s = finish (s.runRow n cc row (stateOperand o r) reg) ∧
        aux = if row.form = .C then s.readOperand (stateOperand o r) else reg := by
  obtain ⟨hu, k, r, imm, hn, hc, hrow, h⟩ := h
  obtain ⟨rfl, hf, hq, rfl, rfl⟩ | ⟨rfl, hf, hq, rfl, rfl⟩ | ⟨rfl, hf, hV, hq, rfl, rfl⟩ |
    ⟨rfl, hf, hq, hb, rfl, rfl⟩ := h <;> rw [hf] at hrow ⊢
  · exact ⟨hc.configured, by simp, r, 0, congrArg finish
      (State.aceState_row nofun hn hu hc (e := .A) (op := .none) (by rw [hq]; rfl) hrow), rfl⟩
  · exact ⟨hc.configured, by simp, r, _, congrArg finish
      (State.aceState_row nofun hn hu hc (e := .B) (op := .none) (by rw [hq]; rfl) hrow), rfl⟩
  · exact ⟨hc.configured, by simp, r, 0, congrArg finish
      (State.aceState_row (fun _ => hV) hn hu hc (e := .C) (op := .vector r) (by rw [hq]; rfl) hrow), rfl⟩
  · exact ⟨hc.configured, by simp, 0, 0, congrArg finish
      (State.aceState_row nofun hn hu hc (e := .C) (op := .buffer) (by rw [hq, decide_eq_true hb]; rfl) hrow), rfl⟩

/-- The row's action is applied where its operand has a window. -/
theorem exec_of_stateReady_windowOk (h : s.StateReady i n cc row o aux)
    (hw : ∀ p, o = some p → s.WindowOk p row.size) :
    s.getCR n = .configured cc ∧
      ∃ r, exec i s = .next (s.applyStep n cc 0 (stateOperand o r) .none (row.act aux)) := by
  obtain ⟨hc, ho, r, reg, hexec, rfl⟩ := exec_of_stateReady h
  exact ⟨hc, r, by rw [hexec, State.runRow_eq ho hw, finish_ok]⟩

/-- Settles O56: the row's action is applied, without an output. -/
theorem stateCompletes : Obligations.StateCompletes := by
  intro s i n cc row o aux tick r code hready hw htick hstep hend
  obtain ⟨-, k, hexec⟩ := exec_of_stateReady_windowOk hready hw
  rw [hexec, ← hstep, State.applyStep_done hend, s.tick_stateOperand, ← htick]
  rfl

end Sys2Proof.Machine

/-! PROOF. The errors, traps and invalidations of the instructions of a replacement sequence
(42_exec_state_io.md R249 to R270). -/
namespace Sys2Proof.Machine

variable {s : State} {n : Fin 32} {cc : Context} {f : Form} {ind : Bool} {field vd vs r : Reg} {imm : BitVec 7}
  {q : BitVec 2} {allowed : Option Form} {bound : Bool}

/-! ### A step that invalidates the CR (42_exec_state_io.md R270) -/

/-- Settles O53: whatever the Form and the place of the operand, the outcome of the step is applied. -/
theorem invalidatingStep : Obligations.InvalidatingStep := by
  intro s i n cc r tick code hend h
  obtain ⟨f, ind, field, vd, vs, row, rfl, hn, hr, hf, hV, hq, hw, hstep, rfl⟩ |
    ⟨ind, field, row, rfl, hn, hr, hq, hv, hstep, rfl⟩ |
    ⟨f, ind, field, row, q, rfl, hn, hr, hst, hw, hstep, rfl⟩ | ⟨row, o, aux, hready, hw, hstep, rfl⟩ := h
  · rw [exec_vectorForm hn hr hf hV hq, State.runExec_windowOk hf hw, s.formInput_eq hf, ← hstep,
      State.applyStep_invalidate hend hr.configured, s.tick_formPlan hf]
    rfl
  · rw [exec_formD hn hr hq, State.runExec_formD hv, ← hstep, State.applyStep_invalidate hend hr.configured]
    rfl
  · rw [exec_standsFor hn hr hst, State.runExec_windowOk hst.ne_D hw, s.formInput_eq hst.ne_D, ← hstep,
      State.applyStep_invalidate hend hr.configured, s.tick_formPlan hst.ne_D]
    rfl
  · obtain ⟨hc, k, hexec⟩ := exec_of_stateReady_windowOk hready hw
    rw [hexec, ← hstep, State.applyStep_invalidate hend hc, s.tick_stateOperand]
    rfl

/-! ### An operand without a window of the right size (42_exec_state_io.md R243, R246, R247) -/

/-- Settles O49: a transfer ends at its check of the window, a step and a row before anything is read. -/
theorem windowErrors : Obligations.WindowErrors := by
  intro s i code h
  obtain ⟨off, x, xl, hlen, htransfer, hcode⟩ |
    ⟨f, ind, field, vd, vs, n, cc, row, rfl, hn, hr, hf, hV, hq, hw⟩ |
    ⟨f, ind, field, n, cc, row, q, rfl, hn, hr, hst, hw⟩ | ⟨n, cc, row, p, aux, hready, hw⟩ := h
  · have hrefused := State.checkTransfer_refused hcode
    obtain ⟨rfl, hallowed⟩ | ⟨rfl, hallowed⟩ := htransfer
    · rw [exec_input hlen, State.aceInput, bind_eq_of_ok (State.checkBound_input hallowed _), hrefused]
      rfl
    · rw [exec_output hlen, State.aceOutput, bind_eq_of_ok (State.checkBound_output hallowed _), hrefused]
      rfl
  · rw [exec_vectorForm hn hr hf hV hq, State.runExec_windowError hf hw]
    rfl
  · rw [exec_standsFor hn hr hst, State.runExec_windowError hst.ne_D hw]
    rfl
  · obtain ⟨-, ho, r, reg, hexec, -⟩ := exec_of_stateReady hready
    have hrun : s.runRow n cc row (stateOperand (some p) r) reg = .error (s.endWith code) :=
      State.runRow_windowError (ho.1 rfl) hw
    rw [hexec, hrun]
    rfl

/-! ### A Form that the state does not allow (42_exec_state_io.md R251, R255) -/

theorem Form.hasV_of_present {c : Config} (h : (f.execInstr ind field vd vs).present c = true) (hf : f ≠ .D) :
    c.hasV = true := by
  cases f with
  | A | B | C => cases ind <;> exact h
  | D => exact absurd rfl hf

theorem execPlan_not_allowed (ha : allowed ≠ some f) (hD : f = .D → allowed = some .C → bound = false) :
    execPlan f vd vs 0 allowed bound = some none := by
  by_cases hf : f = .D
  · subst hf
    obtain _ | _ | _ | _ | _ := allowed
    case some.C => rw [hD rfl rfl]; rfl
    case some.D => exact absurd rfl ha
    all_goals rfl
  · rw [execPlan, if_neg hf, if_neg (by decide), if_neg ha]

theorem State.aceState_not_allowed (hn : s.Names false field n) (hu : s.Unbound n) (hc : s.Changeable n cc imm)
    (hq : s.acesequence = 0) (hrows : ccRows s.cfg s.env cc imm.toNat ≠ [])
    (hform : ∀ row ∈ ccRows s.cfg s.env cc imm.toNat, row.form ≠ f) (hV : f = .C → s.cfg.hasV = true)
    (w : InstrWord) (r : Reg) :
    finish (s.aceState w f field imm.toNat r) = .next (s.illegal w) := by
  have hplan : statePlan f r s.acesequence (s.aceactivecr.toNat = n.val) =
      some (f, if f = .C then .vector r else .none) := if_pos hq
  rw [State.aceState_no_form hV hn hu hc hplan hrows hform, if_neg (by rw [hq]; decide), finish_error]

/-- Settles O54: no sequence is in progress, so a Form without a plan or a row is no ordering violation. -/
theorem formNotAllowedTraps : Obligations.FormNotAllowedTraps := by
  intro s i n cc hpresent hu hq
  constructor
  · rintro ⟨f, ind, field, vd, vs, rfl, hn, hc, ha, hD⟩
    have hplan : execPlan f vd vs s.acesequence (execForm s.cfg s.env cc) (s.aceactivecr.toNat = n.val) =
        some none := by
      rw [hq]
      exact execPlan_not_allowed ha fun hf hC => decide_eq_false (hD hf hC)
    rw [exec_execInstr, State.aceExec_not_allowed (Form.hasV_of_present hpresent) hn hu hc hplan,
      s.formNotAllowed_eq hc.configured]
    rfl
  · rintro ⟨k, r, imm, f, hn, hc, hi, hrows, hform⟩
    obtain ⟨rfl, rfl⟩ | ⟨rfl, rfl⟩ | ⟨rfl, rfl⟩ := hi
    · exact State.aceState_not_allowed hn hu hc hq hrows hform nofun _ 0
    · exact State.aceState_not_allowed hn hu hc hq hrows hform nofun _ r
    · exact State.aceState_not_allowed hn hu hc hq hrows hform (fun _ => hpresent) _ r

/-! ### An instruction out of order (42_exec_state_io.md R262, R263) -/

theorem execPlan_out_of_order {seq : BitVec 2} (hq : seq ≠ 0)
    (hD : f = .D → seq = 1 → bound = true → allowed ≠ some .A ∧ allowed ≠ some .B) :
    execPlan f vd vs seq allowed bound = none := by
  by_cases hf : f = .D
  · rw [execPlan, if_pos hf]
    unfold formDPlan
    rw [if_neg hq]
    by_cases hsecond : seq = 1 ∧ bound = true
    · obtain ⟨hA, hB⟩ := hD hf hsecond.1 hsecond.2
      rw [if_pos hsecond]
      obtain _ | _ | _ | _ | _ := allowed
      case some.A => exact absurd rfl hA
      case some.B => exact absurd rfl hB
      all_goals rfl
    · rw [if_neg hsecond]
  · rw [execPlan, if_neg hf, if_pos hq]

theorem statePlan_out_of_order {seq : BitVec 2} (hq : seq ≠ 0) (h : f = .A → seq = 1 → bound = false) :
    statePlan f r seq bound = none := by
  rw [statePlan, if_neg hq, if_neg]
  rintro ⟨hf, h1, hb⟩
  rw [h hf h1] at hb
  cases hb

section
variable (hu : s.Unbound n) (hq : s.acesequence ≠ 0)
include hu hq

theorem State.aceExec_in_sequence (hn : s.Names ind field n) (hc : s.Usable n cc) (hV : f ≠ .D → s.cfg.hasV = true)
    (hD : f = .D → s.acesequence = 1 → s.aceactivecr.toNat = n.val →
      execForm s.cfg s.env cc ≠ some .A ∧ execForm s.cfg s.env cc ≠ some .B) (w : InstrWord) (vd vs : Reg) :
    finish (s.aceExec w f ind field vd vs) = .next (s.seqViolation w n) := by
  rw [State.aceExec_out_of_order hV hn hu hc
    (execPlan_out_of_order hq fun hf h1 hb => hD hf h1 (of_decide_eq_true hb)), finish_error]

theorem State.aceState_in_sequence (hn : s.Names false field n) (hc : s.Changeable n cc imm)
    (hV : f = .C → s.cfg.hasV = true)
    (hA : f = .A → s.acesequence = 1 → s.aceactivecr.toNat = n.val → ccRows s.cfg s.env cc imm.toNat ≠ [] ∧
      ∀ row ∈ ccRows s.cfg s.env cc imm.toNat, row.form ≠ .C) (w : InstrWord) (r : Reg) :
    finish (s.aceState w f field imm.toNat r) = .next (s.seqViolation w n) := by
  by_cases hsecond : f = .A ∧ s.acesequence = 1 ∧ s.aceactivecr.toNat = n.val
  · obtain ⟨rfl, h1, hb⟩ := hsecond
    obtain ⟨hrows, hform⟩ := hA rfl h1 hb
    have hplan : statePlan .A r s.acesequence (s.aceactivecr.toNat = n.val) = some (.C, .buffer) := by
      rw [h1, decide_eq_true hb]
      rfl
    rw [State.aceState_no_form hV hn hu hc hplan hrows hform, if_pos h1, finish_error]
  · rw [State.aceState_out_of_order hV hn hu hc (statePlan_out_of_order hq fun hf h1 =>
      decide_eq_false fun hb => hsecond ⟨hf, h1, hb⟩), finish_error]

end

/-- Settles O55: no plan fits the point of the sequence, or the transfer may not stand there. -/
theorem orderViolationInvalidates : Obligations.OrderViolationInvalidates := by
  intro s i n cc hnum hu hpresent h
  have hend (hc : s.getCR n = .configured cc) (hexec : exec i s = .next (s.seqViolation (s.word i) n)) :=
    hexec.trans (congrArg Host.Outcome.next (s.seqViolation_eq hc (s.word i)))
  cases i with
  | execAK | execAX | execBK | execBX | execCK | execCX =>
    obtain ⟨hc, hn, hq⟩ := h
    exact hend hc.configured (State.aceExec_in_sequence hu hq hn hc (fun _ => hpresent) (by nofun) _ _ _)
  | execDK | execDX =>
    obtain ⟨hc, hn, hq, hD⟩ := h
    exact hend hc.configured (State.aceExec_in_sequence hu hq hn hc (absurd rfl) (fun _ => hD) _ _ _)
  | stateA =>
    obtain ⟨hc, hn, hq, hA⟩ := h
    exact hend hc.configured (State.aceState_in_sequence hu hq hn hc (by nofun) (fun _ => hA) _ _)
  | stateB =>
    obtain ⟨hc, hn, hq⟩ := h
    exact hend hc.configured (State.aceState_in_sequence hu hq hn hc (by nofun) (by nofun) _ _)
  | stateC =>
    obtain ⟨hc, hn, hq⟩ := h
    exact hend hc.configured (State.aceState_in_sequence hu hq hn hc (fun _ => hpresent) (by nofun) _ _)
  | input =>
    obtain ⟨hc, hb, hlen, hbad⟩ := h
    have hrefused : s.inputAllowed cc = false := by
      rw [← Bool.not_eq_true, s.inputAllowed_iff]
      rintro ⟨hq, hexpected⟩
      rcases hbad with hbad | hbad
      · exact hbad hq
      · rw [hbad] at hexpected
        cases hexpected
    refine hend hc.configured ?_
    rw [exec_input hlen, State.aceInput, State.checkBound_out_of_order hb hnum hc hrefused, bind_error, finish_error]
  | output =>
    obtain ⟨hc, hb, hlen, hbad⟩ := h
    have hrefused : (s.acesequence = 1 || s.acesequence = 2) = false := by
      obtain hq | hq := hbad <;> rw [hq] <;> rfl
    refine hend hc.configured ?_
    rw [exec_output hlen, State.aceOutput, State.checkBound_out_of_order hb hnum hc hrefused, bind_error, finish_error]
  | _ => exact h.elim

/-! ### A transition that does not exist (42_exec_state_io.md R258) -/

theorem State.aceState_impossible {e : Form} {op : Operand} (hn : s.Names false field n) (hu : s.Unbound n)
    (hc : s.Changeable n cc imm) (hrows : ccRows s.cfg s.env cc imm.toNat = []) (w : InstrWord) (r : Reg)
    (hplan : statePlan f r s.acesequence (s.aceactivecr.toNat = n.val) = some (e, op))
    (hV : f = .C → s.cfg.hasV = true) :
    finish (s.aceState w f field imm.toNat r) = .next { s with
      cr := s.cr.set n.val (.configured { cc with mh := mhSetState cc.mh 14, exporting := false }) n.isLt
      aceerror := 7, acestart := 0, pc := addX s.cfg s.pc 4 } := by
  rw [State.aceState_no_row hV hn hu hc hplan hrows, s.invalidateWith_eq hc.configured]
  rfl

/-- Settles O57: `ace.state` may stand here, and no row leads to the state it asks for. -/
theorem stateNotAllowedInvalidates : Obligations.StateNotAllowedInvalidates := by
  intro s i field r imm n cc hi hpresent hn hu hc hrows
  obtain ⟨hq, rfl | rfl | rfl⟩ | ⟨hq, hb, rfl⟩ := hi
  · exact State.aceState_impossible hn hu hc hrows _ 0 (if_pos hq) (by nofun)
  · exact State.aceState_impossible hn hu hc hrows _ r (if_pos hq) (by nofun)
  · exact State.aceState_impossible hn hu hc hrows _ r (if_pos hq) fun _ => hpresent
  · have hplan : statePlan .A 0 s.acesequence (s.aceactivecr.toNat = n.val) = some (.C, .buffer) := by
      rw [hq, decide_eq_true hb]
      rfl
    exact State.aceState_impossible hn hu hc hrows _ 0 hplan nofun

end Sys2Proof.Machine


/-! PROOF. Unsealing what was sealed (43_sealing.md R295 to R299). -/
namespace Sys2Proof.Machine

/-- Settles O32: encryption adds a keystream of the tag and the block index alone, so decryption adds it a second time
(`State.sealCrypt_sealCrypt`), and the tag of what comes out is then the tag that was given. -/
theorem unsealOfSeal : Obligations.UnsealOfSeal :=
  State.unseal_sealCrypt

end Sys2Proof.Machine

/-! PROOF. Bit strings, bit by bit (00_scope.md R12, R13), and the blocks of an operand (44_alg_block_modes.md R323). -/
namespace Sys2Proof.Machine

@[simp] theorem testBit_low (w v i : Nat) : (low w v).testBit i = (decide (i < w) && v.testBit i) :=
  Nat.testBit_mod_two_pow v w i

@[simp] theorem testBit_slice (v lo w i : Nat) :
    (slice v lo w).testBit i = (decide (i < w) && v.testBit (lo + i)) := by
  rw [slice, Nat.testBit_mod_two_pow, Nat.testBit_shiftRight]

theorem slice_lt_two_pow (v lo w : Nat) : slice v lo w < 2 ^ w := Nat.mod_lt _ (Nat.two_pow_pos w)

theorem testBit_cat {lo w : Nat} (h : lo < 2 ^ w) (hi i : Nat) :
    (cat hi w lo).testBit i = if i < w then lo.testBit i else hi.testBit (i - w) := by
  rw [cat, Nat.shiftLeft_eq, Nat.mul_comm, Nat.testBit_two_pow_mul_add hi h]

/-- The lower part of a concatenation. -/
theorem slice_cat_low {lo w : Nat} (h : lo < 2 ^ w) (hi : Nat) : slice (cat hi w lo) 0 w = lo := by
  rw [slice, Nat.shiftRight_zero, cat, Nat.shiftLeft_eq, Nat.mul_add_mod_self_right, Nat.mod_eq_of_lt h]

/-- The upper part of a concatenation starts at the width of the lower. -/
theorem slice_cat_high {lo w : Nat} (h : lo < 2 ^ w) (hi i k : Nat) : slice (cat hi w lo) (w + i) k = slice hi i k := by
  rw [slice, Nat.shiftRight_add, cat, Nat.shiftLeft_eq, Nat.shiftRight_eq_div_pow _ w, Nat.mul_comm,
    Nat.mul_add_div (Nat.two_pow_pos w), Nat.div_eq_of_lt h, Nat.add_zero, slice]

theorem slice_shiftRight (v b i w : Nat) : slice (v >>> b) i w = slice v (b + i) w := by
  rw [slice, slice, Nat.shiftRight_add]

/-- A slice below bit `w` is one of the low `w` bits. -/
theorem slice_low {lo k w : Nat} (h : lo + k ≤ w) (v : Nat) : slice (low w v) lo k = slice v lo k := by
  refine Nat.eq_of_testBit_eq fun i => ?_
  rw [testBit_slice, testBit_slice, testBit_low]
  by_cases hi : i < k
  · rw [decide_eq_true (show lo + i < w by omega), Bool.true_and]
  · rw [decide_eq_false hi, Bool.false_and, Bool.false_and]

/-- All `w` bits of a string replaced. -/
theorem low_splice_zero (v w new : Nat) : low w (splice v 0 w new) = low w new := by
  simp [low, splice, Nat.mod_one, Nat.shiftLeft_eq]

/-- Each block of an operand goes through `g` where the per-block behaviour has no state
(44_alg_block_modes.md R323). -/
theorem blockLoop_stateless (b : Nat) (g : Nat → Nat) (blocks input : Nat) :
    ∃ out, blockLoop b (fun _ p => some ((), g p)) blocks () input = some ((), out) ∧
      ∀ j, j < blocks → slice out (j * b) b = g (slice input (j * b) b) % 2 ^ b := by
  induction blocks generalizing input with
  | zero => exact ⟨0, rfl, nofun⟩
  | succ blocks ih =>
    obtain ⟨out, hloop, hout⟩ := ih (input >>> b)
    have hblock : g (input % 2 ^ b) % 2 ^ b < 2 ^ b := Nat.mod_lt _ (Nat.two_pow_pos b)
    refine ⟨cat out b (g (input % 2 ^ b) % 2 ^ b), by simp only [blockLoop, hloop], fun j hj => ?_⟩
    cases j with
    | zero => rw [Nat.zero_mul, slice_cat_low hblock, slice, Nat.shiftRight_zero]
    | succ j =>
      rw [Nat.succ_mul, Nat.add_comm, slice_cat_high hblock, hout j (Nat.lt_of_succ_lt_succ hj), slice_shiftRight]

/-- The `blocks(b)` class on a whole number of blocks, where the per-block behaviour has no state
(42_exec_state_io.md R243). -/
theorem blocksStep_stateless {b : Nat} (hb : 0 < b) (g : Nat → Nat) (wrap : Unit → Ist) (sn : BitVec 4)
    (blocks input : Nat) :
    ∃ out, blocksStep b (fun _ p => some ((), g p)) () wrap sn input (blocks * b) =
        Step.output (wrap ()) sn out (blocks * b) ∧
      ∀ j, j < blocks → slice out (j * b) b = g (slice input (j * b) b) % 2 ^ b := by
  obtain ⟨out, hloop, hout⟩ := blockLoop_stateless b g blocks input
  refine ⟨out, ?_, hout⟩
  rw [blocksStep, Nat.mul_div_cancel _ hb, hloop]

end Sys2Proof.Machine

/-! PROOF. What a vector register group reads as after it is written (10_state.md R36). -/
namespace Sys2Proof.Machine

variable {s t : State}

theorem State.vecPart_lt_two_pow (s : State) (r i : Nat) : s.vecPart r i < 2 ^ s.cfg.vlen := by
  unfold State.vecPart
  split <;> exact Nat.mod_lt _ (Nat.two_pow_pos _)

theorem State.vecJoin_succ (s : State) (r k : Nat) :
    s.vecJoin r (k + 1) = cat (s.vecPart r k) (s.cfg.vlen * k) (s.vecJoin r k) := Nat.add_comm ..

theorem State.vecJoin_lt_two_pow (s : State) (r k : Nat) : s.vecJoin r k < 2 ^ (s.cfg.vlen * k) := by
  induction k with
  | zero => exact Nat.one_pos
  | succ k ih =>
    rw [State.vecJoin_succ, cat, Nat.shiftLeft_eq, Nat.mul_comm, Nat.mul_succ, Nat.pow_add]
    calc 2 ^ (s.cfg.vlen * k) * s.vecPart r k + s.vecJoin r k
      _ < 2 ^ (s.cfg.vlen * k) * (s.vecPart r k + 1) := Nat.add_lt_add_left ih _
      _ ≤ 2 ^ (s.cfg.vlen * k) * 2 ^ s.cfg.vlen := Nat.mul_le_mul_left _ (s.vecPart_lt_two_pow r k)

/-- Bit `k` of register `i` of a group is bit `VLEN*i + k` of the bit string. -/
theorem State.testBit_vecJoin (s : State) (r : Nat) {n i k : Nat} (hi : i < n) (hk : k < s.cfg.vlen) :
    (s.vecJoin r n).testBit (s.cfg.vlen * i + k) = (s.vecPart r i).testBit k := by
  induction n with
  | zero => exact absurd hi (Nat.not_lt_zero i)
  | succ n ih =>
    rw [State.vecJoin_succ, testBit_cat (s.vecJoin_lt_two_pow r n)]
    obtain hlt | rfl := Nat.lt_succ_iff_lt_or_eq.1 hi
    · have hbelow : s.cfg.vlen * (i + 1) ≤ s.cfg.vlen * n := Nat.mul_le_mul_left _ hlt
      rw [if_pos (by rw [Nat.mul_succ] at hbelow; omega), ih hlt]
    · rw [if_neg (by omega), Nat.add_sub_cancel_left]

/-- A register takes its bits of the new value, as far as the group reaches. -/
theorem State.testBit_vecNew (s : State) (r new : Nat) {i k : Nat} (hk : k < s.cfg.vlen)
    (hbit : s.cfg.vlen * i + k < s.vecBits) :
    (s.vecNew r new (r + i)).testBit k = new.testBit (s.cfg.vlen * i + k) := by
  have hpartial : k < s.vecBits - s.cfg.vlen * i := by omega
  rw [State.vecNew, Nat.add_sub_cancel_left]
  split
  · rw [testBit_slice, decide_eq_true hk, Bool.true_and]
  · rw [testBit_cat (slice_lt_two_pow ..), if_pos hpartial, testBit_slice, decide_eq_true hpartial, Bool.true_and]

/-- A register of the group is there for each bit of `V(r)`. -/
theorem State.div_vlen_lt_vecRegs (hvlen : 0 < s.cfg.vlen) {i : Nat} (hi : i < s.vecBits) :
    i / s.cfg.vlen < s.vecRegs := by
  rw [State.vecRegs, ← Nat.succ_le_iff, Nat.le_div_iff_mul_le hvlen, Nat.succ_mul]
  have := Nat.div_mul_le_self i s.cfg.vlen
  omega

theorem State.vecPart_of_writeVec (hcfg : t.cfg = s.cfg) {r : Reg} {new : Nat} (hv : t.v = (s.writeVec r new).v)
    (hfit : r.toNat + s.vecRegs ≤ 32) {i : Nat} (hi : i < s.vecRegs) :
    t.vecPart r.toNat i = low s.cfg.vlen (s.vecNew r.toNat new (r.toNat + i)) := by
  have hreg : r.toNat + i < 32 := by omega
  rw [State.vecPart, dif_pos hreg, hcfg]
  simp only [hv, State.writeVec, Vector.getElem_ofFn]
  rw [if_pos (by omega)]

/-- A group within `v0` to `v31` reads as it was written, whatever the counter of the free values is by then. -/
theorem State.readVec_of_writeVec (hcfg : t.cfg = s.cfg) (hvl : t.vl = s.vl) (hsew : t.sew = s.sew)
    {r : Reg} {new : Nat} (hv : t.v = (s.writeVec r new).v) (hvlen : 0 < s.cfg.vlen)
    (hfit : r.toNat + s.vecRegs ≤ 32) :
    t.readVec r = low s.vecBits new := by
  have hbits : t.vecBits = s.vecBits := by rw [State.vecBits, hvl, hsew, State.vecBits]
  have hregs : t.vecRegs = s.vecRegs := by rw [State.vecRegs, hbits, hcfg, State.vecRegs]
  refine Nat.eq_of_testBit_eq fun i => ?_
  rw [State.readVec, hbits, hregs, testBit_low, testBit_low]
  by_cases hi : i < s.vecBits
  · have hreg := State.div_vlen_lt_vecRegs hvlen hi
    have hk : i % s.cfg.vlen < s.cfg.vlen := Nat.mod_lt i hvlen
    have hsplit : s.cfg.vlen * (i / s.cfg.vlen) + i % s.cfg.vlen = i := Nat.div_add_mod i s.cfg.vlen
    have hjoin := t.testBit_vecJoin r.toNat hreg (k := i % s.cfg.vlen) (by rwa [hcfg])
    rw [State.vecPart_of_writeVec hcfg hv hfit hreg, testBit_low, decide_eq_true hk, Bool.true_and,
      s.testBit_vecNew _ _ hk (by rwa [hsplit]), hcfg, hsplit] at hjoin
    rw [hjoin]
  · rw [decide_eq_false hi, Bool.false_and, Bool.false_and]

end Sys2Proof.Machine

/-! PROOF. `ace.exec` of ECB (44_alg_block_modes.md R326 to R328). -/
namespace Sys2Proof.Machine

variable {s : State} {c : Cipher} {cc : Context} {e : AlgEntry} {key : Nat} {crypt : Nat → Nat}

/-- The row of ECB in a state with the per-block behaviour `crypt`. -/
def ecbRow (c : Cipher) (crypt : Nat → Nat) (key : Nat) (sn : BitVec 4) : ExecRow :=
  ⟨.A, .blocks c.blockBits, blocksStep c.blockBits (fun _ p => some ((), crypt p)) () (fun _ => .ecb key) sn⟩

theorem ccExec_ecb (he : algEntry s.cfg cc.mh = some e) (halg : e.algDef = .ecb c) (hist : cc.ist = .ecb key)
    (hcrypt : (mhState cc.mh = 6 ∧ crypt = encBlk c key) ∨ (mhState cc.mh = 7 ∧ crypt = decBlk c key)) :
    ccExec s.cfg s.env cc = some (ecbRow c crypt key (mhState cc.mh)) := by
  rw [ccExec, he]
  dsimp only
  rw [halg, hist, execOf]
  obtain ⟨hstate, rfl⟩ | ⟨hstate, rfl⟩ := hcrypt <;> rw [hstate] <;> rfl

/-- An operand of a whole number of blocks, taken from its first element on (42_exec_state_io.md R243, R246). -/
theorem State.windowOk_blocks {b blocks : Nat} (hstart : s.acestart = 0) (hb : 0 < b) (hblocks : 0 < blocks)
    (hsize : s.vl * s.sew = blocks * b) : s.WindowOk .vectors (.blocks b) ∧ s.iolen .vectors = blocks * b := by
  have hiolen : s.iolen .vectors = blocks * b := by rw [State.iolen, hstart, ← hsize]; rfl
  have hpos : 0 < blocks * b := Nat.mul_pos hblocks hb
  have hvl : 0 < s.vl := Nat.pos_of_mul_pos_right (hsize ▸ hpos)
  refine ⟨⟨nofun, by rw [hstart]; exact hvl, ?_⟩, hiolen⟩
  rw [hiolen, SizeClass.valid, Nat.mul_mod_left, decide_eq_true hpos]
  rfl

/-- A step of ECB keeps the context, but for the mark of an export. -/
theorem ccAfter_ecb (hist : cc.ist = .ecb key) (cfg : Config) (out written : Nat) :
    ccAfter cfg cc (Step.output (.ecb key) (mhState cc.mh) out written) = { cc with exporting := false } := by
  simp [ccAfter, Step.output, ccSync, hist]

/-- Settles O52: `ace.exec` completes with the row of ECB, whose output is written to the whole destination. -/
theorem ecbProcessesBlocks : Obligations.EcbProcessesBlocks := by
  intro s ind field vd vs n cc e c key blocks crypt hV hn hu hc hq hstart he halg hist hcrypt hb hblocks hsize hvlen
    hfit
  obtain ⟨hwindow, hiolen⟩ := State.windowOk_blocks hstart hb hblocks hsize
  obtain ⟨out, hstep, hout⟩ :=
    blocksStep_stateless hb crypt (fun _ => .ecb key) (mhState cc.mh) blocks (s.readVec vs)
  have hfirst : s.acestart.toNat * s.sew = 0 := by rw [hstart]; exact Nat.zero_mul _
  have hinput : s.inputAt vs .vectors = s.readVec vs := by rw [State.inputAt, hfirst, Nat.shiftRight_zero]
  have hexec := execVectorCompletes s .A ind field vd vs n cc (ecbRow c crypt key (mhState cc.mh)) (s.readVec vs)
    (Step.output (.ecb key) (mhState cc.mh) out (blocks * c.blockBits)) 0 hn
    ⟨hu, hc, ccExec_ecb he halg hist hcrypt, rfl⟩ nofun hV hq hwindow hinput.symm
    (by rw [hiolen]; exact hstep.symm) (.inl ⟨rfl, rfl⟩)
  have hinstr : Form.A.execInstr ind field vd vs = if ind then .execAX vd field vs else .execAK vd field vs := by
    cases ind <;> rfl
  have hdest : Form.A ≠ .B := nofun
  rw [if_neg hdest, ccAfter_ecb hist, hfirst, hinstr] at hexec
  have hbits : s.vecBits = blocks * c.blockBits := hsize
  refine ⟨_, hexec, fun j hj => ?blocks, s.getCR_setCR_same n _, rfl, rfl, rfl, rfl, rfl,
    fun m hm => s.getCR_setCR_other hm _⟩
  have hinside : j * c.blockBits + c.blockBits ≤ blocks * c.blockBits := by
    rw [← Nat.succ_mul]
    exact Nat.mul_le_mul_right _ hj
  rw [State.readVec_of_writeVec (s := s) (new := splice (s.readVec vd) 0 (blocks * c.blockBits) out)
    ?hcfg ?hvl ?hsew ?hv hvlen hfit, hbits, low_splice_zero, slice_low hinside, hout j hj]
  case hcfg | hvl | hsew | hv => rfl

end Sys2Proof.Machine

/-! PROOF. What an exception changes and what it leaves as it is, and the host's return from its handler
(60_exceptions.md R532, R533, R540, R541, R550). -/
namespace Sys2Proof.Machine

variable {s t : State} {i : Instr}

/-! ### The host's handler (60_exceptions.md R540, R541) -/

theorem State.applyEvents_of_cons {batch : List Event} {rest : List (List Event)} (h : s.events = batch :: rest) :
    s.applyEvents = batch.foldl State.applyEvent { s with events := rest } := by
  unfold State.applyEvents
  rw [h]

/-- The machine stops while an exception is with the host's handler (log 7). -/
theorem runNext_of_trap {e : Trap} (h : s.trap = some e) : runNext s = .refused (.hostTrap e) := by
  unfold runNext
  rw [h]

/-- Settles O7: the event is applied before the step looks for a pending exception. -/
theorem handlerReturns : Obligations.HandlerReturns := by
  intro s e a rest hevents htrap
  refine ⟨?_, ?_⟩
  · rw [step, State.applyEvents_of_cons hevents]
    rfl
  · rw [step, State.applyEvents_of_nil rfl]
    exact runNext_of_trap (s := { s with events := [] }) htrap

/-! ### What belongs to the host (60_exceptions.md R550, R556) -/

/-- What no ACE instruction works on: the parameters, the privilege, the vector configuration, the secrets, the clock,
the events to come, the binding and the horizontal trap CSRs. -/
structure HostView where
  cfg : Config
  mode : Mode
  hEnabled : Bool
  virt : Bool
  vl : Nat
  sew : Nat
  csk : BitVec 256
  lst : Vector (Option (BitVec 128)) 11
  skt : List (BitVec 64 × List Byte)
  nowHours : Nat
  events : List (List Event)
  aceactivecr : BitVec 6
  acehtrapmask : Word
  acehtrapvector : Word

def State.hostView (s : State) : HostView :=
  ⟨s.cfg, s.mode, s.hEnabled, s.virt, s.vl, s.sew, s.csk, s.lst, s.skt, s.nowHours, s.events, s.aceactivecr,
    s.acehtrapmask, s.acehtrapvector⟩

theorem State.hostView_eq_iff (s t : State) : t.hostView = s.hostView ↔
    t.cfg = s.cfg ∧ t.mode = s.mode ∧ t.hEnabled = s.hEnabled ∧ t.virt = s.virt ∧ t.vl = s.vl ∧ t.sew = s.sew ∧
    t.csk = s.csk ∧ t.lst = s.lst ∧ t.skt = s.skt ∧ t.nowHours = s.nowHours ∧ t.events = s.events ∧
    t.aceactivecr = s.aceactivecr ∧ t.acehtrapmask = s.acehtrapmask ∧ t.acehtrapvector = s.acehtrapvector := by
  simp only [State.hostView, HostView.mk.injEq]

/-- The invalidation of a CR changes the CR file and nothing else (42_exec_state_io.md R270). -/
theorem State.invalidate_eq (s : State) (n : Fin 32) : s.invalidate n = { s with cr := (s.invalidate n).cr } := by
  unfold State.invalidate
  split
  · rfl
  · rfl

theorem State.invalidateWith_hostView (s : State) (n : Fin 32) (code : BitVec 4) :
    (s.invalidateWith n code).hostView = s.hostView := by
  rw [State.invalidateWith, s.invalidate_eq]
  rfl

theorem State.applyStep_hostView {n : Fin 32} {cc : Context} (hc : s.getCR n = .configured cc) (q : BitVec 2)
    (src dst : Operand) (r : Step) : (s.applyStep n cc q src dst r).hostView = s.hostView := by
  obtain ⟨code, h⟩ | ⟨code, h⟩ := r.outcome_cases
  · rw [State.applyStep_done h]
    rfl
  · rw [State.applyStep_invalidate h hc]
    rfl

/-- A step writes into the buffer and keeps its length and the bound of its window (10_state.md R58, R59). -/
theorem State.applyStep_buffer {n : Fin 32} {cc : Context} (hc : s.getCR n = .configured cc) (q : BitVec 2)
    (src dst : Operand) (r : Step) : (s.applyStep n cc q src dst r).aceiobuflen = s.aceiobuflen ∧
      (s.applyStep n cc q src dst r).aceiobuftop = s.aceiobuftop := by
  obtain ⟨code, h⟩ | ⟨code, h⟩ := r.outcome_cases
  · rw [State.applyStep_done h]
    exact ⟨rfl, rfl⟩
  · rw [State.applyStep_invalidate h hc]
    exact ⟨rfl, rfl⟩

theorem Ends.hostView_eq (he : Ends i s t) : t.hostView = s.hostView := by
  cases he with
  | trap | range | releasedTrap | code | released | loaded | cloned | restricted | reset | nop => rfl
  | invalidTrap n w => rw [s.invalidate_eq]; rfl
  | invalid n code => exact s.invalidateWith_hostView n code
  | applied n cc q src dst r _ _ hs => exact State.applyStep_hostView hs q src dst r
  | exported | sized | errorRead | input | output => simp [State.hostView]

/-- Only `ace.reset` changes the length of the buffer and the bound of its window (41_cr_management.md R200). -/
theorem Ends.buffer_kept (he : Ends i s t) (hreset : i ≠ .aceReset) (hclear : i ≠ .clearX 0) :
    t.aceiobuflen = s.aceiobuflen ∧ t.aceiobuftop = s.aceiobuftop := by
  cases he with
  | reset hi => exact hi.elim (absurd · hreset) (absurd · hclear)
  | applied n cc q src dst r _ _ hs => exact State.applyStep_buffer hs q src dst r
  | trap | range | releasedTrap | code | released | loaded | cloned | restricted | nop => exact ⟨rfl, rfl⟩
  | invalidTrap | exported | sized | errorRead | input | output => simp
  | invalid => simp [State.invalidateWith]

/-- Settles O12: by the ends of an instruction. -/
theorem hostStateKept : Obligations.HostStateKept := by
  intro i s t h
  have he := exec_ends h
  have hview := (s.hostView_eq_iff t).1 he.hostView_eq
  simpa only [and_assoc] using And.intro hview he.buffer_kept

/-! ### The ends in an exception (60_exceptions.md R532, R533, R540) -/

@[simp] theorem State.applyStep_trap (s : State) (n : Fin 32) (cc : Context) (q : BitVec 2) (src dst : Operand)
    (r : Step) : (s.applyStep n cc q src dst r).trap = s.trap := by
  unfold State.applyStep
  split <;> simp [State.commit, State.invalidateWith]

/-- Four ends raise an exception: one that changes nothing, a CR number out of range, and those after the release or the
invalidation of a CR. All others leave no exception where there was none. -/
theorem Ends.exception (he : Ends i s t) {e : Trap} (hs : s.trap = none) (ht : t.trap = some e) :
    e.pc = s.pc ∧ t = { s with cr := t.cr, aceerror := t.aceerror, trap := some e } ∧
      (t.aceerror = s.aceerror ∨ t.aceerror = 2 ∧ e.cause = .illegalInstruction) := by
  have completed {p : Prop} (h : t.trap = s.trap) : p := by rw [h, hs] at ht; cases ht
  cases he with
  | trap c v => cases ht; exact ⟨rfl, rfl, .inl rfl⟩
  | range w => cases ht; exact ⟨rfl, rfl, .inr ⟨rfl, rfl⟩⟩
  | releasedTrap n c v => cases ht; exact ⟨rfl, rfl, .inl rfl⟩
  | invalidTrap n w =>
    rw [s.invalidate_eq] at ht ⊢
    cases ht
    exact ⟨rfl, rfl, .inl rfl⟩
  | code | released | loaded | cloned | restricted | reset | nop => exact completed rfl
  | exported | sized | errorRead | applied | input | output => exact completed (by simp)
  | invalid => exact completed (by simp [State.invalidateWith])

/-- Settles O17: by the ends of an instruction. -/
theorem exceptionKeepsState : Obligations.ExceptionKeepsState :=
  fun _ _ _ _ hs h ht => (exec_ends h).exception hs ht

end Sys2Proof.Machine

/-! PROOF. Memory accesses that fault (60_exceptions.md R533). -/
namespace Sys2Proof.Machine

variable {s : State} {ind : Bool} {field base x xl : Reg} {off : Imm12} {n : Fin 32} {w : InstrWord} {ea addr : Nat}
  {c : Cause}

/-! ### One access -/

/-- The end of an instruction in an access whose first fault is `c` at `addr` (60_exceptions.md R533). -/
def State.fault (s : State) (c : Cause) (addr : Nat) : State := s.raise c (BitVec.ofNat 64 addr)

theorem State.load_fault {a k : Nat} (h : s.firstFault false a k = some (c, addr)) :
    s.load a k = .error (s.fault c addr) := by
  rw [State.load, h, State.fault]

theorem State.store_fault {a : Nat} {bs : List Byte} (h : s.firstFault true a bs.length = some (c, addr)) :
    s.store a bs = .error (s.fault c addr) := by
  rw [State.store, h, State.fault]

/-- A load of an instruction that has released its CR. -/
theorem State.load_release_fault {a k : Nat} (h : s.firstFault false a k = some (c, addr)) (n : Fin 32) :
    (s.release n).load a k = .error ((s.release n).fault c addr) :=
  State.load_fault ((State.firstFault_congr (s := s) (t := s.release n) rfl rfl false a k).trans h)

/-- The first fault of an access is that of its first part, or else that of its second. -/
theorem State.firstFault_add (s : State) (store : Bool) (a k l : Nat) :
    s.firstFault store a (k + l) = (s.firstFault store a k).or (s.firstFault store (a + k) l) := by
  induction k generalizing a with
  | zero => rw [Nat.zero_add]; rfl
  | succ k ih =>
    have hsucc : k + 1 + l = k + l + 1 := by omega
    have hnext : a + (k + 1) = a + 1 + k := by omega
    rw [hsucc, hnext]
    simp only [State.firstFault]
    split
    · rfl
    · exact ih (a + 1)

/-! ### Transfers (42_exec_state_io.md R264, R265, R267) -/

/-- The window of the buffer is inside the buffer (10_state.md R59). -/
theorem State.bufBytes_length_of_hasRoom {len : Nat} (hbuf : s.BufferInv) (hroom : s.HasRoom len) :
    (s.bufBytes s.acestart.toNat (s.acestart.toNat + len)).length = len := by
  obtain ⟨hbuflen, htop, -⟩ := hbuf
  obtain ⟨-, hle, hfits⟩ := hroom
  exact State.bufBytes_length (by omega)

section
variable {len : Nat} (hea : ea = (s.effAddr x off).toNat) (hlen : len = (s.readX xl).toNat) (h0 : len ≠ 0)
  (hroom : s.HasRoom len)
include hea hlen h0 hroom

theorem exec_input_fault
    (hallowed : s.TransferAllowed fun cc => s.acesequence = 0 ∧ inputExpected s.cfg s.env cc = true)
    (hf : s.firstFault false ea len = some (c, addr)) : exec (.input off x xl) s = .next (s.fault c addr) := by
  rw [exec_input (s.readX_ne_zero hlen h0), ← hlen, State.aceInput, ← hea,
    bind_eq_of_ok (State.checkBound_input hallowed _), bind_eq_of_ok ((s.checkTransfer_ok_iff len).2 hroom),
    State.load_fault hf, bind_error, finish_error]

theorem exec_output_fault (hbuf : s.BufferInv)
    (hallowed : s.TransferAllowed fun _ => s.acesequence = 1 ∨ s.acesequence = 2)
    (hf : s.firstFault true ea len = some (c, addr)) : exec (.output off x xl) s = .next (s.fault c addr) := by
  rw [exec_output (s.readX_ne_zero hlen h0), ← hlen, State.aceOutput, ← hea,
    bind_eq_of_ok (State.checkBound_output hallowed _), bind_eq_of_ok ((s.checkTransfer_ok_iff len).2 hroom),
    State.store_fault (by rwa [State.bufBytes_length_of_hasRoom hbuf hroom]), bind_error, finish_error]

end

/-! ### Instructions on a context in memory (41_cr_management.md R197, R205, R209) -/

section
variable {mh : BitVec 64} {e : AlgEntry} (hn : s.Names ind field n) (hu : s.Unbound n)
  (hea : ea = (s.effAddr base off).toNat) (hal : ea % 8 = 0)
include hn hu hea hal

theorem State.prov_fault (hmh : mh = BitVec.ofNat 64 (leNat (s.readBytes ea 8)))
    (hf : s.firstFault false ea 8 = some (c, addr) ∨
      (s.Accessible false ea 8 ∧ s.Accepts n true mh e ∧
        s.firstFault false (ea + 8) (piContentSize e.algDef (mhKeyType mh)) = some (c, addr))) :
    s.prov w ind field off base = .error ((s.release n).fault c addr) := by
  subst hea hmh
  rw [State.prov, State.nameCR_bind hn hu]
  dsimp only
  rw [State.checkAligned_bind hal, State.provLoad]
  obtain hhead | ⟨hhead, haccept, hrest⟩ := hf
  · rw [State.load_release_fault hhead, bind_error]
  · rw [State.load_release_bind hhead]
    dsimp only
    rw [bind_eq_of_ok (State.checkMetadata_of_accepts haccept), State.load_release_fault hrest, bind_error]

/-- The SIV and the sealed content are two loads, of bytes that follow each other. -/
theorem State.importCR_fault (hmh : mh = BitVec.ofNat 64 (leNat (s.readBytes ea 8)))
    (hf : s.firstFault false ea 8 = some (c, addr) ∨
      (s.Accessible false ea 8 ∧ s.Accepts n false mh e ∧
        s.firstFault false (ea + 8) (16 + contentSize e.algDef mh) = some (c, addr))) :
    s.importCR w ind field off base = .error ((s.release n).fault c addr) := by
  subst hea hmh
  rw [State.importCR_of_named hn hu hal, State.importLoad]
  obtain hhead | ⟨hhead, haccept, hrest⟩ := hf
  · rw [State.load_release_fault hhead, bind_error]
  · rw [State.load_release_bind hhead]
    dsimp only
    rw [bind_eq_of_ok (State.checkMetadata_of_accepts haccept)]
    rw [State.firstFault_add, Option.or_eq_some_iff] at hrest
    obtain hsiv | ⟨hsiv, hcontent⟩ := hrest
    · rw [State.load_release_fault hsiv, bind_error]
    · rw [State.load_release_bind hsiv, State.load_release_fault hcontent, bind_error]

theorem State.importS_fault (hS : s.cfg.hasSystemImport = true)
    (hf : s.firstFault false ea (Config.systemImport s.mem (s.effAddr base off)).1 = some (c, addr)) :
    s.importS w ind field off base = .error ((s.release n).fault c addr) := by
  subst hea
  rw [State.importS_of_named hS hn hu hal, State.systemLoad, State.release_mem, State.load_release_fault hf, bind_error]

theorem State.exportCR_fault {cc : Context} (hc : s.getCR n = .configured cc) (hi : cc.incomplete = false)
    (he : algEntry s.cfg cc.mh = some e)
    (hf : s.firstFault true ea (s.sealContext e.algDef cc).length = some (c, addr)) :
    s.exportCR w ind field off base = .error (s.fault c addr) := by
  subst hea
  simp only [State.exportCR, State.nameCR_bind hn hu, bind_eq_of_ok (State.source_of_complete hc hi),
    State.checkAligned_bind hal, he, State.store_fault hf, bind_error]

end

/-- Settles O48: the checks before the access pass, and the access ends the instruction with its first fault; the three
loading instructions have released their CR before. -/
theorem memoryFaults : Obligations.MemoryFaults := by
  refine ⟨fun s off x xl ea len addr c hea hlen h0 hroom => ⟨?input, ?output⟩, ?_⟩
  case input => exact exec_input_fault hea hlen h0 hroom
  case output => exact exec_output_fault hea hlen h0 hroom
  intro s t ind field n off base ea addr mh e c hn hu hea hal hmh ht
  subst ht
  refine ⟨fun hf => ?prov, fun hf => ?imported, fun hS hf => ?importedS, fun cc hc hi he hf => ?exported⟩
  case prov => rw [exec_prov, State.prov_fault hn hu hea hal hmh hf]; rfl
  case imported => rw [exec_import, State.importCR_fault hn hu hea hal hmh hf]; rfl
  case importedS => rw [exec_importS, State.importS_fault hn hu hea hal hS hf]; rfl
  case exported => rw [exec_export, State.exportCR_fault hn hu hea hal hc hi he hf]; rfl

end Sys2Proof.Machine

/-! PROOF. A step on a word that is an ACE instruction (70_reset_and_hazards.md R595). -/
namespace Sys2Proof.Machine

variable {s : State} {i : Instr}

/-- With no pending exception, what the word at an aligned `pc` decodes to runs, whatever events are still queued
(log 8). -/
theorem runNext_eq_execDecoded (ht : s.trap = none) (hpc : s.pc.toNat % 4 = 0) :
    runNext s = execDecoded s.fetched s := by
  have haligned : s.pcAligned = true := decide_eq_true hpc
  rw [runNext, ht]
  exact if_pos haligned

theorem runNext_of_ace (ht : s.trap = none) (hpc : s.pc.toNat % 4 = 0) (hf : s.fetched = .ace i) :
    runNext s = exec i s := by
  rw [runNext_eq_execDecoded ht hpc, hf, execDecoded]

/-- Settles O5: the state after the events is the one whose word is fetched, and `exec` runs on it unchanged. -/
theorem stepRunsDecoded : Obligations.StepRunsDecoded := by
  intro s u i hu ht hpc hf
  subst hu
  have hfetched : s.applyEvents.fetched = .ace i := hf
  exact ⟨runNext_of_ace ht hpc hfetched, State.applyEvents_of_nil⟩

end Sys2Proof.Machine
